-- ==== Sys2Proof/Word.lean ====
section
/-! DEFINITION. The three things of the DQ460 that the manual treats as bits: a byte of a payload, the 29-bit
identifier of a frame, and a compartment set (R203). Everything else is a number, a name or a list. -/

namespace Sys2Proof

/-- One byte of a frame payload, of a streamed ticket record or of the printer line. -/
abbrev Byte := BitVec 8

/-- The 29-bit identifier of a frame (12.1). -/
abbrev Ident := BitVec 29

/-- A compartment set: one byte in which bit 0 stands for compartment 1 and bit 7 for compartment 8 (R203). -/
abbrev CompSet := BitVec 8

end Sys2Proof
end

