-- ==== Sys2Proof/Syntax.lean ====
section
/-! DEFINITION. The commands of the DQ460: one constructor of `Instr` for each row of spec/opcode_table.json, with
the operands that the outside world gives it. The rows carry no bits and no fields. What a row needs from outside
(a level, a reading, a frame) is its operand; what the part takes from its own queues is not. -/

namespace Sys2Proof

/-- A frame of the truck line as it stands on the wire: the identifier and a payload of 0 to 8 bytes (5.1). -/
structure Frame where
  id : Ident
  data : List Byte
  deriving DecidableEq, Repr, Inhabited

/-- The converter status of a probe reading (R25). -/
inductive ConverterStatus
  | normal
  | openCircuit
  | shorted
  deriving DecidableEq, Repr, Inhabited

/-- One reading of the probe converter: its status and its value in hundredths of a degree Celsius (R25). -/
structure ProbeReading where
  status : ConverterStatus
  value : Int
  deriving DecidableEq, Repr, Inhabited

/-- The configuration image: the values of items 1 to 95 in order, and whether the check word agrees with the sum of
the image's bytes (R196). The byte widths of the items are not in the manual, so the check word is held by what it
shows: whether it agrees. -/
structure Image where
  items : List Nat
  sumGood : Bool
  deriving DecidableEq, Repr, Inhabited

/-- What the reading of the configuration memory returned (R196). -/
inductive ImageRead
  /-- the memory did not answer or did not return the whole image -/
  | silent
  /-- the memory returned the image that the part last read or wrote there -/
  | asHeld
  /-- the memory returned an image that was put into it from outside the part since -/
  | programmed (image : Image)
  deriving DecidableEq, Repr, Inhabited

/-- The steps of the DQ460, in the order of spec/opcode_table.json. -/
inductive Instr
  /-- POWER_UP: the station number straps and the seal input (true: open) as they stand at the start of STARTING -/
  | powerUp (straps : BitVec 4) (sealOpen : Bool)
  /-- RESET_PIN: as POWER_UP -/
  | resetPin (straps : BitVec 4) (sealOpen : Bool)
  | configImageRead (read : ImageRead)
  | powerFail
  /-- EMERGENCY_STOP_CHANGE: the level the input has come to (true: ACTIVE) -/
  | emergencyStopChange (active : Bool)
  | haltRepeat
  | holdToRunPress
  | airDetectorChange (active : Bool)
  | reelStowedChange (active : Bool)
  /-- PULSER_TRANSITION: the filtered levels of channels A and B that the filters deliver -/
  | pulserTransition (a b : Bool)
  | probeReading (reading : ProbeReading)
  /-- METERING_UPDATE: the probe reading completed for this update alone (R25) -/
  | meteringUpdate (reading : ProbeReading)
  | conversionTimer
  | primeTimerExpiry
  | deadmanExpiry
  | airTimerExpiry
  | noFlowExpiry
  | flowStop
  | closingLimit
  | dwellTimerExpiry
  | runOnExpiry
  | haltHeardExpiry
  | statusPeriod
  | portRestart
  | quietListenExpiry
  /-- PEER_SILENCE: the station number of the peer that has fallen silent -/
  | peerSilence (station : Nat)
  | consentTimerExpiry
  | rebuildTimerExpiry
  | leadQuietExpiry
  | trimTimerExpiry
  | followerFlowStop
  | followerClosingLimit
  | finalReportRepeat
  | finalReportLimit
  | blendWaitExpiry
  | clockSecond
  | stallTimerExpiry
  | trailerTimerExpiry
  /-- CTS_CHANGE: the level of the clear-to-send input (true: active) -/
  | ctsChange (active : Bool)
  /-- PRINTER_CHARACTER_RECEIVED: the character, and whether it came with a framing error -/
  | printerCharacterReceived (character : Byte) (framingError : Bool)
  | characterShifted
  /-- FRAME_ARRIVAL: the frame that completed on the wire -/
  | frameArrival (frame : Frame)
  | takeHalt
  | takeClaim
  | takeConsent
  | takeRelease
  | takeProgLeadReport
  | takeProgFollowerReport
  | takeProgFinalPart
  | takeStatPage0
  | takeStatPage1
  | takeStatPage2
  | takeAnswer
  | takeTkt
  | takeClock
  | takeCompletionNotice
  | transmitStart
  | arbitrationLost
  | frameSent
  /-- TRANSMIT_FAILURE: whether the failure is a lack of acknowledgement (R99) -/
  | transmitFailure (noAck : Bool)
  | journalWriteComplete
  /-- CONFIG_WRITE_COMPLETE: whether the memory completed the sequence (R201) -/
  | configWriteComplete (completed : Bool)
  | openDrop
  | select
  | start
  | pause
  | resume
  | endDraw
  | closeDrop
  | setPreset
  | setCompartment
  | resumeHalt
  | clearFaults
  | fetchTicket
  | ackTicket
  | print
  | readTotals
  | writeConfig
  | askUnknownCode
  | holdToRunRelease
  | powerFailInputInactive
  deriving DecidableEq, Repr

end Sys2Proof
end

