-- ==== Sys2Proof/Config.lean ====
section
/-! DEFINITION. What is fixed for a run: the configuration in use (chapter 11 and the item tables that open the other
chapters), the fixed times of the manual, and the free values of the manual as constants without a body. -/

namespace Sys2Proof

/-- Kind of a DQ460 station (chapter 0, Terms). -/
inductive StationKind
  | hose
  | injector
  deriving DecidableEq, Repr, Inhabited

/-- Count mode of the decoder (R3, R4). -/
inductive CountMode
  | x1
  | x4
  deriving DecidableEq, Repr, Inhabited

/-- Manifold of the truck. -/
inductive Manifold
  | a
  | b
  deriving DecidableEq, Repr, Inhabited

/-- Halt recovery (4.1). -/
inductive HaltRecovery
  | latched
  | selfClearing
  deriving DecidableEq, Repr, Inhabited

/-- Flow control of the printer line (10.1). -/
inductive FlowControl
  | none
  | xonXoff
  | cts
  deriving DecidableEq, Repr, Inhabited

/-- An entry of the product table (2.1). -/
structure Product where
  code : Nat
  compensated : Bool
  alpha : Nat
  beta : Nat
  name : List Byte
  deriving DecidableEq, Repr, Inhabited

/-- An owned compartment output (4.1): output 1 to 4, the compartment wired to it and its manifold. -/
structure OwnedOutput where
  output : Nat
  comp : Nat
  manifold : Manifold
  deriving DecidableEq, Repr, Inhabited

/-- The configuration in use, as read from the image at start (11.2). -/
structure Cfg where
  kind : StationKind
  countMode : CountMode
  filterTime : Nat
  kn : Nat
  phaseLimit : Nat
  loneLimit : Nat
  /-- the linearization points in use, (F_i, MF_i) -/
  points : List (Nat × Nat)
  products : List Product
  slowdown : Nat
  aMax : Nat
  initialCloseAhead : Nat
  primeTime : Nat
  startSlow : Nat
  deadman : Nat
  noFlow : Nat
  fmax : Nat
  reverseLimit : Nat
  hoseVolume : Nat
  dwell : Nat
  haltRecovery : HaltRecovery
  runOn : Nat
  outputs : List OwnedOutput
  pump : Option Manifold
  blendWindow : Nat
  baud : Nat
  flowControl : FlowControl
  autoPrint : Bool
  deriving DecidableEq, Repr, Inhabited

namespace Config

/-! ### Fixed numbers of the manual -/

/-- Metering update period and probe period, ms (R20, R25). -/
abbrev updatePeriod : Nat := 100
/-- Conversion timer, ms (R16). -/
abbrev conversionPeriod : Nat := 1000
/-- Status period, ms (R100); also the HALT period (R84). -/
abbrev statusPeriod : Nat := 250
/-- Silence of a peer, ms (R103). -/
abbrev silenceTime : Nat := 1000
/-- Halt-heard timer, ms (R85). -/
abbrev haltHeardTime : Nat := 1000
/-- Port restart timer, ms (R104). -/
abbrev restartTime : Nat := 1000
/-- Quiet-listen timer, ms (R198). -/
abbrev quietListenTime : Nat := 1000
/-- Consent timer, ms (R113). -/
abbrev consentTime : Nat := 1000
/-- View rebuild timer, ms (R130). -/
abbrev rebuildTime : Nat := 1000
/-- Lead progress quiet time, ms (R139). -/
abbrev leadQuietTime : Nat := 1000
/-- Air limit, ms (R59). -/
abbrev airLimit : Nat := 5000
/-- Overspeed limit, ms (R61). -/
abbrev overspeedLimit : Nat := 5000
/-- Flow-stop time, ms (R66, R149). -/
abbrev flowStopTime : Nat := 500
/-- Closing limit, ms (R66, R149). -/
abbrev closingLimitTime : Nat := 10000
/-- Trim limit, ms (R148). -/
abbrev trimTime : Nat := 30000
/-- Blend wait, and the life of a held final report, ms (R152, R151). -/
abbrev blendWaitTime : Nat := 45000
/-- Final report repeat period, ms (R151). -/
abbrev reportRepeatTime : Nat := 250
/-- Temperature hold limit, ms (R26). -/
abbrev tempHoldLimit : Nat := 60000
/-- Stall limit and abort trailer limit, ms (10.1). -/
abbrev stallTime : Nat := 20000
/-- Entries of the transmit queue (R95). -/
abbrev txRoom : Nat := 8
/-- Frames of the receive queue (R93). -/
abbrev rxRoom : Nat := 32
/-- Characters of the printer FIFO (R188). -/
abbrev fifoRoom : Nat := 64
/-- Jobs of the print queue (R186). -/
abbrev printRoom : Nat := 4
/-- Ticket records of the journal (R174). -/
abbrev ticketRoom : Nat := 200
/-- Highest ticket number (R170). -/
abbrev lastTicket : Nat := 99999999
/-- The code that the hose record shows as MIXED (R170). -/
abbrev mixedCode : Nat := 15

/-! ### Free values: the manual leaves them open, so they have no body -/

/-- Which of the orders that the manual leaves open is taken, for the n-th such choice (log 4). -/
opaque orderChoice : Nat → Nat

/-- The reading that the probe converter presents at a station time, where the part's own clock starts the reading
(log 1). -/
opaque probeInput : Nat → ProbeReading

/-- What a signed 64-bit quantity holds after a sum that its range cannot hold (log 10). -/
opaque beyond64 : Int → BitVec 64

/-- What the two bytes of an achieved share hold when the share lies outside what they can carry (log 13). -/
opaque shareOutside : Int → Nat

/-- Whether a journal write in flight at an unannounced loss of supply or at the RESET pin is found whole, for the
n-th such choice (log 11). -/
opaque writeFoundWhole : Nat → Bool

/-- How far a calibration write sequence that was not completed had come, for the n-th such choice: whether the item's
value stands in the memory, and, where it does, whether the edit count that is written after it does (log 12). -/
opaque cutWriteReach : Nat → Bool × Bool

end Config

end Sys2Proof
end

