-- ==== Sys2Proof/Machine/State.lean ====
section
/-! DEFINITION. The state of the DQ460 as plain data, one structure for each block of the block diagram (chapter 0),
the reasons a step can stop, and the state after reset. Times are station times in milliseconds (R106). A timer that
runs is held as the station time at which it expires. -/

namespace Sys2Proof.Machine

/-! ### Names -/

/-- Station states (11.3). -/
inductive StationState
  | starting
  | listening
  | running
  | lineLost
  | configFault
  | powerDown
  deriving DecidableEq, Repr, Inhabited

/-- Configuration fault codes (R195, R196). -/
inductive FaultCode
  | strapsZero
  | memorySilent
  | sumBad
  | itemRange
  | tableOrder
  | duplicate
  deriving DecidableEq, Repr, Inhabited

/-- The owner of a metering session or context (R8, R19). -/
inductive Owner
  | draw
  | blend
  deriving DecidableEq, Repr, Inhabited

/-- Stage points (R10). -/
inductive Point
  | slowdown
  | close
  deriving DecidableEq, Repr, Inhabited

/-- Probe status (R25). -/
inductive ProbeStatus
  | none
  | good
  | fault
  deriving DecidableEq, Repr, Inhabited

/-- Draw states (3.3). -/
inductive DrawState
  | idle
  | dropOpen
  | ready
  | claiming
  | priming
  | flowing
  | suspended
  | closing
  deriving DecidableEq, Repr, Inhabited

/-- Endings of a draw item (R68, R182). -/
inductive Ending
  | presetReached
  | endedByRequest
  | reverseFlow
  | pulseFault
  | claimRevoked
  | powerFail
  deriving DecidableEq, Repr, Inhabited

/-- Meter-valve stages (R75). -/
inductive Stage
  | closed
  | slow
  | fast
  | stepDown
  deriving DecidableEq, Repr, Inhabited

/-- Stages that can be requested, and destinations of STEP_DOWN (R75, R76). -/
inductive StageReq
  | closed
  | slow
  | fast
  deriving DecidableEq, Repr, Inhabited

/-- Halt states (R83). -/
inductive HaltState
  | clear
  | halted
  | latched
  deriving DecidableEq, Repr, Inhabited

/-- The condition members of a suspend-cause set (R52). -/
inductive Cond
  | halt
  | air
  | tempFault
  | ownerSilent
  | partnerSilent
  | lineLost
  deriving DecidableEq, Repr, Inhabited

/-- The latched reasons of a suspend-cause set (R52). -/
inductive Latch
  | pause
  | deadman
  | noFlow
  | blendLag
  | overspeed
  deriving DecidableEq, Repr, Inhabited

/-- A condition's place in the set: absent, or a member flagged ACTIVE or CLEARED (R52). -/
inductive CondFlag
  | absent
  | active
  | cleared
  deriving DecidableEq, Repr, Inhabited

/-- Follower states (7.4). -/
inductive FollowerState
  | unbound
  | bound
  | fPrime
  | fRun
  | fHold
  | fTrim
  | fClose
  deriving DecidableEq, Repr, Inhabited

/-- Follower end codes (R149). -/
inductive EndCode
  | trimmed
  | trimLimit
  | leadLost
  | pulseFault
  deriving DecidableEq, Repr, Inhabited

/-- Resources of a claim (R109). -/
inductive Resource
  | comp (number : Nat)
  | pump (manifold : Manifold)
  | partner
  deriving DecidableEq, Repr, Inhabited

/-- Reasons of a REFUSED verdict (12.3). -/
inductive Reason
  | conflict
  | productMismatch
  | halted
  | viewRebuild
  | partnerEnded
  | busy
  deriving DecidableEq, Repr, Inhabited

/-- Result codes, in the order of the table of 8.3 (12.3). -/
inductive Result
  | ok
  | clamped
  | busy
  | notOwner
  | invalid
  | dropFull
  | journalFull
  | noOwner
  | productMismatch
  | partnerUnavailable
  | claimLost
  | consentRefused
  | consentTimeout
  | cancelled
  | viewRebuild
  | tempFault
  | pulseFault
  | hoseStowed
  | halted
  | sealed
  | unknownTicket
  | alreadyQueued
  | queueFull
  | configFault
  deriving DecidableEq, Repr, Inhabited

/-- Phases of the own claim (R113). -/
inductive Phase
  | queued
  | inForce
  | consented
  deriving DecidableEq, Repr, Inhabited

/-- Status of a resource of the own claim (R113). -/
inductive ResStatus
  | awaited
  | granted
  | lost
  deriving DecidableEq, Repr, Inhabited

/-- Record states of a ticket record (R173). -/
inductive RecordState
  | opened
  | closed
  | collected
  deriving DecidableEq, Repr, Inhabited

/-- Status of a closed ticket record (R171). -/
inductive TicketStatus
  | complete
  | interrupted
  deriving DecidableEq, Repr, Inhabited

/-- Items of READ_TOTALS (R166). -/
inductive TotalsItem
  | gross
  | net
  | unticketed
  | closeAhead
  | calibrationEvents
  | ticketSequence
  deriving DecidableEq, Repr, Inhabited

/-! ### Local lines -/

/-- The levels that stand at the pins (R73). The model keeps them so that a block which begins to look at a pin takes
the level then present. -/
structure Pins where
  emergencyStop : Bool
  powerFail : Bool
  holdToRun : Bool
  air : Bool
  reelStowed : Bool
  cts : Bool
  pulserA : Bool
  pulserB : Bool
  deriving DecidableEq, Repr, Inhabited

/-- The conditioned levels of the inputs (R73); true is ACTIVE. -/
structure Inputs where
  emergencyStop : Bool
  holdToRun : Bool
  air : Bool
  reelStowed : Bool
  deriving DecidableEq, Repr, Inhabited

/-! ### Configuration loader (chapter 11) -/

/-- The configuration loader and the station state. -/
structure Station where
  state : StationState
  /-- the station number of the run, from the straps (R195) -/
  number : Nat
  /-- calibration mode (R195) -/
  calibration : Bool
  faultCode : Option FaultCode
  faultItem : Nat
  /-- quiet-listen timer (R198) -/
  quietDue : Option Nat
  /-- the image in the configuration memory (R196) -/
  image : Image
  /-- a calibration write sequence in progress: item and value (R201) -/
  cfgWrite : Option (Nat × Nat)
  deriving DecidableEq, Repr, Inhabited

/-! ### Pulse counter (chapter 1) -/

/-- The target of the comparator (R10). -/
structure Target where
  count : Int
  kind : Point
  deriving DecidableEq, Repr, Inhabited

/-- The pulse counter. -/
structure Pulse where
  /-- filtered levels of channels A and B (R1) -/
  filteredA : Bool
  filteredB : Bool
  /-- decoder state (R2) -/
  decoderA : Bool
  decoderB : Bool
  /-- running count (R7) -/
  running : Int
  /-- per-update count (R7) -/
  perUpdate : Int
  /-- time of the latest count (R9) -/
  latestCount : Nat
  /-- comparator; none is disarmed (R10) -/
  target : Option Target
  /-- metering session and the block that opened it (R8); the window and the lone-edge counters are armed while one is
  open -/
  session : Option Owner
  /-- phase errors of the current window (R12) -/
  windowErrors : Nat
  /-- forward counts of the current window (R12) -/
  windowForward : Nat
  loneA : Nat
  loneB : Nat
  /-- PULSE_FAULT latch (R14) -/
  faultLatch : Bool
  /-- unticketed count U (R16) -/
  unticketed : Int
  /-- remainder Unum (R16) -/
  unticketedRem : Int
  /-- conversion timer (R16) -/
  conversionDue : Option Nat
  deriving DecidableEq, Repr, Inhabited

/-! ### Volume engine (chapter 2) -/

/-- The product entry of a context (R19). -/
structure ProductEntry where
  code : Nat
  compensated : Bool
  alpha : Nat
  beta : Nat
  deriving DecidableEq, Repr, Inhabited

/-- The metering context (R19). -/
structure Context where
  owner : Option Owner
  product : Option ProductEntry
  /-- preset P, ml -/
  preset : Option Int
  /-- blend share of the draw, from which the lead target is formed (R143) -/
  share : Option Nat
  /-- pending preset: a change whose value is a preset in ml or no preset -/
  pending : Option (Option Int)
  slowdown : Int
  closeAhead : Int
  nextPoint : Point
  /-- rate window, oldest first -/
  window : List Int
  rate : Nat
  mf : Int
  gross : Int
  grossRem : Int
  reverse : Int
  /-- T in use -/
  temp : Int
  held : Bool
  expiry : Bool
  vcf : Int
  net : Int
  netRem : Int
  /-- gross-weighted temperature sum -/
  sumGT : Int
  /-- forward gross -/
  sumG : Int
  deriving DecidableEq, Repr, Inhabited

/-- The volume engine. -/
structure Engine where
  ctx : Context
  /-- time of the next regular metering update (R20) -/
  updateDue : Option Nat
  probe : ProbeStatus
  lastGood : Option Int
  holdStart : Option Nat
  /-- time of the next probe reading outside a session (R25) -/
  probeDue : Option Nat
  deriving DecidableEq, Repr, Inhabited

/-! ### Records of the journal that other blocks read (chapter 9) -/

/-- What stands in the hose (R170). -/
inductive Hose
  | unknown
  | product (code : Nat)
  | blend (product component share : Nat)
  | mixed
  deriving DecidableEq, Repr, Inhabited

/-- Exception set of a draw item (R172). -/
structure Exceptions where
  tempHeld : Bool
  airSeen : Bool
  overspeedSeen : Bool
  valveNotClosed : Bool
  reverseSeen : Bool
  deriving DecidableEq, Repr, Inhabited

/-- A suspend-cause set (R52). -/
structure Causes where
  halt : CondFlag
  air : CondFlag
  tempFault : CondFlag
  ownerSilent : CondFlag
  partnerSilent : CondFlag
  lineLost : CondFlag
  pause : Bool
  deadman : Bool
  noFlow : Bool
  blendLag : Bool
  overspeed : Bool
  deriving DecidableEq, Repr, Inhabited

/-- Intermix part (R71). -/
structure Intermix where
  hose : Hose
  ml : Int
  deriving DecidableEq, Repr, Inhabited

/-- Blend part (R153). -/
structure BlendPart where
  component : Nat
  follower : Nat
  gross : Option Int
  net : Int
  temp : Option Int
  targetShare : Nat
  achievedShare : Int
  incomplete : Bool
  deriving DecidableEq, Repr, Inhabited

/-- What an item in progress holds besides the fields of a completed item (R172). -/
structure Progress where
  drawState : DrawState
  causes : Causes
  stageAtClose : Option Stage
  hoseAtStart : Hose
  hoseDiffers : Bool
  hoseFilled : Bool
  heldMark : Bool
  deriving DecidableEq, Repr, Inhabited

/-- A draw item (R68, R172). -/
structure DrawItem where
  product : Nat
  comps : CompSet
  /-- preset in whole litres -/
  preset : Option Int
  gross : Int
  net : Int
  avgTemp : Option Int
  vcf : Int
  ending : Option Ending
  exceptions : Exceptions
  intermix : Option Intermix
  blend : Option BlendPart
  /-- in-progress mark and the fields that go with it -/
  progress : Option Progress
  /-- net totalizer before and after -/
  netTotals : Option (Int × Int)
  /-- gross totalizer before and after -/
  grossTotals : Option (Int × Int)
  deriving DecidableEq, Repr, Inhabited

/-- A ticket record (R171). -/
structure Ticket where
  number : Nat
  station : Nat
  account : Nat
  tank : Nat
  opener : Nat
  openTime : Option Nat
  closeTime : Option Nat
  timeNotSet : Bool
  calibration : Bool
  status : Option TicketStatus
  printCount : Nat
  carriedIn : Option Int
  items : List DrawItem
  state : RecordState
  deriving DecidableEq, Repr, Inhabited

/-- The follower part of the station record (R170). -/
structure FollowerPart where
  product : Nat
  gross : Int
  net : Int
  deriving DecidableEq, Repr, Inhabited

/-- The station record (R170). The totalizers stand in two lists, code 1 first. -/
structure StationRecord where
  sequence : Nat
  grossTotals : List Int
  netTotals : List Int
  closeAhead : Int
  hose : Hose
  unticketed : Int
  calibrationEvents : Nat
  lastEditCount : Nat
  followerPart : Option FollowerPart
  deriving DecidableEq, Repr, Inhabited

/-! ### Draw controller (chapter 3) -/

/-- The blend of a selection (R40). -/
structure BlendSel where
  share : Nat
  product : Nat
  comps : CompSet
  deriving DecidableEq, Repr, Inhabited

/-- A selection (R40). -/
structure Selection where
  product : Nat
  comps : CompSet
  preset : Option Nat
  blend : Option BlendSel
  deriving DecidableEq, Repr, Inhabited

/-- The final values of a metering session (R35). -/
structure FinalValues where
  gross : Int
  net : Int
  vcf : Int
  temp : Int
  held : Bool
  deriving DecidableEq, Repr, Inhabited

/-- The current draw record (R40), with the timers of the draw and of its supervisors. -/
structure Current where
  causes : Causes
  softBase : Int
  /-- soft start complete (R49) -/
  softDone : Bool
  stageAtClose : Option Stage
  ending : Option Ending
  exceptions : Exceptions
  hoseAtStart : Hose
  hoseDiffers : Bool
  hoseFilled : Bool
  /-- entry time of the present state -/
  enteredAt : Nat
  /-- the stage last requested of the valve driver (R48) -/
  lastRequest : StageReq
  primeDue : Option Nat
  deadmanDue : Option Nat
  airDue : Option Nat
  /-- overspeed force and start time (R61) -/
  overForce : Bool
  overStart : Option Nat
  /-- the preset in use at the entry into CLOSING, ml (R51) -/
  presetAtClose : Option Int
  /-- the final values, once the session is closed (R66) -/
  final : Option FinalValues
  deriving DecidableEq, Repr, Inhabited

/-- The drop context, but for its selection and its current draw (R40). -/
structure Drop where
  account : Nat
  tank : Nat
  opener : Nat
  ticket : Nat
  items : Nat
  deriving DecidableEq, Repr, Inhabited

/-- The draw controller: draw state and drop context. -/
structure DrawUnit where
  state : DrawState
  drop : Option Drop
  selection : Option Selection
  current : Option Current
  deriving DecidableEq, Repr, Inhabited

/-! ### Valve driver (chapter 4) -/

/-- The meter-valve stage record (R75): the stage, with a pending FAST in SLOW alone, a destination in STEP_DOWN alone,
and the dwell timer where it runs. -/
inductive ValveRec
  | closed
  | slow
  | slowPendingFast (dwellDue : Nat)
  | fast
  | stepDown (destination : StageReq) (dwellDue : Nat)
  deriving DecidableEq, Repr, Inhabited

/-- Pump states, with the run-on timer in RUN_ON (R81). -/
inductive PumpState
  | off
  | on
  | runOn (due : Nat)
  deriving DecidableEq, Repr, Inhabited

/-- The valve driver. -/
structure Valve where
  stage : ValveRec
  /-- the command of each owned compartment output: bit c - 1 is ON for the output of compartment c (R80) -/
  compCommands : CompSet
  /-- pump command NEEDED (R81) -/
  pumpNeeded : Bool
  pump : PumpState
  halt : HaltState
  /-- halt-heard timer (R85) -/
  heardDue : Option Nat
  /-- time of the next HALT frame while the local source is active (R84) -/
  haltRepeatDue : Option Nat
  deriving DecidableEq, Repr, Inhabited

/-! ### Line port (chapter 5) -/

/-- The block that handed a frame to the line port; the journal's segments name their fetch. -/
inductive Sender
  | valve
  | claimUnit
  | blend
  | handler
  | port
  | journal (fetch : Nat)
  deriving DecidableEq, Repr, Inhabited

/-- An entry of the transmit queue (R95). -/
structure TxEntry where
  frame : Frame
  sender : Sender
  onWire : Bool
  deriving DecidableEq, Repr, Inhabited

/-- An entry of the receive queue: a frame with its arrival time, or the completion notice of an own frame (R93). -/
inductive RxEntry
  | frame (frame : Frame) (arrival : Nat)
  | notice (frame : Frame)
  deriving DecidableEq, Repr, Inhabited

/-- The line port and the station clock. -/
structure Port where
  tx : List TxEntry
  rx : List RxEntry
  /-- transmit error count (R99) -/
  errors : Nat
  /-- port restart timer; it runs while the controller is bus-off (R104) -/
  restartDue : Option Nat
  /-- status timer (R100) -/
  statusDue : Option Nat
  /-- station clock (R106) -/
  clock : Option Nat
  /-- the clock's next second -/
  clockDue : Option Nat
  deriving DecidableEq, Repr, Inhabited

/-! ### Peer view and claim unit (chapters 5 and 6) -/

/-- A claim id (R109). -/
structure ClaimId where
  station : Nat
  sequence : Nat
  deriving DecidableEq, Repr, Inhabited

/-- A line entry of a claim (R109). -/
structure LineEntry where
  product : Nat
  comps : CompSet
  deriving DecidableEq, Repr, Inhabited

/-- A claim (R109): the line entries of manifolds A and B, and the partner with the share. -/
structure Claim where
  id : ClaimId
  entryA : Option LineEntry
  entryB : Option LineEntry
  partner : Option (Nat × Nat)
  deriving DecidableEq, Repr, Inhabited

/-- A live claim of a view entry. -/
structure LiveClaim where
  claim : Claim
  /-- its rank among the claims the station knows (R112) -/
  rank : Nat
  /-- marked pending (R123) -/
  pending : Bool
  /-- the compartments that count as consented (R119) -/
  consented : CompSet
  /-- a pump verdict is pending (R119) -/
  pumpPending : Bool
  /-- the state code of the latest page 0 taken since the claim entered the view (R124) -/
  codeSince : Option Nat
  deriving DecidableEq, Repr, Inhabited

/-- An owned compartment as page 1 reports it (R102). -/
structure PeerComp where
  number : Nat
  manifold : Manifold
  opened : Bool
  product : Nat
  deriving DecidableEq, Repr, Inhabited

/-- What a STAT page 0 reports, as the codes of 12.2 and 12.3 carry it. -/
structure Page0 where
  stateCode : Nat
  kind : Nat
  stage : Nat
  halt : Nat
  pulseFault : Bool
  tempFault : Bool
  printerStalled : Bool
  pump : Nat
  net : Int
  rate : Nat
  causes : Nat
  faultCode : Nat
  faultItem : Nat
  deriving DecidableEq, Repr, Inhabited

/-- An entry of the peer view (R102, R125). -/
structure Peer where
  station : Nat
  lastHeard : Nat
  page : Page0
  comps : List PeerComp
  live : Option LiveClaim
  /-- sequence of the last ended claim (R125) -/
  lastEnded : Option Nat
  haltFlag : Bool
  deriving DecidableEq, Repr, Inhabited

/-- A resource of the own claim, its recorded owner and its status (R113). -/
structure OwnRes where
  resource : Resource
  owner : Nat
  status : ResStatus
  deriving DecidableEq, Repr, Inhabited

/-- The own claim (R113). -/
structure OwnClaim where
  claim : Claim
  phase : Phase
  resources : List OwnRes
  consentDue : Option Nat
  /-- its rank, once ranked (R112); none again after LINE_LOST (R129) -/
  rank : Option Nat
  pumpPending : Bool
  /-- kept through LINE_LOST and not yet judged for the own resources (R129) -/
  unjudged : Bool
  deriving DecidableEq, Repr, Inhabited

/-- The peer view and the claim unit. -/
structure ClaimUnit where
  view : List Peer
  own : Option OwnClaim
  /-- sequences of the abandoned claims (R115) -/
  abandoned : List Nat
  nextSequence : Nat
  /-- the rank that the next ranked claim takes; the model's own count -/
  nextRank : Nat
  /-- consent records: a resource of this station and a claim consented for it (R118) -/
  records : List (Resource × ClaimId)
  /-- products of owned compartments other than 0: compartment and product (R116) -/
  products : List (Nat × Nat)
  /-- view rebuild timer (R130) -/
  rebuildDue : Option Nat
  deriving DecidableEq, Repr, Inhabited

/-! ### Blend tracker (chapter 7) -/

/-- The latest lead report at a follower (R139). -/
structure LeadReport where
  net : Int
  stateCode : Nat
  final : Bool
  deriving DecidableEq, Repr, Inhabited

/-- The hold-reason set (R142). -/
structure Holds where
  leadHeld : Bool
  leadQuiet : Bool
  halt : Bool
  tempFault : Bool
  deriving DecidableEq, Repr, Inhabited

/-- The binding record (R136). -/
structure Binding where
  claim : ClaimId
  lead : Nat
  product : ProductEntry
  share : Nat
  report : Option LeadReport
  holds : Holds
  quietDue : Option Nat
  deriving DecidableEq, Repr, Inhabited

/-- A follower's final report (R149). -/
structure FinalReport where
  gross : Int
  net : Int
  temp : Option Int
  vcf : Int
  endCode : EndCode
  tempHeld : Bool
  valveNotClosed : Bool
  deriving DecidableEq, Repr, Inhabited

/-- The held final report with its repeat timer and its 45 s (R151); both stop in POWER_DOWN (R156). -/
structure HeldReport where
  claim : ClaimId
  lead : Nat
  report : FinalReport
  repeatDue : Option Nat
  /-- 45 s after it was first handed -/
  discardDue : Option Nat
  deriving DecidableEq, Repr, Inhabited

/-- PROG part 1 as held at the lead (R151). -/
structure FinalVolumes where
  gross : Int
  net : Int
  deriving DecidableEq, Repr, Inhabited

/-- PROG part 2 as held at the lead (R151). -/
structure FinalDetails where
  temp : Option Int
  vcf : Nat
  endCode : Nat
  tempHeld : Bool
  valveNotClosed : Bool
  deriving DecidableEq, Repr, Inhabited

/-- The lead's side of a blended draw. -/
structure Lead where
  /-- sequence of the blended claim, and the partner (R151) -/
  sequence : Nat
  partner : Nat
  /-- throttle mark (R146) -/
  throttle : Bool
  /-- latest follower report: net C and lag (R140) -/
  report : Option (Int × Int)
  /-- lag of the previous follower report of the same stretch of FLOWING (R147) -/
  lastLag : Option Int
  part1 : Option FinalVolumes
  part2 : Option FinalDetails
  /-- blend wait timer, and whether it has expired (R152) -/
  waitDue : Option Nat
  waitOver : Bool
  deriving DecidableEq, Repr, Inhabited

/-- The blend tracker. -/
structure Blend where
  follower : FollowerState
  binding : Option Binding
  /-- the lag of the latest update of the followed session (R144) -/
  lag : Int
  /-- the stage last requested (R145) -/
  lastRequest : StageReq
  trimDue : Option Nat
  /-- entry into F_CLOSE, the end code and the mark VALVE_NOT_CLOSED (R149) -/
  closeEnteredAt : Nat
  endCode : Option EndCode
  valveNotClosed : Bool
  /-- last ended lead claim (R137) -/
  lastEnded : Option ClaimId
  held : Option HeldReport
  lead : Option Lead
  deriving DecidableEq, Repr, Inhabited

/-! ### Request handler (chapter 8) -/

/-- A decoded request (8.1); presets are clamped at decoding, and `clamped` says so (R163). -/
inductive Request
  | openDrop (account tank : Nat)
  | select (selection : Selection) (clamped : Bool)
  | start
  | pause
  | resume
  | endDraw
  | closeDrop
  | setPreset (litres : Option Nat) (clamped : Bool)
  | setCompartment (comp product : Nat)
  | resumeHalt
  | clearFaults
  | fetchTicket (number : Nat)
  | ackTicket (number : Nat)
  | print (number : Nat)
  | readTotals (item : TotalsItem) (product : Nat)
  | writeConfig (item value : Nat)
  deriving DecidableEq, Repr, Inhabited

/-- The data of an answer (R161). -/
inductive AnswerData
  | none
  | ticket (number : Nat)
  | value (v : Int)
  | refusal (station : Nat) (reason : Nat)
  deriving DecidableEq, Repr, Inhabited

/-- An answer: result code and data (R161). -/
structure Answer where
  result : Result
  data : AnswerData
  deriving DecidableEq, Repr, Inhabited

/-- Who asked, and under which code and number (8.1). -/
structure Asker where
  station : Nat
  code : Nat
  number : Nat
  deriving DecidableEq, Repr, Inhabited

/-- A request in SERVING (R157). -/
structure Serving where
  asker : Asker
  request : Request
  deriving DecidableEq, Repr, Inhabited

/-- The phase of a repeat table entry; SETTLED holds the answer given, or none (R159). -/
inductive RepeatPhase
  | deferred
  | settled (answer : Option Answer)
  deriving DecidableEq, Repr, Inhabited

/-- An entry of the repeat table (R159). -/
structure RepeatEntry where
  asker : Asker
  phase : RepeatPhase
  deriving DecidableEq, Repr, Inhabited

/-- The request handler. -/
structure Handler where
  /-- the request in SERVING; none is IDLE (R157) -/
  serving : Option Serving
  /-- deferred answer of a START (R161) -/
  deferred : Option Asker
  table : List RepeatEntry
  deriving DecidableEq, Repr, Inhabited

/-! ### Journal (chapter 9) -/

/-- A pending work of the journal (R175), with the start writes of R181, R182 and R202. -/
inductive Work
  | openRecord (number account tank opener : Nat) (removed : Option Nat)
  | checkpoint (adds : Bool)
  | followerCheckpoint
  | handOver (item : DrawItem) (hose : Option Hose) (closeAhead : Option Int)
  | followerCompletion (product : Nat) (gross net : Int)
  | closeRecord (number : Nat)
  | collect (number : Nat)
  | printStep (number : Nat)
  | calibration
  | createStation
  | clampCloseAhead
  | followerRecovery
  | ticketRecovery
  | editCatchUp
  deriving DecidableEq, Repr, Inhabited

/-- What a write, once begun, will have changed: the values of its work as they stood when it began (R175). -/
inductive Change
  | nothing
  | openRecord (ticket : Ticket) (removed : Option Nat)
  | checkpoint (item : DrawItem) (adds : Bool)
  | followerPart (part : FollowerPart)
  | handOver (item : DrawItem) (hose : Option Hose) (closeAhead : Option Int)
  | followerCompletion (product : Nat) (gross net : Int)
  | closeRecord (number : Nat) (time : Option Nat)
  | collect (number : Nat)
  | printStep (number : Nat)
  | calibration
  | createStation (closeAhead : Int) (editCount : Nat)
  | clampCloseAhead (limit : Int)
  | followerRecovery
  | ticketRecovery (hoseVolume : Int)
  | editCatchUp (editCount : Nat)
  deriving DecidableEq, Repr, Inhabited

/-- A write in flight: its change and the unticketed sum that it carries (R175). -/
structure Write where
  change : Change
  unticketed : Int
  deriving DecidableEq, Repr, Inhabited

/-- The fetch record (R183). -/
structure Fetch where
  /-- the fetch that transmit entries name; the model's own count -/
  number : Nat
  station : Nat
  ticket : Nat
  /-- the copy of the record in its streamed form, cut into segments -/
  segments : List (List Byte)
  /-- next segment index -/
  next : Nat
  /-- segments in the transmit queue -/
  queued : Nat
  deriving DecidableEq, Repr, Inhabited

/-- The journal memory: the station record and the ticket records, in the order they were opened (R170, R174). -/
structure Memory where
  station : Option StationRecord
  tickets : List Ticket
  deriving DecidableEq, Repr, Inhabited

/-- The journal. -/
structure Journal where
  mem : Memory
  /-- the write in flight; none is the write state IDLE (R175) -/
  inflight : Option Write
  works : List Work
  /-- pending unticketed sum (R175) -/
  unticketedSum : Int
  fetch : Option Fetch
  /-- number of the next fetch; the model's own count -/
  nextFetch : Nat
  deriving DecidableEq, Repr, Inhabited

/-! ### Printer port (chapter 10) -/

/-- A print job (R186). -/
structure Job where
  ticket : Nat
  copy : Bool
  deriving DecidableEq, Repr, Inhabited

/-- Port states, with the stall timer in HELD and the trailer timer in ABORTING (R189, R191). In ABORTING the timer is
none once it has expired and the character being shifted is still to complete. -/
inductive PrintState
  | idle
  | printing
  | held (stallDue : Nat)
  | aborting (trailerDue : Option Nat)
  deriving DecidableEq, Repr, Inhabited

/-- The printer port. -/
structure Printer where
  state : PrintState
  queue : List Job
  /-- the text of the current job's copy, or of the abort trailer, that the formatter has not yet placed -/
  rest : List Byte
  fifo : List Byte
  /-- the character being shifted out -/
  shifting : Option Byte
  /-- flow permission GO (R190) -/
  go : Bool
  /-- PRINTER_STALLED in the fault set (R192) -/
  stalled : Bool
  deriving DecidableEq, Repr, Inhabited

/-! ### The whole part -/

/-- The state of the DQ460. -/
structure State where
  /-- station time (R106) -/
  time : Nat
  /-- the configuration in use (R196) -/
  cfg : Cfg
  station : Station
  pins : Pins
  inputs : Inputs
  pulse : Pulse
  engine : Engine
  draw : DrawUnit
  valve : Valve
  port : Port
  claims : ClaimUnit
  blend : Blend
  handler : Handler
  journal : Journal
  printer : Printer
  /-- how many free choices have been taken; the model's own count (log 4) -/
  freeIndex : Nat
  /-- the commands that wait, first in, first out; the model's own queue -/
  pending : List Instr
  deriving DecidableEq, Repr, Inhabited

/-- Reasons to fault. There is none: no command of the DQ460 stops the part, and the manual gives every command an
effect in every state. -/
inductive Fault
  deriving DecidableEq, Repr

/-- Reasons to refuse a command. -/
inductive Refusal
  /-- raised by `exec` alone, for a command that has no meaning yet; safe, since nothing is claimed of it -/
  | notModelled (mnemonic : String)
  deriving DecidableEq, Repr

/-! ### Reset values -/

/-- The empty suspend-cause set. -/
def Causes.empty : Causes :=
  ⟨.absent, .absent, .absent, .absent, .absent, .absent, false, false, false, false, false⟩

/-- The empty exception set. -/
def Exceptions.empty : Exceptions := ⟨false, false, false, false, false⟩

/-- The empty hold-reason set. -/
def Holds.empty : Holds := ⟨false, false, false, false⟩

/-- The metering context after power-up (R39): no owner, product and preset absent, T in use 1,500, VCF 1,000,000.
MF_1, S and A are not known before the configuration is read and stand at 0 (log 8). -/
def Context.reset : Context where
  owner := none
  product := none
  preset := none
  share := none
  pending := none
  slowdown := 0
  closeAhead := 0
  nextPoint := .slowdown
  window := []
  rate := 0
  mf := 0
  gross := 0
  grossRem := 0
  reverse := 0
  temp := 1500
  held := false
  expiry := false
  vcf := 1000000
  net := 0
  netRem := 0
  sumGT := 0
  sumG := 0

/-- The pulse counter after power-up (R18). The model's choice: the filtered levels and the decoder state, which the
manual takes from the raw inputs when counting begins, stand at 0 until then (log 41). -/
def Pulse.reset : Pulse where
  filteredA := false
  filteredB := false
  decoderA := false
  decoderB := false
  running := 0
  perUpdate := 0
  latestCount := 0
  target := none
  session := none
  windowErrors := 0
  windowForward := 0
  loneA := 0
  loneB := 0
  faultLatch := false
  unticketed := 0
  unticketedRem := 0
  conversionDue := none

/-- The volume engine after power-up (R39). -/
def Engine.reset : Engine where
  ctx := Context.reset
  updateDue := none
  probe := .none
  lastGood := none
  holdStart := none
  probeDue := none

/-- The draw controller after power-up (R72). -/
def DrawUnit.reset : DrawUnit := ⟨.idle, none, none, none⟩

/-- The valve driver after power-up (R89). -/
def Valve.reset : Valve := ⟨.closed, 0, false, .off, .clear, none, none⟩

/-- The line port after power-up (R108). -/
def Port.reset : Port := ⟨[], [], 0, none, none, none, none⟩

/-- The claim unit after power-up (R132). -/
def ClaimUnit.reset : ClaimUnit := ⟨[], none, [], 1, 0, [], [], none⟩

/-- The blend tracker after power-up (R156). The model's choice: the lag, of which no update has come, is 0 (log 47). -/
def Blend.reset : Blend :=
  ⟨.unbound, none, 0, .closed, none, 0, none, false, none, none, none⟩

/-- The request handler after power-up (R169). -/
def Handler.reset : Handler := ⟨none, none, []⟩

/-- The printer port after power-up (R194). The model's choice: the flow permission of CTS, which takes the input level at
LISTENING, is GO until then (log 69). -/
def Printer.reset : Printer := ⟨.idle, [], [], [], none, true, false⟩

/-- The conditioned inputs after power-up: INACTIVE until LISTENING (R89). -/
def Inputs.reset : Inputs := ⟨false, false, false, false⟩

/-- The pins as the model takes them at `State.reset`: every level INACTIVE or 0 (log 7). -/
def Pins.reset : Pins := ⟨false, false, false, false, false, false, false, false⟩

/-- The configuration image of `State.reset`: every item 0 and a check word that agrees (log 6). -/
def Image.reset : Image := ⟨List.replicate 95 0, true⟩

/-- The configuration before one has been read (log 8). -/
def Cfg.reset : Cfg where
  kind := .hose
  countMode := .x1
  filterTime := 0
  kn := 0
  phaseLimit := 0
  loneLimit := 0
  points := []
  products := []
  slowdown := 0
  aMax := 0
  initialCloseAhead := 0
  primeTime := 0
  startSlow := 0
  deadman := 0
  noFlow := 0
  fmax := 0
  reverseLimit := 0
  hoseVolume := 0
  dwell := 0
  haltRecovery := .latched
  runOn := 0
  outputs := []
  pump := none
  blendWindow := 0
  baud := 0
  flowControl := .none
  autoPrint := false

/-- The journal of a new part: no station record and no ticket records (R181), and the volatile state of R185. -/
def Journal.reset : Journal := ⟨⟨none, []⟩, none, [], 0, none, 0⟩

/-- The configuration loader of a new part after power-up: STARTING, strapped 1 and sealed (log 8). -/
def Station.reset : Station := ⟨.starting, 1, false, none, 0, none, Image.reset, none⟩

/-- The part right after reset (R200): every block at its reset values, the station in STARTING, the journal memory of
a new part, and no command waiting. -/
def State.reset : State where
  time := 0
  cfg := Cfg.reset
  station := Station.reset
  pins := Pins.reset
  inputs := Inputs.reset
  pulse := Pulse.reset
  engine := Engine.reset
  draw := DrawUnit.reset
  valve := Valve.reset
  port := Port.reset
  claims := ClaimUnit.reset
  blend := Blend.reset
  handler := Handler.reset
  journal := Journal.reset
  printer := Printer.reset
  freeIndex := 0
  pending := []

end Sys2Proof.Machine
end

