-- ==== Sys2Proof/Machine/Arith.lean ====
section
/-! DEFINITION. The roundings that the manual names (chapter 0, Conventions), the ranges of its numbers, bytes in their
order on the line (R203), and the orders that the manual leaves open. -/

namespace Sys2Proof.Machine

/-- *Floor* of a quotient with a positive divisor. -/
def floorDiv (a b : Int) : Int := a / b

/-- *Ceiling* of a quotient with a positive divisor. -/
def ceilDiv (a b : Int) : Int := -((-a) / b)

/-- *Truncated* quotient. -/
def truncDiv (a b : Int) : Int := a.tdiv b

/-- *Round*: to the nearest integer, halves away from zero, for a positive divisor. -/
def roundDiv (a b : Int) : Int :=
  if 0 ≤ a then (2 * a + b) / (2 * b) else -((2 * -a + b) / (2 * b))

/-- *Clamped to* a range. -/
def clampTo (lo hi x : Int) : Int := if x < lo then lo else if hi < x then hi else x

/-- The nearest value of a signed range of `bits` bits (R203, R166). -/
def saturate (bits : Nat) (x : Int) : Int := clampTo (-(2 ^ (bits - 1))) (2 ^ (bits - 1) - 1) x

/-- A signed 64-bit quantity after a sum (chapter 0, Conventions; R7). The manual does not say what a sum outside the
range leaves, so the value is free there (log 10). -/
def sum64 (x : Int) : Int :=
  if -(2 ^ 63) ≤ x ∧ x < 2 ^ 63 then x else (Config.beyond64 x).toInt

/-- A number in `n` bytes, most significant first (R203). -/
def bytesOf : Nat → Nat → List Byte
  | 0, _ => []
  | n + 1, x => bytesOf n (x / 256) ++ [BitVec.ofNat 8 x]

/-- A signed number in `n` bytes: the nearest value of the field's range, in two's complement (R203). -/
def signedBytes (n : Nat) (x : Int) : List Byte :=
  bytesOf n (BitVec.ofInt (8 * n) (saturate (8 * n) x)).toNat

/-- The number that bytes carry, most significant first (R203). -/
def natOfBytes (bs : List Byte) : Nat := bs.foldl (fun acc b => acc * 256 + b.toNat) 0

/-- The signed number that bytes carry. -/
def intOfBytes (bs : List Byte) : Int := (BitVec.ofNat (8 * bs.length) (natOfBytes bs)).toInt

/-- The characters of a text. -/
def chars (text : String) : List Byte := text.toList.map (fun c => BitVec.ofNat 8 c.toNat)

/-- Whether compartment `c` (1 to 8) is in a compartment set. -/
def hasComp (set : CompSet) (c : Nat) : Bool := decide (1 ≤ c) && set.getLsbD (c - 1)

/-- The set of compartment `c` alone; empty outside 1 to 8. -/
def oneComp (c : Nat) : CompSet := if 1 ≤ c then BitVec.ofNat 8 (2 ^ (c - 1)) else 0

/-- The compartments of a set in ascending number. -/
def compsOf (set : CompSet) : List Nat := [1, 2, 3, 4, 5, 6, 7, 8].filter (hasComp set)

/-- The element at a place of a list, and the rest in order. -/
def pick {α : Type} : Nat → α → List α → α × List α
  | 0, x, xs => (x, xs)
  | _ + 1, x, [] => (x, [])
  | n + 1, x, y :: ys => let r := pick n y ys; (r.1, x :: r.2)

/-- A list in the order that the number `choice` names; every order of the list is named by some number. -/
def arrange {α : Type} : Nat → Nat → List α → List α
  | 0, _, xs => xs
  | _ + 1, _, [] => []
  | _ + 1, _, [x] => [x]
  | n + 1, choice, x :: y :: zs =>
    let len := zs.length + 2
    let r := pick (choice % len) x (y :: zs)
    r.1 :: arrange n (choice / len) r.2

/-- A list in one of its orders, whichever the free value of index `i` names (log 4). -/
def anyOrder {α : Type} (i : Nat) (xs : List α) : List α := arrange xs.length (Config.orderChoice i) xs

/-- Removes the last element that satisfies `p`; gives it and the rest in order. -/
def takeLast? {α : Type} (p : α → Bool) : List α → Option (α × List α)
  | [] => none
  | x :: xs =>
    match takeLast? p xs with
    | some (y, ys) => some (y, x :: ys)
    | none => if p x then some (x, xs) else none

/-- Whether a time is reached, for a timer that may be stopped. -/
def dueBy (due : Option Nat) (now : Nat) : Bool :=
  match due with
  | some d => decide (d ≤ now)
  | none => false

/-- The later of two station times. -/
def later (a b : Nat) : Nat := if a ≤ b then b else a

end Sys2Proof.Machine
end

