-- ==== Sys2Proof/Machine/Codes.lean ====
section
/-! DEFINITION. The codes of 12.3 and the packing of the suspend-cause set (R203). -/

namespace Sys2Proof.Machine

/-- Stage code (12.3). -/
def stageCode : Stage → Nat
  | .closed => 0
  | .slow => 1
  | .fast => 2
  | .stepDown => 3

/-- Halt code (12.3). -/
def haltCode : HaltState → Nat
  | .clear => 0
  | .halted => 1
  | .latched => 2

/-- Station kind code (12.3). -/
def kindCode : StationKind → Nat
  | .hose => 0
  | .injector => 1

/-- Manifold code (12.3). -/
def manifoldCode : Manifold → Nat
  | .a => 0
  | .b => 1

/-- State code of a draw state (12.3). -/
def drawCode : DrawState → Nat
  | .idle => 0
  | .dropOpen => 1
  | .ready => 2
  | .claiming => 3
  | .priming => 4
  | .flowing => 5
  | .suspended => 6
  | .closing => 7

/-- State code of a follower state other than UNBOUND (12.3). -/
def followerCode : FollowerState → Nat
  | .unbound => 0
  | .bound => 8
  | .fPrime => 9
  | .fRun => 10
  | .fHold => 11
  | .fTrim => 12
  | .fClose => 13

/-- Reason code (12.3). -/
def reasonCode : Reason → Nat
  | .conflict => 1
  | .productMismatch => 2
  | .halted => 3
  | .viewRebuild => 4
  | .partnerEnded => 5
  | .busy => 6

/-- Result code: the place in the table of 8.3, OK 0 (12.3). -/
def resultCode : Result → Nat
  | .ok => 0
  | .clamped => 1
  | .busy => 2
  | .notOwner => 3
  | .invalid => 4
  | .dropFull => 5
  | .journalFull => 6
  | .noOwner => 7
  | .productMismatch => 8
  | .partnerUnavailable => 9
  | .claimLost => 10
  | .consentRefused => 11
  | .consentTimeout => 12
  | .cancelled => 13
  | .viewRebuild => 14
  | .tempFault => 15
  | .pulseFault => 16
  | .hoseStowed => 17
  | .halted => 18
  | .sealed => 19
  | .unknownTicket => 20
  | .alreadyQueued => 21
  | .queueFull => 22
  | .configFault => 23

/-- Configuration fault code (12.3). -/
def faultCodeNumber : FaultCode → Nat
  | .strapsZero => 1
  | .memorySilent => 2
  | .sumBad => 3
  | .itemRange => 4
  | .tableOrder => 5
  | .duplicate => 6

/-- Follower end code (12.3). -/
def endCodeNumber : EndCode → Nat
  | .trimmed => 1
  | .trimLimit => 2
  | .leadLost => 3
  | .pulseFault => 4

/-- Ending code; none is 0 (12.3). -/
def endingCode : Option Ending → Nat
  | none => 0
  | some .presetReached => 1
  | some .endedByRequest => 2
  | some .reverseFlow => 3
  | some .pulseFault => 4
  | some .claimRevoked => 5
  | some .powerFail => 6

/-- READ_TOTALS item of a code (12.3). -/
def totalsItemOf : Nat → Option TotalsItem
  | 1 => some .gross
  | 2 => some .net
  | 3 => some .unticketed
  | 4 => some .closeAhead
  | 5 => some .calibrationEvents
  | 6 => some .ticketSequence
  | _ => none

/-- Resource code in the tag of a CONSENT (12.1). -/
def resourceCode : Resource → Nat
  | .comp n => n
  | .pump .a => 9
  | .pump .b => 10
  | .partner => 11

/-- The resource of a code; none for a code that 12.1 does not list. -/
def resourceOf (code : Nat) : Option Resource :=
  if code = 9 then some (.pump .a)
  else if code = 10 then some (.pump .b)
  else if code = 11 then some .partner
  else if 1 ≤ code ∧ code ≤ 8 then some (.comp code)
  else none

/-- How a condition counts in the packed value (R203). -/
def condDigit : CondFlag → Nat
  | .absent => 0
  | .active => 1
  | .cleared => 2

/-- The suspend-cause set in its two bytes (R203). -/
def causesWord (c : Causes) : Nat :=
  (if c.pause then 32768 else 0) + (if c.deadman then 16384 else 0) + (if c.noFlow then 8192 else 0) +
    (if c.blendLag then 4096 else 0) + (if c.overspeed then 2048 else 0) +
    (condDigit c.halt + 3 * condDigit c.air + 9 * condDigit c.tempFault + 27 * condDigit c.ownerSilent +
      81 * condDigit c.partnerSilent + 243 * condDigit c.lineLost)

/-! ### Members of the suspend-cause set (R52) -/

/-- The flag of a condition. -/
def condFlag (c : Causes) : Cond → CondFlag
  | .halt => c.halt
  | .air => c.air
  | .tempFault => c.tempFault
  | .ownerSilent => c.ownerSilent
  | .partnerSilent => c.partnerSilent
  | .lineLost => c.lineLost

/-- The set with a condition's flag changed. -/
def setCond (k : Cond) (f : CondFlag) (c : Causes) : Causes :=
  match k with
  | .halt => { c with halt := f }
  | .air => { c with air := f }
  | .tempFault => { c with tempFault := f }
  | .ownerSilent => { c with ownerSilent := f }
  | .partnerSilent => { c with partnerSilent := f }
  | .lineLost => { c with lineLost := f }

/-- A condition raised: it is a member and flagged ACTIVE (R52). -/
def raiseCond (k : Cond) (c : Causes) : Causes := setCond k .active c

/-- A condition cleared: a member becomes CLEARED, and an absent one stays absent (R52, R54). -/
def clearCond (k : Cond) (c : Causes) : Causes :=
  if condFlag c k = .absent then c else setCond k .cleared c

/-- A latched reason raised (R52). -/
def raiseLatch (k : Latch) (c : Causes) : Causes :=
  match k with
  | .pause => { c with pause := true }
  | .deadman => { c with deadman := true }
  | .noFlow => { c with noFlow := true }
  | .blendLag => { c with blendLag := true }
  | .overspeed => { c with overspeed := true }

end Sys2Proof.Machine
end

