-- ==== Sys2Proof/Machine/Operands.lean ====
section
/-! DEFINITION. Reading what a command brings or takes: the fields of an identifier (12.1), the payload of each kind
(12.2), and the decoding of an ASK into a request (R160). -/

namespace Sys2Proof.Machine

/-! ### The identifier (12.1) -/

/-- Kind, bits 28 to 25. -/
def kindOf (id : Ident) : Nat := id.toNat / 2 ^ 25 % 16
/-- Source station, bits 24 to 21. -/
def sourceOf (id : Ident) : Nat := id.toNat / 2 ^ 21 % 16
/-- Destination, bits 20 to 17. -/
def destOf (id : Ident) : Nat := id.toNat / 2 ^ 17 % 16
/-- Tag, bits 16 to 0. -/
def tagOf (id : Ident) : Nat := id.toNat % 2 ^ 17
/-- Claim sequence, tag bits 11 to 4. -/
def sequenceOf (id : Ident) : Nat := tagOf id / 16 % 256
/-- Resource, part or page, tag bits 3 to 0. -/
def lowTagOf (id : Ident) : Nat := tagOf id % 16
/-- Request code, tag bits 16 to 12. -/
def askCodeOf (id : Ident) : Nat := tagOf id / 4096
/-- Request number, tag bits 11 to 0. -/
def askNumberOf (id : Ident) : Nat := tagOf id % 4096

/-- The kinds of frames (5.1). -/
abbrev kHalt : Nat := 1
abbrev kClaim : Nat := 2
abbrev kConsent : Nat := 3
abbrev kRelease : Nat := 4
abbrev kProg : Nat := 5
abbrev kAsk : Nat := 6
abbrev kAnswer : Nat := 7
abbrev kStat : Nat := 8
abbrev kTkt : Nat := 9
abbrev kClock : Nat := 10

/-- Whether a payload has the length of its kind and, for STAT, its page; an ASK has any length from 0 to 8 (R92, R203).
A STAT page that 12.2 does not list has no length, so no payload has it (log 31). -/
def lengthOk (f : Frame) : Bool :=
  let n := f.data.length
  match kindOf f.id with
  | 1 => n == 0
  | 2 => n == 6
  | 3 => n == 3
  | 4 => n == 0
  | 5 => n == 8
  | 6 => decide (n ≤ 8)
  | 7 => n == 8
  | 8 =>
    match lowTagOf f.id with
    | 0 => n == 8
    | 1 => n == 8
    | 2 => n == 7
    | _ => false
  | 9 => n == 8
  | 10 => n == 4
  | _ => false

/-! ### Payload fields -/

/-- Byte `i` of the payload. -/
def byteAt (f : Frame) (i : Nat) : Byte := f.data.getD i 0
/-- The `n` bytes from byte `i` on, as an unsigned number (R203). -/
def fieldAt (f : Frame) (i n : Nat) : Nat := natOfBytes ((f.data.drop i).take n)
/-- The `n` bytes from byte `i` on, as a signed number. -/
def signedAt (f : Frame) (i n : Nat) : Int := intOfBytes ((f.data.drop i).take n)
/-- The upper four bits of a byte. -/
def hiNibble (b : Byte) : Nat := b.toNat / 16
/-- The lower four bits of a byte. -/
def loNibble (b : Byte) : Nat := b.toNat % 16

/-- A line entry from its product and its compartments; product 0 is no entry (12.2). -/
def entryOf (product : Nat) (comps : CompSet) : Option LineEntry :=
  if product = 0 then none else some ⟨product, comps⟩

/-- A partner and its share; station 0 is none (12.2). -/
def partnerOf (station share : Nat) : Option (Nat × Nat) := if station = 0 then none else some (station, share)

/-- The claim of a CLAIM frame (12.2). -/
def decodeClaim (f : Frame) : Claim where
  id := ⟨sourceOf f.id, sequenceOf f.id⟩
  entryA := entryOf (hiNibble (byteAt f 0)) (byteAt f 1)
  entryB := entryOf (loNibble (byteAt f 0)) (byteAt f 2)
  partner := partnerOf (byteAt f 3).toNat (fieldAt f 4 2)

/-- The claim that a CONSENT names (12.1, 12.2). -/
def consentClaim (f : Frame) : ClaimId := ⟨(byteAt f 0).toNat, sequenceOf f.id⟩
/-- The verdict of a CONSENT: GRANTED 0, REFUSED 1 (12.3). -/
def consentVerdict (f : Frame) : Nat := (byteAt f 1).toNat
/-- The reason code of a CONSENT (12.3). -/
def consentReason (f : Frame) : Nat := (byteAt f 2).toNat

/-- The awaited set as page 2 carries it (12.2). -/
structure Awaited where
  comps : CompSet
  pumpA : Bool
  pumpB : Bool
  partner : Bool
  deriving DecidableEq, Repr, Inhabited

/-- Whether a resource is in an awaited set. -/
def awaits (w : Awaited) : Resource → Bool
  | .comp n => hasComp w.comps n
  | .pump .a => w.pumpA
  | .pump .b => w.pumpB
  | .partner => w.partner

/-- What a STAT page 2 carries: a claim with its awaited set, or none (12.2). -/
def decodePage2 (f : Frame) : Option (Claim × Awaited) :=
  let seq := (byteAt f 0).toNat
  let b5 := byteAt f 5
  if seq = 0 then none
  else some
    ({ id := ⟨sourceOf f.id, seq⟩
       entryA := entryOf (hiNibble (byteAt f 1)) (byteAt f 2)
       entryB := entryOf (loNibble (byteAt f 1)) (byteAt f 3)
       partner := partnerOf (hiNibble b5) ((b5.toNat % 2) * 256 + (byteAt f 6).toNat) },
     { comps := byteAt f 4, pumpA := b5.getLsbD 3, pumpB := b5.getLsbD 2, partner := b5.getLsbD 1 })

/-- The owned compartments of a STAT page 1 (12.2). -/
def decodePage1 (f : Frame) : List PeerComp :=
  [0, 2, 4, 6].filterMap fun i =>
    let b := byteAt f i
    if hiNibble b = 0 then none
    else some ⟨hiNibble b, if b.getLsbD 3 then .b else .a, b.getLsbD 0, (byteAt f (i + 1)).toNat⟩

/-- The suspend-cause set of a page 0: bits 15 to 11 and 9 to 0; bit 10 is not named and so not read (R203). -/
def causesAt (f : Frame) : Nat := fieldAt f 6 2 / 2048 * 2048 + fieldAt f 6 2 % 1024

/-- What a STAT page 0 reports, in its three forms (R203, 12.2). -/
def decodePage0 (f : Frame) : Page0 :=
  let b0 := byteAt f 0
  let b1 := byteAt f 1
  let code := hiNibble b0
  { stateCode := code
    kind := b0.toNat / 4 % 4
    stage := b0.toNat % 4
    halt := b1.toNat / 64
    pulseFault := b1.getLsbD 5
    tempFault := b1.getLsbD 4
    printerStalled := b1.getLsbD 3
    pump := b1.toNat % 8
    net := if code = 15 then 0 else signedAt f 2 4
    rate := if code = 6 ∨ code = 15 then 0 else fieldAt f 6 2
    causes := if code = 6 then causesAt f else 0
    faultCode := if code = 15 then (byteAt f 2).toNat else 0
    faultItem := if code = 15 then (byteAt f 3).toNat else 0 }

/-- Whether a page 0 reports a pump on a manifold: codes 1 to 3 are on A, 4 to 6 on B (12.2). -/
def reportsPump (p : Page0) : Manifold → Bool
  | .a => decide (1 ≤ p.pump ∧ p.pump ≤ 3)
  | .b => decide (4 ≤ p.pump ∧ p.pump ≤ 6)

/-- The lead form of PROG part 0 (12.2). -/
def decodeLeadReport (f : Frame) : LeadReport where
  net := signedAt f 0 4
  stateCode := (byteAt f 4).toNat
  final := byteAt f 6 == 1

/-- The follower form of PROG part 0: net C and the lag (12.2). -/
def decodeFollowerReport (f : Frame) : Int × Int := (signedAt f 0 4, signedAt f 4 2)

/-- PROG part 1 (12.2). -/
def decodeFinalVolumes (f : Frame) : FinalVolumes := ⟨signedAt f 0 4, signedAt f 4 4⟩

/-- A temperature field: −32,768 is absent (R203). -/
def decodeTemp (x : Int) : Option Int := if x = -32768 then none else some x

/-- PROG part 2 (12.2). -/
def decodeFinalDetails (f : Frame) : FinalDetails where
  temp := decodeTemp (signedAt f 0 2)
  vcf := fieldAt f 2 3
  endCode := (byteAt f 5).toNat
  tempHeld := (byteAt f 6).getLsbD 0
  valveNotClosed := (byteAt f 6).getLsbD 1

/-! ### Requests (8.1, R160, R163) -/

/-- A preset in whole litres: 0 is absent, and one above 99,999 is taken as 99,999; the mark says that it was (R163). -/
def decodePreset (litres : Nat) : Option Nat × Bool :=
  if litres = 0 then (none, false) else if 99999 < litres then (some 99999, true) else (some litres, false)

/-- Whether a number is a ticket number (8.1). -/
def isTicketNumber (n : Nat) : Bool := decide (1 ≤ n ∧ n ≤ Config.lastTicket)

/-- The selection of a SELECT, or none when a field is outside its range (8.1). Component fields are read only when the
share is not 0. -/
def decodeSelect (f : Frame) : Option Request :=
  let product := hiNibble (byteAt f 0)
  let component := loNibble (byteAt f 0)
  let share := fieldAt f 5 2
  let preset := decodePreset (fieldAt f 2 3)
  if product = 0 then none
  else if share = 0 then some (.select ⟨product, byteAt f 1, preset.1, none⟩ preset.2)
  else if share < 10 ∨ 500 < share ∨ component = 0 then none
  else some (.select ⟨product, byteAt f 1, preset.1, some ⟨share, component, byteAt f 7⟩⟩ preset.2)

/-- The request of an ASK, or none when it is to be answered INVALID: an unknown request code, a payload of the wrong
length for the code, or a field outside the range of 8.1 (R160). -/
def decodeAsk (f : Frame) : Option Request :=
  let n := f.data.length
  match askCodeOf f.id with
  | 1 =>
    if n = 5 ∧ fieldAt f 4 1 ≤ 15 then some (.openDrop (fieldAt f 0 4) (fieldAt f 4 1)) else none
  | 2 => if n = 8 then decodeSelect f else none
  | 3 => if n = 0 then some .start else none
  | 4 => if n = 0 then some .pause else none
  | 5 => if n = 0 then some .resume else none
  | 6 => if n = 0 then some .endDraw else none
  | 7 => if n = 0 then some .closeDrop else none
  | 8 =>
    if n = 3 then some (.setPreset (decodePreset (fieldAt f 0 3)).1 (decodePreset (fieldAt f 0 3)).2) else none
  | 9 =>
    if n = 2 ∧ 1 ≤ fieldAt f 0 1 ∧ fieldAt f 0 1 ≤ 8 ∧ fieldAt f 1 1 ≤ 15 then
      some (.setCompartment (fieldAt f 0 1) (fieldAt f 1 1))
    else none
  | 10 => if n = 0 then some .resumeHalt else none
  | 11 => if n = 0 then some .clearFaults else none
  | 12 => if n = 4 ∧ isTicketNumber (fieldAt f 0 4) then some (.fetchTicket (fieldAt f 0 4)) else none
  | 13 => if n = 4 ∧ isTicketNumber (fieldAt f 0 4) then some (.ackTicket (fieldAt f 0 4)) else none
  | 14 => if n = 4 ∧ isTicketNumber (fieldAt f 0 4) then some (.print (fieldAt f 0 4)) else none
  | 15 =>
    if n = 2 then
      match totalsItemOf (fieldAt f 0 1) with
      | some .gross =>
        if 1 ≤ fieldAt f 1 1 ∧ fieldAt f 1 1 ≤ 15 then some (.readTotals .gross (fieldAt f 1 1)) else none
      | some .net =>
        if 1 ≤ fieldAt f 1 1 ∧ fieldAt f 1 1 ≤ 15 then some (.readTotals .net (fieldAt f 1 1)) else none
      | some item => some (.readTotals item (fieldAt f 1 1))
      | none => none
    else none
  | 16 => if n = 8 then some (.writeConfig (fieldAt f 0 1) (fieldAt f 1 7)) else none
  | _ => none

/-- The asker of an ASK (8.1). -/
def askerOf (f : Frame) : Asker := ⟨sourceOf f.id, askCodeOf f.id, askNumberOf f.id⟩

end Sys2Proof.Machine
end

