-- ==== Sys2Proof/Machine/Layout.lean ====
section
/-! DEFINITION. The frames that a DQ460 sends (12.1, 12.2) and the streamed form of a ticket record (12.4, R204). -/

namespace Sys2Proof.Machine

/-- An identifier from its fields (12.1). -/
def identOf (kind source dest tag : Nat) : Ident :=
  BitVec.ofNat 29 (kind % 16 * 2 ^ 25 + source % 16 * 2 ^ 21 + dest % 16 * 2 ^ 17 + tag % 2 ^ 17)

/-- The tag of a claim-class frame or a PROG: claim sequence and resource or part (12.1). -/
def claimTag (sequence low : Nat) : Nat := sequence % 256 * 16 + low % 16

/-- A byte from its upper and lower four bits. -/
def nibbles (hi lo : Nat) : Byte := BitVec.ofNat 8 (hi % 16 * 16 + lo % 16)

/-- 1 for a set mark, 0 for a clear one. -/
def bit (b : Bool) : Nat := if b then 1 else 0

/-- Product of an optional line entry; 0 is no entry. -/
def entryProduct (e : Option LineEntry) : Nat := (e.map (·.product)).getD 0
/-- Compartments of an optional line entry. -/
def entryComps (e : Option LineEntry) : CompSet := (e.map (·.comps)).getD 0

/-- HALT to all stations. -/
def haltFrame (source : Nat) : Frame := ⟨identOf kHalt source 0 0, []⟩

/-- CLAIM to all stations (12.2). -/
def claimFrame (c : Claim) : Frame :=
  ⟨identOf kClaim c.id.station 0 (claimTag c.id.sequence 0),
   [nibbles (entryProduct c.entryA) (entryProduct c.entryB), entryComps c.entryA, entryComps c.entryB,
    BitVec.ofNat 8 ((c.partner.map (·.1)).getD 0)] ++ bytesOf 2 ((c.partner.map (·.2)).getD 0)⟩

/-- RELEASE of an own claim to all stations. -/
def releaseFrame (id : ClaimId) : Frame := ⟨identOf kRelease id.station 0 (claimTag id.sequence 0), []⟩

/-- CONSENT to all stations: GRANTED with no reason, REFUSED with one (12.2). -/
def consentFrame (source : Nat) (id : ClaimId) (r : Resource) (refused : Option Reason) : Frame :=
  ⟨identOf kConsent source 0 (claimTag id.sequence (resourceCode r)),
   [BitVec.ofNat 8 id.station,
    BitVec.ofNat 8 (bit refused.isSome),
    BitVec.ofNat 8 ((refused.map reasonCode).getD 0)]⟩

/-- PROG part 0 of a lead (12.2). -/
def leadProgFrame (source dest sequence : Nat) (net : Int) (state : DrawState) (stage : Stage) (final : Bool) : Frame :=
  ⟨identOf kProg source dest (claimTag sequence 0),
   signedBytes 4 net ++
    [BitVec.ofNat 8 (drawCode state), BitVec.ofNat 8 (stageCode stage), BitVec.ofNat 8 (bit final), 0]⟩

/-- PROG part 0 of a follower (12.2). -/
def followerProgFrame (source dest sequence : Nat) (net lag : Int) (state : FollowerState) (stage : Stage) : Frame :=
  ⟨identOf kProg source dest (claimTag sequence 0),
   signedBytes 4 net ++ signedBytes 2 lag ++
    [BitVec.ofNat 8 (followerCode state), BitVec.ofNat 8 (stageCode stage)]⟩

/-- A temperature field, −32,768 when absent (R203). -/
def tempBytes (t : Option Int) : List Byte := signedBytes 2 (t.getD (-32768))

/-- PROG part 1 of a final report (12.2). -/
def finalPart1Frame (source dest sequence : Nat) (r : FinalReport) : Frame :=
  ⟨identOf kProg source dest (claimTag sequence 1), signedBytes 4 r.gross ++ signedBytes 4 r.net⟩

/-- PROG part 2 of a final report (12.2). -/
def finalPart2Frame (source dest sequence : Nat) (r : FinalReport) : Frame :=
  ⟨identOf kProg source dest (claimTag sequence 2),
   tempBytes r.temp ++ bytesOf 3 r.vcf.toNat ++
    [BitVec.ofNat 8 (endCodeNumber r.endCode), BitVec.ofNat 8 (bit r.tempHeld + 2 * bit r.valveNotClosed), 0]⟩

/-- The seven data bytes of an ANSWER (12.2). -/
def answerData : AnswerData → List Byte
  | .none => List.replicate 7 0
  | .ticket n => List.replicate 3 0 ++ bytesOf 4 n
  | .value v => signedBytes 7 v
  | .refusal station reason => [BitVec.ofNat 8 station, BitVec.ofNat 8 reason] ++ List.replicate 5 0

/-- ANSWER to an asker, with the code and number of its ASK (R161). -/
def answerFrame (source : Nat) (a : Asker) (ans : Answer) : Frame :=
  ⟨identOf kAnswer source a.station (a.code % 32 * 4096 + a.number % 4096),
   BitVec.ofNat 8 (resultCode ans.result) :: answerData ans.data⟩

/-- A TKT segment; the final flag is tag bit 16 (12.1). -/
def tktFrame (source dest index : Nat) (final : Bool) (segment : List Byte) : Frame :=
  ⟨identOf kTkt source dest (bit final * 65536 + index % 65536), segment⟩

/-! ### STAT pages (12.2) -/

/-- A STAT page to all stations. -/
def statFrame (source page : Nat) (data : List Byte) : Frame := ⟨identOf kStat source 0 page, data⟩

/-- The bytes of a page 0 from what it reports, in the form its state code chooses (R203). -/
def encodePage0 (p : Page0) : List Byte :=
  [BitVec.ofNat 8 (p.stateCode % 16 * 16 + p.kind % 4 * 4 + p.stage % 4),
   BitVec.ofNat 8 (p.halt % 4 * 64 + bit p.pulseFault * 32 + bit p.tempFault * 16 + bit p.printerStalled * 8 +
     p.pump % 8)] ++
  (if p.stateCode = 15 then
    [BitVec.ofNat 8 p.faultCode, BitVec.ofNat 8 p.faultItem, 0, 0, 0, 0]
  else if p.stateCode = 6 then signedBytes 4 p.net ++ bytesOf 2 p.causes
  else signedBytes 4 p.net ++ bytesOf 2 p.rate)

/-- The two bytes of an owned compartment in page 1 (12.2). -/
def encodeComp (c : PeerComp) : List Byte :=
  [BitVec.ofNat 8 (c.number % 16 * 16 + manifoldCode c.manifold * 8 + bit c.opened), BitVec.ofNat 8 c.product]

/-- The bytes of a page 1: up to four owned compartments, the rest 0 (12.2). The model's choice: the entries are packed to the
front and the slots without one come last (log 66). -/
def encodePage1 (cs : List PeerComp) : List Byte := ((cs.flatMap encodeComp) ++ List.replicate 8 0).take 8

/-- The bytes of a page 2: the claim with its awaited set, or none (12.2). The share of a claim without a partner is sent as 0,
as in CLAIM (log 65). -/
def encodePage2 : Option (Claim × Awaited) → List Byte
  | none => List.replicate 7 0
  | some (c, w) =>
    let share := (c.partner.map (·.2)).getD 0
    [BitVec.ofNat 8 c.id.sequence,
     nibbles (entryProduct c.entryA) (entryProduct c.entryB),
     entryComps c.entryA, entryComps c.entryB, w.comps,
     BitVec.ofNat 8 ((c.partner.map (·.1)).getD 0 % 16 * 16 + bit w.pumpA * 8 + bit w.pumpB * 4 + bit w.partner * 2 +
       share / 256 % 2),
     BitVec.ofNat 8 share]

/-! ### The streamed ticket record (12.4) -/

/-- A hose record in four bytes (12.4). The model's choice: the share of a record with no component, an unknown or MIXED one
among them, is sent as 0 (log 65). -/
def hoseBytes : Hose → List Byte
  | .unknown => [0, 0, 0, 0]
  | .product p => [BitVec.ofNat 8 p, 0, 0, 0]
  | .blend p c s => [BitVec.ofNat 8 p, BitVec.ofNat 8 c] ++ bytesOf 2 s
  | .mixed => [BitVec.ofNat 8 Config.mixedCode, 0, 0, 0]

/-- A totalizer pair, before and after, each signed 48-bit; 0 while in progress (12.4). -/
def totalsBytes (t : Option (Int × Int)) : List Byte :=
  signedBytes 6 ((t.map (·.1)).getD 0) ++ signedBytes 6 ((t.map (·.2)).getD 0)

/-- The exception byte of an item (12.4). -/
def exceptionsByte (e : Exceptions) (intermix blend : Bool) : Byte :=
  BitVec.ofNat 8 (bit e.tempHeld * 128 + bit e.airSeen * 64 + bit e.overspeedSeen * 32 + bit e.valveNotClosed * 16 +
    bit e.reverseSeen * 8 + bit intermix * 4 + bit blend * 2)

/-- The in-progress extension (12.4). -/
def progressBytes (p : Progress) : List Byte :=
  [BitVec.ofNat 8 (drawCode p.drawState)] ++ bytesOf 2 (causesWord p.causes) ++
    [BitVec.ofNat 8 ((p.stageAtClose.map stageCode).getD 4)] ++ hoseBytes p.hoseAtStart ++
    [BitVec.ofNat 8 (bit p.heldMark * 4 + bit p.hoseDiffers * 2 + bit p.hoseFilled)]

/-- The intermix extension (12.4). -/
def intermixBytes (i : Intermix) : List Byte := hoseBytes i.hose ++ signedBytes 4 i.ml

/-- The achieved share in its two bytes (12.4); what they hold of one outside their range is open (log 13). -/
def shareBytes (share : Int) : List Byte :=
  bytesOf 2 (if 0 ≤ share ∧ share < 65536 then share.toNat else Config.shareOutside share)

/-- The blend extension (12.4). The model's choice: a component gross that is absent is sent as 0 (log 65). -/
def blendBytes (b : BlendPart) : List Byte :=
  [BitVec.ofNat 8 b.component,
   BitVec.ofNat 8 (b.follower % 16 * 16 + bit b.incomplete * 8 + bit b.gross.isSome * 4 + bit b.temp.isSome * 2)] ++
  signedBytes 4 (b.gross.getD 0) ++ signedBytes 4 b.net ++ tempBytes b.temp ++
  bytesOf 2 b.targetShare ++ shareBytes b.achievedShare

/-- A draw item in the stream: base block and extensions (12.4). -/
def itemBytes (i : DrawItem) : List Byte :=
  [BitVec.ofNat 8 (i.product % 16 * 16 + endingCode i.ending * 2 + bit i.progress.isSome), i.comps] ++
  bytesOf 3 (i.preset.getD 0).toNat ++ signedBytes 4 i.gross ++ signedBytes 4 i.net ++ tempBytes i.avgTemp ++
  bytesOf 3 i.vcf.toNat ++ [exceptionsByte i.exceptions i.intermix.isSome i.blend.isSome] ++
  totalsBytes i.netTotals ++ totalsBytes i.grossTotals ++
  (i.progress.map progressBytes).getD [] ++ (i.intermix.map intermixBytes).getD [] ++ (i.blend.map blendBytes).getD []

/-- The state code of a ticket record (12.4). -/
def ticketCode (t : Ticket) : Nat :=
  match t.state, t.status with
  | .opened, _ => 0
  | .closed, some .interrupted => 2
  | .closed, _ => 1
  | .collected, some .interrupted => 4
  | .collected, _ => 3

/-- The header of the stream (12.4). The model's choice: an open or close time that is absent is sent as 0 (log 65). -/
def headerBytes (t : Ticket) : List Byte :=
  bytesOf 4 t.number ++ [nibbles t.station t.tank] ++ bytesOf 4 t.account ++
  [BitVec.ofNat 8 (t.opener % 16 * 16 + t.items.length % 8 * 2 + bit t.calibration),
   BitVec.ofNat 8 (ticketCode t * 32 + bit t.timeNotSet * 16 + bit t.openTime.isSome * 8 + bit t.closeTime.isSome * 4)] ++
  bytesOf 4 (t.openTime.getD 0) ++ bytesOf 4 (t.closeTime.getD 0) ++ [BitVec.ofNat 8 t.printCount] ++
  signedBytes 4 (t.carriedIn.getD 0)

/-- The stream of a ticket record (12.4). -/
def ticketStream (t : Ticket) : List Byte := headerBytes t ++ t.items.flatMap itemBytes

/-- A stream cut into `n` segments of eight bytes, the last filled out with zero bytes (R204). -/
def segmentsOf : Nat → List Byte → List (List Byte)
  | 0, _ => []
  | n + 1, bs => (bs.take 8 ++ List.replicate (8 - bs.length) 0) :: segmentsOf n (bs.drop 8)

/-- The segments of a ticket record (R204). -/
def ticketSegments (t : Ticket) : List (List Byte) :=
  let bs := ticketStream t
  segmentsOf ((bs.length + 7) / 8) bs

end Sys2Proof.Machine
end

