-- ==== Sys2Proof/Machine/Flags.lean ====
section
/-! DEFINITION. The status of the part: the fault set and the state fields of STAT page 0, the contents of the three
pages (R101), and the levels of the outputs (R75, R80, R81). -/

namespace Sys2Proof.Machine

/-- The stage of a stage record (R75). -/
def stageOf : ValveRec → Stage
  | .closed => .closed
  | .slow => .slow
  | .slowPendingFast _ => .slow
  | .fast => .fast
  | .stepDown _ _ => .stepDown

/-- SLOW solenoid on (R75). -/
def slowSolenoid (v : ValveRec) : Bool := stageOf v != .closed
/-- FAST solenoid on (R75). -/
def fastSolenoid (v : ValveRec) : Bool := stageOf v == .fast

/-- The station is in LISTENING, RUNNING or LINE_LOST: the blocks of the part run (R17, R88, R194). -/
def operating (s : State) : Bool :=
  match s.station.state with
  | .listening => true
  | .running => true
  | .lineLost => true
  | _ => false

/-- The driven level of the output of an owned compartment (R80, R88): its command is ON, the halt state is CLEAR and the
station drives outputs at all. -/
def compDriven (s : State) (c : Nat) : Bool :=
  operating s && hasComp s.valve.compCommands c && s.valve.halt == .clear

/-- The pump-run output: on in ON and RUN_ON (R81). -/
def pumpDriven (s : State) : Bool := operating s && s.valve.pump != .off

/-- TEMP_FAULT is in the fault set while the probe status is FAULT (R25). -/
def tempFaultFlag (s : State) : Bool := s.engine.probe == .fault

/-- The pump field of page 0: none, or A or B with the pump state (12.2). -/
def pumpField (s : State) : Nat :=
  let state := match s.valve.pump with
    | .off => 0
    | .on => 1
    | .runOn _ => 2
  match s.cfg.pump with
  | none => 0
  | some .a => 1 + state
  | some .b => 4 + state

/-- The state code of page 0: CONFIG_FAULT, the follower state when it is not UNBOUND, or the draw state (R101, R203). -/
def stateCode (s : State) : Nat :=
  if s.station.state = .configFault then 15
  else if s.blend.follower = .unbound then drawCode s.draw.state
  else followerCode s.blend.follower

/-- The suspend-cause set that page 0 carries: the draw's, or an empty one (R101). -/
def causesOf (s : State) : Causes := (s.draw.current.map (·.causes)).getD Causes.empty

/-- What page 0 reports now (R101). -/
def page0Of (s : State) : Page0 where
  stateCode := stateCode s
  kind := kindCode s.cfg.kind
  stage := stageCode (stageOf s.valve.stage)
  halt := haltCode s.valve.halt
  pulseFault := s.pulse.faultLatch
  tempFault := tempFaultFlag s
  printerStalled := s.printer.stalled
  pump := pumpField s
  net := s.engine.ctx.net
  rate := s.engine.ctx.rate
  causes := causesWord (causesOf s)
  faultCode := (s.station.faultCode.map faultCodeNumber).getD 0
  faultItem := s.station.faultItem

/-- The fields of page 0 whose change is a state change of page 0: all but the net and the rate, with the station state
(R100, R101). -/
def page0State (s : State) : StationState × Page0 :=
  (s.station.state, { page0Of s with net := 0, rate := 0 })

/-- The product of a compartment: the one set, or 0 (R116). -/
def productAt (s : State) (c : Nat) : Nat := ((s.claims.products.find? (·.1 == c)).map (·.2)).getD 0

/-- The owned compartments as page 1 reports them (R101). The model's choice: they come in the order of their outputs, 86 to 89
(log 66). -/
def ownComps (s : State) : List PeerComp :=
  s.cfg.outputs.map fun o => ⟨o.comp, o.manifold, compDriven s o.comp, productAt s o.comp⟩

/-- The awaited set of the own claim (R113). -/
def awaitedOf (o : OwnClaim) : Awaited :=
  let open? (r : Resource) : Bool := o.resources.any (fun x => x.resource == r && x.status != .granted)
  { comps := ([1, 2, 3, 4, 5, 6, 7, 8].filter (fun c => open? (.comp c))).foldl (fun acc c => acc ||| oneComp c) 0
    pumpA := open? (.pump .a)
    pumpB := open? (.pump .b)
    partner := open? .partner }

/-- The claim that page 2 carries: the own claim from the take of its completion notice until it ends (R122). -/
def page2Of (s : State) : Option (Claim × Awaited) :=
  match s.claims.own with
  | some o => if o.phase = .queued then none else some (o.claim, awaitedOf o)
  | none => none

/-- A page as a frame, with its contents as they stand (R100). -/
def pageFrame (s : State) : Nat → Frame
  | 0 => statFrame s.station.number 0 (encodePage0 (page0Of s))
  | 1 => statFrame s.station.number 1 (encodePage1 (ownComps s))
  | n => statFrame s.station.number n (encodePage2 (page2Of s))

end Sys2Proof.Machine
end

