-- ==== Sys2Proof/Machine/Line.lean ====
section
/-! DEFINITION. The line port as the other blocks use it: handing a frame (R96, R97), the STAT set (R100), withdrawing a
CLAIM (R98), abandoning a fetch (R184), and taking the oldest entry of the receive queue (R93). -/

namespace Sys2Proof.Machine

/-! ### The transmit queue -/

/-- Identifier order, equal identifiers in the order they were handed (R95). -/
def txInsert (e : TxEntry) : List TxEntry → List TxEntry
  | [] => [e]
  | x :: xs => if x.frame.id.toNat ≤ e.frame.id.toNat then x :: txInsert e xs else e :: x :: xs

/-- Kinds that a full queue can displace: STAT, PROG, TKT and ANSWER (R97). -/
def isDisplaceable (f : Frame) : Bool :=
  let k := kindOf f.id
  k == kStat || k == kProg || k == kTkt || k == kAnswer

/-- Kinds that displace: HALT, CLAIM, CONSENT and RELEASE (R97). -/
def isUrgent (f : Frame) : Bool :=
  let k := kindOf f.id
  k == kHalt || k == kClaim || k == kConsent || k == kRelease

/-- Claim-class kinds (chapter 0, Terms). -/
def isClaimClass (f : Frame) : Bool :=
  let k := kindOf f.id
  k == kClaim || k == kConsent || k == kRelease

/-- Whether the port takes a frame in the present station state (R96): every kind in RUNNING; STAT page 0 and ANSWER in
CONFIG_FAULT, where they wait while the controller restarts (R107). -/
def portTakes (s : State) (f : Frame) : Bool :=
  match s.station.state with
  | .running => true
  | .configFault => (kindOf f.id == kStat && lowTagOf f.id == 0) || kindOf f.id == kAnswer
  | _ => false

/-- The entries of a queue without the WAITING segments of a fetch (R97). -/
def withoutFetch (n : Nat) (tx : List TxEntry) : List TxEntry :=
  tx.filter (fun e => !(e.sender == .journal n && !e.onWire))

/-- A fetch is abandoned: its waiting segments leave the transmit queue PURGED and the fetch record is discarded
(R97, R184). A fetch that is no longer held is left alone. -/
def abandonFetch (n : Nat) (s : State) : State :=
  match s.journal.fetch with
  | some f =>
    if f.number = n then
      { s with
        port := { s.port with tx := withoutFetch n s.port.tx }
        journal := { s.journal with fetch := none } }
    else s
  | none => s

/-- What a displaced entry loses: a TKT segment loses its fetch (R97). -/
def displaced (e : TxEntry) (s : State) : State :=
  match e.sender with
  | .journal n => abandonFetch n s
  | _ => s

/-- Hands a frame to the line port (R96, R97). The answer says whether the port took it. -/
def handFrame (sender : Sender) (f : Frame) (s : State) : State × Bool :=
  if portTakes s f then
    if s.port.tx.length < Config.txRoom then
      ({ s with port := { s.port with tx := txInsert ⟨f, sender, false⟩ s.port.tx } }, true)
    else if isUrgent f then
      match takeLast? (fun e => !e.onWire && isDisplaceable e.frame) s.port.tx with
      | some (e, rest) =>
        (displaced e { s with port := { s.port with tx := txInsert ⟨f, sender, false⟩ rest } }, true)
      | none => (s, false)
    else (s, false)
  else (s, false)

/-- Hands a frame whose refusal changes nothing else. -/
def sendFrame (sender : Sender) (f : Frame) (s : State) : State := (handFrame sender f s).1

/-- A page takes its place: in the waiting entry of its identifier, as a new entry where there is room, or not at all
(R100). The model's choice: where two entries of the page wait, both take the new contents (log 45). -/
def pageInto (f : Frame) (tx : List TxEntry) : List TxEntry :=
  if tx.any (fun e => e.frame.id == f.id && !e.onWire) then
    tx.map (fun e => if e.frame.id = f.id ∧ e.onWire = false then { e with frame := f } else e)
  else if tx.length < Config.txRoom then txInsert ⟨f, .port, false⟩ tx
  else tx

/-- Queues a STAT set: pages 0, 1 and 2 in RUNNING, page 0 alone in CONFIG_FAULT; the status timer starts again
(R96, R100). -/
def queueStat (s : State) : State :=
  match s.station.state with
  | .running =>
    { s with
      port := { s.port with
        tx := pageInto (pageFrame s 2) (pageInto (pageFrame s 1) (pageInto (pageFrame s 0) s.port.tx))
        statusDue := some (s.time + Config.statusPeriod) } }
  | .configFault =>
    { s with
      port := { s.port with
        tx := pageInto (pageFrame s 0) s.port.tx
        statusDue := some (s.time + Config.statusPeriod) } }
  | _ => s

/-- Runs a step, or a part of one, and queues a STAT set at its end when it has changed a state field of page 0
(R100, log 5). -/
def announce (f : State → State) (s : State) : State :=
  let t := f s
  if page0State t = page0State s then t else queueStat t

/-- Withdraws the own CLAIM of a sequence: a WAITING entry leaves the queue WITHDRAWN; otherwise the answer is TOO_LATE
and nothing changes (R98). The answer says whether the frame was withdrawn. -/
def withdrawClaim (sequence : Nat) (s : State) : State × Bool :=
  let mine (e : TxEntry) : Bool :=
    kindOf e.frame.id == kClaim && sequenceOf e.frame.id == sequence && !e.onWire
  if s.port.tx.any mine then
    ({ s with port := { s.port with tx := s.port.tx.filter (fun e => !mine e) } }, true)
  else (s, false)

/-! ### The receive queue -/

/-- Whether an entry is a frame. -/
def isRxFrame : RxEntry → Bool
  | .frame _ _ => true
  | .notice _ => false

/-- How many frames the receive queue holds; completion notices do not count (R93). -/
def rxFrames (rx : List RxEntry) : Nat := (rx.filter isRxFrame).length

/-- Kinds that a full receive queue gives up: STAT, PROG, CLOCK and TKT (R94). -/
def isRxRemovable : RxEntry → Bool
  | .frame f _ =>
    let k := kindOf f.id
    k == kStat || k == kProg || k == kClock || k == kTkt
  | .notice _ => false

/-- Updates the view entry of a station. -/
def modPeer (station : Nat) (f : Peer → Peer) (s : State) : State :=
  { s with
    claims := { s.claims with
      view := s.claims.view.map (fun p => if p.station = station then f p else p) } }

/-- The view entry of a station. -/
def peerOf (s : State) (station : Nat) : Option Peer := s.claims.view.find? (·.station == station)

/-- A take refreshes the sender's view entry; the last-heard time is never moved back (R102). -/
def refreshPeer (source arrival : Nat) (s : State) : State :=
  modPeer source (fun p => { p with lastHeard := later p.lastHeard arrival }) s

/-- The oldest entry of the receive queue, when it is a frame that satisfies `p`, is taken: it leaves the queue and
refreshes its sender's view entry (R93, R102). -/
def takeFrame (p : Frame → Bool) (s : State) : Option (Frame × Nat × State) :=
  match s.port.rx with
  | .frame f arrival :: rest =>
    if p f then
      some (f, arrival, refreshPeer (sourceOf f.id) arrival { s with port := { s.port with rx := rest } })
    else none
  | _ => none

/-- What a take does: nothing when the oldest entry of the receive queue is not a frame that satisfies `p`. -/
def takeThen (p : Frame → Bool) (f : Frame → Nat → State → State) (s : State) : State :=
  match takeFrame p s with
  | some (frame, arrival, t) => f frame arrival t
  | none => s

end Sys2Proof.Machine
end

