-- ==== Sys2Proof/Machine/JournalOps.lean ====
section
/-! DEFINITION. The journal as the other blocks use it (chapter 9): the item that a checkpoint writes (R172, R176), the
list of works with its merges (R175), the values a write takes when it begins, and what each write changes in the
journal memory (R174, R177 to R179, R181, R182, R202). -/

namespace Sys2Proof.Machine

/-! ### Hose record and intermix (R70, R71) -/

/-- What a draw delivers: a product, or a blend of a product with a component in a share. -/
structure Delivered where
  product : Nat
  blend : Option (Nat × Nat)
  deriving DecidableEq, Repr, Inhabited

/-- The hose record after a delivery that filled the hose: MIXED after a solo draw of product code 15 (R71, R170). -/
def hoseOf (d : Delivered) : Hose :=
  match d.blend with
  | some (component, share) => .blend d.product component share
  | none => if d.product = Config.mixedCode then .mixed else .product d.product

/-- Whether a hose record equals what a draw delivers (R70). -/
def hoseEquals (h : Hose) (d : Delivered) : Bool :=
  match h, d.blend with
  | .product p, none => p == d.product
  | .blend p c s, some (component, share) => p == d.product && c == component && s == share
  | _, _ => false

/-- The hose-differs mark of a draw (R70). -/
def hoseDiffers (h : Hose) (d : Delivered) : Bool := h != .unknown && !hoseEquals h d

/-- The hose record to store after an item; none leaves it unchanged (R71). -/
def hoseAfter (gross : Int) (filled : Bool) (atStart : Hose) (d : Delivered) : Option Hose :=
  if gross ≤ 0 then none
  else if filled then some (hoseOf d)
  else if hoseEquals atStart d then none
  else some .mixed

/-- The intermix part of an item (R71). -/
def intermixOf (gross : Int) (differs : Bool) (atStart : Hose) (hoseVolume : Int) : Option Intermix :=
  if differs ∧ 0 < hoseVolume ∧ 0 < gross then some ⟨atStart, min gross hoseVolume⟩ else none

/-! ### The item of the draw in progress -/

/-- What the selection delivers. -/
def deliveredOf (sel : Selection) : Delivered := ⟨sel.product, sel.blend.map (fun b => (b.product, b.share))⟩

/-- Whether the product of a context is compensated. -/
def isCompensated (c : Context) : Bool := (c.product.map (·.compensated)).getD false

/-- The ticket temperature (R29). -/
def ticketTemp (c : Context) : Int := if c.sumG = 0 then c.temp else roundDiv c.sumGT c.sumG

/-- The achieved share in tenths of a per mille (R153), also where the quotient lies outside 0 to 10,000 (log 13). -/
def achievedShare (c l : Int) : Int :=
  if l + c = 0 then 0
  else if 0 < l + c then roundDiv (c * 10000) (l + c)
  else roundDiv (-(c * 10000)) (-(l + c))

/-- A blend part without a final report: from the latest follower report, marked INCOMPLETE (R153). -/
def partFromReports (b : BlendSel) (lead : Option Lead) (l : Int) : BlendPart :=
  let c := ((lead.bind (·.report)).map (·.1)).getD 0
  { component := b.product
    follower := (lead.map (·.partner)).getD 0
    gross := none
    net := c
    temp := none
    targetShare := b.share
    achievedShare := achievedShare c l
    incomplete := true }

/-- A preset in ml as whole litres. -/
def litres (p : Option Int) : Option Int := p.map (fun ml => floorDiv ml 1000)

/-- The preset in use: that of the entry into CLOSING once the draw is there (R51). -/
def presetInUse (s : State) (cur : Current) : Option Int :=
  if s.draw.state = .closing then cur.presetAtClose else s.engine.ctx.preset

/-- The item of the station's own draw as a checkpoint writes it (R176). -/
def itemInProgress (s : State) : Option DrawItem :=
  match s.draw.selection, s.draw.current with
  | some sel, some cur =>
    let c := s.engine.ctx
    some
      { product := sel.product
        comps := sel.comps
        preset := litres (presetInUse s cur)
        gross := c.gross
        net := c.net
        avgTemp := if isCompensated c then some (ticketTemp c) else none
        vcf := c.vcf
        ending := cur.ending
        exceptions := cur.exceptions
        intermix := none
        blend := sel.blend.map (fun b => partFromReports b s.blend.lead c.net)
        progress := some
          { drawState := s.draw.state
            causes := cur.causes
            stageAtClose := cur.stageAtClose
            hoseAtStart := cur.hoseAtStart
            hoseDiffers := cur.hoseDiffers
            hoseFilled := cur.hoseFilled
            heldMark := c.held }
        netTotals := none
        grossTotals := none }
  | _, _ => none

/-! ### Works and writes (R175) -/

/-- Whether a work is a checkpoint of the own draw. -/
def isCheckpoint : Work → Bool
  | .checkpoint _ => true
  | _ => false

/-- Adds a work to the list of pending works, with the merges of R175 and R178. -/
def addWork (w : Work) (works : List Work) : List Work :=
  match w with
  | .checkpoint adds =>
    if works.any isCheckpoint then
      works.map (fun x => match x with
        | .checkpoint a => .checkpoint (a || adds)
        | y => y)
    else works ++ [w]
  | .followerCheckpoint => if works.contains .followerCheckpoint then works else works ++ [w]
  | .handOver _ _ _ => works.filter (fun x => !isCheckpoint x) ++ [w]
  | .followerCompletion _ _ _ => works.filter (fun x => x != .followerCheckpoint) ++ [w]
  | _ => works ++ [w]

/-- The record that an open write creates (R171, R174); the clock is read when the write begins (log 17). The flow
carried in is known at the write. -/
def newTicket (s : State) (number account tank opener : Nat) : Ticket where
  number := number
  station := s.station.number
  account := account
  tank := tank
  opener := opener
  openTime := s.port.clock
  closeTime := none
  timeNotSet := s.port.clock.isNone
  calibration := s.station.calibration
  status := none
  printCount := 0
  carriedIn := none
  items := []
  state := .opened

/-- The edit count of the image, item 95 (11.2). -/
def editCountOf (img : Image) : Nat := img.items.getD 94 0

/-- What a write of a work will change, with the values as they stand when it begins (R175, R176). -/
def changeOf (s : State) : Work → Change
  | .openRecord number account tank opener removed => .openRecord (newTicket s number account tank opener) removed
  | .checkpoint adds =>
    match itemInProgress s with
    | some item => .checkpoint item adds
    | none => .nothing
  | .followerCheckpoint =>
    match s.blend.binding with
    | some b => .followerPart ⟨b.product.code, s.engine.ctx.gross, s.engine.ctx.net⟩
    | none => .nothing
  | .handOver item hose closeAhead => .handOver item hose closeAhead
  | .followerCompletion product gross net => .followerCompletion product gross net
  | .closeRecord number => .closeRecord number s.port.clock
  | .collect number => .collect number
  | .printStep number => .printStep number
  | .calibration => .calibration
  | .createStation => .createStation s.cfg.initialCloseAhead (editCountOf s.station.image)
  | .clampCloseAhead => .clampCloseAhead s.cfg.aMax
  | .followerRecovery => .followerRecovery
  | .ticketRecovery => .ticketRecovery s.cfg.hoseVolume
  | .editCatchUp => .editCatchUp (editCountOf s.station.image)

/-- Begins the next write: of the oldest pending work with the pending unticketed sum, or of that sum alone when no work
is pending; with neither, the write state stays IDLE (R175). -/
def beginWrite (s : State) : State :=
  match s.journal.works with
  | w :: ws =>
    { s with
      journal := { s.journal with
        inflight := some ⟨changeOf s w, s.journal.unticketedSum⟩, works := ws, unticketedSum := 0 } }
  | [] =>
    if s.journal.unticketedSum = 0 then s
    else
      { s with
        journal := { s.journal with
          inflight := some ⟨.nothing, s.journal.unticketedSum⟩, unticketedSum := 0 } }

/-- Begins a write when none is in flight. -/
def beginIfIdle (s : State) : State := if s.journal.inflight.isNone then beginWrite s else s

/-- Hands a work to the journal (R175). -/
def handWork (w : Work) (s : State) : State :=
  beginIfIdle { s with journal := { s.journal with works := addWork w s.journal.works } }

/-- An unticketed addition joins the pending unticketed sum (R175). -/
def joinUnticketed (ml : Int) (s : State) : State :=
  { s with journal := { s.journal with unticketedSum := sum64 (s.journal.unticketedSum + ml) } }

/-! ### What a write changes in the journal memory -/

/-- The totalizer of a product code in a list of totalizers. -/
def totalOf (totals : List Int) (code : Nat) : Int := totals.getD (code - 1) 0

/-- A list of totalizers with a volume added to one; it holds at the nearest end of the 64-bit range (R177). -/
def addTotal (totals : List Int) (code : Nat) (ml : Int) : List Int :=
  totals.set (code - 1) (saturate 64 (totalOf totals code + ml))

/-- A station record with a gross and a net added to the totalizers of a product (R177). -/
def addTotals (code : Nat) (gross net : Int) (r : StationRecord) : StationRecord :=
  { r with
    grossTotals := addTotal r.grossTotals code gross
    netTotals := addTotal r.netTotals code net }

/-- An item with the totalizers before and after it (R172, R177). -/
def withTotals (r : StationRecord) (i : DrawItem) : DrawItem :=
  { i with
    netTotals := some (totalOf r.netTotals i.product, totalOf (addTotal r.netTotals i.product i.net) i.product)
    grossTotals := some (totalOf r.grossTotals i.product, totalOf (addTotal r.grossTotals i.product i.gross) i.product) }

/-- Whether the last item of a record is in progress. -/
def hasProgress (t : Ticket) : Bool := (t.items.getLast?.map (·.progress.isSome)).getD false

/-- An item in place of the item in progress; with none in progress it is added where `adds` says so (R176, R177). -/
def placeItem (adds : Bool) (i : DrawItem) (t : Ticket) : Ticket :=
  if hasProgress t then { t with items := t.items.dropLast ++ [i] }
  else if adds then { t with items := t.items ++ [i] }
  else t

/-- The OPEN record changed, the others as they were. -/
def modOpen (f : Ticket → Ticket) (ts : List Ticket) : List Ticket :=
  ts.map (fun t => if t.state = .opened then f t else t)

/-- The record of a number changed, the others as they were. -/
def modTicket (n : Nat) (f : Ticket → Ticket) (ts : List Ticket) : List Ticket :=
  ts.map (fun t => if t.number = n then f t else t)

/-- The ticket record of a number. -/
def ticketOf (m : Memory) (n : Nat) : Option Ticket := m.tickets.find? (·.number == n)

/-- A hose record set where one is given. -/
def setHose (h : Option Hose) (r : StationRecord) : StationRecord :=
  match h with
  | some x => { r with hose := x }
  | none => r

/-- The record of an interrupted drop, closed (R182). -/
def interrupted (t : Ticket) : Ticket :=
  { t with state := .closed, status := some .interrupted, closeTime := none, timeNotSet := true }

/-- An item in progress completed from its last checkpoint (R182). -/
def recoveredItem (hoseVolume : Int) (i : DrawItem) (p : Progress) : DrawItem :=
  { i with
    ending := some .powerFail
    exceptions := { i.exceptions with tempHeld := i.exceptions.tempHeld || p.heldMark }
    intermix := intermixOf i.gross p.hoseDiffers p.hoseAtStart hoseVolume
    blend := i.blend.map (fun b => { b with incomplete := true })
    progress := none }

/-- What a recovered item delivered. -/
def itemDelivered (i : DrawItem) : Delivered := ⟨i.product, i.blend.map (fun b => (b.component, b.targetShare))⟩

/-- Recovery of an OPEN record found at start (R182). -/
def recoverOpen (hoseVolume : Int) (t : Ticket) (r : StationRecord) : Option Ticket × StationRecord :=
  match t.items.getLast? with
  | none => (none, { r with unticketed := sum64 (r.unticketed + t.carriedIn.getD 0) })
  | some i =>
    match i.progress with
    | none => (some (interrupted t), r)
    | some p =>
      let done := withTotals r (recoveredItem hoseVolume i p)
      (some (interrupted { t with items := t.items.dropLast ++ [done] }),
        setHose (hoseAfter i.gross p.hoseFilled p.hoseAtStart (itemDelivered i))
          (addTotals i.product i.gross i.net r))

/-- Recovery of the ticket records (R182). -/
def recoverTickets (hoseVolume : Int) (r : StationRecord) : List Ticket → List Ticket × StationRecord
  | [] => ([], r)
  | t :: ts =>
    if t.state = .opened then
      let step := recoverOpen hoseVolume t r
      let rest := recoverTickets hoseVolume step.2 ts
      (step.1.toList ++ rest.1, rest.2)
    else
      let rest := recoverTickets hoseVolume r ts
      (t :: rest.1, rest.2)

/-- A new station record (R181). -/
def newStationRecord (closeAhead : Int) (editCount : Nat) : StationRecord where
  sequence := 0
  grossTotals := List.replicate 15 0
  netTotals := List.replicate 15 0
  closeAhead := closeAhead
  hose := .unknown
  unticketed := 0
  calibrationEvents := 0
  lastEditCount := editCount
  followerPart := none

/-- A calibration event counter with events added; it holds at 4,294,967,295 (R170). -/
def addEvents (counter events : Nat) : Nat := min (counter + events) 4294967295

/-- The carried-in flow of a record: absent when 0 (R171). -/
def carried (ml : Int) : Option Int := if ml = 0 then none else some ml

/-- The follower part added to its totalizers and removed (R178, R181). -/
def completeFollower (product : Nat) (gross net : Int) (r : StationRecord) : StationRecord :=
  { setHose (if 0 < gross then some (hoseOf ⟨product, none⟩) else none) (addTotals product gross net r) with
    followerPart := none }

/-- What a change makes of the journal memory. -/
def applyChange (c : Change) (m : Memory) : Memory :=
  match c, m.station with
  | .createStation closeAhead editCount, _ => ⟨some (newStationRecord closeAhead editCount), []⟩
  | _, none => m
  | .nothing, some _ => m
  | .openRecord t removed, some r =>
    ⟨some { r with sequence := t.number, unticketed := 0 },
      m.tickets.filter (fun x => some x.number != removed) ++ [{ t with carriedIn := carried r.unticketed }]⟩
  | .checkpoint item adds, some _ => { m with tickets := modOpen (placeItem adds item) m.tickets }
  | .followerPart part, some r => { m with station := some { r with followerPart := some part } }
  | .handOver item hose closeAhead, some r =>
    ⟨some { setHose hose (addTotals item.product item.gross item.net r) with
        closeAhead := closeAhead.getD r.closeAhead },
      modOpen (placeItem true (withTotals r item)) m.tickets⟩
  | .followerCompletion product gross net, some r => { m with station := some (completeFollower product gross net r) }
  | .closeRecord number time, some _ =>
    { m with
      tickets := modTicket number
        (fun t => { t with
          closeTime := time, timeNotSet := t.timeNotSet || time.isNone, status := some .complete, state := .closed })
        m.tickets }
  | .collect number, some _ =>
    { m with
      tickets := modTicket number
        (fun t => if t.state = .closed then { t with state := .collected } else t) m.tickets }
  | .printStep number, some _ =>
    { m with tickets := modTicket number (fun t => { t with printCount := min (t.printCount + 1) 255 }) m.tickets }
  | .calibration, some r =>
    { m with
      station := some { r with
        calibrationEvents := addEvents r.calibrationEvents 1
        lastEditCount := (r.lastEditCount + 1) % 4294967296 } }
  | .clampCloseAhead limit, some r => { m with station := some { r with closeAhead := min r.closeAhead limit } }
  | .followerRecovery, some r =>
    match r.followerPart with
    | some p => { m with station := some (completeFollower p.product p.gross p.net r) }
    | none => m
  | .ticketRecovery hoseVolume, some r =>
    let done := recoverTickets hoseVolume r m.tickets
    ⟨some done.2, done.1⟩
  | .editCatchUp editCount, some r =>
    { m with
      station := some { r with
        calibrationEvents :=
          addEvents r.calibrationEvents ((editCount + 4294967296 - r.lastEditCount % 4294967296) % 4294967296)
        lastEditCount := editCount } }

/-- An unticketed addition to the station record (R16, R175). -/
def addUnticketed (ml : Int) (m : Memory) : Memory :=
  match m.station with
  | some r => if ml = 0 then m else { m with station := some { r with unticketed := sum64 (r.unticketed + ml) } }
  | none => m

/-- What a write makes of the journal memory: its unticketed sum and its change (R175). -/
def applyWrite (w : Write) (m : Memory) : Memory := applyChange w.change (addUnticketed w.unticketed m)

/-! ### Choices at a record open (R174) -/

/-- The record to remove for a new one: none is needed below 200 records; otherwise the oldest COLLECTED record that no
print job names, if there is one (R174). -/
def chooseRemoval (s : State) : Option (Option Nat) :=
  if s.journal.mem.tickets.length < Config.ticketRoom then some none
  else
    (s.journal.mem.tickets.find? (fun t =>
      t.state == .collected && !s.printer.queue.any (fun j => j.ticket == t.number))).map (fun t => some t.number)

/-- The ticket number after one: 1 after 99,999,999 (R174). -/
def nextTicket (n : Nat) : Nat := if Config.lastTicket ≤ n then 1 else n + 1

/-- The next ticket number that no record held uses (R174); `fuel` records suffice to try one number more. -/
def chooseNumber (ts : List Ticket) : Nat → Nat → Nat
  | 0, n => n
  | fuel + 1, n => if ts.any (·.number == n) then chooseNumber ts fuel (nextTicket n) else n

/-- The station record, or that of a new part where none is held. -/
def stationRecord (s : State) : StationRecord := s.journal.mem.station.getD (newStationRecord 0 0)

/-- The print count of a record: as last written, plus the steps for it that are still to be written, up to 255
(R186, log 18). -/
def printCountOf (s : State) (t : Ticket) : Nat :=
  let waiting := (s.journal.works.filter (· == .printStep t.number)).length
  let flying := match s.journal.inflight with
    | some w => if w.change = .printStep t.number then 1 else 0
    | none => 0
  min (t.printCount + waiting + flying) 255

/-- Whether a collection of a record is still to be written (R179). -/
def collectPending (s : State) (n : Nat) : Bool :=
  s.journal.works.contains (.collect n) ||
    (match s.journal.inflight with
     | some w => w.change == .collect n
     | none => false)

end Sys2Proof.Machine
end

