-- ==== Sys2Proof/Machine/ValveOps.lean ====
section
/-! DEFINITION. The valve driver as the other blocks use it: stage requests and the dwell (R76 to R79), the commands of
the outputs and the pump (R80 to R82). -/

namespace Sys2Proof.Machine

/-! ### The meter-valve stage -/

/-- Whether the valve driver accepts a request for FAST from a block (R78). -/
def fastAccepted (who : Owner) (s : State) : Bool :=
  s.valve.halt == .clear && (s.station.state == .listening || s.station.state == .running) &&
    (match who with
     | .draw => s.draw.state == .flowing
     | .blend => s.blend.follower == .fRun || s.blend.follower == .fTrim)

/-- The block that owns the stage: the blend tracker while the follower is not UNBOUND, else the draw controller (R90). -/
def stageOwner (s : State) : Owner := if s.blend.follower = .unbound then .draw else .blend

/-- The stage as a destination. -/
def settle : StageReq → ValveRec
  | .closed => .closed
  | .slow => .slow
  | .fast => .fast

/-- The table of R76; `due` is when a dwell started now expires. -/
def stageTable (due : Nat) (r : StageReq) (v : ValveRec) : ValveRec :=
  match v, r with
  | .closed, .closed => .closed
  | .closed, .slow => .slow
  | .closed, .fast => .slowPendingFast due
  | .slow, .closed => .closed
  | .slow, .slow => .slow
  | .slow, .fast => .fast
  | .slowPendingFast _, .closed => .closed
  | .slowPendingFast _, .slow => .slow
  | .slowPendingFast d, .fast => .slowPendingFast d
  | .fast, .closed => .stepDown .closed due
  | .fast, .slow => .slow
  | .fast, .fast => .fast
  | .stepDown _ d, r => .stepDown r d

/-- The stage record at the expiry of its dwell timer; `fastOk` is the judgement of a FAST there (R77). -/
def dwellOver (fastOk : Bool) (v : ValveRec) : ValveRec :=
  match v with
  | .slowPendingFast _ => if fastOk then .fast else .slow
  | .stepDown .fast _ => if fastOk then .fast else .slow
  | .stepDown .slow _ => .slow
  | .stepDown .closed _ => .closed
  | v => v

/-- With a dwell of 0 the timer expires at the moment it starts (R77). -/
def withDwell (dwell : Nat) (fastOk : Bool) (v : ValveRec) : ValveRec := if dwell = 0 then dwellOver fastOk v else v

/-- Whether a stage request is accepted: none where stage requests are not taken (R88); while the halt state is not
CLEAR only CLOSED (R79); FAST as R78 gives. -/
def requestAccepted (who : Owner) (r : StageReq) (s : State) : Bool :=
  operating s && who == stageOwner s &&
    (match r with
     | .closed => true
     | .slow => s.valve.halt == .clear
     | .fast => fastAccepted who s)

/-- A stage request of the block that owns the stage (R76, R79, R90). A refused request leaves the record as it was. -/
def requestStage (who : Owner) (r : StageReq) (s : State) : State :=
  if requestAccepted who r s then
    if s.valve.halt = .clear then
      { s with
        valve := { s.valve with
          stage := withDwell s.cfg.dwell (fastAccepted who s)
            (stageTable (s.time + s.cfg.dwell) r s.valve.stage) } }
    else s
  else s

/-- The time at which the dwell timer expires, while it runs. -/
def dwellDue (v : ValveRec) : Option Nat :=
  match v with
  | .slowPendingFast d => some d
  | .stepDown _ d => some d
  | _ => none

/-- The valve leaves FAST at the entry into LINE_LOST (R78). -/
def lineLostStage (due : Nat) (v : ValveRec) : ValveRec :=
  match v with
  | .fast => .stepDown .slow due
  | .stepDown .fast d => .stepDown .slow d
  | .slowPendingFast _ => .slow
  | v => v

/-! ### Outputs -/

/-- The pump at a change of its command (R81, R82). -/
def pumpCommand (runOn now : Nat) (halt : HaltState) (needed : Bool) (p : PumpState) : PumpState :=
  match p, needed with
  | .off, true => if halt = .clear then .on else .off
  | .on, false => if runOn = 0 then .off else .runOn (now + 1000 * runOn)
  | .runOn _, true => .on
  | p, _ => p

/-- The valve driver takes the pump command; a command that has not changed changes nothing (R81). -/
def setPumpNeeded (needed : Bool) (s : State) : State :=
  if needed = s.valve.pumpNeeded then s
  else
    { s with
      valve := { s.valve with
        pumpNeeded := needed
        pump := pumpCommand s.cfg.runOn s.time s.valve.halt needed s.valve.pump } }

/-- Whether a consent record of this station holds a claim for a resource (R118). -/
def recordHolds (s : State) (r : Resource) : Bool := s.claims.records.any (fun x => x.1 == r)

/-- The compartments whose command the consent records set ON (R80), each by its own record (log 60). -/
def neededComps (s : State) : CompSet :=
  s.cfg.outputs.foldl (fun acc o => if recordHolds s (.comp o.comp) then acc ||| oneComp o.comp else acc) 0

/-- Whether the consent records need the pump (R81). -/
def pumpWanted (s : State) : Bool :=
  match s.cfg.pump with
  | some m => recordHolds s (.pump m)
  | none => false

/-- The claim unit sets the output commands anew from its records (R80, R81, R120). -/
def setCommands (s : State) : State :=
  setPumpNeeded (pumpWanted s) { s with valve := { s.valve with compCommands := neededComps s } }

/-- The outputs go off when the halt state leaves CLEAR (R79, R82). -/
def haltOutputs (v : Valve) : Valve := { v with stage := .closed, pump := .off }

/-- The outputs come back when the halt state returns to CLEAR (R82). -/
def restoreOutputs (v : Valve) : Valve := { v with pump := if v.pumpNeeded then .on else .off }

end Sys2Proof.Machine
end

