-- ==== Sys2Proof/Machine/EngineOps.lean ====
section
/-! DEFINITION. The volume engine (chapter 2): the readings of the probe, the ten steps of a metering update as
functions of the context, the stage points and their targets, and overrun learning. -/

namespace Sys2Proof.Machine

/-! ### Factors -/

/-- The gross divisor D_g = Kn × 1,000 (2.1). -/
def grossDivisor (cfg : Cfg) : Int := (cfg.kn : Int) * 1000

/-- The meter factor of the first linearization point, MF_1. -/
def firstFactor (cfg : Cfg) : Int := ((cfg.points.head?.map (·.2)).getD 0 : Nat)

/-- The rate from the counts of the window (R22). -/
def rateOf (kn : Nat) (window : List Int) : Nat :=
  let total := window.foldl (· + ·) 0
  min ((max total 0).toNat * 6000 / (kn * window.length)) 65535

/-- The rate window with the counts of an update appended, at most four held (R22). -/
def pushWindow (n : Int) (window : List Int) : List Int :=
  if window.length < 4 then window ++ [n] else window.drop (window.length - 3) ++ [n]

/-- The meter factor at a rate (R23). -/
def factorAt (rate : Nat) : List (Nat × Nat) → Int
  | [] => 0
  | [(_, mf)] => mf
  | (f₁, m₁) :: (f₂, m₂) :: rest =>
    if rate ≤ f₁ then m₁
    else if rate < f₂ then
      (m₁ : Int) + truncDiv (((m₂ : Int) - m₁) * ((rate : Int) - f₁)) ((f₂ : Int) - f₁)
    else factorAt rate ((f₂, m₂) :: rest)

/-- The volume correction factor of a product at a temperature (R27). -/
def vcfOf (product : Option ProductEntry) (temp : Int) : Int :=
  match product with
  | some p =>
    if p.compensated then
      let d := temp - 1500
      clampTo 900000 1100000 (1000000 - roundDiv (100 * p.alpha * d + p.beta * (d * d)) 10000)
    else 1000000
  | none => 1000000

/-- An entry of the product table by its code. -/
def productOf (cfg : Cfg) (code : Nat) : Option Product := cfg.products.find? (·.code == code)

/-- The product entry of a context (R19). -/
def entryFor (p : Product) : ProductEntry := ⟨p.code, p.compensated, p.alpha, p.beta⟩

/-! ### Temperature (R25, R26) -/

/-- Whether a reading is good (R25). -/
def isGood (r : ProbeReading) : Bool :=
  r.status == .normal && decide (-4000 ≤ r.value) && decide (r.value ≤ 7000)

/-- The engine takes a reading at a station time (R25). -/
def takeReading (now : Nat) (r : ProbeReading) (e : Engine) : Engine :=
  if isGood r then { e with probe := .good, lastGood := some r.value, holdStart := none }
  else
    { e with
      probe := .fault
      holdStart := if e.probe = .good ∨ e.holdStart = none then some now else e.holdStart }

/-- The temperature in use (R25). -/
def tempInUse (e : Engine) : Int :=
  match e.probe with
  | .none => 1500
  | .good => e.lastGood.getD 1500
  | .fault => e.lastGood.getD 1500

/-- What step 5 hands to the owner of the context (R26). -/
inductive TempEvent
  | expiry
  | restoration
  deriving DecidableEq, Repr, Inhabited

/-- Whether a temperature hold expires at an update (R26). -/
def holdExpires (now : Nat) (e : Engine) (c : Context) : Bool :=
  e.probe == .fault && isCompensated c && !c.expiry &&
    (match e.holdStart with
     | some t => decide (t + Config.tempHoldLimit < now)
     | none => false)

/-- Step 5 on the context, once the reading is taken (R26). -/
def settleTemp (now : Nat) (e : Engine) (c : Context) : Context × Option TempEvent :=
  let c' := { c with temp := tempInUse e, held := c.held || (e.probe == .fault && isCompensated c) }
  if holdExpires now e c then ({ c' with expiry := true }, some .expiry)
  else if c.expiry ∧ e.probe = .good then ({ c' with expiry := false }, some .restoration)
  else (c', none)

/-! ### Gross and net (R24, R28, R29, R30) -/

/-- The gross of an update (R24). -/
def grossOf (dg n : Int) (c : Context) : Int := floorDiv (c.grossRem + n * c.mf) dg

/-- The net of an update's gross (R28). -/
def netOf (dG : Int) (c : Context) : Int := floorDiv (c.netRem + dG * c.vcf) 1000000

/-- Converts counts to gross and net at the factors in use, with the temperature sums and the reverse gross
(R24, R28, R29, R30). -/
def convert (dg n : Int) (c : Context) : Context :=
  let dG := grossOf dg n c
  let dN := netOf dG c
  { c with
    gross := sum64 (c.gross + dG)
    grossRem := c.grossRem + n * c.mf - dG * dg
    net := sum64 (c.net + dN)
    netRem := c.netRem + dG * c.vcf - dN * 1000000
    sumGT := if 0 < dG then c.sumGT + dG * c.temp else c.sumGT
    sumG := if 0 < dG then c.sumG + dG else c.sumG
    reverse := if dG < 0 then sum64 (c.reverse - dG) else c.reverse }

/-- A 10 L crossing between two gross totals (R30). -/
def crossed (before after : Int) : Bool := floorDiv before 10000 != floorDiv after 10000

/-! ### Stage points (R31 to R34, R143) -/

/-- The net at which the draw is to stop: the preset, or the lead target L_t of a blended draw (R31, R143). -/
def stopVolume (c : Context) : Option Int :=
  c.preset.map fun p =>
    match c.share with
    | some share => floorDiv (p * (1000 - share)) 1000
    | none => p

/-- The slowdown point V_s (R31). -/
def slowdownPoint (c : Context) : Option Int := (stopVolume c).map (· - c.slowdown)

/-- The close point V_c (R31). -/
def closePoint (c : Context) : Option Int := (stopVolume c).map (· - c.closeAhead)

/-- The counts from an update to a stage point that is not reached (R32). -/
def countsTo (dg point : Int) (c : Context) : Int :=
  let g := ceilDiv ((point - c.net) * 1000000 - c.netRem) c.vcf
  ceilDiv (g * dg - c.grossRem) c.mf

/-- The next point from a preset that has been taken: SLOWDOWN where its slowdown point lies above the net, else CLOSE
(R34). -/
def nextFrom (c : Context) : Point :=
  match slowdownPoint c with
  | some v => if c.net < v then .slowdown else .close
  | none => .close

/-- A pending preset is taken (R34). -/
def takePending (c : Context) : Context :=
  match c.pending with
  | none => c
  | some p =>
    let c' := { c with preset := p, pending := none }
    { c' with nextPoint := nextFrom c' }

/-- What step 10 decides: the point found reached, and the target to load (R33). -/
structure PointChoice where
  signal : Option Point
  load : Option Point
  deriving DecidableEq, Repr, Inhabited

/-- The table of R33. As read here it holds also where S is not above A: the SLOWDOWN target is loaded while the next point
is SLOWDOWN, and a match of it signals SLOWDOWN, which R31 says such a draw does without (log 71). -/
def choosePoint (flowing : Bool) (c : Context) : PointChoice :=
  match flowing && c.owner == some .draw, closePoint c, slowdownPoint c with
  | true, some close, some slow =>
    if close ≤ c.net then ⟨some .close, none⟩
    else if c.nextPoint = .slowdown ∧ slow ≤ c.net then ⟨some .slowdown, some .close⟩
    else ⟨none, some c.nextPoint⟩
  | _, _, _ => ⟨none, none⟩

/-- The volume of a stage point. -/
def pointVolume (c : Context) : Point → Option Int
  | .slowdown => slowdownPoint c
  | .close => closePoint c

/-! ### Updates of the part's state -/

/-- The next point at clearing: SLOWDOWN (R19), and for a blended draw as its slowdown point gives it (R143, log 36). -/
def nextAtClearing (c : Context) : Point := if c.share.isSome then nextFrom c else .slowdown

/-- The metering context as it is cleared for an owner (R19). The model's choice: the close-ahead is the one last written
to the station record (log 42). -/
def clearedContext (owner : Owner) (product : Option ProductEntry) (preset : Option Int) (share : Option Nat)
    (s : State) : Context :=
  let t := tempInUse s.engine
  { owner := some owner
    product := product
    preset := preset
    share := share
    pending := none
    slowdown := s.cfg.slowdown
    closeAhead := (stationRecord s).closeAhead
    nextPoint := .slowdown
    window := []
    rate := 0
    mf := firstFactor s.cfg
    gross := 0
    grossRem := 0
    reverse := 0
    temp := t
    held := false
    expiry := false
    vcf := vcfOf product t
    net := 0
    netRem := 0
    sumGT := 0
    sumG := 0 }

/-- Clears the metering context for an owner (R19). -/
def clearContext (owner : Owner) (product : Option ProductEntry) (preset : Option Int) (share : Option Nat)
    (s : State) : State :=
  let c := clearedContext owner product preset share s
  { s with engine := { s.engine with ctx := { c with nextPoint := nextAtClearing c } } }

/-- What a metering update hands to the owner of the context, besides the values it leaves (R21). -/
structure Results where
  crossing : Bool
  temp : Option TempEvent
  signals : List Point
  deriving DecidableEq, Repr, Inhabited

/-- Steps 1 to 9 of an update on the context, once the probe reading of step 5 is taken (R21). -/
def meterContext (cfg : Cfg) (now : Nat) (n : Int) (e : Engine) (c : Context) : Context × Option TempEvent :=
  let window := pushWindow n c.window
  let rate := rateOf cfg.kn window
  let c₃ := { c with window := window, rate := rate, mf := factorAt rate cfg.points }
  let r := settleTemp now e c₃
  (convert (grossDivisor cfg) n { r.1 with vcf := vcfOf r.1.product r.1.temp }, r.2)

/-- Steps 1 to 9: the counts are taken, the reading is taken, and the context moves on (R21). -/
def meterVolumes (reading : ProbeReading) (s : State) : State × Option TempEvent :=
  let e := takeReading s.time reading s.engine
  let r := meterContext s.cfg s.time s.pulse.perUpdate e s.engine.ctx
  ({ s with
      pulse := { s.pulse with perUpdate := 0 }
      engine := { e with ctx := r.1 } }, r.2)

/-- The comparator is loaded with a target, or disarmed; a target already reached is signalled at the load (R10). -/
def loadTarget (load : Option Point) (s : State) : State × List Point :=
  match load with
  | none => ({ s with pulse := { s.pulse with target := none } }, [])
  | some k =>
    match pointVolume s.engine.ctx k with
    | none => ({ s with pulse := { s.pulse with target := none } }, [])
    | some v =>
      let count := s.pulse.running + countsTo (grossDivisor s.cfg) v s.engine.ctx
      if count ≤ s.pulse.running then ({ s with pulse := { s.pulse with target := none } }, [k])
      else ({ s with pulse := { s.pulse with target := some ⟨count, k⟩ } }, [])

/-- The next point after a signal at step 10 (R31). -/
def nextAfter (signal : Option Point) (c : Context) : Context :=
  if signal = some .slowdown then { c with nextPoint := .close } else c

/-- Step 10 (R33, R34). -/
def evaluatePoints (s : State) : State × List Point :=
  let c := takePending s.engine.ctx
  let choice := choosePoint (s.draw.state == .flowing) c
  let r := loadTarget choice.load { s with engine := { s.engine with ctx := nextAfter choice.signal c } }
  (r.1, choice.signal.toList ++ r.2)

/-- A regular metering update (R21). -/
def regularUpdate (reading : ProbeReading) (s : State) : State × Results :=
  let r := meterVolumes reading s
  let p := evaluatePoints r.1
  (p.1, ⟨crossed s.engine.ctx.gross p.1.engine.ctx.gross, r.2, p.2⟩)

/-- The final update of a session: the counts that remain, at the factors in use (R35). It tells of a 10 L crossing. -/
def finalUpdate (s : State) : State × Bool :=
  let c := convert (grossDivisor s.cfg) s.pulse.perUpdate s.engine.ctx
  ({ s with
      pulse := { s.pulse with perUpdate := 0, target := none }
      engine := { s.engine with ctx := c } },
    crossed s.engine.ctx.gross c.gross)

/-- The final values that the engine hands (R35). -/
def finalValues (c : Context) : FinalValues := ⟨c.gross, c.net, c.vcf, ticketTemp c, c.held⟩

/-- The close-ahead learned from an overrun (R37, R143): `stop` is the preset, or the lead target, in use at the
close. -/
def learnCloseAhead (aMax : Nat) (closeAhead net stop : Int) : Int :=
  clampTo 0 aMax (closeAhead + roundDiv (net - stop) 4)

end Sys2Proof.Machine
end

