-- ==== Sys2Proof/Machine/PulseOps.lean ====
section
/-! DEFINITION. The pulse counter (chapter 1): the decoder, counts and where they go, the comparator's match, the
phase-error window, the lone-edge counters, the unticketed conversion, and the opening and closing of a metering
session. -/

namespace Sys2Proof.Machine

/-! ### The decoder (R2 to R5) -/

/-- The kind of a transition (R2). -/
inductive Edge
  | none
  | forward
  | reverse
  | phaseError
  deriving DecidableEq, Repr, Inhabited

/-- The table of R2, from one pair of levels (A, B) to another. -/
def edgeOf (a b a' b' : Bool) : Edge :=
  match a != a', b != b' with
  | false, false => .none
  | true, true => .phaseError
  | true, false => if a' != b then .forward else .reverse
  | false, true => if b' == a then .forward else .reverse

/-- The count of a transition (R3, R4, R5). -/
def countOfEdge (mode : CountMode) (a b a' b' : Bool) : Int :=
  match mode, edgeOf a b a' b' with
  | .x4, .forward => 1
  | .x4, .reverse => -1
  | .x1, .forward => if !a && !b then 1 else 0
  | .x1, .reverse => if a && !b && !a' && !b' then -1 else 0
  | _, _ => 0

/-! ### Counts (R7, R9, R11, R12) -/

/-- A count is added to the running count and to one accumulator (R7); its time is the latest count's (R9). -/
def addCount (now : Nat) (n : Int) (p : Pulse) : Pulse :=
  if p.session.isSome then
    { p with running := sum64 (p.running + n), perUpdate := p.perUpdate + n, latestCount := now }
  else { p with running := sum64 (p.running + n), unticketed := p.unticketed + n, latestCount := now }

/-- A forward count in the phase-error window: at 1,000 the window closes (R12). -/
def windowCount (p : Pulse) : Pulse :=
  if p.session.isSome then
    if 1000 ≤ p.windowForward + 1 then { p with windowForward := 0, windowErrors := 0 }
    else { p with windowForward := p.windowForward + 1 }
  else p

/-- The point kind that a forward count matches; the comparator disarms (R11). -/
def matchTarget (p : Pulse) : Pulse × Option Point :=
  match p.target with
  | some t => if p.running = t.count then ({ p with target := none }, some t.kind) else (p, none)
  | none => (p, none)

/-- A count with all it moves: the accumulators, the window and the comparator (R7, R11, R12). -/
def takeCount (now : Nat) (n : Int) (p : Pulse) : Pulse × Option Point :=
  if n = 0 then (p, none)
  else if 0 < n then matchTarget (windowCount (addCount now n p))
  else (addCount now n p, none)

/-! ### Pulse security (R12, R13) -/

/-- A phase error in the window; the answer says whether PULSE_FAULT is raised (R12). A phase error clears the lone-edge
counters (R13). -/
def takePhaseError (limit : Nat) (p : Pulse) : Pulse × Bool :=
  if p.session.isSome then
    if limit < p.windowErrors + 1 then
      ({ p with windowErrors := 0, windowForward := 0, loneA := 0, loneB := 0 }, true)
    else ({ p with windowErrors := p.windowErrors + 1, loneA := 0, loneB := 0 }, false)
  else (p, false)

/-- A valid edge on channel A or on channel B in the lone-edge counters; the answer says whether PULSE_FAULT is raised
(R13). -/
def takeLoneEdge (limit : Nat) (onA : Bool) (p : Pulse) : Pulse × Bool :=
  if p.session.isSome then
    if onA then
      if limit < p.loneA + 1 then ({ p with loneA := 0, loneB := 0 }, true)
      else ({ p with loneA := p.loneA + 1, loneB := 0 }, false)
    else
      if limit < p.loneB + 1 then ({ p with loneA := 0, loneB := 0 }, true)
      else ({ p with loneA := 0, loneB := p.loneB + 1 }, false)
  else (p, false)

/-- What a transition hands on: a comparator match, and a raise of PULSE_FAULT. -/
structure PulseEvents where
  point : Option Point
  fault : Bool
  deriving DecidableEq, Repr, Inhabited

/-- A transition taken by the decoder (R2 to R5, R7, R11 to R13). -/
def takeTransition (cfg : Cfg) (now : Nat) (a b : Bool) (p : Pulse) : Pulse × PulseEvents :=
  let moved := { p with filteredA := a, filteredB := b, decoderA := a, decoderB := b }
  match edgeOf p.decoderA p.decoderB a b with
  | .none => (moved, ⟨none, false⟩)
  | .phaseError =>
    let r := takePhaseError cfg.phaseLimit moved
    (r.1, ⟨none, r.2⟩)
  | _ =>
    let c := takeCount now (countOfEdge cfg.countMode p.decoderA p.decoderB a b) moved
    let l := takeLoneEdge cfg.loneLimit (p.decoderA != a) c.1
    (l.1, ⟨c.2, l.2⟩)

/-! ### Unticketed counts and sessions (R8, R16) -/

/-- The unticketed conversion: the result joins the journal's pending unticketed sum (R16, R175). -/
def convertUnticketed (s : State) : State :=
  let acc := s.pulse.unticketedRem + s.pulse.unticketed * firstFactor s.cfg
  let ml := floorDiv acc (grossDivisor s.cfg)
  joinUnticketed ml
    { s with
      pulse := { s.pulse with unticketed := 0, unticketedRem := acc - ml * grossDivisor s.cfg } }

/-- The window and the lone-edge counters cleared, and the comparator disarmed (R8). -/
def clearChecks (p : Pulse) : Pulse :=
  { p with target := none, windowErrors := 0, windowForward := 0, loneA := 0, loneB := 0 }

/-- Opens a metering session (R8, R9, R16, R20). -/
def openSession (who : Owner) (s : State) : State :=
  let t := beginIfIdle (convertUnticketed s)
  { t with
    pulse := { clearChecks t.pulse with perUpdate := 0, latestCount := t.time, session := some who }
    engine := { t.engine with updateDue := some (t.time + Config.updatePeriod) } }

/-- Closes the metering session: the final update, then the counter at rest (R8, R35). It tells of a 10 L crossing. -/
def closeSession (s : State) : State × Bool :=
  let r := finalUpdate s
  ({ r.1 with
      pulse := { clearChecks r.1.pulse with session := none }
      engine := { r.1.engine with updateDue := none } }, r.2)

end Sys2Proof.Machine
end

