-- ==== Sys2Proof/Machine/Answers.lean ====
section
/-! DEFINITION. Answers to requests: the repeat table (R159), an answer settled and handed (R161), and the deferred
answer of a START (R161). -/

namespace Sys2Proof.Machine

/-- An answer without data. -/
def plain (r : Result) : Answer := ⟨r, .none⟩

/-- The repeat table's entry of a station (R159). -/
def entryOfStation (table : List RepeatEntry) (station : Nat) : Option RepeatEntry :=
  table.find? (·.asker.station == station)

/-- The repeat table with a station's entry replaced (R159). -/
def replaceEntry (e : RepeatEntry) (table : List RepeatEntry) : List RepeatEntry :=
  table.filter (fun x => x.asker.station != e.asker.station) ++ [e]

/-- A request enters the repeat table, DEFERRED while it is served (R159). -/
def enterRequest (a : Asker) (s : State) : State :=
  { s with handler := { s.handler with table := replaceEntry ⟨a, .deferred⟩ s.handler.table } }

/-- The entry that still holds a request is SETTLED with its answer, or with none (R159, R161). The model's choice: an entry
that holds the request's number again, after another request, counts as still holding it (log 57). -/
def settleEntry (a : Asker) (answer : Option Answer) (s : State) : State :=
  { s with
    handler := { s.handler with
      table := s.handler.table.map (fun e => if e.asker = a then { e with phase := .settled answer } else e) } }

/-- An answer is settled: the ANSWER is handed to the line port, and the repeat table keeps it (R161). -/
def answer (a : Asker) (ans : Answer) (s : State) : State :=
  settleEntry a (some ans) (sendFrame .handler (answerFrame s.station.number a ans) s)

/-- The deferred answer of a START is settled (R161). -/
def settleDeferred (ans : Answer) (s : State) : State :=
  match s.handler.deferred with
  | some a => answer a ans { s with handler := { s.handler with deferred := none } }
  | none => s

/-- The deferred answer is discarded unsent at the entry into LINE_LOST; a repeat will read CANCELLED (R161). -/
def abandonDeferred (s : State) : State :=
  match s.handler.deferred with
  | some a => settleEntry a (some (plain .cancelled)) { s with handler := { s.handler with deferred := none } }
  | none => s

end Sys2Proof.Machine
end

