-- ==== Sys2Proof/Machine/BlendOps.lean ====
section
/-! DEFINITION. The blend tracker (chapter 7): thresholds, the follower's binding, states, holds, trim and close, the
lag, and the lead's progress and blend part. -/

namespace Sys2Proof.Machine

/-! ### Thresholds (R133) -/

/-- F_on = W (R133). -/
def thresholdOn (cfg : Cfg) : Int := cfg.blendWindow
/-- F_off = floor(W / 2) (R133). -/
def thresholdOff (cfg : Cfg) : Int := floorDiv cfg.blendWindow 2
/-- R = floor(W / 4) (R133). -/
def thresholdReopen (cfg : Cfg) : Int := floorDiv cfg.blendWindow 4
/-- L_hi = 2W (R133). -/
def throttleHigh (cfg : Cfg) : Int := 2 * cfg.blendWindow
/-- L_lo = W (R133). -/
def throttleLow (cfg : Cfg) : Int := cfg.blendWindow
/-- L_abort = 4W (R133). -/
def lagAbort (cfg : Cfg) : Int := 4 * cfg.blendWindow

/-! ### The lead's progress (R138) -/

/-- The lead hands a PROG part 0 while a blended draw of its own has a metering session (R138). -/
def sendLeadProg (final : Bool) (s : State) : State :=
  match s.blend.lead with
  | some l =>
    sendFrame .blend
      (leadProgFrame s.station.number l.partner l.sequence s.engine.ctx.net s.draw.state (stageOf s.valve.stage) final) s
  | none => s

/-- The throttle mark and the previous lag are dropped, at each entry into FLOWING and each exit from it (R146, R147). -/
def clearThrottle (s : State) : State :=
  { s with blend := { s.blend with lead := s.blend.lead.map (fun l => { l with throttle := false, lastLag := none }) } }

/-- Whether the blend tracker holds the lead at SLOW (R146). -/
def throttled (s : State) : Bool := (s.blend.lead.map (·.throttle)).getD false

/-- The throttle mark after a follower report of a lag (R146). -/
def throttleAfter (cfg : Cfg) (lag : Int) (mark : Bool) : Bool :=
  if throttleHigh cfg < lag then true else if lag < throttleLow cfg then false else mark

/-- Whether a reported lag aborts the lead's flow (R147). -/
def abortsAt (cfg : Cfg) (lag : Int) (last : Option Int) : Bool :=
  match last with
  | some previous => decide (lagAbort cfg < lag) && decide (previous < lag)
  | none => false

/-! ### The blend part (R152, R153) -/

/-- The blend part from a final report (R153). -/
def partFromReport (b : BlendSel) (l : Lead) (v : FinalVolumes) (d : FinalDetails) (net : Int) : BlendPart where
  component := b.product
  follower := l.partner
  gross := some v.gross
  net := v.net
  temp := d.temp
  targetShare := b.share
  achievedShare := achievedShare v.net net
  incomplete := d.endCode == endCodeNumber .leadLost || d.endCode == endCodeNumber .pulseFault

/-- The blend part that can be assembled, once the lead's session is closed with a final net: from both parts of the
final report, or at the end of the blend wait (R152). -/
def assemblePart (b : BlendSel) (lead : Option Lead) (net : Int) : Option BlendPart :=
  match lead with
  | some l =>
    match l.part1, l.part2 with
    | some v, some d => some (partFromReport b l v d net)
    | _, _ => if l.waitOver then some (partFromReports b lead net) else none
  | none => none

/-! ### The follower's progress and checkpoints (R140, R149) -/

/-- Whether the follower's session is open: F_PRIME to F_CLOSE (7.4). -/
def followedOpen (f : FollowerState) : Bool :=
  match f with
  | .unbound => false
  | .bound => false
  | _ => true

/-- The follower hands a PROG part 0 to its lead (R140). -/
def sendFollowerProg (s : State) : State :=
  match s.blend.binding with
  | some b =>
    sendFrame .blend
      (followerProgFrame s.station.number b.lead b.claim.sequence s.engine.ctx.net s.blend.lag s.blend.follower
        (stageOf s.valve.stage)) s
  | none => s

/-- Asks the journal for a checkpoint of the followed part (R149). -/
def followerCheckpoint (s : State) : State := handWork .followerCheckpoint s

/-- What a change of follower state brings with it while the session is open: a checkpoint and a report (R140, R149). -/
def followerChanged (s : State) : State := sendFollowerProg (followerCheckpoint s)

/-- Changes the binding record. -/
def modBinding (f : Binding → Binding) (s : State) : State :=
  { s with blend := { s.blend with binding := s.blend.binding.map f } }

/-- The follower requests a stage; a refused request does not count as the last one (R145). -/
def requestFollower (r : StageReq) (s : State) : State :=
  let t := requestStage .blend r s
  if requestAccepted .blend r s then { t with blend := { t.blend with lastRequest := r } } else t

/-! ### Holds (R142) -/

/-- Reasons of the hold-reason set (R142). -/
inductive HoldReason
  | leadHeld
  | leadQuiet
  | halt
  | tempFault
  deriving DecidableEq, Repr, Inhabited

/-- The hold-reason set with a reason in or out. -/
def setHold (r : HoldReason) (on : Bool) (h : Holds) : Holds :=
  match r with
  | .leadHeld => { h with leadHeld := on }
  | .leadQuiet => { h with leadQuiet := on }
  | .halt => { h with halt := on }
  | .tempFault => { h with tempFault := on }

/-- The draw state that the latest lead report gives; a final report counts as CLOSING (R141). -/
def reportedCode (r : LeadReport) : Nat := if r.final then drawCode .closing else r.stateCode

/-- Enters F_HOLD with the valve requested CLOSED (R142). -/
def enterHold (s : State) : State :=
  followerChanged (requestFollower .closed { s with blend := { s.blend with follower := .fHold } })

/-- A hold reason arrives (R142). -/
def raiseHold (r : HoldReason) (s : State) : State :=
  match s.blend.follower with
  | .fPrime => enterHold (modBinding (fun b => { b with holds := setHold r true b.holds }) s)
  | .fRun => enterHold (modBinding (fun b => { b with holds := setHold r true b.holds }) s)
  | .fHold => modBinding (fun b => { b with holds := setHold r true b.holds }) s
  | _ => s

/-- Enters F_RUN: the last requested stage is CLOSED, and the next update chooses (R141, R145). -/
def enterRun (s : State) : State :=
  followerChanged { s with blend := { s.blend with follower := .fRun, lastRequest := .closed } }

/-- The hold-reason set of F_HOLD has emptied: the follower moves as the latest report tells (R141). A return to
F_PRIME goes on with the session and its context: the entry that clears them is the one from BOUND (log 53). -/
def leaveHold (s : State) : State :=
  match s.blend.binding with
  | some b =>
    match b.report with
    | some r =>
      if reportedCode r = drawCode .priming then
        followerChanged { s with blend := { s.blend with follower := .fPrime } }
      else if reportedCode r = drawCode .flowing then enterRun s
      else s
    | none => s
  | none => s

/-- A hold reason leaves the set (R142). -/
def dropHold (r : HoldReason) (s : State) : State :=
  match s.blend.follower, s.blend.binding with
  | .fHold, some b =>
    let t := modBinding (fun b => { b with holds := setHold r false b.holds }) s
    if b.holds ≠ .empty ∧ setHold r false b.holds = .empty then leaveHold t else t
  | _, _ => s

/-! ### Trim and close (R148, R149) -/

/-- Enters F_CLOSE with an end code (R149). -/
def enterFClose (code : EndCode) (s : State) : State :=
  let t := modBinding (fun b => { b with holds := .empty, quietDue := none }) s
  followerChanged
    (requestFollower .closed
      { t with
        blend := { t.blend with
          follower := .fClose
          trimDue := none
          closeEnteredAt := t.time
          endCode := some code
          valveNotClosed := false } })

/-- Enters F_TRIM (R148): out of F_RUN the follower requests SLOW where the lag is above 0, else CLOSED (R145). -/
def enterTrim (s : State) : State :=
  let t := modBinding (fun b => { b with holds := .empty, quietDue := none }) s
  let u := { t with blend := { t.blend with follower := .fTrim, trimDue := some (t.time + Config.trimTime) } }
  followerChanged
    (if s.blend.follower = .fRun then requestFollower (if 0 < s.blend.lag then .slow else .closed) u else u)

/-- Enters F_PRIME from BOUND: the context is cleared, the session opens, and a halt in force holds at once
(R141, R142). The model's choice: the lag is 0 until the session's first update (log 47). -/
def enterFPrime (s : State) : State :=
  match s.blend.binding with
  | some b =>
    let t := openSession .blend (clearContext .blend (some b.product) none none s)
    let u := followerChanged { t with blend := { t.blend with follower := .fPrime, lag := 0, lastRequest := .closed } }
    if u.valve.halt = .clear then u else raiseHold .halt u
  | none => s

/-- The follower moves as a report's draw state tells (R141). -/
def followReport (code : Nat) (s : State) : State :=
  let t :=
    if s.blend.follower = .bound ∧ drawCode .priming ≤ code ∧ code ≤ drawCode .closing then enterFPrime s else s
  if code = drawCode .closing then
    match t.blend.follower with
    | .fPrime => enterTrim t
    | .fRun => enterTrim t
    | .fHold => enterTrim t
    | _ => t
  else if code = drawCode .suspended then raiseHold .leadHeld t
  else if code = drawCode .priming then dropHold .leadHeld t
  else if code = drawCode .flowing then
    let u := dropHold .leadHeld t
    if u.blend.follower = .fPrime then enterRun u else u
  else t

/-- Whether the lead quiet timer is kept in a follower state (7.4). -/
def keepsQuiet (f : FollowerState) : Bool :=
  match f with
  | .bound => true
  | .fPrime => true
  | .fRun => true
  | .fHold => true
  | _ => false

/-- A lead report is taken (R139). -/
def takeLeadReport (r : LeadReport) (s : State) : State :=
  let t := followReport (reportedCode r) (dropHold .leadQuiet (modBinding (fun b => { b with report := some r }) s))
  modBinding
    (fun b => { b with
      quietDue := if keepsQuiet t.blend.follower then some (s.time + Config.leadQuietTime) else none }) t

/-- The component target C* and the lag of an update (R144). -/
def lagOf (b : Binding) (net : Int) : Int :=
  let l := (b.report.map (·.net)).getD 0
  floorDiv (l * b.share) (1000 - b.share) - net

/-- The stage that F_RUN chooses from the last request and the lag (R145). -/
def chooseStage (cfg : Cfg) (last : StageReq) (d : Int) : StageReq :=
  match last with
  | .fast => if d ≤ 0 then .closed else if d < thresholdOff cfg then .slow else .fast
  | .slow => if thresholdOn cfg ≤ d then .fast else if d ≤ 0 then .closed else .slow
  | .closed => if thresholdOn cfg ≤ d then .fast else if thresholdReopen cfg ≤ d then .slow else .closed

/-- The follower's stage choice at an update in F_RUN (R145), and the trim at an update in F_TRIM (R148). While
the lag is above 0 the request of F_TRIM stands at SLOW, also where the valve steps down to CLOSED. -/
def followStage (s : State) : State :=
  match s.blend.follower with
  | .fRun =>
    let want := chooseStage s.cfg s.blend.lastRequest s.blend.lag
    if want = s.blend.lastRequest then s else requestFollower want s
  | .fTrim =>
    if s.blend.lag ≤ 0 then enterFClose .trimmed s
    else requestFollower .slow s
  | _ => s

/-! ### Binding (R136, R137, R149, R150) -/

/-- Binds as follower of a claim (R136). -/
def bind (claim : ClaimId) (product : ProductEntry) (share : Nat) (s : State) : State :=
  { s with
    blend := { s.blend with
      follower := .bound
      binding := some ⟨claim, claim.station, product, share, none, .empty, none⟩
      endCode := none
      held := none } }

/-- Whether a claim is one whose binding has ended here: the last ended lead claim, or the bound claim of a follower that
is already in F_CLOSE (R135 part a, R137, R149, R150, R155, log 49). -/
def bindingEnded (b : Blend) (id : ClaimId) : Bool :=
  b.lastEnded == some id || (b.follower == .fClose && b.binding.map (·.claim) == some id)

/-- The end of a claim at the follower's station (R137). -/
def bindingEnd (id : ClaimId) (s : State) : State :=
  match s.blend.binding with
  | some b =>
    if b.claim = id then
      match s.blend.follower with
      | .bound => { s with blend := { s.blend with follower := .unbound, binding := none, lastEnded := some id } }
      | .fPrime => enterFClose .leadLost s
      | .fRun => enterFClose .leadLost s
      | .fHold => enterFClose .leadLost s
      | .fTrim => enterFClose .leadLost s
      | _ => s
    else s
  | none => s

/-- The partner's consent record is dropped for a claim (R149, R150). -/
def dropPartnerRecord (id : ClaimId) (s : State) : State :=
  { s with claims := { s.claims with records := s.claims.records.filter (fun x => x != (.partner, id)) } }

/-- PULSE_FAULT during the followed session (R150). -/
def followerPulseFault (s : State) : State :=
  match s.blend.binding with
  | some b =>
    let refuse (t : State) : State :=
      enterFClose .pulseFault
        (dropPartnerRecord b.claim
          (sendFrame .blend (consentFrame t.station.number b.claim .partner (some .partnerEnded)) t))
    match s.blend.follower with
    | .fPrime => refuse s
    | .fRun => refuse s
    | .fHold => refuse s
    | .fTrim => refuse s
    | _ => s
  | none => s

/-- The follower's final report (R149). -/
def finalReportOf (s : State) : FinalReport :=
  let c := s.engine.ctx
  { gross := c.gross
    net := c.net
    temp := if isCompensated c then some (ticketTemp c) else none
    vcf := c.vcf
    endCode := s.blend.endCode.getD .trimmed
    tempHeld := c.held
    valveNotClosed := s.blend.valveNotClosed }

/-- Hands parts 1 and 2 of a final report (R149, R151). -/
def sendFinalReport (lead sequence : Nat) (r : FinalReport) (s : State) : State :=
  sendFrame .blend (finalPart2Frame s.station.number lead sequence r)
    (sendFrame .blend (finalPart1Frame s.station.number lead sequence r) s)

/-- The follower's wait for the flow to stop ends (R149): the session closes, the report goes to the lead, the volumes to
the journal, and the follower is UNBOUND. -/
def followerFinish (valveNotClosed : Bool) (s : State) : State :=
  match s.blend.binding with
  | some b =>
    let c := closeSession { s with blend := { s.blend with valveNotClosed := valveNotClosed } }
    let t := if c.2 then followerCheckpoint c.1 else c.1
    let r := finalReportOf t
    let u := handWork (.followerCompletion b.product.code r.gross r.net)
      (sendFinalReport b.lead b.claim.sequence r t)
    let v := dropPartnerRecord b.claim u
    { v with
      blend := { v.blend with
        follower := .unbound
        binding := none
        lastEnded := some b.claim
        held := some
          ⟨b.claim, b.lead, r, some (s.time + Config.reportRepeatTime), some (s.time + Config.blendWaitTime)⟩ } }
  | none => s

/-- The held final report is discarded when `p` holds of it (R151). -/
def discardHeld (p : HeldReport → Bool) (s : State) : State :=
  match s.blend.held with
  | some h => if p h then { s with blend := { s.blend with held := none } } else s
  | none => s

end Sys2Proof.Machine
end

