-- ==== Sys2Proof/Machine/DrawOps.lean ====
section
/-! DEFINITION. The draw controller (chapter 3): stage choice, suspension and resume, entry into the draw states, stage
point signals, and the supervisors at a metering update. -/

namespace Sys2Proof.Machine

/-! ### The current draw record -/

/-- Changes the current draw record. -/
def modCurrent (f : Current → Current) (s : State) : State :=
  { s with draw := { s.draw with current := s.draw.current.map f } }

/-- Asks for a checkpoint of the current item (R69). -/
def checkpoint (s : State) : State := handWork (.checkpoint false) s

/-- What a change of draw state brings with it while the session is open: a checkpoint, and a PROG of a blended draw
(R69, R138). -/
def drawChanged (s : State) : State := sendLeadProg false (checkpoint s)

/-- The draw controller requests a stage and remembers the request (R48, R76). -/
def requestDraw (r : StageReq) (s : State) : State :=
  modCurrent (fun c => { c with lastRequest := r }) (requestStage .draw r s)

/-- A draw is in a state with its session open: PRIMING to CLOSING (3.3). -/
def drawOpen (d : DrawState) : Bool :=
  match d with
  | .priming => true
  | .flowing => true
  | .suspended => true
  | .closing => true
  | _ => false

/-! ### Stage choice in FLOWING (R48) -/

/-- The second condition of R48: no preset, or the slowdown point not yet passed. -/
def belowSlowdown (c : Context) : Bool :=
  match slowdownPoint c with
  | some v => c.nextPoint == .slowdown && decide (c.net < v)
  | none => true

/-- Whether R48 asks for FAST. -/
def wantsFast (s : State) (cur : Current) : Bool :=
  cur.softDone && belowSlowdown s.engine.ctx && !s.inputs.air && !cur.overForce && !throttled s

/-- The conditions of R48 are evaluated, and a request goes out when the outcome differs from the last one. -/
def evaluateStage (s : State) : State :=
  match s.draw.state, s.draw.current with
  | .flowing, some cur =>
    let want : StageReq := if wantsFast s cur then .fast else .slow
    if want = cur.lastRequest then s else requestDraw want s
  | _, _ => s

/-! ### Entry into the draw states -/

/-- The supervisors and the prime timer stop (R53, R58 to R61, R65). -/
def stopSupervisors (c : Current) : Current :=
  { c with primeDue := none, deadmanDue := none, airDue := none, overForce := false, overStart := none }

/-- The deadman timer as it starts (R58). -/
def deadmanStart (cfg : Cfg) (now : Nat) : Option Nat := if cfg.deadman = 0 then none else some (now + 1000 * cfg.deadman)

/-- The air timer as it starts: it expires when the air has lasted more than 5,000 ms (R59, log 19). -/
def airStart (now : Nat) : Nat := now + Config.airLimit + 1

/-- The current draw record at an entry into FLOWING (R49, R55, R58, R59). -/
def flowingRecord (s : State) (c : Current) : Current :=
  { c with
    causes := .empty
    softBase := s.engine.ctx.gross
    softDone := decide (s.cfg.startSlow = 0)
    exceptions := { c.exceptions with airSeen := c.exceptions.airSeen || s.inputs.air }
    enteredAt := s.time
    primeDue := none
    deadmanDue := deadmanStart s.cfg s.time
    airDue := if s.inputs.air then some (airStart s.time) else none
    overForce := false
    overStart := none }

/-- Enters FLOWING (R47, R48, R55): the request of R48, a checkpoint and a PROG. -/
def enterFlowing (s : State) : State :=
  let t := modCurrent (flowingRecord s) (clearThrottle s)
  drawChanged (evaluateStage { t with draw := { t.draw with state := .flowing } })

/-- Enters PRIMING (R47): the session opens, the item joins the record, and the prime timer starts; with a prime time of
0 the draw goes on to FLOWING. -/
def enterPriming (s : State) : State :=
  let t := openSession .draw
    (modCurrent (fun c => { c with enteredAt := s.time, primeDue := some (s.time + s.cfg.primeTime) })
      { s with draw := { s.draw with state := .priming } })
  let u := sendLeadProg false (handWork (.checkpoint true) t)
  if s.cfg.primeTime = 0 then enterFlowing u else u

/-- Leaves PRIMING, FLOWING or SUSPENDED for SUSPENDED or CLOSING, with the valve requested CLOSED (R48, R53, R65). -/
def leaveFlow (state : DrawState) (f : Current → Current) (s : State) : State :=
  let t := modCurrent (fun c => f { stopSupervisors c with enteredAt := s.time }) (clearThrottle s)
  drawChanged (requestDraw .closed { t with draw := { t.draw with state := state } })

/-- A suspend cause arrives; `raise` enters it into the set (R53). -/
def suspend (raise : Causes → Causes) (s : State) : State :=
  match s.draw.state with
  | .priming => leaveFlow .suspended (fun c => { c with causes := raise c.causes }) s
  | .flowing => leaveFlow .suspended (fun c => { c with causes := raise c.causes }) s
  | .suspended => modCurrent (fun c => { c with causes := raise c.causes }) s
  | _ => s

/-- A condition's source clears (R52, R54). -/
def clearCause (k : Cond) (s : State) : State :=
  match s.draw.state with
  | .suspended => modCurrent (fun c => { c with causes := clearCond k c.causes }) s
  | _ => s

/-- Enters CLOSING with an ending, from PRIMING, FLOWING or SUSPENDED (R50, R63, R64, R65). The blend wait of a blended
draw starts (R152). -/
def enterClosing (ending : Ending) (s : State) : State :=
  if s.draw.state = .priming ∨ s.draw.state = .flowing ∨ s.draw.state = .suspended then
    let t := leaveFlow .closing
      (fun c => { c with
        causes := .empty
        stageAtClose := some (stageOf s.valve.stage)
        ending := some ending
        presetAtClose := s.engine.ctx.preset }) s
    { t with
      blend := { t.blend with lead := t.blend.lead.map (fun l => { l with waitDue := some (s.time + Config.blendWaitTime) }) } }
  else s

/-- Returns to READY from CLAIMING: the current draw record is discarded, the selection kept (R44, R45). -/
def returnToReady (s : State) : State :=
  { s with
    draw := { s.draw with state := .ready, current := none }
    blend := { s.blend with lead := none } }

/-! ### Signals and reports that reach the draw -/

/-- A stage point is signalled (R31, R50). -/
def signalPoint (p : Point) (s : State) : State :=
  match p with
  | .slowdown => evaluateStage { s with engine := { s.engine with ctx := { s.engine.ctx with nextPoint := .close } } }
  | .close => if s.draw.state = .flowing then enterClosing .presetReached s else s

/-- A temperature event of a session of the draw (R26, R52). -/
def drawTempEvent (e : TempEvent) (s : State) : State :=
  match e with
  | .expiry => suspend (raiseCond .tempFault) s
  | .restoration => clearCause .tempFault s

/-- A temperature event of a followed session (R142). -/
def followerTempEvent (e : TempEvent) (s : State) : State :=
  match e with
  | .expiry => raiseHold .tempFault s
  | .restoration => dropHold .tempFault s

/-! ### Supervision at a metering update -/

/-- The marks that an update sets on the current draw record: REVERSE_SEEN, hose filled, soft start complete
(R49, R62, R70). -/
def updateMarks (s : State) (c : Current) : Current :=
  let ctx := s.engine.ctx
  { c with
    exceptions := { c.exceptions with reverseSeen := c.exceptions.reverseSeen || decide (0 < ctx.reverse) }
    hoseFilled := c.hoseFilled || decide ((s.cfg.hoseVolume : Int) ≤ ctx.gross)
    softDone := c.softDone ||
      (s.draw.state == .flowing && decide ((s.cfg.startSlow : Int) ≤ ctx.gross - c.softBase)) }

/-- The overspeed supervisor's record at an update in FLOWING at a rate above Fmax, with the valve's stage (R61). -/
def overspeedRecord (stage : Stage) (now : Nat) (c : Current) : Current :=
  { c with
    exceptions := { c.exceptions with overspeedSeen := true }
    overForce := true
    overStart := if c.overStart = none ∧ stage = .slow then some now else c.overStart }

/-- Whether the overspeed limit is reached (R61). -/
def overspeedOver (now : Nat) (c : Current) : Bool :=
  match c.overStart with
  | some t => decide (t + Config.overspeedLimit ≤ now)
  | none => false

/-- The overspeed supervisor at an update (R61). -/
def superviseOverspeed (s : State) : State :=
  match s.draw.state, s.draw.current with
  | .flowing, some c =>
    if s.cfg.fmax < s.engine.ctx.rate then
      let t := modCurrent (overspeedRecord (stageOf s.valve.stage) s.time) s
      if overspeedOver s.time (overspeedRecord (stageOf s.valve.stage) s.time c) then suspend (raiseLatch .overspeed) t
      else t
    else modCurrent (fun c => { c with overForce := false, overStart := none }) s
  | _, _ => s

/-- The reverse-flow supervisor at an update (R62). -/
def superviseReverse (s : State) : State :=
  if s.draw.state = .flowing ∧ (s.cfg.reverseLimit : Int) < s.engine.ctx.reverse then enterClosing .reverseFlow s else s

/-- Runs reactions that the manual gives no order among, in one of their orders (log 4). -/
def runAnyOrder (reactions : List (State → State)) (s : State) : State :=
  (anyOrder s.freeIndex reactions).foldl (fun t f => f t) { s with freeIndex := s.freeIndex + 1 }

/-- The reactions of the draw controller to an update (R26, R50, R61, R62); each judges the draw as it finds it. -/
def drawReactions (r : Results) (s : State) : List (State → State) :=
  (r.temp.map drawTempEvent).toList ++ (if s.draw.state = .flowing then [superviseOverspeed] else []) ++
    (if (s.cfg.reverseLimit : Int) < s.engine.ctx.reverse then [superviseReverse] else []) ++ r.signals.map signalPoint

/-- What the draw controller does with the results of an update (R48, R49, R50, R61, R62, R69, R70). The model's choices:
the checkpoint of a 10 L crossing is asked for before the reactions (log 44), and the conditions of R48 are evaluated
after them (log 43). -/
def drawUpdate (r : Results) (s : State) : State :=
  let t := modCurrent (updateMarks s) s
  let u := sendLeadProg false (if r.crossing then checkpoint t else t)
  evaluateStage (runAnyOrder (drawReactions r u) u)

/-- What the blend tracker does with the results of an update of a followed session (R142, R144, R145, R148, R149). -/
def followerUpdate (r : Results) (s : State) : State :=
  let t :=
    { s with
      blend := { s.blend with lag := (s.blend.binding.map (fun b => lagOf b s.engine.ctx.net)).getD s.blend.lag } }
  let u := if r.crossing then followerCheckpoint t else t
  runAnyOrder ((r.temp.map followerTempEvent).toList ++ [followStage]) (sendFollowerProg u)

/-- PULSE_FAULT is raised: the latch is set and the owner of the session is signalled; with the latch already set nothing
further changes (R14, R63, R150). -/
def raisePulseFault (s : State) : State :=
  if s.pulse.faultLatch then s
  else
    let t := { s with pulse := { s.pulse with faultLatch := true } }
    match s.pulse.session with
    | some .draw => enterClosing .pulseFault t
    | some .blend => followerPulseFault t
    | none => t

/-! ### Resume (R55, R57) -/

/-- Whether any condition of a set is flagged ACTIVE. -/
def anyActive (c : Causes) : Bool :=
  c.halt == .active || c.air == .active || c.tempFault == .active || c.ownerSilent == .active ||
    c.partnerSilent == .active || c.lineLost == .active

/-- The answer to a RESUME in SUSPENDED (R55). -/
def resumeAnswer (c : Causes) : Result :=
  if c.halt = .active then .halted
  else if c.tempFault = .active then .tempFault
  else if anyActive c then .busy
  else .ok

/-- Whether DEADMAN is the one member of a set (R57). -/
def deadmanAlone (c : Causes) : Bool := decide (c = { Causes.empty with deadman := true })

end Sys2Proof.Machine
end

