-- ==== Sys2Proof/Machine/ClaimOps.lean ====
section
/-! DEFINITION. The claim unit (chapter 6): claims and conflicts, the local checks and the building of a claim, the end
of the own claim, the judgement of claims for this station's resources, pump verdicts, the end of a peer's claim, and
view rebuild. -/

namespace Sys2Proof.Machine

/-! ### Claims (R109, R112) -/

/-- The line entry of a claim on a manifold. -/
def entryOn (c : Claim) : Manifold → Option LineEntry
  | .a => c.entryA
  | .b => c.entryB

/-- The compartments of a line entry, in ascending number. -/
def entryCompList (e : Option LineEntry) : List Nat := compsOf (entryComps e)

/-- The resources of a claim: compartments, the pump of each manifold with an entry, the partner (R109). -/
def resourcesOf (c : Claim) : List Resource :=
  (compsOf (entryComps c.entryA ||| entryComps c.entryB)).map .comp ++
    (if c.entryA.isSome then [.pump .a] else []) ++ (if c.entryB.isSome then [.pump .b] else []) ++
    (if c.partner.isSome then [.partner] else [])

/-- Two entries of one manifold with different products (R112). -/
def entriesDiffer (x y : Option LineEntry) : Bool :=
  match x, y with
  | some x, some y => x.product != y.product
  | _, _ => false

/-- A claim names a station as partner. -/
def namesPartner (c : Claim) (station : Nat) : Bool := (c.partner.map (·.1)) == some station

/-- Two claims conflict (R112). -/
def conflicts (x y : Claim) : Bool :=
  x.id.station != y.id.station &&
    (entriesDiffer x.entryA y.entryA || entriesDiffer x.entryB y.entryB ||
      (x.partner.isSome && x.partner.map (·.1) == y.partner.map (·.1)) ||
      namesPartner x y.id.station || namesPartner y x.id.station)

/-- The next claim sequence: from 255 to 1 (R109). -/
def nextSequence (n : Nat) : Nat := if 255 ≤ n then 1 else n + 1

/-! ### Ownership -/

/-- The station's own output for a compartment. -/
def outputFor (s : State) (c : Nat) : Option OwnedOutput := s.cfg.outputs.find? (·.comp == c)

/-- Whether this station owns a resource of a claim: a compartment, a pump, or itself as partner (R117). -/
def ownsResource (s : State) (c : Claim) : Resource → Bool
  | .comp n => (outputFor s n).isSome
  | .pump m => s.cfg.pump == some m
  | .partner => namesPartner c s.station.number

/-- The resources of a claim that this station owns (R117). -/
def ownedOf (s : State) (c : Claim) : List Resource := (resourcesOf c).filter (ownsResource s c)

/-! ### Building the own claim (R110, R111) -/

/-- A live owner of a compartment: the station, the manifold and the product it reports. -/
structure CompOwner where
  station : Nat
  manifold : Manifold
  product : Nat
  deriving DecidableEq, Repr, Inhabited

/-- The live owners of a compartment (R111). -/
def compOwners (s : State) (n : Nat) : List CompOwner :=
  ((outputFor s n).toList.map fun o => ⟨s.station.number, o.manifold, productAt s n⟩) ++
    s.claims.view.flatMap fun p =>
      (p.comps.filter (·.number == n)).map fun c => ⟨p.station, c.manifold, c.product⟩

/-- The live owners of a pump on a manifold (R111). -/
def pumpOwners (s : State) (m : Manifold) : List Nat :=
  (if s.cfg.pump = some m then [s.station.number] else []) ++
    (s.claims.view.filter (fun p => reportsPump p.page m)).map (·.station)

/-- The compartments that a selection names with the product each must hold, in ascending number. -/
def namedComps (sel : Selection) : List (Nat × Nat) :=
  [1, 2, 3, 4, 5, 6, 7, 8].flatMap fun n =>
    (if hasComp sel.comps n then [(n, sel.product)] else []) ++
      (match sel.blend with
       | some b => if hasComp b.comps n then [(n, b.product)] else []
       | none => [])

/-- Check 1 on the named compartments one by one: the first failure gives the answer (R111). -/
def checkComps (s : State) : List (Nat × Nat) → Option Result
  | [] => none
  | (n, product) :: rest =>
    match compOwners s n with
    | [o] => if o.product = product then checkComps s rest else some .productMismatch
    | _ => some .noOwner

/-- The compartments of a set that their one owner reports on a manifold (R110). -/
def compsOn (s : State) (m : Manifold) (set : CompSet) : CompSet :=
  (compsOf set).foldl
    (fun acc n =>
      match compOwners s n with
      | [o] => if o.manifold = m then acc ||| oneComp n else acc
      | _ => acc) 0

/-- A line entry where the set is not empty. -/
def entryIf (product : Nat) (set : CompSet) : Option LineEntry := if set = 0 then none else some ⟨product, set⟩

/-- The partner that the blend tracker names: station n + 1; none for station 15 (R134). -/
def namedPartner (s : State) : Option Nat := if s.station.number < 15 then some (s.station.number + 1) else none

/-- The claim that a selection calls for (R110). -/
def buildClaim (s : State) (sel : Selection) : Claim where
  id := ⟨s.station.number, s.claims.nextSequence⟩
  entryA := entryIf sel.product (compsOn s .a sel.comps)
  entryB :=
    match sel.blend with
    | some b => entryIf b.product b.comps
    | none => entryIf sel.product (compsOn s .b sel.comps)
  partner := sel.blend.bind fun b => (namedPartner s).map (·, b.share)

/-- The recorded owner of a resource; 0 where there is not one (R110). -/
def ownerOf (s : State) (c : Claim) : Resource → Nat
  | .comp n => ((compOwners s n).head?.map (·.station)).getD 0
  | .pump m => (pumpOwners s m).headD 0
  | .partner => (c.partner.map (·.1)).getD 0

/-- Check 3: the partner is held in the view as an INJECTOR with a draw state and no live claim (R111, R134). -/
def partnerAvailable (s : State) (c : Claim) : Bool :=
  match c.partner with
  | some (n, _) =>
    match peerOf s n with
    | some p => p.page.kind == kindCode .injector && decide (p.page.stateCode ≤ 7) && p.live.isNone
    | none => false
  | none => false

/-- The live claims of the view. -/
def liveClaims (s : State) : List LiveClaim := s.claims.view.filterMap (·.live)

/-- The local checks on a claim built from a selection: the first that fails gives the answer (R111). -/
def localChecks (s : State) (sel : Selection) (c : Claim) : Option Result :=
  match checkComps s (namedComps sel) with
  | some r => some r
  | none =>
    if sel.blend.isSome ∧ compsOn s .b sel.comps ≠ 0 then some .productMismatch
    else if (c.entryA.isSome && (pumpOwners s .a).length != 1) || (c.entryB.isSome && (pumpOwners s .b).length != 1) then
      some .noOwner
    else if sel.blend.isSome ∧ partnerAvailable s c = false then some .partnerUnavailable
    else if (liveClaims s).any (fun l => conflicts l.claim c) then some .claimLost
    else if (resourcesOf c).any (fun r =>
        ownerOf s c r != s.station.number && ((peerOf s (ownerOf s c r)).map (·.haltFlag)).getD false) then
      some .halted
    else none

/-- The own claim as it enters QUEUED (R113). -/
def queuedClaim (s : State) (c : Claim) : OwnClaim where
  claim := c
  phase := .queued
  resources := (resourcesOf c).map fun r => ⟨r, ownerOf s c r, .awaited⟩
  consentDue := some (s.time + Config.consentTime)
  rank := none
  pumpPending := false
  unjudged := false

/-! ### The end of the own claim (R114 to R116, R126) -/

/-- Changes the own claim. -/
def modOwn (f : OwnClaim → OwnClaim) (s : State) : State :=
  { s with claims := { s.claims with own := s.claims.own.map f } }

/-- A claim is dropped from every consent record, and the output commands are set anew (R116, R120). -/
def dropRecords (id : ClaimId) (s : State) : State :=
  setCommands { s with claims := { s.claims with records := s.claims.records.filter (fun x => x.2 != id) } }

/-- The own claim is released (R116). -/
def releaseOwn (s : State) : State :=
  match s.claims.own with
  | some o =>
    let t := dropRecords o.claim.id (sendFrame .claimUnit (releaseFrame o.claim.id) s)
    { t with claims := { t.claims with own := none } }
  | none => s

/-- The own claim ends in QUEUED: its CLAIM is withdrawn, or the claim is abandoned (R114, R115). -/
def withdrawOwn (s : State) : State :=
  match s.claims.own with
  | some o =>
    let r := withdrawClaim o.claim.id.sequence s
    { r.1 with
      claims := { r.1.claims with
        own := none
        abandoned := if r.2 then r.1.claims.abandoned else r.1.claims.abandoned ++ [o.claim.id.sequence] } }
  | none => s

/-- A claim that is not yet consented ends: withdrawn or released, the draw back in READY, the START answered
(R45, R46, R114, R115). -/
def endClaiming (ans : Answer) (s : State) : State :=
  match s.claims.own with
  | some o =>
    let t := if o.phase = .queued then withdrawOwn s else releaseOwn s
    settleDeferred ans (returnToReady t)
  | none => s

/-- A revocation (R126, R63). -/
def revokeOwn (s : State) : State := enterClosing .claimRevoked (releaseOwn s)

/-- A REFUSED verdict ends the claim before full consent, and revokes it after (R115, R126). -/
def refusedOwn (station reason : Nat) (s : State) : State :=
  match s.claims.own with
  | some o =>
    match o.phase with
    | .queued => s
    | .inForce => endClaiming ⟨.consentRefused, .refusal station reason⟩ s
    | .consented => revokeOwn s
  | none => s

/-! ### Statuses of the own claim (R113, R115, R128) -/

/-- Whether every status is GRANTED. -/
def allGranted (o : OwnClaim) : Bool := o.resources.all (·.status == .granted)

/-- Whether every compartment and pump is GRANTED (R128). -/
def suppliesGranted (o : OwnClaim) : Bool :=
  o.resources.all (fun r => r.resource == .partner || r.status == .granted)

/-- The status of a resource set GRANTED. -/
def grantStatus (r : Resource) (o : OwnClaim) : OwnClaim :=
  { o with resources := o.resources.map (fun x => if x.resource = r then { x with status := .granted } else x) }

/-- What follows from the statuses: full consent (R113, R45), or the report that the claim is consented again
(R128, R154, log 26). The model's choice: the OK ANSWER of the START is handed after the PROG frames of the entry into
PRIMING, and of FLOWING where the prime time is 0 (log 51). -/
def settleConsent (s : State) : State :=
  match s.claims.own with
  | some o =>
    match o.phase with
    | .queued => s
    | .inForce =>
      if allGranted o then
        settleDeferred (plain .ok)
          (enterPriming (modOwn (fun o => { o with phase := .consented, consentDue := none }) s))
      else s
    | .consented =>
      if s.station.state = .running then
        let t := if suppliesGranted o then clearCause .lineLost (clearCause .ownerSilent s) else s
        if o.resources.all (fun r => r.resource != .partner || r.status == .granted) then clearCause .partnerSilent t
        else t
      else s
  | none => s

/-! ### Judgement (R118) -/

/-- A claim as it is judged: its rank, whether it is this station's own, and whether its judgement was deferred
(R123). -/
structure Subject where
  claim : Claim
  rank : Nat
  own : Bool
  deferred : Bool
  deriving DecidableEq, Repr, Inhabited

/-- Whether a live claim that ranks before a claim conflicts with it, the own claim in force included (R118). A deferred
judgement comes in the order of entry, so it does not count the claims that are still pending (R123, log 15). -/
def earlierConflict (s : State) (x : Subject) : Bool :=
  (liveClaims s).any (fun l =>
      decide (l.rank < x.rank) && !(x.deferred && l.pending) && conflicts l.claim x.claim) ||
    (match s.claims.own with
     | some o => !x.own && o.phase != .queued && (match o.rank with
        | some r => decide (r < x.rank)
        | none => false) && conflicts o.claim x.claim
     | none => false)

/-- Whether a claim names a compartment in the entry of the manifold on which it is owned, with the product it holds
(R118, check 3). -/
def compMatches (s : State) (c : Claim) (n : Nat) : Bool :=
  match outputFor s n with
  | some o =>
    match entryOn c o.manifold with
    | some e => hasComp e.comps n && e.product == productAt s n
    | none => false
  | none => false

/-- Check 5: whether the blend tracker accepts a binding, and the product entry it would bind with (R135). -/
def bindingVerdict (s : State) (c : Claim) : Except Reason ProductEntry :=
  if bindingEnded s.blend c.id then .error .partnerEnded
  else if s.cfg.kind ≠ .injector ∨ c.id.station + 1 ≠ s.station.number then .error .busy
  else
    match c.entryB.bind (fun e => productOf s.cfg e.product) with
    | none => .error .productMismatch
    | some p =>
      if s.blend.follower ≠ .unbound ∨ s.draw.current.isSome ∨ s.claims.own.isSome then .error .busy
      else
        match peerOf s c.id.station with
        | some q =>
          if q.page.stateCode = drawCode .ready ∨ q.page.stateCode = drawCode .claiming then .ok (entryFor p)
          else .error .busy
        | none => .error .busy

/-- Checks 1 and 2 of R118. -/
def standingChecks (s : State) : Option Reason :=
  if s.valve.halt ≠ .clear then some .halted
  else if s.claims.rebuildDue.isSome then some .viewRebuild
  else none

/-- Checks 1 to 4 of R118 for a resource. -/
def resourceChecks (s : State) (x : Subject) (r : Resource) : Option Reason :=
  match standingChecks s with
  | some reason => some reason
  | none =>
    if (match r with
        | .comp n => !compMatches s x.claim n
        | _ => false) then some .productMismatch
    else if earlierConflict s x then some .conflict
    else none

/-- A verdict is handed as a CONSENT (R118). -/
def sendConsent (id : ClaimId) (r : Resource) (refused : Option Reason) (s : State) : State :=
  sendFrame .claimUnit (consentFrame s.station.number id r refused) s

/-- The compartments that count as consented for a claim of this judgement, with one more (R119). -/
def countConsented (x : Subject) (n : Nat) (s : State) : State :=
  if x.own then s
  else
    modPeer x.claim.id.station
      (fun p => { p with live := p.live.map (fun l =>
        if l.claim.id = x.claim.id then { l with consented := l.consented ||| oneComp n } else l) }) s

/-- A claim enters a consent record, at most once, and the commands follow (R118, R80, R81). -/
def addRecord (r : Resource) (id : ClaimId) (s : State) : State :=
  setCommands
    { s with
      claims := { s.claims with
        records := if s.claims.records.contains (r, id) then s.claims.records else s.claims.records ++ [(r, id)] } }

/-- A GRANTED verdict on an own resource for the own claim (R113). -/
def ownGranted (x : Subject) (r : Resource) (s : State) : State := if x.own then modOwn (grantStatus r) s else s

/-- The pump verdict of a claim is marked pending, or no longer (R119). -/
def setPumpPending (x : Subject) (on : Bool) (s : State) : State :=
  if x.own then modOwn (fun o => { o with pumpPending := on }) s
  else
    modPeer x.claim.id.station
      (fun p => { p with live := p.live.map (fun l =>
        if l.claim.id = x.claim.id then { l with pumpPending := on } else l) }) s

/-- A verdict of REFUSED for the own claim, to be acted on once every verdict is handed; the first reason stands. -/
abbrev OwnRefusal := Option Reason

/-- The first of two refusals. -/
def firstRefusal (x y : OwnRefusal) : OwnRefusal := x.orElse fun _ => y

/-- A resource is granted to a claim: the record, the CONSENT and what follows (R118, R119, R136). -/
def grant (x : Subject) (r : Resource) (s : State) : State :=
  let t := ownGranted x r (sendConsent x.claim.id r none (addRecord r x.claim.id s))
  match r with
  | .comp n => countConsented x n t
  | _ => t

/-- The pump verdict, when every compartment of the claim on the pump's manifold counts as consented (R119). -/
def pumpVerdict (x : Subject) (m : Manifold) (s : State) : State × OwnRefusal :=
  let t := setPumpPending x false s
  match standingChecks s with
  | some reason => (sendConsent x.claim.id (.pump m) (some reason) t, if x.own then some reason else none)
  | none => (grant x (.pump m) t, none)

/-- The compartments of a claim that count as consented here (R119). The model's choice: of the own claim those whose status
is GRANTED now, so that a GRANTED CONSENT from before a loss counts no more (log 73). -/
def consentedFor (x : Subject) (s : State) : CompSet :=
  if x.own then
    match s.claims.own with
    | some o =>
      o.resources.foldl (fun acc r =>
        match r.resource, r.status with
        | .comp n, .granted => acc ||| oneComp n
        | _, _ => acc) 0
    | none => 0
  else
    match (peerOf s x.claim.id.station).bind (·.live) with
    | some l => if l.claim.id = x.claim.id then l.consented else 0
    | none => 0

/-- Whether every compartment that a claim names on a manifold counts as consented (R119). -/
def compsConsented (x : Subject) (m : Manifold) (s : State) : Bool :=
  (entryCompList (entryOn x.claim m)).all (hasComp (consentedFor x s))

/-- Whether the pump is in RUN_ON. -/
def inRunOn (p : PumpState) : Bool :=
  match p with
  | .runOn _ => true
  | _ => false

/-- The judgement of one resource of a claim (R118, R119, R135). -/
def judgeResource (x : Subject) (r : Resource) (s : State) : State × OwnRefusal :=
  match resourceChecks s x r with
  | some reason => (sendConsent x.claim.id r (some reason) s, if x.own then some reason else none)
  | none =>
    match r with
    | .comp _ => (grant x r s, none)
    | .pump m =>
      if inRunOn s.valve.pump ∨ compsConsented x m s = true then pumpVerdict x m s
      else (setPumpPending x true s, none)
    | .partner =>
      match bindingVerdict s x.claim with
      | .error reason => (sendConsent x.claim.id r (some reason) s, if x.own then some reason else none)
      | .ok p => (bind x.claim.id p ((x.claim.partner.map (·.2)).getD 0) (grant x r s), none)

/-- The judgement of several resources of a claim, in order. -/
def judgeAll (x : Subject) : List Resource → State → State × OwnRefusal
  | [], s => (s, none)
  | r :: rs, s =>
    let a := judgeResource x r s
    let b := judgeAll x rs a.1
    (b.1, firstRefusal a.2 b.2)

/-- What the own verdicts bring: an end or a revocation by this station's own refusal, or the consent they complete
(R113, R126). -/
def concludeOwn (refusal : OwnRefusal) (s : State) : State :=
  match refusal with
  | some reason => refusedOwn s.station.number (reasonCode reason) s
  | none => settleConsent s

/-- The judgement of the own claim for the resources this station owns, at a rank taken now (R113, R129). -/
def judgeOwn (s : State) : State :=
  match s.claims.own with
  | some o =>
    let rank := s.claims.nextRank
    let t := modOwn (fun o => { o with rank := some rank, unjudged := false })
      { s with claims := { s.claims with nextRank := rank + 1 } }
    let r := judgeAll ⟨o.claim, rank, true, false⟩ (ownedOf s o.claim) t
    concludeOwn r.2 r.1
  | none => s

/-- A pending pump verdict of the own claim is given when it falls due (R113, R119). -/
def settleOwnPump (s : State) : State :=
  match s.claims.own, s.cfg.pump with
  | some o, some m =>
    let x : Subject := ⟨o.claim, o.rank.getD 0, true, false⟩
    if o.pumpPending ∧ compsConsented x m s = true then
      let r := pumpVerdict x m s
      concludeOwn r.2 r.1
    else s
  | _, _ => s

/-- A pending pump verdict of a peer's claim is given when it falls due (R119). -/
def settlePeerPump (station : Nat) (s : State) : State :=
  match (peerOf s station).bind (·.live), s.cfg.pump with
  | some l, some m =>
    let x : Subject := ⟨l.claim, l.rank, false, false⟩
    if l.pumpPending ∧ compsConsented x m s = true then (pumpVerdict x m s).1 else s
  | _, _ => s

/-! ### Peers' claims (R117, R120, R123, R129) -/

/-- The judgement of a peer's live claim for some of its resources, at its rank (R118). -/
def judgePeer (deferred : Bool) (station : Nat) (rs : List Resource) (s : State) : State :=
  match (peerOf s station).bind (·.live) with
  | some l => (judgeAll ⟨l.claim, l.rank, false, deferred⟩ rs s).1
  | none => s

/-- The end of a peer's live claim at this station (R120): out of the view and the records, the commands anew, and a
binding to it ended. -/
def endPeerClaim (station : Nat) (s : State) : State :=
  match (peerOf s station).bind (·.live) with
  | some l =>
    bindingEnd l.claim.id
      (dropRecords l.claim.id
        (modPeer station (fun p => { p with live := none, lastEnded := some l.claim.id.sequence }) s))
  | none => s

/-- A claim becomes the live claim of its sender and takes the next rank; a claim of the sender held before has ended
first, and what that changes of page 0 is announced by itself, for the new claim may change it back (R100, R117, R123). -/
def enterClaim (c : Claim) (pending : Bool) (s : State) : State :=
  let t := announce (endPeerClaim c.id.station) s
  modPeer c.id.station
    (fun p => { p with live := some ⟨c, t.claims.nextRank, pending, 0, false, none⟩ })
    { t with claims := { t.claims with nextRank := t.claims.nextRank + 1 } }

/-- A peer's claim in conflict with the own claim while that is QUEUED ends the own claim (R114). -/
def yieldTo (c : Claim) (s : State) : State :=
  match s.claims.own with
  | some o => if o.phase = .queued ∧ conflicts o.claim c = true then endClaiming (plain .claimLost) s else s
  | none => s

/-- A pending claim is judged: it takes a rank now (R123, R129, log 15). -/
def judgePendingOf (station : Nat) (s : State) : State :=
  match (peerOf s station).bind (·.live) with
  | some l =>
    if l.pending then
      let rank := s.claims.nextRank
      judgePeer true station (ownedOf s l.claim)
        (modPeer station (fun p => { p with live := some { l with rank := rank, pending := false } })
          { s with claims := { s.claims with nextRank := rank + 1 } })
    else s
  | none => s

/-- Places a station in a list ordered by the rank of its claim. -/
def insertByRank (x : Nat × Nat) : List (Nat × Nat) → List (Nat × Nat)
  | [] => [x]
  | y :: ys => if x.1 < y.1 then x :: y :: ys else y :: insertByRank x ys

/-- The stations whose live claims are pending, in the order they were entered (R123). -/
def pendingStations (s : State) : List Nat :=
  ((s.claims.view.filterMap (fun p => p.live.bind (fun l => if l.pending then some (l.rank, p.station) else none))).foldl
    (fun acc x => insertByRank x acc) []).map (·.2)

/-- The pending claims are judged in the order they were entered, then a kept own claim left unjudged (R129, R130). -/
def judgePending (s : State) : State :=
  let t := (pendingStations s).foldl (fun s n => judgePendingOf n s) s
  match t.claims.own with
  | some o => if o.unjudged then judgeOwn t else t
  | none => t

/-! ### View rebuild (R130) -/

/-- A claim-class or HALT frame was lost: view rebuild starts, or starts again (R94, R130). -/
def enterRebuild (s : State) : State :=
  let t := { s with claims := { s.claims with rebuildDue := some (s.time + Config.rebuildTime) } }
  match t.claims.own with
  | some o => if o.phase = .queued then endClaiming (plain .viewRebuild) t else t
  | none => t

/-! ### LINE_LOST (R129) -/

/-- The own claim at the entry into LINE_LOST: kept with every resource LOST if CONSENTED (R129), none of them counted as
consented for the own pump (log 73). -/
def lostClaim (o : OwnClaim) : Option OwnClaim :=
  if o.phase = .consented then
    some { o with
      resources := o.resources.map (fun r => { r with status := .lost })
      rank := none
      pumpPending := false
      unjudged := true }
  else none

end Sys2Proof.Machine
end

