-- ==== Sys2Proof/Machine/CloseOps.lean ====
section
/-! DEFINITION. The end of a draw (R66 to R68, R71, R152): the session closes, the item is completed and handed to the
journal. And the halt state machine with all it tells (R79, R82 to R86), and the entries into LINE_LOST and RUNNING. -/

namespace Sys2Proof.Machine

/-! ### The end of CLOSING -/

/-- The exception set of an item: TEMP_HELD joins when the held mark is set (R68). -/
def itemExceptions (c : Current) (f : FinalValues) : Exceptions :=
  { c.exceptions with tempHeld := c.exceptions.tempHeld || f.held }

/-- The completed item (R68). -/
def completedItem (s : State) (sel : Selection) (c : Current) (f : FinalValues) (part : Option BlendPart) : DrawItem where
  product := sel.product
  comps := sel.comps
  preset := litres c.presetAtClose
  gross := f.gross
  net := f.net
  avgTemp := if isCompensated s.engine.ctx then some f.temp else none
  vcf := f.vcf
  ending := c.ending
  exceptions := itemExceptions c f
  intermix := intermixOf f.gross c.hoseDiffers c.hoseAtStart s.cfg.hoseVolume
  blend := part
  progress := none
  netTotals := none
  grossTotals := none

/-- The close-ahead learned from an item, where overrun learning applies (R37, R143). It is added to the close-ahead of
the context, also where the station record holds another by then (log 42). -/
def learned (s : State) (c : Current) (f : FinalValues) : Option Int :=
  if c.ending = some .presetReached ∧ c.stageAtClose = some .slow ∧ c.exceptions.valveNotClosed = false then
    (stopVolume { s.engine.ctx with preset := c.presetAtClose }).map
      (learnCloseAhead s.cfg.aMax s.engine.ctx.closeAhead f.net ·)
  else none

/-- The item goes to the journal, and the draw returns to DROP_OPEN (R68, R177). -/
def completeItem (sel : Selection) (c : Current) (f : FinalValues) (part : Option BlendPart) (s : State) : State :=
  let t := handWork
    (.handOver (completedItem s sel c f part) (hoseAfter f.gross c.hoseFilled c.hoseAtStart (deliveredOf sel))
      (learned s c f)) s
  { t with
    draw :=
      { state := .dropOpen
        drop := t.draw.drop.map (fun d => { d with items := d.items + 1 })
        selection := none
        current := none }
    blend := { t.blend with lead := none } }

/-- The blend part is assembled at the first moment it can be, the item completed, and the held release made (R152). -/
def tryAssemble (s : State) : State :=
  match s.draw.state, s.draw.selection, s.draw.current with
  | .closing, some sel, some c =>
    match c.final, sel.blend with
    | some f, some b =>
      match assemblePart b s.blend.lead f.net with
      | some part => releaseOwn (completeItem sel c f (some part) s)
      | none => s
    | _, _ => s
  | _, _, _ => s

/-- The wait of CLOSING ends (R66): the session closes with its final update and, for a solo draw, the claim is released
and the item completed; a blended draw goes on to wait for its blend part (R68, R152). -/
def finishClosing (valveNotClosed : Bool) (s : State) : State :=
  let r := closeSession
    (modCurrent (fun c => { c with
      exceptions := { c.exceptions with valveNotClosed := c.exceptions.valveNotClosed || valveNotClosed } }) s)
  let t := modCurrent (updateMarks r.1) r.1
  let u := sendLeadProg true (if r.2 then checkpoint t else t)
  let f := finalValues u.engine.ctx
  match u.draw.selection, u.draw.current with
  | some sel, some c =>
    match sel.blend with
    | none => completeItem sel c f none (releaseOwn u)
    | some _ => tryAssemble (modCurrent (fun c => { c with final := some f }) u)
  | _, _ => u

/-- Whether the draw is in CLOSING with its session still open (R66). -/
def closingOpen (s : State) : Bool :=
  s.draw.state == .closing && (match s.draw.current with
    | some c => c.final.isNone
    | none => false)

/-! ### The halt state machine (R83) -/

/-- What the halt state's leaving CLEAR brings (R79, R82, R46, R52, R142). -/
def haltBegins (s : State) : State :=
  let t := { s with valve := haltOutputs s.valve }
  raiseHold .halt
    (if t.draw.state = .claiming then endClaiming (plain .halted) t else suspend (raiseCond .halt) t)

/-- What the halt state's return to CLEAR brings (R82, R52, R142). -/
def haltEnds (s : State) : State :=
  dropHold .halt (clearCause .halt { s with valve := restoreOutputs s.valve })

/-- The halt state moves (R83). -/
def setHalt (h : HaltState) (s : State) : State :=
  let t := { s with valve := { s.valve with halt := h } }
  if s.valve.halt = .clear ∧ h ≠ .clear then haltBegins t
  else if s.valve.halt ≠ .clear ∧ h = .clear then haltEnds t
  else t

/-- A source has gone inactive: with both inactive, HALTED is left as the halt recovery tells (R83). -/
def sourceQuiet (s : State) : State :=
  if s.valve.halt = .halted ∧ s.inputs.emergencyStop = false ∧ s.valve.heardDue = none then
    match s.cfg.haltRecovery with
    | .selfClearing => setHalt .clear s
    | .latched => setHalt .latched s
  else s

/-- A HALT frame is handed to the line port (R84). -/
def sendHalt (s : State) : State := sendFrame .valve (haltFrame s.station.number) s

/-- The local source becomes active (R83, R84). -/
def localHalt (s : State) : State :=
  setHalt .halted
    (sendHalt
      { s with
        inputs := { s.inputs with emergencyStop := true }
        valve := { s.valve with haltRepeatDue := some (s.time + Config.statusPeriod) } })

/-- A HALT frame is heard: the halt-heard timer starts, and its source is active (R85). -/
def hearHalt (s : State) : State :=
  setHalt .halted { s with valve := { s.valve with heardDue := some (s.time + Config.haltHeardTime) } }

/-! ### LINE_LOST and RUNNING -/

/-- The line port at bus-off: the queues are emptied, a fetch is abandoned, the restart timer starts (R104). As read here,
the status timer stops in CONFIG_FAULT too, from bus-off until the port restart (R105, R107, R108, log 70). -/
def purgePort (s : State) : State :=
  { s with
    port := { s.port with
      tx := [], rx := [], statusDue := none, restartDue := some (s.time + Config.restartTime) }
    journal := { s.journal with fetch := none } }

/-- The claim unit at the entry into LINE_LOST (R129). -/
def claimsLost (s : State) : State :=
  setCommands
    { s with
      claims := { s.claims with
        view := [], records := [], rebuildDue := none, abandoned := [], own := s.claims.own.bind lostClaim } }

/-- The bound claim ends at this station with the view (R137, R155). R156 has the binding record emptied at bus-off; as read
here, a follower that is in F_CLOSE, or enters it so, keeps it until UNBOUND, for R149 needs it there (log 63). -/
def bindingLost (s : State) : State :=
  match s.blend.binding with
  | some b => bindingEnd b.claim s
  | none => s

/-- The draw at the entry into LINE_LOST (R46, R72): CLAIMING returns to READY with the deferred answer abandoned. -/
def drawLost (s : State) : State :=
  if s.draw.state = .claiming then abandonDeferred (returnToReady s) else suspend (raiseCond .lineLost) s

/-- The station enters LINE_LOST from RUNNING (R78, R104, R129). The model's choice: a request in SERVING waits on for what
it waits for, and is settled then (R169, log 58). -/
def enterLineLost (s : State) : State :=
  let t := purgePort { s with station := { s.station with state := .lineLost } }
  let u :=
    { t with
      valve := { t.valve with
        stage := withDwell t.cfg.dwell false (lineLostStage (t.time + t.cfg.dwell) t.valve.stage) } }
  drawLost (bindingLost (claimsLost u))

/-- The station enters RUNNING (R198): the first STAT set, the pending claims, and HALT where the local source is
active. -/
def enterRunning (s : State) : State :=
  let t := queueStat { s with station := { s.station with state := .running, quietDue := none } }
  let u := if t.claims.rebuildDue.isSome then t else judgePending t
  let v := settleConsent u
  if v.inputs.emergencyStop then
    sendHalt { v with valve := { v.valve with haltRepeatDue := some (v.time + Config.statusPeriod) } }
  else v

end Sys2Proof.Machine
end

