-- ==== Sys2Proof/Machine/HandlerOps.lean ====
section
/-! DEFINITION. The request handler's taking of a request (R157 to R160), the requests that the journal serves
(R157, R166, R167, R174, R179, R183), and the ticket fetch (R183, R184). -/

namespace Sys2Proof.Machine

/-! ### Taking a request -/

/-- Whether an oldest receive-queue entry is the ASK that a request command takes (R93, R157). -/
def isAsk (code : Nat → Bool) (f : Frame) : Bool := kindOf f.id == kAsk && code (askCodeOf f.id)

/-- The broadcasts that are served: PAUSE, END and RESUME_HALT (R158). -/
def servedBroadcast (code : Nat) : Bool := code == 4 || code == 6 || code == 10

/-- Whether a request is one that only the drop's opening station may make (R160). -/
def ownersOnly : Request → Bool
  | .select _ _ => true
  | .start => true
  | .resume => true
  | .setPreset _ _ => true
  | .closeDrop => true
  | _ => false

/-- Whether drop ownership refuses an asker (R160). -/
def notOwner (s : State) (a : Asker) (r : Request) : Bool :=
  ownersOnly r && (match s.draw.drop with
    | some d => d.opener != a.station
    | none => false)

/-- A request that is not a repeat, in the order of R158, R199 and R160: a broadcast that is not served is set aside;
CONFIG_FAULT answers; an ASK that cannot be decoded is INVALID; ownership is judged; what is left is served. As read here,
a sealed station in CONFIG_FAULT answers a WRITE_CONFIG with CONFIG_FAULT (R199) and not SEALED (R168, R195) (log 74). -/
def judgeAsk (f : Frame) (serve : Asker → Request → State → State) (s : State) : State :=
  let a := askerOf f
  if destOf f.id = 0 ∧ servedBroadcast a.code = false then settleEntry a none s
  else if s.station.state = .configFault ∧ ¬(a.code = 16 ∧ destOf f.id ≠ 0 ∧ s.station.calibration = true) then
    answer a (plain .configFault) s
  else
    match decodeAsk f with
    | none => answer a (plain .invalid) s
    | some r => if notOwner s a r then answer a (plain .notOwner) s else serve a r s

/-- An ASK is taken: a repeat is answered from the table or set aside (R159), anything else is judged. -/
def handleAsk (f : Frame) (serve : Asker → Request → State → State) (s : State) : State :=
  let a := askerOf f
  match entryOfStation s.handler.table a.station with
  | some e =>
    if e.asker = a then
      match e.phase with
      | .settled (some ans) => sendFrame .handler (answerFrame s.station.number a ans) s
      | .settled none => s
      | .deferred => s
    else judgeAsk f serve (enterRequest a s)
  | none => judgeAsk f serve (enterRequest a s)

/-- Whether the request handler takes an ASK now: in RUNNING or CONFIG_FAULT, IDLE (R157). -/
def handlerTakes (s : State) : Bool :=
  (s.station.state == .running || s.station.state == .configFault) && s.handler.serving.isNone

/-- A request command: the handler takes the oldest receive-queue entry, when that is an ASK of this request's code
(R93, R157; log 23). -/
def takeAsk (code : Nat → Bool) (serve : Asker → Request → State → State) (s : State) : State :=
  if handlerTakes s then takeThen (isAsk code) (fun f _ t => handleAsk f serve t) s else s

/-- A request command of one code. -/
def takeRequest (code : Nat) (serve : Asker → Request → State → State) (s : State) : State := takeAsk (· == code) serve s

/-! ### Ticket fetch (R183, R184) -/

/-- Hands the next segment of a fetch, where one remains. A refused segment abandons the fetch (R184). -/
def handSegment (s : State) : State :=
  match s.journal.fetch with
  | some f =>
    match f.segments[f.next]? with
    | some seg =>
      let r := handFrame (.journal f.number)
        (tktFrame s.station.number f.station f.next (decide (f.next + 1 = f.segments.length)) seg) s
      if r.2 then
        { r.1 with journal := { r.1.journal with fetch := some { f with next := f.next + 1, queued := f.queued + 1 } } }
      else abandonFetch f.number s
    | none => s
  | none => s

/-- A segment of a fetch is reported SENT: the next is handed, or the fetch ends with its last (R183). -/
def segmentSent (number : Nat) (s : State) : State :=
  match s.journal.fetch with
  | some f =>
    if f.number = number then
      let t := { s with journal := { s.journal with fetch := some { f with queued := f.queued - 1 } } }
      if f.next < f.segments.length then handSegment t
      else if f.queued - 1 = 0 then { t with journal := { t.journal with fetch := none } }
      else t
    else s
  | none => s

/-- A fetch begins: the copy is taken, and segments 0 and 1 are handed (R183). -/
def beginFetch (station : Nat) (t : Ticket) (s : State) : State :=
  handSegment
    (handSegment
      { s with
        journal := { s.journal with
          fetch := some ⟨s.journal.nextFetch, station, t.number, ticketSegments t, 0, 0⟩
          nextFetch := s.journal.nextFetch + 1 } })

/-! ### Requests that the journal serves -/

/-- An OPEN_DROP is taken by the journal (R41, R174). -/
def serveOpenDrop (a : Asker) (account tank : Nat) (s : State) : State :=
  match chooseRemoval s with
  | none => answer a (plain .journalFull) s
  | some removed =>
    let t := convertUnticketed s
    let n := chooseNumber t.journal.mem.tickets (t.journal.mem.tickets.length + 1) (nextTicket (stationRecord t).sequence)
    let u := handWork (.openRecord n account tank a.station removed) t
    answer a ⟨.ok, .ticket n⟩
      { u with draw := ⟨.dropOpen, some ⟨account, tank, a.station, n, 0⟩, none, none⟩ }

/-- A CLOSE_DROP that was accepted is taken by the journal (R43, R179). -/
def serveCloseDrop (a : Asker) (s : State) : State :=
  match s.draw.drop with
  | some d =>
    let t := handWork (.closeRecord d.ticket) s
    answer a (plain .ok) { t with draw := ⟨.idle, none, none, none⟩ }
  | none => answer a (plain .invalid) s

/-- An ACK_TICKET is taken by the journal (R167, R179). -/
def serveAckTicket (a : Asker) (n : Nat) (s : State) : State :=
  match ticketOf s.journal.mem n with
  | none => answer a (plain .unknownTicket) s
  | some t =>
    match t.state with
    | .opened => answer a (plain .busy) s
    | .collected => answer a (plain .ok) s
    | .closed => answer a (plain .ok) (if collectPending s n then s else handWork (.collect n) s)

/-- A FETCH_TICKET is taken by the journal (R167, R183): the ANSWER is handed before the first segment. -/
def serveFetchTicket (a : Asker) (n : Nat) (s : State) : State :=
  match ticketOf s.journal.mem n with
  | none => answer a (plain .unknownTicket) s
  | some t =>
    if s.journal.fetch.isSome then answer a (plain .busy) s
    else beginFetch a.station t (answer a (plain .ok) s)

/-- The value of a READ_TOTALS item (R166). -/
def totalsValue (r : StationRecord) (item : TotalsItem) (product : Nat) : Int :=
  match item with
  | .gross => totalOf r.grossTotals product
  | .net => totalOf r.netTotals product
  | .unticketed => r.unticketed
  | .closeAhead => r.closeAhead
  | .calibrationEvents => r.calibrationEvents
  | .ticketSequence => r.sequence

/-- A READ_TOTALS is taken by the journal (R166). -/
def serveReadTotals (a : Asker) (item : TotalsItem) (product : Nat) (s : State) : State :=
  answer a ⟨.ok, .value (totalsValue (stationRecord s) item product)⟩ s

/-- The journal takes a request (R157, R175). -/
def serveJournal (a : Asker) (r : Request) (s : State) : State :=
  match r with
  | .openDrop account tank => serveOpenDrop a account tank s
  | .closeDrop => serveCloseDrop a s
  | .ackTicket n => serveAckTicket a n s
  | .fetchTicket n => serveFetchTicket a n s
  | .readTotals item product => serveReadTotals a item product s
  | _ => s

/-- A request goes to the journal: taken at once when no write is in flight, else it waits in SERVING (R157). -/
def askJournal (a : Asker) (r : Request) (s : State) : State :=
  if s.journal.inflight.isNone then serveJournal a r s
  else { s with handler := { s.handler with serving := some ⟨a, r⟩ } }

/-- The request that waits in SERVING for the journal (R175); a WRITE_CONFIG waits for the configuration memory
instead (R201). -/
def waitingRequest (s : State) : Option Serving :=
  match s.handler.serving with
  | some sv =>
    match sv.request with
    | .writeConfig _ _ => none
    | _ => some sv
  | none => none

/-- At the completion of a write the waiting request is taken, before the next write begins (R175). -/
def takeWaiting (s : State) : State :=
  match waitingRequest s with
  | some sv => serveJournal sv.asker sv.request { s with handler := { s.handler with serving := none } }
  | none => s

end Sys2Proof.Machine
end

