-- ==== Sys2Proof/Machine/PrinterOps.lean ====
section
/-! DEFINITION. The ticket printer port (chapter 10): the printed text of a ticket (R193, 12.5), the formatter, the
transmitter, jobs, flow control and the abort of a job. -/

namespace Sys2Proof.Machine

/-! ### Text (12.5) -/

/-- The digits of a number, least significant first; `fuel` bounds their count. -/
def digitsRev : Nat → Nat → List Byte
  | 0, _ => []
  | fuel + 1, n =>
    BitVec.ofNat 8 (48 + n % 10) :: (if n < 10 then [] else digitsRev fuel (n / 10))

/-- A number in decimal, without leading zeros. -/
def decimal (n : Nat) : List Byte := (digitsRev 40 n).reverse

/-- A number in at least `width` digits, padded with leading zeros. -/
def padded (width n : Nat) : List Byte :=
  let d := decimal n
  List.replicate (width - d.length) 48 ++ d

/-- A sign before a negative number. The model's choice: the minus of 12.5 is character code 45 (log 30). -/
def signOf (x : Int) : List Byte := if x < 0 then chars "-" else []

/-- A number of `10 ^ places`-ths with a decimal point. -/
def fixedPoint (places : Nat) (x : Int) : List Byte :=
  signOf x ++ decimal (x.natAbs / 10 ^ places) ++ chars "." ++ padded places (x.natAbs % 10 ^ places)

/-- A volume: 12345.678 L. -/
def volumeText (ml : Int) : List Byte := fixedPoint 3 ml ++ chars " L"
/-- A temperature: -4.50 C. -/
def tempText (t : Int) : List Byte := fixedPoint 2 t ++ chars " C"
/-- A VCF: 1.008600. -/
def vcfText (v : Int) : List Byte := fixedPoint 6 v
/-- A share from tenths of a per mille: 199.5 per mille. -/
def shareText (tenths : Int) : List Byte := fixedPoint 1 tenths ++ chars " per mille"

/-- Carriage return and line feed. -/
def endOfLine : List Byte := [13, 10]

/-- The columns of a line (12.5). -/
abbrev columns : Nat := 32

/-- A line of a label and a value: the value ends at column 32, on a line of its own where it does not fit
(12.5). The model's choice: an empty value, such as a name of spaces, leaves the label alone (log 30). -/
def lineOf (label value : List Byte) : List Byte :=
  if value = [] then label ++ endOfLine
  else if label.length + 1 + value.length ≤ columns then
    label ++ List.replicate (columns - label.length - value.length) 32 ++ value ++ endOfLine
  else label ++ endOfLine ++ List.replicate (columns - value.length) 32 ++ value ++ endOfLine

/-- A line of a fixed label. -/
def labelled (label : String) (value : List Byte) : List Byte := lineOf (chars label) value

/-- A line for a field where it is present. -/
def lineFor {α : Type} (label : String) (text : α → List Byte) (field : Option α) : List Byte :=
  match field with
  | some x => labelled label (text x)
  | none => []

/-- A label alone where a mark is set. -/
def markLine (label : String) (mark : Bool) : List Byte := if mark then labelled label [] else []

/-! ### Dates -/

/-- Whether a year is a leap year. -/
def isLeap (y : Nat) : Bool := y % 4 == 0 && (y % 100 != 0 || y % 400 == 0)

/-- The days of a year. -/
def yearDays (y : Nat) : Nat := if isLeap y then 366 else 365

/-- The days of the months of a year. -/
def monthDays (y : Nat) : List Nat := [31, if isLeap y then 29 else 28, 31, 30, 31, 30, 31, 31, 30, 31, 30, 31]

/-- The year of a day counted from the start of a year, and the day in it. -/
def splitYear : Nat → Nat → Nat → Nat × Nat
  | 0, y, d => (y, d)
  | fuel + 1, y, d => if d < yearDays y then (y, d) else splitYear fuel (y + 1) (d - yearDays y)

/-- The month of a day in the year, and the day of the month. -/
def splitMonth : Nat → List Nat → Nat → Nat × Nat
  | m, [], d => (m, d + 1)
  | m, n :: ns, d => if d < n then (m, d + 1) else splitMonth (m + 1) ns (d - n)

/-- A station clock value as date and time: 2024-03-09 14:05:33. The range of the clock ends in 2136. -/
def dateText (seconds : Nat) : List Byte :=
  let ymd := splitYear 140 2000 (seconds / 86400)
  let md := splitMonth 1 (monthDays ymd.1) ymd.2
  padded 4 ymd.1 ++ chars "-" ++ padded 2 md.1 ++ chars "-" ++ padded 2 md.2 ++ chars " " ++
    padded 2 (seconds / 3600 % 24) ++ chars ":" ++ padded 2 (seconds / 60 % 60) ++ chars ":" ++ padded 2 (seconds % 60)

/-! ### The ticket text (R193) -/

/-- A text without its trailing spaces. -/
def trimmed (text : List Byte) : List Byte := (text.reverse.dropWhile (· == 32)).reverse

/-- The name of a product, or its code when the table has no entry for it (R193). The manual gives the code for line 11; the
model's choice: the products of the lines 11g and 11h are named in the same way (log 30). -/
def nameText (cfg : Cfg) (code : Nat) : List Byte :=
  match productOf cfg code with
  | some p => trimmed p.name
  | none => decimal code

/-- What an intermix line names: MIXED, or the product, of a blend the blend's product (12.5, log 30). -/
def hoseText (cfg : Cfg) : Hose → List Byte
  | .unknown => decimal 0
  | .product p => nameText cfg p
  | .blend p _ _ => nameText cfg p
  | .mixed => chars "MIXED"

/-- The name of an ending. -/
def endingText : Ending → List Byte
  | .presetReached => chars "PRESET_REACHED"
  | .endedByRequest => chars "ENDED_BY_REQUEST"
  | .reverseFlow => chars "REVERSE_FLOW"
  | .pulseFault => chars "PULSE_FAULT"
  | .claimRevoked => chars "CLAIM_REVOKED"
  | .powerFail => chars "POWER_FAIL"

/-- Compartment numbers, ascending, separated by commas; the model's choice: with no space after a comma (log 30). -/
def compsText : List Nat → List Byte
  | [] => []
  | [n] => decimal n
  | n :: ns => decimal n ++ chars "," ++ compsText ns

/-- A member of the exception set on a line of its own. -/
def exceptionLine (name : String) (member : Bool) : List Byte :=
  if member then labelled "EXCEPTION" (chars name) else []

/-- The exception lines in the order of R172. -/
def exceptionLines (e : Exceptions) : List Byte :=
  exceptionLine "TEMP_HELD" e.tempHeld ++ exceptionLine "AIR_SEEN" e.airSeen ++
    exceptionLine "OVERSPEED_SEEN" e.overspeedSeen ++ exceptionLine "VALVE_NOT_CLOSED" e.valveNotClosed ++
    exceptionLine "REVERSE_SEEN" e.reverseSeen

/-- The intermix lines. -/
def intermixLines (cfg : Cfg) (i : Intermix) : List Byte :=
  labelled "INTERMIX" (hoseText cfg i.hose) ++ labelled "INTERMIX VOLUME" (volumeText i.ml)

/-- The blend lines (12.5); a component product without an entry is named by its code (log 30). -/
def blendLines (cfg : Cfg) (b : BlendPart) : List Byte :=
  labelled "BLEND" (nameText cfg b.component) ++ labelled "FOLLOWER" (decimal b.follower) ++
    lineFor "COMPONENT GROSS" volumeText b.gross ++ labelled "COMPONENT NET" (volumeText b.net) ++
    lineFor "COMPONENT TEMP" tempText b.temp ++ labelled "TARGET SHARE" (shareText (b.targetShare * 10)) ++
    labelled "ACHIEVED SHARE" (shareText b.achievedShare) ++ markLine "INCOMPLETE" b.incomplete

/-- The preset of an item (12.5). The model's choice: a space stands before the L, as 12.5 prints one in a volume (log 30). -/
def presetText : Option Int → List Byte
  | some p => signOf p ++ decimal p.natAbs ++ chars " L"
  | none => chars "NONE"

/-- The lines of a draw item; one space stands between ITEM and its number (log 30). -/
def itemLines (cfg : Cfg) (n : Nat) (i : DrawItem) : List Byte :=
  lineOf (chars "ITEM " ++ decimal n) (nameText cfg i.product) ++
    labelled "COMPARTMENTS" (compsText (compsOf i.comps)) ++ labelled "PRESET" (presetText i.preset) ++
    labelled "GROSS" (volumeText i.gross) ++ labelled "NET AT 15 C" (volumeText i.net) ++
    lineFor "AVG TEMP" tempText i.avgTemp ++ labelled "VCF" (vcfText i.vcf) ++
    lineFor "ENDING" endingText i.ending ++ exceptionLines i.exceptions ++
    (i.intermix.map (intermixLines cfg)).getD [] ++ (i.blend.map (blendLines cfg)).getD [] ++
    lineFor "NET TOTAL BEFORE" volumeText (i.netTotals.map (·.1)) ++
    lineFor "NET TOTAL AFTER" volumeText (i.netTotals.map (·.2))

/-- The lines of several draw items, numbered from `n` on. -/
def itemsLines (cfg : Cfg) : Nat → List DrawItem → List Byte
  | _, [] => []
  | n, i :: is => itemLines cfg n i ++ itemsLines cfg (n + 1) is

/-- The ticket text of a copy of a record (R193). The model's choice: one space stands between STATION, TICKET, ACCOUNT and
TANK and the number that follows (log 30). -/
def ticketText (cfg : Cfg) (copy : Bool) (t : Ticket) : List Byte :=
  labelled "DELIVERY TICKET" [] ++ markLine "COPY" copy ++
    lineOf (chars "STATION " ++ decimal t.station) (chars "TICKET " ++ padded 8 t.number) ++
    lineOf (chars "ACCOUNT " ++ decimal t.account) (chars "TANK " ++ decimal t.tank) ++
    labelled "TERMINAL" (decimal t.opener) ++ lineFor "OPENED" dateText t.openTime ++
    lineFor "CLOSED" dateText t.closeTime ++ markLine "TIME NOT SET" t.timeNotSet ++
    markLine "CALIBRATION MODE" t.calibration ++ markLine "INTERRUPTED" (t.status == some .interrupted) ++
    lineFor "CARRIED IN" volumeText t.carriedIn ++ itemsLines cfg 1 t.items ++
    labelled "DROP NET TOTAL" (volumeText (t.items.foldl (fun acc i => acc + i.net) 0)) ++
    labelled "PRINT NUMBER" (decimal (t.printCount + 1)) ++ [10, 10, 10]

/-- The abort trailer (R191, 12.5, log 30). -/
def trailerText (n : Nat) : List Byte :=
  chars "*** TICKET " ++ padded 8 n ++ chars " ABORTED ***" ++ endOfLine ++ [10]

/-! ### The formatter and the transmitter (R188, R189) -/

/-- The formatter places characters in the FIFO while it has room (R188). -/
def fillFifo (p : Printer) : Printer :=
  let room := Config.fifoRoom - p.fifo.length
  { p with fifo := p.fifo ++ p.rest.take room, rest := p.rest.drop room }

/-- Whether the transmitter may begin a character: in PRINTING, or in ABORTING while the permission is GO
(R189, R191). -/
def mayBegin (p : Printer) : Bool :=
  match p.state with
  | .printing => true
  | .aborting _ => p.go
  | _ => false

/-- The transmitter begins the next character when it may, and the formatter goes on (R188, R189). -/
def feed (p : Printer) : Printer :=
  match p.shifting, p.fifo with
  | none, c :: cs => if mayBegin p then fillFifo { p with shifting := some c, fifo := cs } else p
  | _, _ => p

/-- A job is started from its copy: the FIFO emptied, the formatter at the beginning of the text (R188). -/
def startText (now : Nat) (text : List Byte) (p : Printer) : Printer :=
  feed (fillFifo
    { p with state := if p.go then .printing else .held (now + Config.stallTime), fifo := [], rest := text })

/-- The port starts the oldest job when it is IDLE (R188). The model's choice: a job whose record the journal no longer
holds is not started and stays the oldest (log 52). -/
def startJob (s : State) : State :=
  match s.printer.state, s.printer.queue with
  | .idle, j :: _ =>
    match ticketOf s.journal.mem j.ticket with
    | some t => { s with printer := startText s.time (ticketText s.cfg j.copy t) s.printer }
    | none => s
  | _, _ => s

/-- A job joins the queue (R186, R188). -/
def addJob (j : Job) (s : State) : State :=
  startJob { s with printer := { s.printer with queue := s.printer.queue ++ [j] } }

/-- The current job leaves the queue, the port returns to IDLE, and the next job starts (R189, R191). -/
def leaveJob (s : State) : State :=
  startJob
    { s with
      printer := { s.printer with state := .idle, queue := s.printer.queue.drop 1, rest := [], fifo := [] } }

/-- The current job completes (R189, R192). -/
def completeJob (s : State) : State :=
  match s.printer.queue with
  | j :: _ =>
    let t := handWork (.printStep j.ticket) s
    leaveJob { t with printer := { t.printer with stalled := false } }
  | [] => leaveJob s

/-- Whether the text is placed and sent. -/
def textDone (p : Printer) : Bool := p.rest.isEmpty && p.fifo.isEmpty

/-- A character has been shifted out (R189, R191). -/
def characterDone (s : State) : State :=
  match s.printer.shifting with
  | none => s
  | some _ =>
    let t := { s with printer := { s.printer with shifting := none } }
    match t.printer.state with
    | .idle => t
    | .printing => if textDone t.printer then completeJob t else { t with printer := feed t.printer }
    | .held _ => if textDone t.printer then completeJob t else t
    | .aborting none => leaveJob t
    | .aborting (some _) => if textDone t.printer then leaveJob t else { t with printer := feed t.printer }

/-! ### Flow control and aborts (R190 to R192) -/

/-- The flow permission changes (R190). -/
def setGo (go : Bool) (s : State) : State :=
  if go = s.printer.go then s
  else
    let p := { s.printer with go := go }
    { s with
      printer :=
        match p.state, go with
        | .printing, false => { p with state := .held (s.time + Config.stallTime) }
        | .held _, true => feed { p with state := .printing }
        | .aborting _, true => feed p
        | _, _ => p }

/-- The stall timer expires in HELD: the job is aborted (R191, R192). -/
def abortJob (s : State) : State :=
  match s.printer.queue with
  | j :: _ =>
    { s with
      printer := feed (fillFifo
        { s.printer with
          state := .aborting (some (s.time + Config.stallTime))
          fifo := []
          rest := trailerText j.ticket
          stalled := true }) }
  | [] => s

/-- The trailer timer expires in ABORTING: the unsent part is discarded, and a character being shifted completes
first (R191). -/
def endTrailer (s : State) : State :=
  let t := { s with printer := { s.printer with fifo := [], rest := [] } }
  if t.printer.shifting.isSome then { t with printer := { t.printer with state := .aborting none } } else leaveJob t

/-- The stall timer (R189). -/
def stallDue (s : State) : Option Nat :=
  match s.printer.state with
  | .held due => some due
  | _ => none

/-- The trailer timer (R189). -/
def trailerDue (s : State) : Option Nat :=
  match s.printer.state with
  | .aborting due => due
  | _ => none

/-- Auto-print at the completion of a record close (R187). -/
def autoPrint (c : Change) (s : State) : State :=
  match c with
  | .closeRecord n _ =>
    if s.cfg.autoPrint ∧ s.printer.queue.length < Config.printRoom then addJob ⟨n, false⟩ s else s
  | _ => s

end Sys2Proof.Machine
end

