-- ==== Sys2Proof/Machine/ConfigImage.lean ====
section
/-! DEFINITION. The configuration image (11.2): the range of each item, the checks of R196 in their order, and the
configuration that a good image puts in use. -/

namespace Sys2Proof.Machine

/-- The value of an item, numbered from 1 (11.2). -/
def itemOf (img : Image) (n : Nat) : Nat := img.items.getD (n - 1) 0

/-- An image with an item's value replaced. -/
def withItem (img : Image) (n v : Nat) : Image := { img with items := img.items.set (n - 1) v }

/-- Character `i` (0 to 7) of a name item: seven bits, the first in the most significant (R203). -/
def nameChar (v i : Nat) : Nat := v / 2 ^ (7 * (7 - i)) % 128

/-- Whether a name item packs eight printable characters (R203). -/
def isName (v : Nat) : Bool :=
  decide (v < 2 ^ 56) && [0, 1, 2, 3, 4, 5, 6, 7].all (fun i => decide (32 ≤ nameChar v i) && decide (nameChar v i ≤ 126))

/-- Whether a value lies within a range. -/
def within (lo hi v : Nat) : Bool := decide (lo ≤ v) && decide (v ≤ hi)

/-- The range of an item of a product entry, by its place in the entry (11.2, 2.1). -/
def entryItemOk (place v : Nat) : Bool :=
  match place with
  | 0 => within 1 15 v
  | 1 => within 0 1 v
  | 2 => within 0 1500 v
  | 3 => within 0 20 v
  | _ => isName v

/-- Whether a value is within the range of an item; `aMax` is item 74 as held in the image, for item 75 (11.2). -/
def itemOk (aMax n v : Nat) : Bool :=
  if 8 ≤ n ∧ n ≤ 23 then (if n % 2 = 0 then within 1 65535 v else within 900000 1100000 v)
  else if 25 ≤ n ∧ n ≤ 72 then entryItemOk ((n - 25) % 6) v
  else if 86 ≤ n ∧ n ≤ 89 then within 0 17 v
  else
    match n with
    | 1 => within 0 1 v
    | 2 => within 0 1 v
    | 3 => [0, 1, 2, 4, 8, 16, 32, 64].contains v
    | 4 => within 10 2000 v
    | 5 => within 1 15 v
    | 6 => within 4 64 v
    | 7 => within 1 8 v
    | 24 => within 1 8 v
    | 73 => within 0 50000 v
    | 74 => within 0 10000 v
    | 75 => within 0 aMax v
    | 76 => within 0 10000 v
    | 77 => within 0 20000 v
    | 78 => v == 0 || within 10 300 v
    | 79 => within 10 600 v
    | 80 => within 1 65535 v
    | 81 => within 0 5000 v
    | 82 => within 0 200000 v
    | 83 => within 0 2000 v
    | 84 => within 0 1 v
    | 85 => within 0 15 v
    | 90 => within 0 2 v
    | 91 => within 200 5000 v
    | 92 => [1200, 2400, 4800, 9600, 19200, 38400].contains v
    | 93 => within 0 2 v
    | 94 => within 0 1 v
    | _ => false

/-- Whether an item is in use: points up to k and entries up to n only (R196). -/
def itemUsed (img : Image) (n : Nat) : Bool :=
  if 8 ≤ n ∧ n ≤ 23 then decide (n ≤ 7 + 2 * itemOf img 7)
  else if 25 ≤ n ∧ n ≤ 72 then decide (n ≤ 24 + 6 * itemOf img 24)
  else true

/-- Check 3: the first item out of its range (R196). -/
def firstOutOfRange (img : Image) : Option Nat :=
  ((List.range 94).map (· + 1)).find? (fun n => itemUsed img n && !itemOk (itemOf img 74) n (itemOf img n))

/-- Check 4: the item of the first F_i that is not above the one before it (R196). -/
def firstUnordered (img : Image) : Option Nat :=
  (((List.range 7).map (· + 2)).find? (fun i =>
    decide (i ≤ itemOf img 7) && decide (itemOf img (6 + 2 * i) ≤ itemOf img (4 + 2 * i)))).map (fun i => 6 + 2 * i)

/-- The first item of a list whose value stands earlier in the list; values that `skip` names do not count. -/
def firstRepeat (skip : Nat → Bool) : List Nat → List (Nat × Nat) → Option Nat
  | _, [] => none
  | seen, (item, v) :: rest =>
    if skip v then firstRepeat skip seen rest
    else if seen.contains v then some item
    else firstRepeat skip (seen ++ [v]) rest

/-- The code items of the entries in use. -/
def codeItems (img : Image) : List (Nat × Nat) :=
  ((List.range (itemOf img 24)).map (· + 1)).map (fun j => (19 + 6 * j, itemOf img (19 + 6 * j)))

/-- The output items with their compartment numbers. -/
def outputItems (img : Image) : List (Nat × Nat) := [86, 87, 88, 89].map (fun n => (n, itemOf img n / 2))

/-- Check 5: the later of two equal codes, or of two equal compartment numbers other than 0 (R196). The model's choice where
several pairs are equal: the codes come before the outputs, and of each the first item whose value stood earlier is named
(log 64). -/
def firstDuplicate (img : Image) : Option Nat :=
  match firstRepeat (fun _ => false) [] (codeItems img) with
  | some n => some n
  | none => firstRepeat (· == 0) [] (outputItems img)

/-- The checks of R196 on an image that was read: the code and the item of the first that fails. -/
def imageFault (img : Image) : Option (FaultCode × Nat) :=
  if img.sumGood = false then some (.sumBad, 0)
  else
    match firstOutOfRange img with
    | some n => some (.itemRange, n)
    | none =>
      match firstUnordered img with
      | some n => some (.tableOrder, n)
      | none => (firstDuplicate img).map (fun n => (.duplicate, n))

/-- The characters of a name item. -/
def nameChars (v : Nat) : List Byte := [0, 1, 2, 3, 4, 5, 6, 7].map (fun i => BitVec.ofNat 8 (nameChar v i))

/-- Entry j of the product table. -/
def entryAt (img : Image) (j : Nat) : Product :=
  let base := 19 + 6 * j
  { code := itemOf img base
    compensated := itemOf img (base + 1) == 1
    alpha := itemOf img (base + 2)
    beta := itemOf img (base + 3)
    name := nameChars (itemOf img (base + 4)) ++ nameChars (itemOf img (base + 5)) }

/-- The manifold of a code. -/
def manifoldOf (code : Nat) : Manifold := if code = 0 then .a else .b

/-- The owned compartment outputs of an image (R203). -/
def outputsOf (img : Image) : List OwnedOutput :=
  [1, 2, 3, 4].filterMap fun o =>
    let v := itemOf img (85 + o)
    if v / 2 = 0 then none else some ⟨o, v / 2, manifoldOf (v % 2)⟩

/-- The owned pump of an image (12.3). -/
def pumpOf (v : Nat) : Option Manifold := if v = 0 then none else if v = 1 then some .a else some .b

/-- The flow control of an image (12.3). -/
def flowOf (v : Nat) : FlowControl := if v = 0 then .none else if v = 1 then .xonXoff else .cts

/-- The configuration that an image puts in use (11.2, R196). -/
def imageCfg (img : Image) : Cfg where
  kind := if itemOf img 1 = 0 then .hose else .injector
  countMode := if itemOf img 2 = 0 then .x1 else .x4
  filterTime := itemOf img 3
  kn := itemOf img 4
  phaseLimit := itemOf img 5
  loneLimit := itemOf img 6
  points := ((List.range (itemOf img 7)).map (· + 1)).map (fun i => (itemOf img (6 + 2 * i), itemOf img (7 + 2 * i)))
  products := ((List.range (itemOf img 24)).map (· + 1)).map (entryAt img)
  slowdown := itemOf img 73
  aMax := itemOf img 74
  initialCloseAhead := itemOf img 75
  primeTime := itemOf img 76
  startSlow := itemOf img 77
  deadman := itemOf img 78
  noFlow := itemOf img 79
  fmax := itemOf img 80
  reverseLimit := itemOf img 81
  hoseVolume := itemOf img 82
  dwell := itemOf img 83
  haltRecovery := if itemOf img 84 = 0 then .latched else .selfClearing
  runOn := itemOf img 85
  outputs := outputsOf img
  pump := pumpOf (itemOf img 90)
  blendWindow := itemOf img 91
  baud := itemOf img 92
  flowControl := flowOf (itemOf img 93)
  autoPrint := itemOf img 94 == 1

/-! ### Calibration writes (R201) -/

/-- Whether a WRITE_CONFIG is judged writable: an item of 1 to 94 and a value in its range (R201). -/
def writable (img : Image) (item value : Nat) : Bool :=
  decide (1 ≤ item) && decide (item ≤ 94) && itemOk (itemOf img 74) item value

/-- The edit count of an image plus 1 (R201), by the modulus of R202 (log 40). -/
def steppedEdit (img : Image) : Nat := (itemOf img 95 + 1) % 4294967296

/-- The image after a completed write sequence (R201). -/
def writtenImage (img : Image) (item value : Nat) : Image :=
  { withItem (withItem img item value) 95 (steppedEdit img) with sumGood := true }

/-- The image after a write sequence that was not completed: how much of the value and then the edit count stands is open,
and the check word disagrees (R201, log 12). -/
def cutImage (reach : Bool × Bool) (img : Image) (item value : Nat) : Image :=
  let valued := withItem img item value
  { (if !reach.1 then img else if reach.2 then withItem valued 95 (steppedEdit img) else valued) with sumGood := false }

end Sys2Proof.Machine
end

