-- ==== Sys2Proof/Machine/StartupOps.lean ====
section
/-! DEFINITION. The station's start, its entry into CONFIG_FAULT and LISTENING (R195 to R198), the journal's start
writes (R181, R182, R202), and the power-fail input (R87, R180, R200). -/

namespace Sys2Proof.Machine

/-! ### Start -/

/-- The start writes that are due once a configuration is in use (R181, R182, R197, R202). The model's choice: their order
among themselves, which the manual does not state (log 59). -/
def startWorks (s : State) : List Work :=
  match s.journal.mem.station with
  | none => [.createStation]
  | some r =>
    (if (s.cfg.aMax : Int) < r.closeAhead then [.clampCloseAhead] else []) ++
      (if r.followerPart.isSome then [.followerRecovery] else []) ++
      (if s.journal.mem.tickets.any (fun t => t.state == .opened) then [.ticketRecovery] else []) ++
      (if editCountOf s.station.image = r.lastEditCount then [] else [.editCatchUp])

/-- The flow permission at the entry into LISTENING (R190). -/
def startGo (s : State) : Bool :=
  match s.cfg.flowControl with
  | .cts => s.pins.cts
  | _ => true

/-- The station joins the line: LISTENING, with the quiet-listen timer (R105, R198). -/
def listen (s : State) : State :=
  { s with
    station := { s.station with state := .listening, quietDue := some (s.time + Config.quietListenTime) }
    port := { s.port with errors := 0, restartDue := none } }

/-- The context at the entry into LISTENING: MF_1, S and A as they are now known (R39). -/
def startContext (s : State) : Context :=
  { Context.reset with
    mf := firstFactor s.cfg
    slowdown := s.cfg.slowdown
    closeAhead := (stationRecord s).closeAhead }

/-- LISTENING is entered from STARTING (R197): counting, the probe and the inputs begin (R17, R25, R73), and an input
found ACTIVE has become active. -/
def enterListening (s : State) : State :=
  let t := listen s
  let u :=
    { t with
      pulse := { t.pulse with
        filteredA := t.pins.pulserA
        filteredB := t.pins.pulserB
        decoderA := t.pins.pulserA
        decoderB := t.pins.pulserB
        conversionDue := some (t.time + Config.conversionPeriod) }
      engine := { t.engine with ctx := startContext t, probeDue := some (t.time + Config.updatePeriod) }
      inputs := ⟨false, t.pins.holdToRun, t.pins.air, t.pins.reelStowed⟩
      printer := { t.printer with go := startGo t } }
  if u.pins.emergencyStop then localHalt u else u

/-- The next start write begins, or the last is done and the station enters LISTENING (R181, R197). -/
def continueStart (s : State) : State :=
  if s.journal.works = [] then enterListening s else beginWrite s

/-- The station enters CONFIG_FAULT (R195, R196, R199): page 0 is queued, and its timer starts (R100, log 20). -/
def enterConfigFault (code : FaultCode) (item : Nat) (s : State) : State :=
  queueStat { s with station := { s.station with state := .configFault, faultCode := some code, faultItem := item } }

/-- A good image is put in use, and the start writes begin (R196, R197). -/
def useImage (img : Image) (s : State) : State :=
  let t := { s with cfg := imageCfg img }
  continueStart { t with journal := { t.journal with works := startWorks t } }

/-- The reading of the configuration memory completes (R196). -/
def readImage (read : ImageRead) (s : State) : State :=
  match read with
  | .silent => enterConfigFault .memorySilent 0 s
  | .asHeld =>
    match imageFault s.station.image with
    | some f => enterConfigFault f.1 f.2 s
    | none => useImage s.station.image s
  | .programmed img =>
    let t := { s with station := { s.station with image := img } }
    match imageFault img with
    | some f => enterConfigFault f.1 f.2 t
    | none => useImage img t

/-- The journal memory as a start finds it: a write in flight when the supply or the RESET pin cut the run is found whole
or not begun (9.3, log 11). -/
def foundMemory (s : State) : Memory :=
  match s.journal.inflight with
  | some w => if Config.writeFoundWhole s.freeIndex then applyWrite w s.journal.mem else s.journal.mem
  | none => s.journal.mem

/-- The image as a start finds it: a write sequence that was cut is not completed (R201, log 12). -/
def foundImage (s : State) : Image :=
  match s.station.cfgWrite with
  | some w => cutImage (Config.cutWriteReach s.freeIndex) s.station.image w.1 w.2
  | none => s.station.image

/-- Every block at its reset values; what lives in the memories, the pins and the model's own fields are kept
(R18, R39, R72, R89, R108, R132, R156, R169, R185, R194, R200). -/
def resetBlocks (s : State) : State :=
  { State.reset with
    station := { Station.reset with image := foundImage s }
    pins := s.pins
    journal := { Journal.reset with mem := foundMemory s }
    freeIndex := s.freeIndex + 1
    pending := s.pending }

/-- The start of STARTING: straps and seal are read (R195). -/
def readStraps (straps : BitVec 4) (sealOpen : Bool) (s : State) : State :=
  let t := { s with station := { s.station with state := .starting, number := straps.toNat, calibration := sealOpen } }
  if straps = 0 then enterConfigFault .strapsZero 0 t else t

/-! ### Power fail -/

/-- Whether a draw item of this station's own is in progress (R180). -/
def itemRunning (s : State) : Bool := drawOpen s.draw.state

/-- The works of the final write: every pending work, and a checkpoint of what is in progress (R180). -/
def finalWorks (s : State) : List Work :=
  let works := if itemRunning s then addWork (.checkpoint false) s.journal.works else s.journal.works
  if followedOpen s.blend.follower then addWork .followerCheckpoint works else works

/-- The journal memory after the write in flight and the final write (R180). -/
def finalMemory (s : State) : Memory :=
  let flown := match s.journal.inflight with
    | some w => applyWrite w s.journal.mem
    | none => s.journal.mem
  if operating s then
    (finalWorks s).foldl (fun m w => applyChange (changeOf s w) m) (addUnticketed s.journal.unticketedSum flown)
  else flown

/-- The draw controller's timers stop; the overspeed start time is a value that it holds, and stays (R61, R72). -/
def holdDraw (d : DrawUnit) : DrawUnit :=
  { d with current := d.current.map (fun c => { c with primeDue := none, deadmanDue := none, airDue := none }) }

/-- The timers of the two held final reports and of the blend wait stop; the binding record is held whole, its lead quiet
timer with it (R136, R156). The model's choice: the trim timer, of which R156 has no row, stops too (log 35). -/
def holdBlend (b : Blend) : Blend :=
  { b with
    trimDue := none
    held := b.held.map (fun h => { h with repeatDue := none, discardDue := none })
    lead := b.lead.map (fun l => { l with waitDue := none }) }

/-- A frame ON_WIRE is cut off; the queues keep their entries, and the station clock stops (R106 to R108). -/
def offLine (p : Port) : Port :=
  { p with
    tx := p.tx.map (fun e => { e with onWire := false })
    statusDue := none
    restartDue := none
    clockDue := none }

/-- The station enters POWER_DOWN at the power-fail input (R87, R180, R200). -/
def enterPowerDown (s : State) : State :=
  { s with
    station := { s.station with state := .powerDown, quietDue := none, image := foundImage s, cfgWrite := none }
    engine := { s.engine with updateDue := none, probeDue := none }
    draw := holdDraw s.draw
    valve := { s.valve with stage := .closed, pump := .off, haltRepeatDue := none }
    port := offLine s.port
    claims := { s.claims with own := s.claims.own.map (fun o => { o with consentDue := none }) }
    blend := holdBlend s.blend
    journal := { s.journal with
      mem := finalMemory s, inflight := none, works := [], unticketedSum := 0, fetch := none }
    printer := Printer.reset
    freeIndex := s.freeIndex + 1 }

/-- A power-up or the RESET pin (R200): the reset values, the straps and the seal; with the power-fail input ACTIVE the
start enters POWER_DOWN at once. -/
def startUp (straps : BitVec 4) (sealOpen : Bool) (s : State) : State :=
  let t := readStraps straps sealOpen (resetBlocks s)
  if t.pins.powerFail then enterPowerDown t else t

end Sys2Proof.Machine
end

