-- ==== Sys2Proof/Machine/Ops.lean ====
section
/-! DEFINITION. The form of a step: in which station states a command does something, how a timer's expiry moves the
station time, how the oldest receive-queue entry is taken, and the levels at the pins. The operations that the commands
share stand in the files this one imports, block by block. -/

namespace Sys2Proof.Machine

/-! ### Steps -/

/-- A step of the part. In POWER_DOWN the part takes no event (R200); otherwise the step runs, and a state change of
page 0 queues a STAT set. -/
def stepOf (f : State → State) (s : State) : Host.Outcome State Fault Refusal :=
  if s.station.state = .powerDown then .next s else .next (announce f s)

/-- A step of the blocks that run from LISTENING on (R88, R107). -/
def stepWhenOperating (f : State → State) (s : State) : Host.Outcome State Fault Refusal :=
  if operating s then .next (announce f s) else .next s

/-- The station time comes to a timer's expiry (R106, log 3). -/
def passTo (due : Nat) (s : State) : State := { s with time := later s.time due }

/-- A step at the expiry of a timer: it happens only while the timer runs, at the station time of the expiry
(log 2, log 3). -/
def stepAtExpiry (timer : State → Option Nat) (f : State → State) (s : State) : Host.Outcome State Fault Refusal :=
  match timer s with
  | some due => stepOf (fun s => f (passTo due s)) s
  | none => .next s

/-- A step that takes the oldest receive-queue entry, a frame that satisfies `p`; in another state of the queue it does
not happen (R93, log 2). -/
def stepAtTake (p : Frame → Bool) (f : Frame → Nat → State → State) (s : State) : Host.Outcome State Fault Refusal :=
  stepWhenOperating (takeThen p f) s

/-- A level at a pin changes; the model keeps it in every station state (log 7). -/
def setPins (f : Pins → Pins) (s : State) : State := { s with pins := f s.pins }

end Sys2Proof.Machine
end

