-- ==== Sys2Proof/Machine/Arrivals.lean ====
section
/-! DEFINITION. Frames that arrive (R92 to R94), and the takes of the receive queue's entries by the claim unit, the
blend tracker and the station clock (chapters 5 to 7). -/

namespace Sys2Proof.Machine

/-! ### Arrival -/

/-- Whether the station takes a kind of frame in its present state (R92). -/
def stateTakes (s : State) (f : Frame) : Bool :=
  match s.station.state with
  | .listening => kindOf f.id != kAsk
  | .running => true
  | .configFault => kindOf f.id == kAsk && s.port.restartDue.isNone
  | _ => false

/-- The line port's filter (R92). -/
def passesFilter (s : State) (f : Frame) : Bool :=
  decide (1 ≤ kindOf f.id) && decide (kindOf f.id ≤ 10) &&
    (destOf f.id == 0 || destOf f.id == s.station.number) &&
    sourceOf f.id != 0 && sourceOf f.id != s.station.number && lengthOk f && stateTakes s f

/-- Whether an own frame is ON_WIRE; then no other frame completes on the wire (R95). -/
def ownOnWire (s : State) : Bool := s.port.tx.any (·.onWire)

/-- Kinds whose loss from a full receive queue starts view rebuild (R94). -/
def isKept (f : Frame) : Bool := kindOf f.id == kHalt || isClaimClass f

/-- The receive queue with a frame at its newest end. -/
def pushRx (f : Frame) (rx : List RxEntry) (s : State) : State :=
  { s with port := { s.port with rx := rx ++ [.frame f s.time] } }

/-- A frame has entered the receive queue: a HALT is heard at once (R85, R93). -/
def entered (f : Frame) (s : State) : State := if kindOf f.id = kHalt then hearHalt s else s

/-- A frame that passed the filter is offered to the receive queue (R93, R94). -/
def offerFrame (f : Frame) (s : State) : State :=
  if rxFrames s.port.rx < Config.rxRoom then entered f (pushRx f s.port.rx s)
  else if isKept f then
    match takeLast? isRxRemovable s.port.rx with
    | some (_, rest) => entered f (pushRx f rest s)
    | none => enterRebuild s
  else s

/-- A frame completes on the wire (R92). -/
def arrived (f : Frame) (s : State) : State :=
  if ownOnWire s = false ∧ passesFilter s f = true then offerFrame f s else s

/-- FRAME_ARRIVAL (R92 to R94). -/
def execFrameArrival (f : Frame) (s : State) : Host.Outcome State Fault Refusal := stepOf (arrived f) s

/-! ### HALT, ANSWER, TKT and CLOCK -/

/-- A frame of a kind. -/
def ofKind (k : Nat) (f : Frame) : Bool := kindOf f.id == k

/-- TAKE_HALT (R102): the sender's halt flag is set. -/
def execTakeHalt (s : State) : Host.Outcome State Fault Refusal :=
  stepAtTake (ofKind kHalt) (fun f _ s => modPeer (sourceOf f.id) (fun p => { p with haltFlag := true }) s) s

/-- TAKE_ANSWER (5.1, R102): for the peer view alone. -/
def execTakeAnswer (s : State) : Host.Outcome State Fault Refusal := stepAtTake (ofKind kAnswer) (fun _ _ s => s) s

/-- TAKE_TKT (5.1, R102): for the peer view alone. -/
def execTakeTkt (s : State) : Host.Outcome State Fault Refusal := stepAtTake (ofKind kTkt) (fun _ _ s => s) s

/-- The station clock takes a frame's value, and its second starts afresh (R106). -/
def setClock (value : Nat) (s : State) : State :=
  { s with port := { s.port with clock := some value, clockDue := some (s.time + 1000) } }

/-- TAKE_CLOCK (R106). -/
def execTakeClock (s : State) : Host.Outcome State Fault Refusal :=
  stepAtTake (ofKind kClock) (fun f _ s => setClock (fieldAt f 0 4) s) s

/-! ### CLAIM, CONSENT and RELEASE -/

/-- Whether verdicts are given now: in RUNNING (R129, R131). -/
def givesVerdicts (s : State) : Bool := s.station.state == .running

/-- A CLAIM is taken (R114, R117). The model's choice: where it ends the own QUEUED claim and is also judged here, the
CLAIM_LOST ANSWER is handed before the CONSENTs (log 61). -/
def claimTaken (f : Frame) (s : State) : State :=
  let c := decodeClaim f
  match peerOf s c.id.station with
  | some p =>
    if p.lastEnded = some c.id.sequence ∨ (p.live.map (·.claim.id)) = some c.id then s
    else
      let t := yieldTo c (enterClaim c (!givesVerdicts s && !(ownedOf s c).isEmpty) s)
      if givesVerdicts t then announce (judgePeer false c.id.station (ownedOf t c)) t else t
  | none => s

/-- TAKE_CLAIM (R117). -/
def execTakeClaim (s : State) : Host.Outcome State Fault Refusal :=
  stepAtTake (ofKind kClaim) (fun f _ s => claimTaken f s) s

/-- A verdict on the own claim from the recorded owner of the resource (R115, R126, R128). -/
def ownVerdict (o : OwnClaim) (r : Resource) (source verdict reason : Nat) (s : State) : State :=
  if o.phase ≠ .queued ∧ o.resources.any (fun x => x.resource == r && x.owner == source) = true then
    if verdict = 0 then settleConsent (settleOwnPump (modOwn (grantStatus r) s))
    else if verdict = 1 then refusedOwn source reason s
    else s
  else s

/-- A GRANTED verdict on a compartment of a peer's live claim, toward a pump verdict (R119). The model's choice: one that
names a claim that is not in the view yet is set aside and not counted when the claim is entered (log 56). -/
def peerVerdict (id : ClaimId) (n : Nat) (s : State) : State :=
  settlePeerPump id.station
    (modPeer id.station
      (fun p => { p with live := p.live.map (fun l =>
        if l.claim.id = id then { l with consented := l.consented ||| oneComp n } else l) }) s)

/-- A CONSENT is taken (R115, R119). -/
def consentTaken (f : Frame) (s : State) : State :=
  let id := consentClaim f
  match resourceOf (lowTagOf f.id) with
  | none => s
  | some r =>
    if id.station = s.station.number then
      match s.claims.own with
      | some o =>
        if o.claim.id = id then ownVerdict o r (sourceOf f.id) (consentVerdict f) (consentReason f) s else s
      | none => s
    else
      match r with
      | .comp n => if consentVerdict f = 0 then peerVerdict id n s else s
      | _ => s

/-- TAKE_CONSENT (R115). -/
def execTakeConsent (s : State) : Host.Outcome State Fault Refusal :=
  stepAtTake (ofKind kConsent) (fun f _ s => consentTaken f s) s

/-- A RELEASE is taken (R120, R151). -/
def releaseTaken (f : Frame) (s : State) : State :=
  let id : ClaimId := ⟨sourceOf f.id, sequenceOf f.id⟩
  let t := discardHeld (fun h => h.claim == id) s
  match (peerOf t id.station).bind (·.live) with
  | some l => if l.claim.id = id then endPeerClaim id.station t else t
  | none => t

/-- TAKE_RELEASE (R120). -/
def execTakeRelease (s : State) : Host.Outcome State Fault Refusal :=
  stepAtTake (ofKind kRelease) (fun f _ s => releaseTaken f s) s

/-! ### PROG (R139, R140, R151) -/

/-- PROG part 0, read in the role of a follower or of a lead (R203). -/
def isProgress (follower : Bool) (s : State) (f : Frame) : Bool :=
  kindOf f.id == kProg && lowTagOf f.id == 0 && (s.blend.follower != .unbound) == follower

/-- A lead report is taken by the follower (R139): from the lead, naming the bound claim, and none after a final one. -/
def leadReportTaken (f : Frame) (s : State) : State :=
  match s.blend.binding with
  | some b =>
    if sourceOf f.id = b.lead ∧ sequenceOf f.id = b.claim.sequence ∧ (b.report.map (·.final)).getD false = false then
      takeLeadReport (decodeLeadReport f) s
    else s
  | none => s

/-- TAKE_PROG_LEAD_REPORT (R139). -/
def execTakeProgLeadReport (s : State) : Host.Outcome State Fault Refusal :=
  stepAtTake (isProgress true s) (fun f _ s => leadReportTaken f s) s

/-- A follower report acts on the lead's throttle and abort (R146, R147). The model's choice: the throttle comes first, so
a report that also aborts finds the valve at SLOW (log 48). -/
def actOnLag (lag : Int) (l : Lead) (s : State) : State :=
  if s.draw.state = .flowing then
    let t := evaluateStage
      { s with
        blend := { s.blend with
          lead := s.blend.lead.map (fun l => { l with throttle := throttleAfter s.cfg lag l.throttle, lastLag := some lag }) } }
    if abortsAt s.cfg lag l.lastLag then suspend (raiseLatch .blendLag) t else t
  else s

/-- Whether a frame comes from the partner and names the own blended claim, in a draw state that takes its reports
(R140, R151). -/
def fromPartner (f : Frame) (l : Lead) (s : State) : Bool :=
  sourceOf f.id == l.partner && sequenceOf f.id == l.sequence && drawOpen s.draw.state

/-- A follower report is taken by the lead (R140). -/
def followerReportTaken (f : Frame) (s : State) : State :=
  match s.blend.lead with
  | some l =>
    if fromPartner f l s then
      let r := decodeFollowerReport f
      actOnLag r.2 l { s with blend := { s.blend with lead := some { l with report := some r } } }
    else s
  | none => s

/-- TAKE_PROG_FOLLOWER_REPORT (R140). -/
def execTakeProgFollowerReport (s : State) : Host.Outcome State Fault Refusal :=
  stepAtTake (isProgress false s) (fun f _ s => followerReportTaken f s) s

/-- A PROG of another part than progress. -/
def isFinalPart (f : Frame) : Bool := kindOf f.id == kProg && lowTagOf f.id != 0

/-- A part of the final report is taken by the lead (R151, R152). -/
def finalPartTaken (f : Frame) (s : State) : State :=
  match s.blend.lead with
  | some l =>
    if fromPartner f l s then
      if lowTagOf f.id = 1 then
        tryAssemble { s with blend := { s.blend with lead := some { l with part1 := some (decodeFinalVolumes f) } } }
      else if lowTagOf f.id = 2 then
        tryAssemble { s with blend := { s.blend with lead := some { l with part2 := some (decodeFinalDetails f) } } }
      else s
    else s
  | none => s

/-- TAKE_PROG_FINAL_PART (R151). -/
def execTakeProgFinalPart (s : State) : Host.Outcome State Fault Refusal :=
  stepAtTake isFinalPart (fun f _ s => finalPartTaken f s) s

/-! ### STAT pages (R102, R122 to R124) -/

/-- A STAT page of a number. -/
def isPage (n : Nat) (f : Frame) : Bool := kindOf f.id == kStat && lowTagOf f.id == n

/-- An entry with a page 0 in place (R102, R124). -/
def withPage0 (page : Page0) (p : Peer) : Peer :=
  { p with
    page := page
    haltFlag := page.halt != 0
    live := p.live.map (fun l => { l with codeSince := some page.stateCode }) }

/-- A new entry from a page 0 (R102). -/
def newPeer (station arrival : Nat) (page : Page0) : Peer :=
  ⟨station, arrival, page, [], none, none, page.halt != 0⟩

/-- The last ended lead claim is forgotten at a page 0 of the station below that reports no claim that could return
(R137). -/
def forgetLead (source code : Nat) (s : State) : State :=
  if source + 1 = s.station.number ∧ code ≤ drawCode .ready then { s with blend := { s.blend with lastEnded := none } }
  else s

/-- A STAT page 0 is taken (R102, R137). -/
def page0Taken (f : Frame) (arrival : Nat) (s : State) : State :=
  let source := sourceOf f.id
  let page := decodePage0 f
  let t :=
    match peerOf s source with
    | some _ => modPeer source (withPage0 page) s
    | none => { s with claims := { s.claims with view := s.claims.view ++ [newPeer source arrival page] } }
  forgetLead source page.stateCode t

/-- TAKE_STAT_PAGE_0 (R102). -/
def execTakeStatPage0 (s : State) : Host.Outcome State Fault Refusal := stepAtTake (isPage 0) page0Taken s

/-- TAKE_STAT_PAGE_1 (R102): the owned compartments are replaced as a whole. -/
def execTakeStatPage1 (s : State) : Host.Outcome State Fault Refusal :=
  stepAtTake (isPage 1) (fun f _ s => modPeer (sourceOf f.id) (fun p => { p with comps := decodePage1 f }) s) s

/-- The compartments of a claim that its page 2 does not hold in the awaited set (R119). -/
def notAwaited (c : Claim) (w : Awaited) : CompSet := (entryComps c.entryA ||| entryComps c.entryB) &&& ~~~w.comps

/-- The compartments that a page 2 shows as consented are counted (R119). -/
def countPage (station : Nat) (set : CompSet) (s : State) : State :=
  modPeer station (fun p => { p with live := p.live.map (fun l => { l with consented := l.consented ||| set }) }) s

/-- Whether a consent record holds a claim for a resource. -/
def holdsRecord (s : State) (r : Resource) (id : ClaimId) : Bool := s.claims.records.contains (r, id)

/-- Whether a pump verdict of a live claim is pending for a resource. -/
def verdictPending (l : LiveClaim) (r : Resource) : Bool :=
  match r with
  | .pump _ => l.pumpPending
  | _ => false

/-- Whether this station, as the partner of a held claim, has ended its part by PULSE_FAULT and holds no record of the
claim: its refusal is then repaired at each page 2 that does not await the partner (R150, log 50). -/
def refusalLost (l : LiveClaim) (w : Awaited) (s : State) (r : Resource) : Bool :=
  r == .partner && !awaits w r && s.blend.endCode == some .pulseFault && bindingEnded s.blend l.claim.id &&
    !holdsRecord s r l.claim.id

/-- The awaited resources of this station are answered: GRANTED again from the record, or judged again where there is
neither a record nor a pending verdict (R121); a refusal of the partner that was lost is judged again too (R150). The
model's choice: the repeated GRANTED CONSENTs are handed first, then those of the resources judged again (log 62). -/
def answerAwaited (l : LiveClaim) (w : Awaited) (s : State) : State :=
  let mine := ownedOf s l.claim
  let granted := mine.filter (fun r => awaits w r && holdsRecord s r l.claim.id)
  let again := mine.filter (fun r =>
    awaits w r && !holdsRecord s r l.claim.id && !verdictPending l r || refusalLost l w s r)
  judgePeer false l.claim.id.station again
    (granted.foldl (fun s r => sendConsent l.claim.id r none s) s)

/-- A page 2 carries the held claim (R119, R121). The model's choice: a pump verdict that has come due is given after the
awaited resources are answered (log 62). -/
def heldPage (l : LiveClaim) (w : Awaited) (s : State) : State :=
  let t := countPage l.claim.id.station (notAwaited l.claim w) s
  if givesVerdicts s ∧ l.pending = false then settlePeerPump l.claim.id.station (answerAwaited l w t) else t

/-- A claim is re-announced through page 2 (R123): entered, and judged or, in LISTENING and in a view rebuild, marked
pending, whatever it names (R123, R130, log 16). -/
def reAnnounced (c : Claim) (w : Awaited) (s : State) : State :=
  let wait := !givesVerdicts s || s.claims.rebuildDue.isSome
  let t := countPage c.id.station (notAwaited c w) (enterClaim c wait s)
  if wait then t else announce (judgePeer false c.id.station (ownedOf t c)) t

/-- A page 2 of none from a station whose entry holds a live claim (R124). -/
def nonePage (l : LiveClaim) (s : State) : State :=
  match l.codeSince with
  | none => s
  | some code => if code = drawCode .claiming then s else endPeerClaim l.claim.id.station s

/-- A page 2 from a station with a view entry (R122). -/
def page2Compared (p : Peer) (carried : Option (Claim × Awaited)) (s : State) : State :=
  match carried, p.live with
  | some (c, w), some l =>
    if l.claim.id = c.id then heldPage l w s
    else if p.lastEnded = some c.id.sequence then s
    else reAnnounced c w s
  | some (c, w), none => if p.lastEnded = some c.id.sequence then s else reAnnounced c w s
  | none, some l => nonePage l s
  | none, none => s

/-- A STAT page 2 is taken (R122, R151). -/
def page2Taken (f : Frame) (s : State) : State :=
  let carried := decodePage2 f
  let source := sourceOf f.id
  let t := discardHeld (fun h => h.lead == source && carried.map (·.1.id) != some h.claim) s
  match peerOf t source with
  | some p => page2Compared p carried t
  | none => t

/-- TAKE_STAT_PAGE_2 (R122). -/
def execTakeStatPage2 (s : State) : Host.Outcome State Fault Refusal :=
  stepAtTake (isPage 2) (fun f _ s => page2Taken f s) s

/-! ### Completion notices -/

/-- The notice of an own CLAIM is taken: an abandoned claim is released and forgotten (R115); the QUEUED claim enters
IN_FORCE and is judged for the station's own resources (R113). -/
def claimCompleted (sequence : Nat) (s : State) : State :=
  if s.claims.abandoned.contains sequence then
    sendFrame .claimUnit (releaseFrame ⟨s.station.number, sequence⟩)
      { s with claims := { s.claims with abandoned := s.claims.abandoned.erase sequence } }
  else
    match s.claims.own with
    | some o =>
      if o.phase = .queued ∧ o.claim.id.sequence = sequence then
        judgeOwn (modOwn (fun o => { o with phase := .inForce }) s)
      else s
    | none => s

/-- The oldest entry of the receive queue is taken when it is a completion notice (R93). -/
def noticeTaken (s : State) : State :=
  match s.port.rx with
  | .notice f :: rest =>
    let t := { s with port := { s.port with rx := rest } }
    if kindOf f.id = kClaim then claimCompleted (sequenceOf f.id) t else t
  | _ => s

/-- TAKE_COMPLETION_NOTICE (R93, R113, R115). -/
def execTakeCompletionNotice (s : State) : Host.Outcome State Fault Refusal := stepWhenOperating noticeTaken s

end Sys2Proof.Machine
end

