-- ==== Sys2Proof/Machine/BlendTimers.lean ====
section
/-! DEFINITION. The timers of the blend tracker (chapter 7). -/

namespace Sys2Proof.Machine

/-- The lead quiet timer has expired (R142). -/
def leadQuiet (s : State) : State := raiseHold .leadQuiet (modBinding (fun b => { b with quietDue := none }) s)

/-- LEAD_QUIET_EXPIRY (R139, R142). -/
def execLeadQuietExpiry (s : State) : Host.Outcome State Fault Refusal :=
  stepAtExpiry (fun s => s.blend.binding.bind (·.quietDue)) leadQuiet s

/-- TRIM_TIMER_EXPIRY (R148). -/
def execTrimTimerExpiry (s : State) : Host.Outcome State Fault Refusal :=
  stepAtExpiry (fun s => if s.blend.follower = .fTrim then s.blend.trimDue else none) (enterFClose .trimLimit) s

/-- When the flow of a follower in F_CLOSE has stopped (R149). -/
def followerStopDue (s : State) : Option Nat :=
  if s.blend.follower = .fClose then some (later s.blend.closeEnteredAt s.pulse.latestCount + Config.flowStopTime)
  else none

/-- FOLLOWER_FLOW_STOP (R149). -/
def execFollowerFlowStop (s : State) : Host.Outcome State Fault Refusal :=
  stepAtExpiry followerStopDue (followerFinish false) s

/-- The limit of a follower's wait for flow stop (R149). -/
def followerLimitDue (s : State) : Option Nat :=
  if s.blend.follower = .fClose then some (s.blend.closeEnteredAt + Config.closingLimitTime) else none

/-- FOLLOWER_CLOSING_LIMIT (R149). -/
def execFollowerClosingLimit (s : State) : Host.Outcome State Fault Refusal :=
  stepAtExpiry followerLimitDue (followerFinish true) s

/-- The held final report is handed again (R151). -/
def repeatReport (s : State) : State :=
  match s.blend.held with
  | some h =>
    sendFinalReport h.lead h.claim.sequence h.report
      { s with blend := { s.blend with held := some { h with repeatDue := h.repeatDue.map (· + Config.reportRepeatTime) } } }
  | none => s

/-- FINAL_REPORT_REPEAT (R151). -/
def execFinalReportRepeat (s : State) : Host.Outcome State Fault Refusal :=
  stepAtExpiry (fun s => s.blend.held.bind (·.repeatDue)) repeatReport s

/-- FINAL_REPORT_LIMIT (R151). -/
def execFinalReportLimit (s : State) : Host.Outcome State Fault Refusal :=
  stepAtExpiry (fun s => s.blend.held.bind (·.discardDue)) (discardHeld (fun _ => true)) s

/-- The blend wait has expired (R152). -/
def blendWaitOver (s : State) : State :=
  tryAssemble
    { s with
      blend := { s.blend with lead := s.blend.lead.map (fun l => { l with waitDue := none, waitOver := true }) } }

/-- BLEND_WAIT_EXPIRY (R152). -/
def execBlendWaitExpiry (s : State) : Host.Outcome State Fault Refusal :=
  stepAtExpiry (fun s => s.blend.lead.bind (·.waitDue)) blendWaitOver s

end Sys2Proof.Machine
end

