-- ==== Sys2Proof/Machine/DrawTimers.lean ====
section
/-! DEFINITION. The timers of a draw in PRIMING, FLOWING and CLOSING (R47, R58 to R60, R66). -/

namespace Sys2Proof.Machine

/-- A timer of the current draw record, while the draw is in a state. -/
def drawTimer (d : DrawState) (timer : Current → Option Nat) (s : State) : Option Nat :=
  if s.draw.state = d then s.draw.current.bind timer else none

/-- PRIME_TIMER_EXPIRY (R47). -/
def execPrimeTimerExpiry (s : State) : Host.Outcome State Fault Refusal :=
  stepAtExpiry (drawTimer .priming (·.primeDue)) enterFlowing s

/-- DEADMAN_EXPIRY (R58). -/
def execDeadmanExpiry (s : State) : Host.Outcome State Fault Refusal :=
  stepAtExpiry (drawTimer .flowing (·.deadmanDue)) (suspend (raiseLatch .deadman)) s

/-- AIR_TIMER_EXPIRY (R59). -/
def execAirTimerExpiry (s : State) : Host.Outcome State Fault Refusal :=
  stepAtExpiry (drawTimer .flowing (·.airDue)) (suspend (raiseCond .air)) s

/-- When nothing has passed a FLOWING draw for the no-flow time (R60). -/
def noFlowDue (s : State) : Option Nat :=
  drawTimer .flowing (fun c => some (later c.enteredAt s.pulse.latestCount + 1000 * s.cfg.noFlow)) s

/-- NO_FLOW_EXPIRY (R60). -/
def execNoFlowExpiry (s : State) : Host.Outcome State Fault Refusal :=
  stepAtExpiry noFlowDue (suspend (raiseLatch .noFlow)) s

/-- When the flow of a CLOSING draw has stopped (R66). -/
def flowStopDue (s : State) : Option Nat :=
  if closingOpen s then
    s.draw.current.map (fun c => later c.enteredAt s.pulse.latestCount + Config.flowStopTime)
  else none

/-- FLOW_STOP (R66). -/
def execFlowStop (s : State) : Host.Outcome State Fault Refusal :=
  stepAtExpiry flowStopDue (finishClosing false) s

/-- The limit of the wait for flow stop (R66). -/
def closingLimitDue (s : State) : Option Nat :=
  if closingOpen s then s.draw.current.map (fun c => c.enteredAt + Config.closingLimitTime) else none

/-- CLOSING_LIMIT (R66). -/
def execClosingLimit (s : State) : Host.Outcome State Fault Refusal :=
  stepAtExpiry closingLimitDue (finishClosing true) s

end Sys2Proof.Machine
end

