-- ==== Sys2Proof/Machine/LineTimers.lean ====
section
/-! DEFINITION. The timers of the line port, the station clock, the peer view and the claim unit
(chapters 5 and 6). -/

namespace Sys2Proof.Machine

/-- STATUS_PERIOD (R100). -/
def execStatusPeriod (s : State) : Host.Outcome State Fault Refusal :=
  stepAtExpiry (fun s => s.port.statusDue) queueStat s

/-- The controller returns to the line (R105). -/
def portRestarted (s : State) : State :=
  match s.station.state with
  | .lineLost => listen s
  | .configFault => queueStat { s with port := { s.port with errors := 0, restartDue := none } }
  | _ => s

/-- PORT_RESTART (R105). -/
def execPortRestart (s : State) : Host.Outcome State Fault Refusal :=
  stepAtExpiry (fun s => s.port.restartDue) portRestarted s

/-- QUIET_LISTEN_EXPIRY (R198). -/
def execQuietListenExpiry (s : State) : Host.Outcome State Fault Refusal :=
  stepAtExpiry (fun s => if s.station.state = .listening then s.station.quietDue else none) enterRunning s

/-- The own claim at the silence of a station (R127): in CONSENTED, the resources that it owns are LOST. The model's choice
where the station is an owner and the partner at once: OWNER_SILENT is reported before PARTNER_SILENT (R53, log 68). -/
def loseOwner (station : Nat) (s : State) : State :=
  match s.claims.own with
  | some o =>
    if o.phase = .consented then
      let t := modOwn (fun o => { o with
        resources := o.resources.map (fun r => if r.owner = station then { r with status := .lost } else r) }) s
      let u :=
        if o.resources.any (fun r => r.owner == station && r.resource != .partner) then suspend (raiseCond .ownerSilent) t
        else t
      if o.resources.any (fun r => r.owner == station && r.resource == .partner) then
        suspend (raiseCond .partnerSilent) u
      else u
    else s
  | none => s

/-- A peer has fallen silent (R103, R127). -/
def peerSilent (station : Nat) (s : State) : State :=
  let t := endPeerClaim station s
  loseOwner station
    { t with claims := { t.claims with view := t.claims.view.filter (fun p => p.station != station) } }

/-- When a peer of the view falls silent (R103). -/
def silenceDue (station : Nat) (s : State) : Option Nat :=
  (peerOf s station).map (fun p => p.lastHeard + Config.silenceTime)

/-- PEER_SILENCE (R103). -/
def execPeerSilence (station : Nat) (s : State) : Host.Outcome State Fault Refusal :=
  stepAtExpiry (silenceDue station) (peerSilent station) s

/-- The consent timer of an own claim that is not yet consented (R113). -/
def consentDueOf (s : State) : Option Nat :=
  match s.claims.own with
  | some o => if o.phase = .consented then none else o.consentDue
  | none => none

/-- CONSENT_TIMER_EXPIRY (R114, R115). -/
def execConsentTimerExpiry (s : State) : Host.Outcome State Fault Refusal :=
  stepAtExpiry consentDueOf (endClaiming (plain .consentTimeout)) s

/-- View rebuild ends (R130): in RUNNING the deferred judgements are made. -/
def rebuildOver (s : State) : State :=
  let t := { s with claims := { s.claims with rebuildDue := none } }
  if t.station.state = .running then judgePending t else t

/-- REBUILD_TIMER_EXPIRY (R130). -/
def execRebuildTimerExpiry (s : State) : Host.Outcome State Fault Refusal :=
  stepAtExpiry (fun s => s.claims.rebuildDue) rebuildOver s

/-- The station clock steps on, from 4,294,967,295 to 0 (R106). -/
def clockTick (p : Port) : Port :=
  { p with
    clock := p.clock.map (fun c => (c + 1) % 4294967296)
    clockDue := p.clockDue.map (· + 1000) }

/-- CLOCK_SECOND (R106). -/
def execClockSecond (s : State) : Host.Outcome State Fault Refusal :=
  stepAtExpiry (fun s => s.port.clockDue) (fun s => { s with port := clockTick s.port }) s

end Sys2Proof.Machine
end

