-- ==== Sys2Proof/Machine/LocalLines.lean ====
section
/-! DEFINITION. Commands of the local inputs and of the valve driver's timers (chapter 4). -/

namespace Sys2Proof.Machine

/-- The emergency-stop input comes to a level (R83, R84). -/
def emergencyStopChanged (active : Bool) (s : State) : State :=
  if active = s.inputs.emergencyStop then s
  else if active then localHalt s
  else
    sourceQuiet
      { s with
        inputs := { s.inputs with emergencyStop := false }
        valve := { s.valve with haltRepeatDue := none } }

/-- EMERGENCY_STOP_CHANGE (R83). -/
def execEmergencyStopChange (active : Bool) (s : State) : Host.Outcome State Fault Refusal :=
  stepWhenOperating (emergencyStopChanged active) (setPins (fun p => { p with emergencyStop := active }) s)

/-- HALT_REPEAT (R84). -/
def execHaltRepeat (s : State) : Host.Outcome State Fault Refusal :=
  stepAtExpiry (fun s => s.valve.haltRepeatDue)
    (fun s => sendHalt
      { s with valve := { s.valve with haltRepeatDue := s.valve.haltRepeatDue.map (· + Config.statusPeriod) } }) s

/-- A RESUME is accepted: the set is emptied and the draw enters FLOWING (R55, R57). -/
def resumeFlow (s : State) : State := enterFlowing s

/-- A press of hold-to-run (R57, R58, R74). -/
def pressed (s : State) : State :=
  if s.inputs.holdToRun then s
  else
    let t := { s with inputs := { s.inputs with holdToRun := true } }
    match t.draw.state, t.draw.current with
    | .flowing, some _ => modCurrent (fun c => { c with deadmanDue := deadmanStart t.cfg t.time }) t
    | .suspended, some c => if deadmanAlone c.causes then resumeFlow t else t
    | _, _ => t

/-- HOLD_TO_RUN_PRESS (R57). -/
def execHoldToRunPress (s : State) : Host.Outcome State Fault Refusal :=
  stepWhenOperating pressed (setPins (fun p => { p with holdToRun := true }) s)

/-- HOLD_TO_RUN_RELEASE (R74): no effect on the draw. -/
def execHoldToRunRelease (s : State) : Host.Outcome State Fault Refusal :=
  stepWhenOperating (fun s => { s with inputs := { s.inputs with holdToRun := false } })
    (setPins (fun p => { p with holdToRun := false }) s)

/-- The air-detector input comes to a level (R59). -/
def airChanged (active : Bool) (s : State) : State :=
  if active = s.inputs.air then s
  else
    let t := { s with inputs := { s.inputs with air := active } }
    match t.draw.state with
    | .flowing =>
      evaluateStage
        (modCurrent
          (fun c => { c with
            exceptions := { c.exceptions with airSeen := c.exceptions.airSeen || active }
            airDue := if active then some (airStart t.time) else none }) t)
    | .suspended =>
      if active then
        modCurrent (fun c => { c with
          causes := if c.causes.air = .absent then c.causes else raiseCond .air c.causes }) t
      else clearCause .air t
    | _ => t

/-- AIR_DETECTOR_CHANGE (R59). -/
def execAirDetectorChange (active : Bool) (s : State) : Host.Outcome State Fault Refusal :=
  stepWhenOperating (airChanged active) (setPins (fun p => { p with air := active }) s)

/-- REEL_STOWED_CHANGE (R74): the start permissive reads it. -/
def execReelStowedChange (active : Bool) (s : State) : Host.Outcome State Fault Refusal :=
  stepWhenOperating (fun s => { s with inputs := { s.inputs with reelStowed := active } })
    (setPins (fun p => { p with reelStowed := active }) s)

/-- DWELL_TIMER_EXPIRY (R77). -/
def execDwellTimerExpiry (s : State) : Host.Outcome State Fault Refusal :=
  stepAtExpiry (fun s => dwellDue s.valve.stage)
    (fun s => { s with valve := { s.valve with stage := dwellOver (fastAccepted (stageOwner s) s) s.valve.stage } }) s

/-- The run-on timer (R81). -/
def runOnDue (p : PumpState) : Option Nat :=
  match p with
  | .runOn due => some due
  | _ => none

/-- RUN_ON_EXPIRY (R81). -/
def execRunOnExpiry (s : State) : Host.Outcome State Fault Refusal :=
  stepAtExpiry (fun s => runOnDue s.valve.pump) (fun s => { s with valve := { s.valve with pump := .off } }) s

/-- HALT_HEARD_EXPIRY (R83, R85). -/
def execHaltHeardExpiry (s : State) : Host.Outcome State Fault Refusal :=
  stepAtExpiry (fun s => s.valve.heardDue)
    (fun s => sourceQuiet { s with valve := { s.valve with heardDue := none } }) s

end Sys2Proof.Machine
end

