-- ==== Sys2Proof/Machine/Metering.lean ====
section
/-! DEFINITION. Commands of the pulser, the probe and the metering updates (chapters 1 and 2). -/

namespace Sys2Proof.Machine

/-- What a transition brings: its match and its PULSE_FAULT, in either order (R11, R14, log 4). -/
def pulseReactions (e : PulseEvents) : List (State → State) :=
  (e.point.map signalPoint).toList ++ (if e.fault then [raisePulseFault] else [])

/-- The filters deliver a transition (R2). -/
def transition (a b : Bool) (s : State) : State :=
  let r := takeTransition s.cfg s.time a b s.pulse
  runAnyOrder (pulseReactions r.2) { s with pulse := r.1 }

/-- PULSER_TRANSITION (R2): the counter takes transitions from LISTENING to POWER_DOWN (R17). -/
def execPulserTransition (a b : Bool) (s : State) : Host.Outcome State Fault Refusal :=
  stepWhenOperating (transition a b) (setPins (fun p => { p with pulserA := a, pulserB := b }) s)

/-- A reading completes with no session open (R25). -/
def probeRead (reading : ProbeReading) (s : State) : State :=
  let e := takeReading s.time reading s.engine
  { s with engine := { e with probeDue := some (s.time + Config.updatePeriod) } }

/-- PROBE_READING (R25): while a session is open each reading comes with its metering update instead (log 25). -/
def execProbeReading (reading : ProbeReading) (s : State) : Host.Outcome State Fault Refusal :=
  stepAtExpiry (fun s => if s.pulse.session.isNone then s.engine.probeDue else none) (probeRead reading) s

/-- A metering update falls due (R20, R21): the engine's ten steps, then the owner of the session. The
model's choice: the next reading outside a session is due 100 ms after the last update (log 54). -/
def metered (reading : ProbeReading) (s : State) : State :=
  let r := regularUpdate reading s
  let t :=
    { r.1 with
      engine := { r.1.engine with
        updateDue := s.engine.updateDue.map (· + Config.updatePeriod)
        probeDue := some (s.time + Config.updatePeriod) } }
  match s.pulse.session with
  | some .draw => drawUpdate r.2 t
  | some .blend => followerUpdate r.2 t
  | none => t

/-- METERING_UPDATE (R21): it comes only while a session is open (R20). -/
def execMeteringUpdate (reading : ProbeReading) (s : State) : Host.Outcome State Fault Refusal :=
  stepAtExpiry (fun s => if s.pulse.session.isSome then s.engine.updateDue else none) (metered reading) s

/-- CONVERSION_TIMER (R16). -/
def execConversionTimer (s : State) : Host.Outcome State Fault Refusal :=
  stepAtExpiry (fun s => s.pulse.conversionDue)
    (fun s =>
      let t := { s with pulse := { s.pulse with conversionDue := s.pulse.conversionDue.map (· + Config.conversionPeriod) } }
      if s.pulse.unticketed = 0 then t else beginIfIdle (convertUnticketed t)) s

end Sys2Proof.Machine
end

