-- ==== Sys2Proof/Machine/Power.lean ====
section
/-! DEFINITION. Commands of the supply, the RESET pin, the configuration memory and the journal memory. -/

namespace Sys2Proof.Machine

/-- POWER_UP (R195, R200). The power-fail input is INACTIVE when the supply comes up (log 7). -/
def execPowerUp (straps : BitVec 4) (sealOpen : Bool) (s : State) : Host.Outcome State Fault Refusal :=
  .next (startUp straps sealOpen (setPins (fun p => { p with powerFail := false }) s))

/-- RESET_PIN (R195, R197, R200). -/
def execResetPin (straps : BitVec 4) (sealOpen : Bool) (s : State) : Host.Outcome State Fault Refusal :=
  .next (startUp straps sealOpen s)

/-- CONFIG_IMAGE_READ (R196, R197): it comes once in STARTING, before any start write. -/
def execConfigImageRead (read : ImageRead) (s : State) : Host.Outcome State Fault Refusal :=
  if s.station.state = .starting ∧ s.journal.inflight = none then .next (readImage read s) else .next s

/-- POWER_FAIL (R87, R180, R200). -/
def execPowerFail (s : State) : Host.Outcome State Fault Refusal :=
  let t := setPins (fun p => { p with powerFail := true }) s
  if s.station.state = .powerDown then .next t else .next (enterPowerDown t)

/-- POWER_FAIL_INPUT_INACTIVE (R87, R200): the level alone changes. -/
def execPowerFailInputInactive (s : State) : Host.Outcome State Fault Refusal :=
  .next (setPins (fun p => { p with powerFail := false }) s)

/-- The write in flight completes (R175): in STARTING the next start write begins or LISTENING is entered (R181, R197);
later a close may auto-print (R187), a waiting request is taken, and the next write begins. -/
def writeCompleted (s : State) : State :=
  match s.journal.inflight with
  | some w =>
    let t := { s with journal := { s.journal with mem := applyWrite w s.journal.mem, inflight := none } }
    if t.station.state = .starting then continueStart t
    else beginIfIdle (takeWaiting (autoPrint w.change t))
  | none => s

/-- JOURNAL_WRITE_COMPLETE (R175). -/
def execJournalWriteComplete (s : State) : Host.Outcome State Fault Refusal := stepOf writeCompleted s

/-- The calibration write sequence ends (R201, R202): the request that waits for it is answered. -/
def configWritten (completed : Bool) (s : State) : State :=
  match s.station.cfgWrite, s.handler.serving with
  | some w, some sv =>
    let img :=
      if completed then writtenImage s.station.image w.1 w.2
      else cutImage (Config.cutWriteReach s.freeIndex) s.station.image w.1 w.2
    let t :=
      { s with
        station := { s.station with image := img, cfgWrite := none }
        handler := { s.handler with serving := none }
        freeIndex := if completed then s.freeIndex else s.freeIndex + 1 }
    let u := if completed ∧ operating t = true then handWork .calibration t else t
    answer sv.asker (plain (if completed then .ok else .busy)) u
  | _, _ => s

/-- CONFIG_WRITE_COMPLETE (R201). -/
def execConfigWriteComplete (completed : Bool) (s : State) : Host.Outcome State Fault Refusal :=
  stepOf (configWritten completed) s

end Sys2Proof.Machine
end

