-- ==== Sys2Proof/Machine/Printing.lean ====
section
/-! DEFINITION. Commands of the printer line (chapter 10). -/

namespace Sys2Proof.Machine

/-- STALL_TIMER_EXPIRY (R191). -/
def execStallTimerExpiry (s : State) : Host.Outcome State Fault Refusal := stepAtExpiry stallDue abortJob s

/-- TRAILER_TIMER_EXPIRY (R191). -/
def execTrailerTimerExpiry (s : State) : Host.Outcome State Fault Refusal := stepAtExpiry trailerDue endTrailer s

/-- CTS_CHANGE (R190): read only where the flow control is CTS. -/
def execCtsChange (active : Bool) (s : State) : Host.Outcome State Fault Refusal :=
  stepWhenOperating (fun s => if s.cfg.flowControl = .cts then setGo active s else s)
    (setPins (fun p => { p with cts := active }) s)

/-- A character on the receive line (R190): XON is 17 and XOFF 19 (12.5). -/
def characterReceived (c : Byte) (framingError : Bool) (s : State) : State :=
  if s.cfg.flowControl = .xonXoff ∧ framingError = false then
    if c = 19 then setGo false s else if c = 17 then setGo true s else s
  else s

/-- PRINTER_CHARACTER_RECEIVED (R190). -/
def execPrinterCharacterReceived (c : Byte) (framingError : Bool) (s : State) : Host.Outcome State Fault Refusal :=
  stepWhenOperating (characterReceived c framingError) s

/-- CHARACTER_SHIFTED (R189). -/
def execCharacterShifted (s : State) : Host.Outcome State Fault Refusal := stepWhenOperating characterDone s

end Sys2Proof.Machine
end

