-- ==== Sys2Proof/Machine/Requests.lean ====
section
/-! DEFINITION. The request commands (chapter 8), with what the owning blocks answer (R15, R41 to R46, R51, R55, R56,
R64, R86, R165 to R168, R201). -/

namespace Sys2Proof.Machine

/-! ### OPEN_DROP, SELECT, CLOSE_DROP -/

/-- OPEN_DROP reaches the draw controller (R41). -/
def serveOpen (a : Asker) (r : Request) (s : State) : State :=
  if s.draw.state = .idle then askJournal a r s else answer a (plain .busy) s

/-- OPEN_DROP (R41). -/
def execOpenDrop (s : State) : Host.Outcome State Fault Refusal := stepOf (takeRequest 1 serveOpen) s

/-- Whether a blend may be selected (R42, step 3). -/
def blendOk (s : State) (sel : Selection) (b : BlendSel) : Bool :=
  s.cfg.kind == .hose && decide (10 ≤ b.share) && decide (b.share ≤ 500) && (productOf s.cfg b.product).isSome &&
    b.comps != 0 && sel.preset.isSome

/-- The refusal of a selection, if any: the checks of R42 in order. -/
def selectionRefused (s : State) (sel : Selection) : Option Result :=
  if 4 ≤ (s.draw.drop.map (·.items)).getD 0 then some .dropFull
  else if (productOf s.cfg sel.product).isNone ∨ sel.comps = 0 then some .invalid
  else
    match sel.blend with
    | some b => if blendOk s sel b then none else some .invalid
    | none => none

/-- OK, or CLAMPED when a preset was clamped (R163). -/
def okOrClamped (clamped : Bool) : Result := if clamped then .clamped else .ok

/-- SELECT reaches the draw controller (R42). -/
def serveSelect (a : Asker) (r : Request) (s : State) : State :=
  match r with
  | .select sel clamped =>
    match s.draw.state with
    | .idle => answer a (plain .invalid) s
    | .dropOpen | .ready =>
      match selectionRefused s sel with
      | some refusal => answer a (plain refusal) s
      | none =>
        answer a (plain (okOrClamped clamped)) { s with draw := { s.draw with state := .ready, selection := some sel } }
    | _ => answer a (plain .busy) s
  | _ => s

/-- SELECT (R42). -/
def execSelect (s : State) : Host.Outcome State Fault Refusal := stepOf (takeRequest 2 serveSelect) s

/-- CLOSE_DROP reaches the draw controller (R43). -/
def serveClose (a : Asker) (r : Request) (s : State) : State :=
  match s.draw.state with
  | .idle => answer a (plain .invalid) s
  | .dropOpen | .ready =>
    if (s.draw.drop.map (·.items)).getD 0 = 0 then answer a (plain .invalid) s
    else askJournal a r { s with draw := { s.draw with state := .dropOpen, selection := none } }
  | _ => answer a (plain .busy) s

/-- CLOSE_DROP (R43). -/
def execCloseDrop (s : State) : Host.Outcome State Fault Refusal := stepOf (takeRequest 7 serveClose) s

/-! ### START (R44, R162) -/

/-- Whether the drop's journal record is OPEN (R44, check 7). -/
def recordOpen (s : State) : Bool :=
  match s.draw.drop.bind (fun d => ticketOf s.journal.mem d.ticket) with
  | some t => t.state == .opened
  | none => false

/-- Whether a product code names a compensated product. -/
def codeCompensated (cfg : Cfg) (code : Nat) : Bool := ((productOf cfg code).map (·.compensated)).getD false

/-- Checks 1 to 7 of the start permissive, in order (R44); the view rebuild stands within check 1. -/
def startRefused (s : State) : Option Result :=
  if s.station.state ≠ .running then some .busy
  else if s.claims.rebuildDue.isSome then some .viewRebuild
  else if s.valve.halt ≠ .clear then some .halted
  else if s.draw.state ≠ .ready ∨ s.blend.follower ≠ .unbound then some .busy
  else if s.inputs.reelStowed then some .hoseStowed
  else if s.pulse.faultLatch then some .pulseFault
  else if ((s.draw.selection.map (fun sel => codeCompensated s.cfg sel.product)).getD false) ∧ s.engine.probe ≠ .good then
    some .tempFault
  else if recordOpen s = false then some .busy
  else none

/-- The current draw record of a START (R44, R70). The model's choices: the soft-start base is 0 until the first entry into
FLOWING (log 55), and the hose at start is the hose record as last written, also while a write that changes it waits
(log 72). -/
def newDraw (s : State) (sel : Selection) : Current :=
  let hose := (stationRecord s).hose
  { causes := .empty
    softBase := 0
    softDone := false
    stageAtClose := none
    ending := none
    exceptions := .empty
    hoseAtStart := hose
    hoseDiffers := hoseDiffers hose (deliveredOf sel)
    hoseFilled := decide (s.cfg.hoseVolume = 0)
    enteredAt := s.time
    lastRequest := .closed
    primeDue := none
    deadmanDue := none
    airDue := none
    overForce := false
    overStart := none
    presetAtClose := none
    final := none }

/-- The lead's side of a blended draw at its START (R134, R138). -/
def newLead (c : Claim) : Option Lead :=
  c.partner.map fun p => ⟨c.id.sequence, p.1, false, none, none, none, none, none, false⟩

/-- A preset in ml. -/
def presetMl (sel : Selection) : Option Int := sel.preset.map (fun l => (l : Int) * 1000)

/-- A START that passes every check (R44, R113): the draw record, the cleared context, the claim and its frame. -/
def startDraw (a : Asker) (sel : Selection) (c : Claim) (s : State) : State :=
  let t := clearContext .draw ((productOf s.cfg sel.product).map entryFor) (presetMl sel) (sel.blend.map (·.share))
    { s with
      draw := { s.draw with current := some (newDraw s sel) }
      claims := { s.claims with nextSequence := nextSequence s.claims.nextSequence } }
  let r := handFrame .claimUnit (claimFrame c) t
  if r.2 then
    { r.1 with
      draw := { r.1.draw with state := .claiming }
      claims := { r.1.claims with own := some (queuedClaim s c) }
      blend := { r.1.blend with lead := newLead c }
      handler := { r.1.handler with deferred := some a } }
  else answer a (plain .busy) { t with draw := { t.draw with current := none } }

/-- START reaches the draw controller (R44). -/
def serveStart (a : Asker) (_r : Request) (s : State) : State :=
  match startRefused s with
  | some refusal => answer a (plain refusal) s
  | none =>
    match s.draw.selection with
    | some sel =>
      match localChecks s sel (buildClaim s sel) with
      | some refusal => answer a (plain refusal) s
      | none => startDraw a sel (buildClaim s sel) s
    | none => answer a (plain .busy) s

/-- START (R44). -/
def execStart (s : State) : Host.Outcome State Fault Refusal := stepOf (takeRequest 3 serveStart) s

/-! ### PAUSE, RESUME, END, SET_PRESET -/

/-- PAUSE reaches the draw controller (R56). Its ANSWER is handed after what the PAUSE brings (log 51). -/
def servePause (a : Asker) (_r : Request) (s : State) : State :=
  match s.draw.state with
  | .priming | .flowing | .suspended => answer a (plain .ok) (suspend (raiseLatch .pause) s)
  | _ => answer a (plain .busy) s

/-- PAUSE (R56). -/
def execPause (s : State) : Host.Outcome State Fault Refusal := stepOf (takeRequest 4 servePause) s

/-- RESUME reaches the draw controller (R55). Its ANSWER is handed after what the RESUME brings (log 51). -/
def serveResume (a : Asker) (_r : Request) (s : State) : State :=
  match s.draw.state, s.draw.current with
  | .suspended, some c =>
    match resumeAnswer c.causes with
    | .ok => answer a (plain .ok) (enterFlowing s)
    | refusal => answer a (plain refusal) s
  | _, _ => answer a (plain .busy) s

/-- RESUME (R55). -/
def execResume (s : State) : Host.Outcome State Fault Refusal := stepOf (takeRequest 5 serveResume) s

/-- END reaches the draw controller (R46, R64). Its own ANSWER is handed after what the END brings (log 51). -/
def serveEnd (a : Asker) (_r : Request) (s : State) : State :=
  match s.draw.state with
  | .idle | .dropOpen => answer a (plain .invalid) s
  | .ready => answer a (plain .ok) { s with draw := { s.draw with state := .dropOpen, selection := none } }
  | .claiming => answer a (plain .ok) (endClaiming (plain .cancelled) s)
  | .priming | .flowing | .suspended => answer a (plain .ok) (enterClosing .endedByRequest s)
  | .closing => answer a (plain .ok) s

/-- END (R64). -/
def execEndDraw (s : State) : Host.Outcome State Fault Refusal := stepOf (takeRequest 6 serveEnd) s

/-- The selection's preset is changed (R51). -/
def presetSelected (litres : Option Nat) (s : State) : State :=
  { s with draw := { s.draw with selection := s.draw.selection.map (fun sel => { sel with preset := litres }) } }

/-- The preset is stored as the context's pending preset (R34, R51). -/
def presetPending (litres : Option Nat) (s : State) : State :=
  { s with
    engine := { s.engine with
      ctx := { s.engine.ctx with pending := some (litres.map (fun l => (l : Int) * 1000)) } } }

/-- SET_PRESET reaches the draw controller (R51). -/
def servePreset (a : Asker) (r : Request) (s : State) : State :=
  match r with
  | .setPreset litres clamped =>
    let blended := (s.draw.selection.bind (·.blend)).isSome
    match s.draw.state with
    | .idle | .dropOpen => answer a (plain .invalid) s
    | .ready =>
      if litres = none ∧ blended = true then answer a (plain .invalid) s
      else answer a (plain (okOrClamped clamped)) (presetSelected litres s)
    | .flowing | .suspended =>
      if litres = none ∧ blended = true then answer a (plain .invalid) s
      else answer a (plain (okOrClamped clamped)) (presetPending litres (presetSelected litres s))
    | _ => answer a (plain .busy) s
  | _ => s

/-- SET_PRESET (R51). -/
def execSetPreset (s : State) : Host.Outcome State Fault Refusal := stepOf (takeRequest 8 servePreset) s

/-! ### SET_COMPARTMENT, RESUME_HALT, CLEAR_FAULTS -/

/-- The products of owned compartments with one changed (R116). -/
def setProduct (comp product : Nat) (s : State) : State :=
  { s with
    claims := { s.claims with
      products := s.claims.products.filter (fun x => x.1 != comp) ++ (if product = 0 then [] else [(comp, product)]) } }

/-- SET_COMPARTMENT reaches the claim unit (R116, R165). The model's choice: only the compartment's own consent record makes
it BUSY; a claim that names the compartment and stands in another resource's record alone does not (log 60). -/
def serveCompartment (a : Asker) (r : Request) (s : State) : State :=
  match r with
  | .setCompartment comp product =>
    if (outputFor s comp).isNone then answer a (plain .invalid) s
    else if recordHolds s (.comp comp) then answer a (plain .busy) s
    else answer a (plain .ok) (setProduct comp product s)
  | _ => s

/-- SET_COMPARTMENT (R165). -/
def execSetCompartment (s : State) : Host.Outcome State Fault Refusal := stepOf (takeRequest 9 serveCompartment) s

/-- RESUME_HALT reaches the valve driver (R86). Its ANSWER is handed after what the RESUME_HALT brings (log 51). -/
def serveResumeHalt (a : Asker) (_r : Request) (s : State) : State :=
  match s.valve.halt with
  | .latched => answer a (plain .ok) (setHalt .clear s)
  | .halted => answer a (plain .halted) s
  | .clear => answer a (plain .ok) s

/-- RESUME_HALT (R86). -/
def execResumeHalt (s : State) : Host.Outcome State Fault Refusal := stepOf (takeRequest 10 serveResumeHalt) s

/-- Whether a draw is active, for CLEAR_FAULTS (R15). -/
def drawActive (s : State) : Bool :=
  !((s.draw.state == .idle || s.draw.state == .dropOpen || s.draw.state == .ready) &&
    (s.blend.follower == .unbound || s.blend.follower == .bound))

/-- CLEAR_FAULTS reaches the pulse counter (R15). -/
def serveClearFaults (a : Asker) (_r : Request) (s : State) : State :=
  if drawActive s then answer a (plain .busy) s
  else answer a (plain .ok) { s with pulse := { s.pulse with faultLatch := false } }

/-- CLEAR_FAULTS (R15). -/
def execClearFaults (s : State) : Host.Outcome State Fault Refusal := stepOf (takeRequest 11 serveClearFaults) s

/-! ### Tickets, totals and configuration -/

/-- FETCH_TICKET (R167, R183). -/
def execFetchTicket (s : State) : Host.Outcome State Fault Refusal := stepOf (takeRequest 12 askJournal) s

/-- ACK_TICKET (R167, R179). -/
def execAckTicket (s : State) : Host.Outcome State Fault Refusal := stepOf (takeRequest 13 askJournal) s

/-- The answer to a PRINT (R167). -/
def printAnswer (s : State) (n : Nat) : Result :=
  match ticketOf s.journal.mem n with
  | none => .unknownTicket
  | some t =>
    if t.state = .opened then .busy
    else if s.printer.queue.any (fun j => j.ticket == n) then .alreadyQueued
    else if Config.printRoom ≤ s.printer.queue.length then .queueFull
    else .ok

/-- The copy flag of a job that joins now (R186). -/
def copyFlag (s : State) (n : Nat) : Bool :=
  match ticketOf s.journal.mem n with
  | some t => decide (1 ≤ printCountOf s t)
  | none => false

/-- PRINT reaches the printer port (R167, R186). -/
def servePrint (a : Asker) (r : Request) (s : State) : State :=
  match r with
  | .print n =>
    if printAnswer s n = .ok then answer a (plain .ok) (addJob ⟨n, copyFlag s n⟩ s)
    else answer a (plain (printAnswer s n)) s
  | _ => s

/-- PRINT (R167). -/
def execPrint (s : State) : Host.Outcome State Fault Refusal := stepOf (takeRequest 14 servePrint) s

/-- READ_TOTALS (R166). -/
def execReadTotals (s : State) : Host.Outcome State Fault Refusal := stepOf (takeRequest 15 askJournal) s

/-- WRITE_CONFIG reaches the configuration loader (R168, R201): the handler stays SERVING while the sequence runs. -/
def serveWriteConfig (a : Asker) (r : Request) (s : State) : State :=
  match r with
  | .writeConfig item value =>
    if s.station.calibration = false then answer a (plain .sealed) s
    else if writable s.station.image item value then
      { s with
        station := { s.station with cfgWrite := some (item, value) }
        handler := { s.handler with serving := some ⟨a, r⟩ } }
    else answer a (plain .invalid) s
  | _ => s

/-- WRITE_CONFIG (R168, R201). -/
def execWriteConfig (s : State) : Host.Outcome State Fault Refusal := stepOf (takeRequest 16 serveWriteConfig) s

/-- ASK_UNKNOWN_CODE (R160): a request code that 12.3 does not list. -/
def execAskUnknownCode (s : State) : Host.Outcome State Fault Refusal :=
  stepOf (takeAsk (fun code => code == 0 || decide (16 < code)) (fun _ _ s => s)) s

end Sys2Proof.Machine
end

