-- ==== Sys2Proof/Machine/Transmit.lean ====
section
/-! DEFINITION. The transmit side of the CAN controller (R91, R95, R99, R104). -/

namespace Sys2Proof.Machine

/-- The first WAITING entry goes on the wire. -/
def startFirst : List TxEntry → List TxEntry
  | [] => []
  | e :: es => if e.onWire then e :: startFirst es else { e with onWire := true } :: es

/-- Whether the controller is on the line and may send (R107). -/
def maySend (s : State) : Bool :=
  match s.station.state with
  | .running => true
  | .configFault => s.port.restartDue.isNone
  | _ => false

/-- The wire is free: the first WAITING entry contends and becomes ON_WIRE (R95). -/
def started (s : State) : State :=
  if maySend s ∧ s.port.tx.any (·.onWire) = false then { s with port := { s.port with tx := startFirst s.port.tx } }
  else s

/-- TRANSMIT_START (R95). -/
def execTransmitStart (s : State) : Host.Outcome State Fault Refusal := stepOf started s

/-- Every entry WAITING again. -/
def allWaiting (tx : List TxEntry) : List TxEntry := tx.map (fun e => { e with onWire := false })

/-- ARBITRATION_LOST (R95): the ON_WIRE entry returns to WAITING and keeps its place. -/
def execArbitrationLost (s : State) : Host.Outcome State Fault Refusal :=
  stepOf (fun s => { s with port := { s.port with tx := allWaiting s.port.tx } }) s

/-- A completion notice is placed for an own claim-class frame, however many wait (R93, log 46). -/
def noticeFor (f : Frame) (rx : List RxEntry) : List RxEntry := if isClaimClass f then rx ++ [.notice f] else rx

/-- What SENT tells the block that handed a frame: the journal paces its fetch by it (R95, R183). -/
def reportSent (e : TxEntry) (s : State) : State :=
  match e.sender with
  | .journal n => segmentSent n s
  | _ => s

/-- The ON_WIRE entry completes and leaves the queue SENT; the transmit error count falls by 1 (R95, R99). -/
def sent (s : State) : State :=
  match s.port.tx.find? (·.onWire) with
  | some e =>
    reportSent e
      { s with
        port := { s.port with
          tx := s.port.tx.filter (fun x => !x.onWire)
          rx := noticeFor e.frame s.port.rx
          errors := s.port.errors - 1 } }
  | none => s

/-- FRAME_SENT (R95). -/
def execFrameSent (s : State) : Host.Outcome State Fault Refusal := stepOf sent s

/-- The transmit error count after a failure; none is bus-off (R99). -/
def errorsAfter (noAck : Bool) (errors : Nat) : Option Nat :=
  if noAck ∧ 128 ≤ errors then some errors
  else if 255 < errors + 8 then none
  else some (errors + 8)

/-- The controller goes bus-off (R99, R104). -/
def busOff (s : State) : State :=
  match s.station.state with
  | .running => enterLineLost s
  | _ => purgePort s

/-- A transmission fails: the ON_WIRE entry returns to WAITING, and the failure counts (R95, R99). The model's choice: at
bus-off the count keeps the value that it had, until the port restart sets it to 0 (log 67). -/
def failed (noAck : Bool) (s : State) : State :=
  if s.port.tx.any (·.onWire) then
    let t := { s with port := { s.port with tx := allWaiting s.port.tx } }
    match errorsAfter noAck s.port.errors with
    | some n => { t with port := { t.port with errors := n } }
    | none => busOff t
  else s

/-- TRANSMIT_FAILURE (R99). -/
def execTransmitFailure (noAck : Bool) (s : State) : Host.Outcome State Fault Refusal := stepOf (failed noAck) s

end Sys2Proof.Machine
end

