-- ==== Sys2Proof/Machine/Dispatch.lean ====
section
/-! DEFINITION. One arm for each command of the table: its meaning. -/

namespace Sys2Proof.Machine

def exec (i : Instr) (s : State) : Host.Outcome State Fault Refusal :=
  match i with
  | .powerUp straps sealOpen => Sys2Proof.Machine.execPowerUp straps sealOpen s
  | .resetPin straps sealOpen => Sys2Proof.Machine.execResetPin straps sealOpen s
  | .configImageRead read => Sys2Proof.Machine.execConfigImageRead read s
  | .powerFail => Sys2Proof.Machine.execPowerFail s
  | .emergencyStopChange active => Sys2Proof.Machine.execEmergencyStopChange active s
  | .haltRepeat => Sys2Proof.Machine.execHaltRepeat s
  | .holdToRunPress => Sys2Proof.Machine.execHoldToRunPress s
  | .airDetectorChange active => Sys2Proof.Machine.execAirDetectorChange active s
  | .reelStowedChange active => Sys2Proof.Machine.execReelStowedChange active s
  | .pulserTransition a b => Sys2Proof.Machine.execPulserTransition a b s
  | .probeReading reading => Sys2Proof.Machine.execProbeReading reading s
  | .meteringUpdate reading => Sys2Proof.Machine.execMeteringUpdate reading s
  | .conversionTimer => Sys2Proof.Machine.execConversionTimer s
  | .primeTimerExpiry => Sys2Proof.Machine.execPrimeTimerExpiry s
  | .deadmanExpiry => Sys2Proof.Machine.execDeadmanExpiry s
  | .airTimerExpiry => Sys2Proof.Machine.execAirTimerExpiry s
  | .noFlowExpiry => Sys2Proof.Machine.execNoFlowExpiry s
  | .flowStop => Sys2Proof.Machine.execFlowStop s
  | .closingLimit => Sys2Proof.Machine.execClosingLimit s
  | .dwellTimerExpiry => Sys2Proof.Machine.execDwellTimerExpiry s
  | .runOnExpiry => Sys2Proof.Machine.execRunOnExpiry s
  | .haltHeardExpiry => Sys2Proof.Machine.execHaltHeardExpiry s
  | .statusPeriod => Sys2Proof.Machine.execStatusPeriod s
  | .portRestart => Sys2Proof.Machine.execPortRestart s
  | .quietListenExpiry => Sys2Proof.Machine.execQuietListenExpiry s
  | .peerSilence station => Sys2Proof.Machine.execPeerSilence station s
  | .consentTimerExpiry => Sys2Proof.Machine.execConsentTimerExpiry s
  | .rebuildTimerExpiry => Sys2Proof.Machine.execRebuildTimerExpiry s
  | .leadQuietExpiry => Sys2Proof.Machine.execLeadQuietExpiry s
  | .trimTimerExpiry => Sys2Proof.Machine.execTrimTimerExpiry s
  | .followerFlowStop => Sys2Proof.Machine.execFollowerFlowStop s
  | .followerClosingLimit => Sys2Proof.Machine.execFollowerClosingLimit s
  | .finalReportRepeat => Sys2Proof.Machine.execFinalReportRepeat s
  | .finalReportLimit => Sys2Proof.Machine.execFinalReportLimit s
  | .blendWaitExpiry => Sys2Proof.Machine.execBlendWaitExpiry s
  | .clockSecond => Sys2Proof.Machine.execClockSecond s
  | .stallTimerExpiry => Sys2Proof.Machine.execStallTimerExpiry s
  | .trailerTimerExpiry => Sys2Proof.Machine.execTrailerTimerExpiry s
  | .ctsChange active => Sys2Proof.Machine.execCtsChange active s
  | .printerCharacterReceived character framingError => Sys2Proof.Machine.execPrinterCharacterReceived character framingError s
  | .characterShifted => Sys2Proof.Machine.execCharacterShifted s
  | .frameArrival frame => Sys2Proof.Machine.execFrameArrival frame s
  | .takeHalt => Sys2Proof.Machine.execTakeHalt s
  | .takeClaim => Sys2Proof.Machine.execTakeClaim s
  | .takeConsent => Sys2Proof.Machine.execTakeConsent s
  | .takeRelease => Sys2Proof.Machine.execTakeRelease s
  | .takeProgLeadReport => Sys2Proof.Machine.execTakeProgLeadReport s
  | .takeProgFollowerReport => Sys2Proof.Machine.execTakeProgFollowerReport s
  | .takeProgFinalPart => Sys2Proof.Machine.execTakeProgFinalPart s
  | .takeStatPage0 => Sys2Proof.Machine.execTakeStatPage0 s
  | .takeStatPage1 => Sys2Proof.Machine.execTakeStatPage1 s
  | .takeStatPage2 => Sys2Proof.Machine.execTakeStatPage2 s
  | .takeAnswer => Sys2Proof.Machine.execTakeAnswer s
  | .takeTkt => Sys2Proof.Machine.execTakeTkt s
  | .takeClock => Sys2Proof.Machine.execTakeClock s
  | .takeCompletionNotice => Sys2Proof.Machine.execTakeCompletionNotice s
  | .transmitStart => Sys2Proof.Machine.execTransmitStart s
  | .arbitrationLost => Sys2Proof.Machine.execArbitrationLost s
  | .frameSent => Sys2Proof.Machine.execFrameSent s
  | .transmitFailure noAck => Sys2Proof.Machine.execTransmitFailure noAck s
  | .journalWriteComplete => Sys2Proof.Machine.execJournalWriteComplete s
  | .configWriteComplete completed => Sys2Proof.Machine.execConfigWriteComplete completed s
  | .openDrop => Sys2Proof.Machine.execOpenDrop s
  | .select => Sys2Proof.Machine.execSelect s
  | .start => Sys2Proof.Machine.execStart s
  | .pause => Sys2Proof.Machine.execPause s
  | .resume => Sys2Proof.Machine.execResume s
  | .endDraw => Sys2Proof.Machine.execEndDraw s
  | .closeDrop => Sys2Proof.Machine.execCloseDrop s
  | .setPreset => Sys2Proof.Machine.execSetPreset s
  | .setCompartment => Sys2Proof.Machine.execSetCompartment s
  | .resumeHalt => Sys2Proof.Machine.execResumeHalt s
  | .clearFaults => Sys2Proof.Machine.execClearFaults s
  | .fetchTicket => Sys2Proof.Machine.execFetchTicket s
  | .ackTicket => Sys2Proof.Machine.execAckTicket s
  | .print => Sys2Proof.Machine.execPrint s
  | .readTotals => Sys2Proof.Machine.execReadTotals s
  | .writeConfig => Sys2Proof.Machine.execWriteConfig s
  | .askUnknownCode => Sys2Proof.Machine.execAskUnknownCode s
  | .holdToRunRelease => Sys2Proof.Machine.execHoldToRunRelease s
  | .powerFailInputInactive => Sys2Proof.Machine.execPowerFailInputInactive s

end Sys2Proof.Machine
end

