-- ==== Sys2Proof/Machine/Clock.lean ====
section
/-! DEFINITION. What the part does of itself when no command waits (log 1): the expiries that are due, the periodic
readings and updates, the entries that its blocks take from the receive queue, or a millisecond of station time. -/

namespace Sys2Proof.Machine

/-- A command that is due by its timer. -/
def whenDue (s : State) (due : Option Nat) (i : Instr) : List Instr := if dueBy due s.time then [i] else []

/-- The commands of the draw's timers that are due. -/
def dueDraw (s : State) : List Instr :=
  whenDue s (drawTimer .priming (·.primeDue) s) .primeTimerExpiry ++
    whenDue s (drawTimer .flowing (·.deadmanDue) s) .deadmanExpiry ++
    whenDue s (drawTimer .flowing (·.airDue) s) .airTimerExpiry ++ whenDue s (noFlowDue s) .noFlowExpiry ++
    whenDue s (flowStopDue s) .flowStop ++ whenDue s (closingLimitDue s) .closingLimit

/-- The commands of metering, the probe and the valve driver that are due. -/
def dueLocal (s : State) : List Instr :=
  whenDue s s.engine.updateDue (.meteringUpdate (Config.probeInput s.time)) ++
    whenDue s (if s.pulse.session.isNone then s.engine.probeDue else none) (.probeReading (Config.probeInput s.time)) ++
    whenDue s s.pulse.conversionDue .conversionTimer ++ whenDue s s.valve.haltRepeatDue .haltRepeat ++
    whenDue s (dwellDue s.valve.stage) .dwellTimerExpiry ++ whenDue s (runOnDue s.valve.pump) .runOnExpiry ++
    whenDue s s.valve.heardDue .haltHeardExpiry

/-- The commands of the line's timers that are due. -/
def dueLine (s : State) : List Instr :=
  whenDue s s.port.statusDue .statusPeriod ++ whenDue s s.port.restartDue .portRestart ++
    whenDue s (if s.station.state = .listening then s.station.quietDue else none) .quietListenExpiry ++
    s.claims.view.flatMap (fun p => whenDue s (some (p.lastHeard + Config.silenceTime)) (.peerSilence p.station)) ++
    whenDue s (consentDueOf s) .consentTimerExpiry ++ whenDue s s.claims.rebuildDue .rebuildTimerExpiry ++
    whenDue s s.port.clockDue .clockSecond

/-- The commands of the blend tracker's and the printer's timers that are due. -/
def dueBlend (s : State) : List Instr :=
  whenDue s (s.blend.binding.bind (·.quietDue)) .leadQuietExpiry ++
    whenDue s (if s.blend.follower = .fTrim then s.blend.trimDue else none) .trimTimerExpiry ++
    whenDue s (followerStopDue s) .followerFlowStop ++ whenDue s (followerLimitDue s) .followerClosingLimit ++
    whenDue s (s.blend.held.bind (·.repeatDue)) .finalReportRepeat ++
    whenDue s (s.blend.held.bind (·.discardDue)) .finalReportLimit ++
    whenDue s (s.blend.lead.bind (·.waitDue)) .blendWaitExpiry ++ whenDue s (stallDue s) .stallTimerExpiry ++
    whenDue s (trailerDue s) .trailerTimerExpiry

/-- The request command of a request code (12.3). -/
def requestCommand (code : Nat) : Instr :=
  match code with
  | 1 => .openDrop
  | 2 => .select
  | 3 => .start
  | 4 => .pause
  | 5 => .resume
  | 6 => .endDraw
  | 7 => .closeDrop
  | 8 => .setPreset
  | 9 => .setCompartment
  | 10 => .resumeHalt
  | 11 => .clearFaults
  | 12 => .fetchTicket
  | 13 => .ackTicket
  | 14 => .print
  | 15 => .readTotals
  | 16 => .writeConfig
  | _ => .askUnknownCode

/-- The command that takes a frame (5.1). -/
def takeCommand (s : State) (f : Frame) : List Instr :=
  match kindOf f.id with
  | 1 => [.takeHalt]
  | 2 => [.takeClaim]
  | 3 => [.takeConsent]
  | 4 => [.takeRelease]
  | 5 =>
    if lowTagOf f.id = 0 then (if s.blend.follower = .unbound then [.takeProgFollowerReport] else [.takeProgLeadReport])
    else [.takeProgFinalPart]
  | 6 => if handlerTakes s then [requestCommand (askCodeOf f.id)] else []
  | 7 => [.takeAnswer]
  | 8 => if lowTagOf f.id = 0 then [.takeStatPage0] else if lowTagOf f.id = 1 then [.takeStatPage1] else [.takeStatPage2]
  | 9 => [.takeTkt]
  | 10 => [.takeClock]
  | _ => []

/-- The take of the oldest receive-queue entry, when its block takes it now (R93). -/
def dueTake (s : State) : List Instr :=
  match s.port.rx with
  | .frame f _ :: _ => takeCommand s f
  | .notice _ :: _ => [.takeCompletionNotice]
  | [] => []

/-- The commands that are due of the part itself. -/
def dueCommands (s : State) : List Instr := dueDraw s ++ dueLocal s ++ dueLine s ++ dueBlend s ++ dueTake s

/-- The part with no command waiting (log 1): one of the commands that are due joins the queue, whichever is first in one
of their orders, so that what it changes is seen before the next is judged due; with nothing due, a millisecond of
station time passes (R106), but for POWER_DOWN. -/
def idle (s : State) : State :=
  if s.station.state = .powerDown then s
  else if dueCommands s = [] then { s with time := s.time + 1 }
  else { s with pending := (anyOrder s.freeIndex (dueCommands s)).take 1, freeIndex := s.freeIndex + 1 }

end Sys2Proof.Machine
end

