-- ==== Sys2Proof/WellFormed.lean ====
section
/-! DEFINITION. Which commands the outside world can send: the ranges that the manual gives their operands. A command
that is not well-formed still has its meaning; no statement rests on it. -/

namespace Sys2Proof

/-- The station numbers (chapter 0, Terms). -/
def isStationNumber (n : Nat) : Bool := decide (1 ≤ n) && decide (n ≤ 15)

/-- A frame carries 0 to 8 bytes (5.1). -/
def Frame.wellFormed (f : Frame) : Bool := decide (f.data.length ≤ 8)

/-- An image carries items 1 to 95 (11.2). -/
def Image.wellFormed (img : Image) : Bool := img.items.length == 95

/-- A read of the configuration memory that returns an image returns the whole image (R196). -/
def ImageRead.wellFormed : ImageRead → Bool
  | .silent => true
  | .asHeld => true
  | .programmed img => img.wellFormed

/-- Whether the operands of a command lie within the ranges that the manual gives them. -/
def Instr.wellFormed (i : Instr) : Bool :=
  match i with
  | .configImageRead read => read.wellFormed
  | .peerSilence station => isStationNumber station
  | .frameArrival frame => frame.wellFormed
  | .powerUp _ _ => true
  | .resetPin _ _ => true
  | .powerFail => true
  | .emergencyStopChange _ => true
  | .haltRepeat => true
  | .holdToRunPress => true
  | .airDetectorChange _ => true
  | .reelStowedChange _ => true
  | .pulserTransition _ _ => true
  | .probeReading _ => true
  | .meteringUpdate _ => true
  | .conversionTimer => true
  | .primeTimerExpiry => true
  | .deadmanExpiry => true
  | .airTimerExpiry => true
  | .noFlowExpiry => true
  | .flowStop => true
  | .closingLimit => true
  | .dwellTimerExpiry => true
  | .runOnExpiry => true
  | .haltHeardExpiry => true
  | .statusPeriod => true
  | .portRestart => true
  | .quietListenExpiry => true
  | .consentTimerExpiry => true
  | .rebuildTimerExpiry => true
  | .leadQuietExpiry => true
  | .trimTimerExpiry => true
  | .followerFlowStop => true
  | .followerClosingLimit => true
  | .finalReportRepeat => true
  | .finalReportLimit => true
  | .blendWaitExpiry => true
  | .clockSecond => true
  | .stallTimerExpiry => true
  | .trailerTimerExpiry => true
  | .ctsChange _ => true
  | .printerCharacterReceived _ _ => true
  | .characterShifted => true
  | .takeHalt => true
  | .takeClaim => true
  | .takeConsent => true
  | .takeRelease => true
  | .takeProgLeadReport => true
  | .takeProgFollowerReport => true
  | .takeProgFinalPart => true
  | .takeStatPage0 => true
  | .takeStatPage1 => true
  | .takeStatPage2 => true
  | .takeAnswer => true
  | .takeTkt => true
  | .takeClock => true
  | .takeCompletionNotice => true
  | .transmitStart => true
  | .arbitrationLost => true
  | .frameSent => true
  | .transmitFailure _ => true
  | .journalWriteComplete => true
  | .configWriteComplete _ => true
  | .openDrop => true
  | .select => true
  | .start => true
  | .pause => true
  | .resume => true
  | .endDraw => true
  | .closeDrop => true
  | .setPreset => true
  | .setCompartment => true
  | .resumeHalt => true
  | .clearFaults => true
  | .fetchTicket => true
  | .ackTicket => true
  | .print => true
  | .readTotals => true
  | .writeConfig => true
  | .askUnknownCode => true
  | .holdToRunRelease => true
  | .powerFailInputInactive => true

end Sys2Proof
end

