-- ==== Sys2Proof/Safety.lean ====
section
/-! DEFINITION. The terms in which statements speak of the part: which blocks of the state a step leaves alone, what the
taking of a frame and the answering of a request look like, and what holds of the part in every safe run. -/

namespace Sys2Proof.Machine

/-! ### Frames -/

/-- The blocks of the state, one for each field of `State`. -/
inductive Block
  | time
  | cfg
  | station
  | pins
  | inputs
  | pulse
  | engine
  | draw
  | valve
  | port
  | claims
  | blend
  | handler
  | journal
  | printer
  | freeIndex
  | pending
  deriving DecidableEq, Repr

/-- A block stands in `t` as it stood in `s`. -/
def sameBlock (s t : State) : Block → Prop
  | .time => t.time = s.time
  | .cfg => t.cfg = s.cfg
  | .station => t.station = s.station
  | .pins => t.pins = s.pins
  | .inputs => t.inputs = s.inputs
  | .pulse => t.pulse = s.pulse
  | .engine => t.engine = s.engine
  | .draw => t.draw = s.draw
  | .valve => t.valve = s.valve
  | .port => t.port = s.port
  | .claims => t.claims = s.claims
  | .blend => t.blend = s.blend
  | .handler => t.handler = s.handler
  | .journal => t.journal = s.journal
  | .printer => t.printer = s.printer
  | .freeIndex => t.freeIndex = s.freeIndex
  | .pending => t.pending = s.pending

/-- Every block but the listed ones is unchanged. -/
def OnlyChanges (blocks : List Block) (s t : State) : Prop := ∀ b, b ∉ blocks → sameBlock s t b

/-- The line port is unchanged but for what a STAT set changes: the transmit queue and the status timer (R100). -/
def StatAlone (p q : Port) : Prop := q = { p with tx := q.tx, statusDue := q.statusDue }

/-- The line port is unchanged but for the oldest entry of its receive queue, which has been taken (R93), and for what
frames handed and a STAT set change. -/
def TakenAlone (p q : Port) : Prop := q = { p with rx := p.rx.tail, tx := q.tx, statusDue := q.statusDue }

/-- The line port is unchanged but for frames handed and a fetch abandoned (R97, R184): the transmit queue. -/
def HandedAlone (p q : Port) : Prop := q = { p with tx := q.tx }

/-- The transmit queue holds an entry with a frame. -/
def Queued (f : Frame) (t : State) : Prop := ∃ e ∈ t.port.tx, e.frame = f

/-- The transmit queue has room for `n` more entries. -/
def RoomFor (n : Nat) (s : State) : Prop := s.port.tx.length + n ≤ Config.txRoom

/-! ### Taking a frame, and requests -/

/-- A frame of a kind is the oldest entry of the receive queue of a station whose blocks run (R93). -/
def OldestFrame (s : State) (f : Frame) (arrival : Nat) : Prop :=
  operating s = true ∧ s.port.rx.head? = some (.frame f arrival)

/-- The part once the oldest entry of its receive queue, a frame, has been taken: the entry has left the queue, and the
sender's view entry is refreshed (R93, R102). -/
def taken (s : State) (f : Frame) (arrival : Nat) : State :=
  refreshPeer (sourceOf f.id) arrival { s with port := { s.port with rx := s.port.rx.tail } }

/-- The claim unit once a frame has been taken: the sender's view entry is refreshed (R102). -/
def heard (s : State) (f : Frame) (arrival : Nat) : ClaimUnit := (taken s f arrival).claims

/-- A request that is served: the part is in RUNNING, the handler IDLE, and the oldest entry of the receive queue is an
ASK of the code, which is not a repeat, is not a broadcast unless its code is served as one, can be decoded to `r`, and
comes from the drop's opening station where that is asked (R157 to R160). -/
def RequestServed (s : State) (f : Frame) (arrival : Nat) (code : Nat) (r : Request) : Prop :=
  s.station.state = .running ∧ s.handler.serving = none ∧ s.port.rx.head? = some (.frame f arrival) ∧
    kindOf f.id = kAsk ∧ askCodeOf f.id = code ∧
    (entryOfStation s.handler.table (sourceOf f.id)).map (·.asker) ≠ some (askerOf f) ∧
    (destOf f.id ≠ 0 ∨ code = 4 ∨ code = 6 ∨ code = 10) ∧ decodeAsk f = some r ∧
    notOwner s (askerOf f) r = false

/-- The request of an ASK has been answered (R161): the repeat table holds the answer for the asking station, the rest of
the handler is unchanged, and the ANSWER is in the transmit queue where that had room for it and for one PROG beside. -/
def Answered (f : Frame) (ans : Answer) (s t : State) : Prop :=
  t.handler = { s.handler with
    table := s.handler.table.filter (fun e => e.asker.station != sourceOf f.id) ++ [⟨askerOf f, .settled (some ans)⟩] } ∧
  (RoomFor 2 s → Queued (answerFrame s.station.number (askerOf f) ans) t)

/-- The request of an ASK is taken and not yet answered: it stands DEFERRED in the repeat table (R159). -/
def Entered (f : Frame) (s t : State) : Prop :=
  t.handler.table =
    s.handler.table.filter (fun e => e.asker.station != sourceOf f.id) ++ [⟨askerOf f, .deferred⟩]

/-! ### Counting and metering -/

/-- The transitions of the forward sequence of R2, as the levels (A, B) before and after. -/
def forwardEdges : List (Bool × Bool × Bool × Bool) :=
  [(false, false, true, false), (true, false, true, true), (true, true, false, true), (false, true, false, false)]

/-- The same sequence backward. -/
def reverseEdges : List (Bool × Bool × Bool × Bool) :=
  [(true, false, false, false), (true, true, true, false), (false, true, true, true), (false, false, false, true)]

/-- The last four of a list of counts. -/
def latestFour (window : List Int) : List Int := window.drop (window.length - 4)

/-! ### What holds of the part in every safe run -/

/-- While the halt state is not CLEAR the meter valve is CLOSED and the pump OFF (R79, R82). -/
def HaltHoldsOff (s : State) : Prop :=
  s.valve.halt ≠ .clear → s.valve.stage = .closed ∧ s.valve.pump = .off

/-- The drop context, the selection and the current draw record stand as the draw state gives them (R40). -/
def DrawShape (d : DrawUnit) : Prop :=
  match d.state with
  | .idle => d.drop = none ∧ d.selection = none ∧ d.current = none
  | .dropOpen => d.drop.isSome ∧ d.selection = none ∧ d.current = none
  | .ready => d.drop.isSome ∧ d.selection.isSome ∧ d.current = none
  | _ => d.drop.isSome ∧ d.selection.isSome ∧ d.current.isSome

/-- A draw in CLAIMING has its claim not yet consented, and a consented claim has its draw in PRIMING to CLOSING
(R45, R113). -/
def ClaimShape (s : State) : Prop :=
  match s.claims.own with
  | some o => if o.phase = .consented then drawOpen s.draw.state = true else s.draw.state = .claiming
  | none => s.draw.state ≠ .claiming

/-- A station is party to one draw at a time (R90), and the binding record is held while the follower is not UNBOUND
(R136). -/
def PairShape (s : State) : Prop :=
  (s.blend.follower = .unbound ↔ s.blend.binding = none) ∧ (s.blend.follower ≠ .unbound → s.draw.current = none)

/-- A request that waits for the journal finds the draw where it was taken (R41, R43, R157). -/
def WaitShape (s : State) : Prop :=
  match s.handler.serving with
  | some ⟨_, .openDrop _ _⟩ => s.draw.state = .idle
  | some ⟨_, .closeDrop⟩ => s.draw.state = .dropOpen
  | _ => True

/-- The meter valve is at FAST only while the own draw is FLOWING or the followed draw is in F_RUN or F_TRIM, with the
halt state CLEAR and the station in LISTENING or RUNNING (R78). -/
def FastGuarded (s : State) : Prop :=
  s.valve.stage = .fast →
    s.valve.halt = .clear ∧ (s.station.state = .listening ∨ s.station.state = .running) ∧
      ((s.draw.state = .flowing ∧ s.blend.follower = .unbound) ∨ s.blend.follower = .fRun ∨ s.blend.follower = .fTrim)

/-- The draw, the claim, the pairing and the valve agree. -/
structure Sound (s : State) : Prop where
  draw : DrawShape s.draw
  claim : ClaimShape s
  pair : PairShape s
  wait : WaitShape s
  halt : HaltHoldsOff s
  fast : FastGuarded s

/-- The transmit queue is in identifier order, holds at most eight entries and has at most one ON_WIRE (R95); the
receive queue holds at most 32 frames (R93); a station clock value is an unsigned 32-bit count of seconds (R106). -/
structure PortSound (p : Port) : Prop where
  order : p.tx.Pairwise (fun x y => x.frame.id.toNat ≤ y.frame.id.toNat)
  room : p.tx.length ≤ Config.txRoom
  onWire : (p.tx.filter (·.onWire)).length ≤ 1
  received : rxFrames p.rx ≤ Config.rxRoom
  clock : ∀ c, p.clock = some c → c < 4294967296

/-- The printer FIFO holds at most 64 characters, the print queue at most four jobs (R186, R188), and a port that is
not IDLE has a job. -/
structure PrinterSound (p : Printer) : Prop where
  fifo : p.fifo.length ≤ Config.fifoRoom
  jobs : p.queue.length ≤ Config.printRoom
  busy : p.state ≠ .idle → p.queue ≠ []

end Sys2Proof.Machine
end

