-- ==== Sys2Proof/Certificates/Slice0/Obligations.lean ====
section
/-! DEFINITION. The statements for the provers. Each says that a command answers a next state, what that state holds, and
which blocks it leaves as they were. -/

open Sys2Proof Sys2Proof.Machine

/-! ### The whole part -/

/-- The command at the front of the queue is run on the state with the queue's rest. -/
def Obligations.StepRunsFrontCommand : Prop :=
  ∀ (i : Instr) (rest : List Instr) (s : State),
    step { s with pending := i :: rest } = exec i { s with pending := rest }

/-- In POWER_DOWN every command but a power-up and the RESET pin changes nothing but a pin's level. -/
def Obligations.PowerDownTakesNoCommand : Prop :=
  ∀ (i : Instr) (s : State), s.station.state = .powerDown →
    (∀ straps sealOpen, i ≠ .powerUp straps sealOpen ∧ i ≠ .resetPin straps sealOpen) →
    ∃ t, exec i s = .next t ∧ OnlyChanges [.pins] s t

/-- A command that changes a state field of page 0 and leaves the station in RUNNING has queued a STAT set: every page
waits with its contents as they now stand, unless the queue is full, and the status timer runs from now. The model's
choices: the set is queued at the end of the step (log 5), and where two entries of one page wait, both take the new
contents (log 45). -/
def Obligations.Page0ChangeQueuesStatSet : Prop :=
  ∀ (i : Instr) (s t : State), exec i s = .next t → t.station.state = .running → page0State t ≠ page0State s →
    t.port.statusDue = some (t.time + 250) ∧
    ∀ n, n ≤ 2 →
      (∀ e ∈ t.port.tx, e.frame.id = (pageFrame t n).id → e.onWire = false → e.frame = pageFrame t n) ∧
      ((∃ e ∈ t.port.tx, e.frame = pageFrame t n) ∨ t.port.tx.length = 8 ∨ 8 < t.port.tx.length)

/-- Every step keeps the draw, its claim, the pairing and the valve in agreement: FAST only with the draw FLOWING or the
follower in F_RUN or F_TRIM, and the valve CLOSED and the pump OFF while a halt is in force. -/
def Obligations.EveryStepKeepsSound : Prop := ∀ s t : State, Sound s → step s = .next t → Sound t

/-- Every step keeps the transmit queue in order, at eight entries or fewer with at most one ON_WIRE, the receive queue
at 32 frames or fewer, and the station clock within 32 bits. -/
def Obligations.EveryStepKeepsPortSound : Prop :=
  ∀ s t : State, PortSound s.port → step s = .next t → PortSound t.port

/-- Every step keeps the printer FIFO at 64 characters or fewer and the print queue at four jobs or fewer, and a port
that is not IDLE has a job. -/
def Obligations.EveryStepKeepsPrinterSound : Prop :=
  ∀ s t : State, PrinterSound s.printer → step s = .next t → PrinterSound t.printer

/-- The part after reset meets the three invariants. -/
def Obligations.ResetIsSound : Prop :=
  Sound State.reset ∧ PortSound State.reset.port ∧ PrinterSound State.reset.printer

/-! ### Chapter 1: pulser inputs and count security -/

/-- In X4 every valid edge produces one count, +1 forward and −1 in reverse, which joins the running count; a chatter
across an edge counts to nothing. Where a sum leaves its 64-bit range the value is free (log 10), and where a match and
a fault come together either order is taken (log 4). -/
def Obligations.X4CountsEveryValidEdge : Prop :=
  (∀ (a b : Bool) (s : State), operating s = true → s.cfg.countMode = .x4 →
    ∃ t, exec (.pulserTransition a b) s = .next t ∧ t.pulse.decoderA = a ∧ t.pulse.decoderB = b ∧
      ((s.pulse.decoderA, s.pulse.decoderB, a, b) ∈ forwardEdges → t.pulse.running = sum64 (s.pulse.running + 1)) ∧
      ((s.pulse.decoderA, s.pulse.decoderB, a, b) ∈ reverseEdges → t.pulse.running = sum64 (s.pulse.running - 1)) ∧
      ((s.pulse.decoderA, s.pulse.decoderB, a, b) ∉ forwardEdges ++ reverseEdges →
        t.pulse.running = s.pulse.running) ∧
      OnlyChanges [.pins, .pulse, .engine, .draw, .valve, .port, .claims, .blend, .journal, .freeIndex] s t) ∧
  ∀ a b a' b' : Bool, countOfEdge .x4 a b a' b' + countOfEdge .x4 a' b' a b = 0

/-- In X1 only the transitions between (0,0) and (1,0) count, +1 on the way up and −1 on the way down; a pulser that
turns forward and then backward through the same levels returns the count to where it was. Where a sum leaves its
64-bit range the value is free (log 10), and where a match and a fault come together either order is taken (log 4). -/
def Obligations.X1CountsOncePerCycle : Prop :=
  (∀ (a b : Bool) (s : State), operating s = true → s.cfg.countMode = .x1 →
    ∃ t, exec (.pulserTransition a b) s = .next t ∧ t.pulse.decoderA = a ∧ t.pulse.decoderB = b ∧
      t.pulse.running =
        (if (s.pulse.decoderA, s.pulse.decoderB, a, b) = (false, false, true, false) then
          sum64 (s.pulse.running + 1)
        else if (s.pulse.decoderA, s.pulse.decoderB, a, b) = (true, false, false, false) then
          sum64 (s.pulse.running - 1)
        else s.pulse.running) ∧
      OnlyChanges [.pins, .pulse, .engine, .draw, .valve, .port, .claims, .blend, .journal, .freeIndex] s t) ∧
  ∀ levels : List (Bool × Bool),
    ((levels.zip levels.tail).map (fun e => countOfEdge .x1 e.1.1 e.1.2 e.2.1 e.2.2)).sum +
      ((levels.reverse.zip levels.reverse.tail).map (fun e => countOfEdge .x1 e.1.1 e.1.2 e.2.1 e.2.2)).sum = 0

/-- With no session open a transition changes the pulse counter alone: the count goes to the running and the unticketed
count, and neither the window, the lone-edge counters, the latch nor the comparator moves. (A sum outside the 64-bit
range is free, log 10.) -/
def Obligations.CountOutsideSessionIsUnticketed : Prop :=
  ∀ (a b : Bool) (s : State), operating s = true → s.pulse.session = none → s.pulse.target = none →
    ∃ t, exec (.pulserTransition a b) s = .next t ∧
      (let n := countOfEdge s.cfg.countMode s.pulse.decoderA s.pulse.decoderB a b
       t.pulse = { s.pulse with
         filteredA := a, filteredB := b, decoderA := a, decoderB := b
         running := if n = 0 then s.pulse.running else sum64 (s.pulse.running + n)
         unticketed := s.pulse.unticketed + n
         latestCount := if n = 0 then s.pulse.latestCount else s.time }) ∧
      t.pins = { s.pins with pulserA := a, pulserB := b } ∧ OnlyChanges [.pins, .pulse, .freeIndex] s t

/-- The phase error that brings a window above the phase-error limit raises PULSE_FAULT: the window and the lone-edge
counters return to 0, no count is made, and a FLOWING draw of the station enters CLOSING with the ending PULSE_FAULT. An
edge on one channel adds 1 to its lone-edge counter and sets the other's to 0; the edge that brings a counter above the
lone-edge limit raises PULSE_FAULT in the same way, with both counters at 0. -/
def Obligations.PhaseErrorAboveLimitEndsDraw : Prop :=
  (∀ (a b : Bool) (s : State) (c : Current), operating s = true → s.pulse.session = some .draw →
    s.draw.state = .flowing → s.draw.current = some c → s.pulse.faultLatch = false →
    a ≠ s.pulse.decoderA → b ≠ s.pulse.decoderB → s.cfg.phaseLimit < s.pulse.windowErrors + 1 →
    ∃ t c', exec (.pulserTransition a b) s = .next t ∧ t.pulse = { s.pulse with
        filteredA := a, filteredB := b, decoderA := a, decoderB := b
        windowErrors := 0, windowForward := 0, loneA := 0, loneB := 0, faultLatch := true } ∧
      t.draw = { s.draw with state := .closing, current := some c' } ∧ c'.ending = some .pulseFault ∧
      c'.stageAtClose = some (stageOf s.valve.stage) ∧
      OnlyChanges [.pins, .pulse, .draw, .valve, .port, .blend, .journal, .freeIndex] s t) ∧
  (∀ (a b : Bool) (s : State) (c : Current), operating s = true → s.pulse.session = some .draw → s.pulse.target = none →
    s.draw.state = .flowing → s.draw.current = some c → s.pulse.faultLatch = false →
    (a ≠ s.pulse.decoderA ∧ b = s.pulse.decoderB ∧ s.cfg.loneLimit < s.pulse.loneA + 1) ∨
      (a = s.pulse.decoderA ∧ b ≠ s.pulse.decoderB ∧ s.cfg.loneLimit < s.pulse.loneB + 1) →
    ∃ t c', exec (.pulserTransition a b) s = .next t ∧ t.pulse.faultLatch = true ∧ t.pulse.loneA = 0 ∧
      t.pulse.loneB = 0 ∧ t.draw = { s.draw with state := .closing, current := some c' } ∧
      c'.ending = some .pulseFault ∧ c'.stageAtClose = some (stageOf s.valve.stage) ∧
      OnlyChanges [.pins, .pulse, .draw, .valve, .port, .blend, .journal, .freeIndex] s t) ∧
  (∀ (a b : Bool) (s : State), operating s = true → s.pulse.session.isSome → s.pulse.target = none →
    (a ≠ s.pulse.decoderA → b = s.pulse.decoderB → s.pulse.loneA + 1 ≤ s.cfg.loneLimit →
      ∃ t, exec (.pulserTransition a b) s = .next t ∧ t.pulse.loneA = s.pulse.loneA + 1 ∧ t.pulse.loneB = 0 ∧
        t.pulse.faultLatch = s.pulse.faultLatch ∧ OnlyChanges [.pins, .pulse, .freeIndex] s t) ∧
    (a = s.pulse.decoderA → b ≠ s.pulse.decoderB → s.pulse.loneB + 1 ≤ s.cfg.loneLimit →
      ∃ t, exec (.pulserTransition a b) s = .next t ∧ t.pulse.loneB = s.pulse.loneB + 1 ∧ t.pulse.loneA = 0 ∧
        t.pulse.faultLatch = s.pulse.faultLatch ∧ OnlyChanges [.pins, .pulse, .freeIndex] s t))

/-- At the conversion timer, with counts to convert and a write in flight, the unticketed count is turned into millilitres
at the first meter factor, the remainder is kept, and the result joins the journal's pending unticketed sum. (With an
idle journal the sum goes into a write of its own, log 34; this does not speak of that, nor of a count of 0.) The model's
choices: an expiry command brings the station time to its deadline (log 3), and a sum outside its 64-bit range is free
(log 10). -/
def Obligations.ConversionTimerTurnsCountIntoVolume : Prop :=
  ∀ (s : State) (due : Nat) (w : Write), s.station.state ≠ .powerDown → s.pulse.conversionDue = some due →
    s.pulse.unticketed ≠ 0 → s.journal.inflight = some w →
    ∃ t, exec .conversionTimer s = .next t ∧
      (let acc := s.pulse.unticketedRem + s.pulse.unticketed * firstFactor s.cfg
       let ml := acc / ((s.cfg.kn : Int) * 1000)
       t.pulse = { s.pulse with
         unticketed := 0
         unticketedRem := acc - ml * ((s.cfg.kn : Int) * 1000)
         conversionDue := some (due + 1000) } ∧
       t.journal = { s.journal with unticketedSum := sum64 (s.journal.unticketedSum + ml) }) ∧
      OnlyChanges [.time, .pulse, .journal] s t

/-- CLEAR_FAULTS with no draw active clears the latch and is answered OK; with one active it is answered BUSY and the
latch stays. -/
def Obligations.ClearFaultsNeedsNoActiveDraw : Prop :=
  ∀ (s : State) (f : Frame) (arrival : Nat), RequestServed s f arrival 11 .clearFaults →
    ((s.draw.state = .idle ∨ s.draw.state = .dropOpen ∨ s.draw.state = .ready) ∧
        (s.blend.follower = .unbound ∨ s.blend.follower = .bound) →
      ∃ t, exec .clearFaults s = .next t ∧ t.pulse = { s.pulse with faultLatch := false } ∧
        Answered f ⟨.ok, .none⟩ s t ∧ TakenAlone s.port t.port ∧ t.claims = heard s f arrival ∧
        OnlyChanges [.pulse, .port, .claims, .handler] s t) ∧
    (¬((s.draw.state = .idle ∨ s.draw.state = .dropOpen ∨ s.draw.state = .ready) ∧
        (s.blend.follower = .unbound ∨ s.blend.follower = .bound)) →
      ∃ t, exec .clearFaults s = .next t ∧ Answered f ⟨.busy, .none⟩ s t ∧ TakenAlone s.port t.port ∧
        t.claims = heard s f arrival ∧ OnlyChanges [.port, .claims, .handler] s t)

/-! ### Chapter 2: volume computation -/

/-- A metering update takes the counts, and steps 2 to 9 give the rate, the meter factor, the gross, the temperature in
use, the volume correction factor, the net, the temperature sums and the reverse gross from them; the net remainder stays
from 0 to 999,999. Step 10 takes a pending preset and, for a FLOWING draw with a preset, closes the draw where its close
point is reached (with the ending PRESET_REACHED where no other reaction can come before), signals a slowdown point that
is reached, and loads the comparator with the count of the next point; with no stage points, or a draw that is not FLOWING,
the comparator is disarmed. A forward count that reaches the target disarms the comparator: CLOSE closes a FLOWING draw with
PRESET_REACHED, and SLOWDOWN sets the next point to CLOSE and asks for SLOW. The model's choices: an expiry command brings
the station time to its deadline (log 3), sums outside the 64-bit range are free (log 10), and so is the order of what
the owner does with the results (log 4); the SLOWDOWN target is loaded also where it does not lie below the close point
(log 71). -/
def Obligations.MeteringUpdateComputesVolumes : Prop :=
  (∀ (r : ProbeReading) (s : State) (due : Nat), s.station.state ≠ .powerDown → s.pulse.session.isSome →
    s.engine.updateDue = some due →
    ∃ t, exec (.meteringUpdate r) s = .next t ∧
      (let c := s.engine.ctx
       let n := s.pulse.perUpdate
       let window := latestFour (c.window ++ [n])
       let rate := min ((max window.sum 0).toNat * 6000 / (s.cfg.kn * window.length)) 65535
       let mf := factorAt rate s.cfg.points
       let dg := (s.cfg.kn : Int) * 1000
       let dG := (c.grossRem + n * mf) / dg
       let temp := tempInUse (takeReading (later s.time due) r s.engine)
       let vcf := vcfOf c.product temp
       let dN := (c.netRem + dG * vcf) / 1000000
       let d := t.engine.ctx
       t.pulse.perUpdate = 0 ∧ d.window = window ∧ d.rate = rate ∧ d.mf = mf ∧
         d.gross = sum64 (c.gross + dG) ∧ d.grossRem = c.grossRem + n * mf - dG * dg ∧
         d.temp = temp ∧ d.vcf = vcf ∧
         d.net = sum64 (c.net + dN) ∧ d.netRem = c.netRem + dG * vcf - dN * 1000000 ∧ 0 ≤ d.netRem ∧
         d.netRem ≤ 999999 ∧
         d.reverse = (if dG < 0 then sum64 (c.reverse - dG) else c.reverse) ∧
         d.sumGT = (if 0 < dG then c.sumGT + dG * temp else c.sumGT) ∧
         d.sumG = (if 0 < dG then c.sumG + dG else c.sumG) ∧
         d.preset = c.pending.getD c.preset ∧ d.pending = none ∧
         (s.draw.state ≠ .flowing ∨ c.owner ≠ some .draw ∨ d.preset = none → t.pulse.target = none) ∧
         d.product = c.product ∧ d.owner = c.owner) ∧
      t.engine.updateDue = some (due + 100) ∧ t.pulse.running = s.pulse.running ∧
      t.pulse.unticketed = s.pulse.unticketed ∧ t.journal.mem = s.journal.mem ∧
      OnlyChanges [.time, .pulse, .engine, .draw, .valve, .port, .blend, .journal, .freeIndex] s t) ∧
  (∀ (r : ProbeReading) (s : State) (due : Nat) (p : Int) (cur : Current), s.station.state ≠ .powerDown →
    s.pulse.session = some .draw → s.engine.updateDue = some due → s.engine.ctx.owner = some .draw →
    s.engine.ctx.pending = none → s.engine.ctx.preset = some p → s.draw.state = .flowing → s.draw.current = some cur →
    ∃ t, exec (.meteringUpdate r) s = .next t ∧
      (let c := s.engine.ctx
       let d := t.engine.ctx
       let stop : Int := match c.share with
         | some share => p * (1000 - share) / 1000
         | none => p
       let close := stop - c.closeAhead
       let slow := stop - c.slowdown
       let counts (point : Int) : Int := countsTo ((s.cfg.kn : Int) * 1000) point d
       let next := match c.nextPoint with
         | .slowdown => slow
         | .close => close
       (close ≤ d.net → t.pulse.target = none ∧ t.draw.state ≠ .flowing ∧
         (isCompensated c = false → c.expiry = false → d.rate ≤ s.cfg.fmax → d.reverse ≤ s.cfg.reverseLimit →
           ∃ cur', t.draw = { s.draw with state := .closing, current := some cur' } ∧
             cur'.ending = some .presetReached ∧ cur'.presetAtClose = some p)) ∧
       (d.net < close → c.nextPoint = .slowdown → slow ≤ d.net → d.nextPoint = .close ∧
         (0 < counts close → t.pulse.target = some ⟨s.pulse.running + counts close, .close⟩)) ∧
       (d.net < close → ¬(c.nextPoint = .slowdown ∧ slow ≤ d.net) → 0 < counts next →
         d.nextPoint = c.nextPoint ∧ t.pulse.target = some ⟨s.pulse.running + counts next, c.nextPoint⟩))) ∧
  (∀ (a b : Bool) (s : State) (cur : Current) (target : Target), operating s = true → s.pulse.session = some .draw →
    s.cfg.countMode = .x4 → (s.pulse.decoderA, s.pulse.decoderB, a, b) ∈ forwardEdges →
    s.pulse.loneA + 1 ≤ s.cfg.loneLimit → s.pulse.loneB + 1 ≤ s.cfg.loneLimit →
    s.pulse.target = some target → sum64 (s.pulse.running + 1) = target.count → s.draw.state = .flowing →
    s.draw.current = some cur →
    ∃ t cur', exec (.pulserTransition a b) s = .next t ∧ t.pulse.target = none ∧ t.pulse.running = target.count ∧
      (match target.kind with
       | .close =>
         t.draw = { s.draw with state := .closing, current := some cur' } ∧ cur'.ending = some .presetReached ∧
           cur'.presetAtClose = s.engine.ctx.preset ∧ cur'.stageAtClose = some (stageOf s.valve.stage) ∧
           t.engine = s.engine
       | .slowdown =>
         t.draw = { s.draw with current := some cur' } ∧ (s.engine.ctx.preset.isSome → cur'.lastRequest = .slow) ∧
           t.engine = { s.engine with ctx := { s.engine.ctx with nextPoint := .close } }) ∧
      OnlyChanges [.pins, .pulse, .engine, .draw, .valve, .port, .blend, .journal, .freeIndex] s t)

/-- The meter factor is the first point's at and below its rate, the last point's at and above its rate, and between two
neighbouring points the interpolated one with its quotient truncated. -/
def Obligations.MeterFactorInterpolates : Prop :=
  ∀ (points : List (Nat × Nat)) (rate : Nat), (points.map (·.1)).Pairwise (· < ·) →
    (∀ p, points.head? = some p → rate ≤ p.1 → factorAt rate points = p.2) ∧
    (∀ p, points.getLast? = some p → p.1 ≤ rate → factorAt rate points = p.2) ∧
    (∀ i p q, points[i]? = some p → points[i + 1]? = some q → p.1 < rate → rate < q.1 →
      factorAt rate points =
        (p.2 : Int) + (((q.2 : Int) - p.2) * ((rate : Int) - p.1)).tdiv ((q.1 : Int) - p.1))

/-- The conversion of an update's counts: the gross and the net of the update are the floors of what the remainder and the
new part make, they join the totals, and the new remainders hold the rest, the net's from 0 to 999,999. The same counts
taken back carry back exactly the gross and the net, and no counts change neither. (What a total holds outside its
64-bit range is free, log 10.) -/
def Obligations.NoPartOfACountIsLost : Prop :=
  ∀ (dg n : Int) (c : Context), 0 < dg →
    (let d := convert dg n c
     let dG := (c.grossRem + n * c.mf) / dg
     let dN := (c.netRem + dG * c.vcf) / 1000000
     d.gross = sum64 (c.gross + dG) ∧ d.grossRem = c.grossRem + n * c.mf - dG * dg ∧
       0 ≤ d.grossRem ∧ d.grossRem < dg ∧
       d.net = sum64 (c.net + dN) ∧ d.netRem = c.netRem + dG * c.vcf - dN * 1000000 ∧
       0 ≤ d.netRem ∧ d.netRem ≤ 999999 ∧
       (0 ≤ c.grossRem → c.grossRem < dg → 0 ≤ c.netRem → c.netRem ≤ 999999 →
         (grossOf dg (-n) d = -dG ∧ netOf (-dG) d = -dN ∧ (convert dg (-n) d).grossRem = c.grossRem ∧
           (convert dg (-n) d).netRem = c.netRem) ∧
         (n = 0 → dG = 0 ∧ dN = 0 ∧ d.grossRem = c.grossRem ∧ d.netRem = c.netRem)))

/-- Outside a session a good reading sets the probe status GOOD, becomes the last good reading and clears the hold
start time; a faulty one sets FAULT, and starts the hold when the status was GOOD or no hold had begun. The model's
choice: an expiry command brings the station time to its deadline (log 3). -/
def Obligations.ProbeReadingSetsStatus : Prop :=
  ∀ (r : ProbeReading) (s : State) (due : Nat), s.station.state ≠ .powerDown → s.pulse.session = none →
    s.engine.probeDue = some due →
    ∃ t, exec (.probeReading r) s = .next t ∧
      (r.status = .normal ∧ -4000 ≤ r.value ∧ r.value ≤ 7000 →
        t.engine = { s.engine with
          probe := .good, lastGood := some r.value, holdStart := none, probeDue := some (later s.time due + 100) }) ∧
      (¬(r.status = .normal ∧ -4000 ≤ r.value ∧ r.value ≤ 7000) →
        t.engine = { s.engine with
          probe := .fault
          holdStart :=
            if s.engine.probe = .good ∨ s.engine.holdStart = none then some (later s.time due) else s.engine.holdStart
          probeDue := some (later s.time due + 100) }) ∧
      t.time = later s.time due ∧ StatAlone s.port t.port ∧ OnlyChanges [.time, .engine, .port] s t

/-! ### Chapter 3: the draw -/

/-- OPEN_DROP in IDLE with an idle journal that has room: the record's open write begins under the next ticket number,
the drop context stands in DROP_OPEN with no items, and the answer is OK with the number. The model's choice: the open
time is read when the write begins (log 17). -/
def Obligations.OpenDropOpensRecord : Prop :=
  ∀ (s : State) (f : Frame) (arrival account tank : Nat) (r : StationRecord),
    RequestServed s f arrival 1 (.openDrop account tank) → s.draw.state = .idle → s.journal.inflight = none →
    s.journal.works = [] → s.journal.mem.station = some r → s.journal.mem.tickets.length < 200 →
    r.sequence < 99999999 → (∀ k ∈ s.journal.mem.tickets, k.number ≠ r.sequence + 1) →
    ∃ t w, exec .openDrop s = .next t ∧
      t.draw = ⟨.dropOpen, some ⟨account, tank, sourceOf f.id, r.sequence + 1, 0⟩, none, none⟩ ∧
      t.journal.inflight = some w ∧
      w.change = .openRecord
        { number := r.sequence + 1, station := s.station.number, account := account, tank := tank
          opener := sourceOf f.id, openTime := s.port.clock, closeTime := none, timeNotSet := s.port.clock.isNone
          calibration := s.station.calibration, status := none, printCount := 0, carriedIn := none, items := []
          state := .opened } none ∧
      t.pulse.unticketed = 0 ∧ t.journal.mem = s.journal.mem ∧
      Answered f ⟨.ok, .ticket (r.sequence + 1)⟩ s t ∧ TakenAlone s.port t.port ∧ t.claims = heard s f arrival ∧
      OnlyChanges [.pulse, .draw, .port, .claims, .handler, .journal] s t

/-- CLOSE_DROP with an item appended and an idle journal: the close write of the drop's record begins, the drop context
is discarded, and the answer is OK; with no item it is answered INVALID and the drop stays as it was. The model's
choice: the close time is read when the write begins (log 17). -/
def Obligations.CloseDropNeedsAnItem : Prop :=
  ∀ (s : State) (f : Frame) (arrival : Nat) (d : Drop), RequestServed s f arrival 7 .closeDrop →
    s.draw.state = .dropOpen ∨ s.draw.state = .ready → s.draw.drop = some d →
    (d.items ≠ 0 → s.journal.inflight = none → s.journal.works = [] →
      ∃ t, exec .closeDrop s = .next t ∧ t.draw = ⟨.idle, none, none, none⟩ ∧
        t.journal = { s.journal with
          inflight := some ⟨.closeRecord d.ticket s.port.clock, s.journal.unticketedSum⟩, unticketedSum := 0 } ∧
        Answered f ⟨.ok, .none⟩ s t ∧ TakenAlone s.port t.port ∧ t.claims = heard s f arrival ∧
        OnlyChanges [.draw, .port, .claims, .handler, .journal] s t) ∧
    (d.items = 0 →
      ∃ t, exec .closeDrop s = .next t ∧ Answered f ⟨.invalid, .none⟩ s t ∧ TakenAlone s.port t.port ∧
        t.claims = heard s f arrival ∧ OnlyChanges [.port, .claims, .handler] s t)

/-- SELECT of a solo draw in DROP_OPEN or READY: with four items in the drop it is DROP_FULL; with a product that the
table lacks or no compartment it is INVALID; otherwise the selection stands in READY, answered OK or CLAMPED. -/
def Obligations.SelectChecksInOrder : Prop :=
  ∀ (s : State) (f : Frame) (arrival : Nat) (d : Drop) (sel : Selection) (clamped : Bool),
    RequestServed s f arrival 2 (.select sel clamped) → s.draw.state = .dropOpen ∨ s.draw.state = .ready →
    s.draw.drop = some d → sel.blend = none →
    ∃ t ans, exec .select s = .next t ∧ Answered f ⟨ans, .none⟩ s t ∧ TakenAlone s.port t.port ∧
      t.claims = heard s f arrival ∧ OnlyChanges [.draw, .port, .claims, .handler] s t ∧
      (if 4 ≤ d.items then ans = .dropFull ∧ t.draw = s.draw
      else if (∀ p ∈ s.cfg.products, p.code ≠ sel.product) ∨ sel.comps = 0 then ans = .invalid ∧ t.draw = s.draw
      else ans = (if clamped then .clamped else .ok) ∧
        t.draw = { s.draw with state := .ready, selection := some sel })

/-- SET_PRESET replaces the selection's preset; in FLOWING and SUSPENDED the preset also becomes the pending preset of
the metering context. -/
def Obligations.SetPresetChangesSelectionAndContext : Prop :=
  ∀ (s : State) (f : Frame) (arrival : Nat) (sel : Selection) (litres : Option Nat) (clamped : Bool),
    RequestServed s f arrival 8 (.setPreset litres clamped) → s.draw.selection = some sel → sel.blend = none →
    s.draw.state = .ready ∨ s.draw.state = .flowing ∨ s.draw.state = .suspended →
    ∃ t, exec .setPreset s = .next t ∧ t.draw = { s.draw with selection := some { sel with preset := litres } } ∧
      (s.draw.state = .ready → t.engine = s.engine) ∧
      (s.draw.state ≠ .ready →
        t.engine = { s.engine with
          ctx := { s.engine.ctx with pending := some (litres.map (fun l => (l : Int) * 1000)) } }) ∧
      Answered f ⟨if clamped then .clamped else .ok, .none⟩ s t ∧ TakenAlone s.port t.port ∧
      t.claims = heard s f arrival ∧ OnlyChanges [.engine, .draw, .port, .claims, .handler] s t

/-- A START that passes every check of the start permissive, with room for its CLAIM: the draw is in CLAIMING with an
empty record, the own claim is QUEUED with every resource AWAITED and the consent timer at 1,000 ms, its CLAIM waits in
the transmit queue, and the answer is deferred. -/
def Obligations.StartQueuesClaim : Prop :=
  ∀ (s : State) (f : Frame) (arrival : Nat) (d : Drop) (k : Ticket) (sel : Selection),
    RequestServed s f arrival 3 .start → s.claims.rebuildDue = none → s.valve.halt = .clear → s.draw.state = .ready →
    s.blend.follower = .unbound → s.inputs.reelStowed = false → s.pulse.faultLatch = false →
    s.draw.selection = some sel →
    (∀ p ∈ s.cfg.products, p.code = sel.product → p.compensated = true → s.engine.probe = .good) →
    s.draw.drop = some d → ticketOf s.journal.mem d.ticket = some k → k.state = .opened →
    localChecks (taken s f arrival) sel (buildClaim (taken s f arrival) sel) = none → RoomFor 1 s →
    ∃ t cur own, exec .start s = .next t ∧ t.draw = { s.draw with state := .claiming, current := some cur } ∧
      cur.causes = Causes.empty ∧ cur.exceptions = Exceptions.empty ∧ cur.ending = none ∧
      t.claims.own = some own ∧ own.claim = buildClaim (taken s f arrival) sel ∧ own.phase = .queued ∧
      (∀ r ∈ own.resources, r.status = .awaited) ∧ own.consentDue = some (s.time + 1000) ∧
      Queued (claimFrame own.claim) t ∧ t.handler.deferred = some (askerOf f) ∧ Entered f s t ∧
      t.engine.ctx.gross = 0 ∧ t.engine.ctx.net = 0 ∧ t.engine.ctx.owner = some .draw ∧
      t.claims.records = s.claims.records ∧
      OnlyChanges [.engine, .draw, .port, .claims, .blend, .handler] s t

/-- PAUSE is taken from any station. In PRIMING and FLOWING it adds PAUSE to the set and suspends the draw, every
supervisor's timer stopped and the meter valve of a solo part on its way to CLOSED; in SUSPENDED it adds PAUSE; the
answer is OK in these three. In any other state it is answered BUSY and has no effect. -/
def Obligations.PauseSuspendsDraw : Prop :=
  ∀ (s : State) (f : Frame) (arrival : Nat), RequestServed s f arrival 4 .pause →
    (∀ c, s.draw.state = .priming ∨ s.draw.state = .flowing → s.draw.current = some c →
      ∃ t, exec .pause s = .next t ∧
        t.draw = { s.draw with
          state := .suspended
          current := some { c with
            causes := { c.causes with pause := true }, enteredAt := s.time, lastRequest := .closed
            primeDue := none, deadmanDue := none, airDue := none, overForce := false, overStart := none } } ∧
        (s.blend.follower = .unbound → s.valve.halt = .clear → 0 < s.cfg.dwell →
          t.valve = { s.valve with stage := stageTable (s.time + s.cfg.dwell) .closed s.valve.stage }) ∧
        t.journal.mem = s.journal.mem ∧ Answered f ⟨.ok, .none⟩ s t ∧ TakenAlone s.port t.port ∧
        t.claims = heard s f arrival ∧ OnlyChanges [.draw, .valve, .port, .claims, .blend, .handler, .journal] s t) ∧
    (∀ c, s.draw.state = .suspended → s.draw.current = some c →
      ∃ t, exec .pause s = .next t ∧
        t.draw = { s.draw with current := some { c with causes := { c.causes with pause := true } } } ∧
        Answered f ⟨.ok, .none⟩ s t ∧ TakenAlone s.port t.port ∧ t.claims = heard s f arrival ∧
        OnlyChanges [.draw, .port, .claims, .handler] s t) ∧
    (s.draw.state ≠ .priming → s.draw.state ≠ .flowing → s.draw.state ≠ .suspended →
      ∃ t, exec .pause s = .next t ∧ Answered f ⟨.busy, .none⟩ s t ∧ TakenAlone s.port t.port ∧
        t.claims = heard s f arrival ∧ OnlyChanges [.port, .claims, .handler] s t)

/-- RESUME in SUSPENDED with no condition ACTIVE: the draw is FLOWING with an empty set and a new soft-start base, and
the answer is OK; with the HALT condition ACTIVE it is answered HALTED and nothing else changes. -/
def Obligations.ResumeNeedsNoActiveCondition : Prop :=
  ∀ (s : State) (f : Frame) (arrival : Nat) (c : Current), RequestServed s f arrival 5 .resume →
    s.draw.state = .suspended → s.draw.current = some c →
    ((∀ k, condFlag c.causes k ≠ .active) →
      ∃ t c', exec .resume s = .next t ∧ t.draw = { s.draw with state := .flowing, current := some c' } ∧
        c'.causes = Causes.empty ∧ c'.softBase = s.engine.ctx.gross ∧ c'.softDone = decide (s.cfg.startSlow = 0) ∧
        c'.enteredAt = s.time ∧ Answered f ⟨.ok, .none⟩ s t ∧ TakenAlone s.port t.port ∧
        t.claims = heard s f arrival ∧ OnlyChanges [.draw, .valve, .port, .claims, .blend, .handler, .journal] s t) ∧
    (c.causes.halt = .active →
      ∃ t, exec .resume s = .next t ∧ Answered f ⟨.halted, .none⟩ s t ∧ TakenAlone s.port t.port ∧
        t.claims = heard s f arrival ∧ OnlyChanges [.port, .claims, .handler] s t)

/-- END is taken from any station. In PRIMING, FLOWING and SUSPENDED the draw enters CLOSING with the ending
ENDED_BY_REQUEST, an empty set and the stage at close, answered OK; in CLAIMING the claim ends, released when its frame
has completed, the START is answered CANCELLED and the END OK; in READY the selection is discarded; in CLOSING nothing
changes and the answer is OK; in IDLE and DROP_OPEN it is answered INVALID. -/
def Obligations.EndClosesDraw : Prop :=
  ∀ (s : State) (f : Frame) (arrival : Nat), RequestServed s f arrival 6 .endDraw →
    (∀ c, s.draw.state = .priming ∨ s.draw.state = .flowing ∨ s.draw.state = .suspended →
      s.draw.current = some c →
      ∃ t c', exec .endDraw s = .next t ∧ t.draw = { s.draw with state := .closing, current := some c' } ∧
        c'.ending = some .endedByRequest ∧ c'.causes = Causes.empty ∧
        c'.stageAtClose = some (stageOf s.valve.stage) ∧ c'.presetAtClose = s.engine.ctx.preset ∧
        c'.exceptions = c.exceptions ∧ t.pulse.session = s.pulse.session ∧
        Answered f ⟨.ok, .none⟩ s t ∧ TakenAlone s.port t.port ∧ t.claims = heard s f arrival ∧
        OnlyChanges [.draw, .valve, .port, .claims, .blend, .handler, .journal] s t) ∧
    (∀ o a, s.draw.state = .claiming → s.claims.own = some o → s.handler.deferred = some a → RoomFor 3 s →
      ∃ t, exec .endDraw s = .next t ∧ t.draw = { s.draw with state := .ready, current := none } ∧
        t.claims.own = none ∧ t.handler.deferred = none ∧
        (o.phase ≠ .queued → Queued (releaseFrame o.claim.id) t) ∧
        (o.phase = .queued → ∀ e ∈ t.port.tx, e.onWire = false → kindOf e.frame.id = kClaim →
          sequenceOf e.frame.id ≠ o.claim.id.sequence) ∧
        Queued (answerFrame s.station.number a ⟨.cancelled, .none⟩) t ∧
        Queued (answerFrame s.station.number (askerOf f) ⟨.ok, .none⟩) t ∧
        OnlyChanges [.draw, .valve, .port, .claims, .blend, .handler, .journal] s t) ∧
    (s.draw.state = .ready →
      ∃ t, exec .endDraw s = .next t ∧ t.draw = { s.draw with state := .dropOpen, selection := none } ∧
        Answered f ⟨.ok, .none⟩ s t ∧ TakenAlone s.port t.port ∧ t.claims = heard s f arrival ∧
        OnlyChanges [.draw, .port, .claims, .handler] s t) ∧
    (s.draw.state = .closing →
      ∃ t, exec .endDraw s = .next t ∧ Answered f ⟨.ok, .none⟩ s t ∧ TakenAlone s.port t.port ∧
        t.claims = heard s f arrival ∧ OnlyChanges [.port, .claims, .handler] s t) ∧
    (s.draw.state = .idle ∨ s.draw.state = .dropOpen →
      ∃ t, exec .endDraw s = .next t ∧ Answered f ⟨.invalid, .none⟩ s t ∧ TakenAlone s.port t.port ∧
        t.claims = heard s f arrival ∧ OnlyChanges [.port, .claims, .handler] s t)

/-- At the prime timer a solo draw enters FLOWING and requests the stage: FAST when no soft start is configured, the
net is below the slowdown point and no air is reported, else SLOW. The model's choice: an expiry command brings the
station time to its deadline (log 3). -/
def Obligations.PrimeTimerOpensValve : Prop :=
  ∀ (s : State) (c : Current) (due : Nat), s.draw.state = .priming → s.draw.current = some c →
    c.primeDue = some due → c.lastRequest = .closed → operating s = true → s.valve.halt = .clear →
    s.station.state ≠ .lineLost → s.valve.stage = .closed → s.blend.lead = none → s.blend.follower = .unbound →
    0 < s.cfg.dwell →
    ∃ t c', exec .primeTimerExpiry s = .next t ∧ t.draw = { s.draw with state := .flowing, current := some c' } ∧
      t.time = later s.time due ∧ c'.enteredAt = later s.time due ∧ c'.softBase = s.engine.ctx.gross ∧
      c'.causes = Causes.empty ∧
      (let fast := s.cfg.startSlow = 0 ∧ belowSlowdown s.engine.ctx = true ∧ s.inputs.air = false
       (fast → t.valve.stage = .slowPendingFast (later s.time due + s.cfg.dwell) ∧ c'.lastRequest = .fast) ∧
         (¬fast → t.valve.stage = .slow ∧ c'.lastRequest = .slow)) ∧
      StatAlone s.port t.port ∧ OnlyChanges [.time, .draw, .valve, .port, .blend, .journal] s t

/-- The deadman, the air timer and the no-flow time each suspend a solo draw in FLOWING with their own member of the
set, the meter valve on its way to CLOSED. The model's choice: an expiry command brings the station time to its
deadline (log 3). -/
def Obligations.SupervisorsSuspendFlow : Prop :=
  ∀ (s : State) (c : Current), s.draw.state = .flowing → s.draw.current = some c → s.blend.lead = none →
    s.blend.follower = .unbound → operating s = true → s.valve.halt = .clear → 0 < s.cfg.dwell →
    (let suspended (i : Instr) (due : Nat) (causes : Causes) : Prop :=
       ∃ t c', exec i s = .next t ∧ t.draw = { s.draw with state := .suspended, current := some c' } ∧
         c'.causes = causes ∧ c'.deadmanDue = none ∧ c'.airDue = none ∧ c'.lastRequest = .closed ∧
         t.time = later s.time due ∧
         t.valve = { s.valve with stage := stageTable (later s.time due + s.cfg.dwell) .closed s.valve.stage } ∧
         StatAlone s.port t.port ∧ OnlyChanges [.time, .draw, .valve, .port, .blend, .journal] s t
     (∀ due, c.deadmanDue = some due → suspended .deadmanExpiry due { c.causes with deadman := true }) ∧
       (∀ due, c.airDue = some due → suspended .airTimerExpiry due { c.causes with air := .active }) ∧
       suspended .noFlowExpiry (later c.enteredAt s.pulse.latestCount + 1000 * s.cfg.noFlow)
         { c.causes with noFlow := true })

/-- The flow stop, or the closing limit, ends the wait of CLOSING of a solo draw: the last counts are converted, the
session closes, the claim is released, the item with those volumes is handed to the journal, and the drop is DROP_OPEN
with one item more. The limit marks the item VALVE_NOT_CLOSED. The item carries the intermix part of a hose that held
something else; the hose record to store is the draw's product, MIXED or unchanged; and a close-ahead is learned from the
overrun of a preset draw closed from SLOW with its valve closed, and from no other. The model's choices: an expiry command
brings the station time to its deadline (log 3), the last counts can fill the hose (log 22), and the overrun is added to the context's
close-ahead (log 42). -/
def Obligations.EndOfClosingHandsItem : Prop :=
  ∀ (s : State) (c : Current) (sel : Selection) (d : Drop) (w : Write) (i : Instr),
    i = .flowStop ∨ i = .closingLimit → operating s = true → s.draw.state = .closing → s.draw.current = some c →
    s.draw.selection = some sel → s.draw.drop = some d → sel.blend = none → c.final = none →
    s.journal.inflight = some w → s.blend.lead = none →
    ∃ t item hose closeAhead, exec i s = .next t ∧
      t.draw = ⟨.dropOpen, some { d with items := d.items + 1 }, none, none⟩ ∧
      (let ctx := convert ((s.cfg.kn : Int) * 1000) s.pulse.perUpdate s.engine.ctx
       t.engine.ctx = ctx ∧ item.gross = ctx.gross ∧ item.net = ctx.net ∧ item.vcf = ctx.vcf) ∧
      item.product = sel.product ∧ item.comps = sel.comps ∧ item.ending = c.ending ∧
      item.exceptions.valveNotClosed = (c.exceptions.valveNotClosed || decide (i = .closingLimit)) ∧
      item.progress = none ∧
      (let ctx := t.engine.ctx
       item.intermix = (if c.hoseDiffers = true ∧ 0 < s.cfg.hoseVolume ∧ 0 < ctx.gross then
           some ⟨c.hoseAtStart, min ctx.gross s.cfg.hoseVolume⟩ else none) ∧
         hose = (if ctx.gross ≤ 0 then none
           else if c.hoseFilled = true ∨ (s.cfg.hoseVolume : Int) ≤ ctx.gross then
             some (if sel.product = 15 then .mixed else .product sel.product)
           else if c.hoseAtStart = .product sel.product then none
           else some .mixed) ∧
         (ctx.share = none → closeAhead =
           (if c.ending = some .presetReached ∧ c.stageAtClose = some .slow ∧ item.exceptions.valveNotClosed = false then
             c.presetAtClose.map (fun p => clampTo 0 s.cfg.aMax (ctx.closeAhead + roundDiv (ctx.net - p) 4))
           else none))) ∧
      t.journal.works =
        s.journal.works.filter (fun x => !isCheckpoint x) ++ [.handOver item hose closeAhead] ∧
      t.journal.inflight = some w ∧ t.journal.mem = s.journal.mem ∧
      t.pulse = { s.pulse with
        session := none, perUpdate := 0, target := none, windowErrors := 0, windowForward := 0, loneA := 0
        loneB := 0 } ∧
      t.engine.updateDue = none ∧ t.claims.own = none ∧
      OnlyChanges [.time, .pulse, .engine, .draw, .valve, .port, .claims, .blend, .journal] s t

/-! ### Chapter 4: valve stages and protective inputs -/

/-- A stage request of the block that owns the draw is taken at once as the table of stages gives, from every stage; a
refused request, and one while the halt state is not CLEAR, leaves the record; with a dwell of 0 the valve comes straight
to the stage requested. -/
def Obligations.StageRequestTable : Prop :=
  (∀ (who : Owner) (r : StageReq) (s : State),
    OnlyChanges [.valve] s (requestStage who r s) ∧
    (requestStage who r s).valve = { s.valve with stage := (requestStage who r s).valve.stage } ∧
    (requestAccepted who r s = false ∨ s.valve.halt ≠ .clear →
      (requestStage who r s).valve.stage = s.valve.stage) ∧
    (0 < s.cfg.dwell → requestAccepted who r s = true → s.valve.halt = .clear →
      (requestStage who r s).valve.stage =
        match s.valve.stage, r with
        | .closed, .closed => .closed
        | .closed, .slow => .slow
        | .closed, .fast => .slowPendingFast (s.time + s.cfg.dwell)
        | .slow, .closed => .closed
        | .slow, .slow => .slow
        | .slow, .fast => .fast
        | .slowPendingFast _, .closed => .closed
        | .slowPendingFast _, .slow => .slow
        | .slowPendingFast d, .fast => .slowPendingFast d
        | .fast, .closed => .stepDown .closed (s.time + s.cfg.dwell)
        | .fast, .slow => .slow
        | .fast, .fast => .fast
        | .stepDown _ d, r => .stepDown r d)) ∧
  (∀ (who : Owner) (r : StageReq) (s : State), s.cfg.dwell = 0 → requestAccepted who r s = true →
    s.valve.halt = .clear →
    (requestStage who r s).valve.stage =
      match r with
      | .closed => .closed
      | .slow => .slow
      | .fast => .fast)

/-- A dwell that expires in STEP_DOWN gives the destination, and one in SLOW its pending FAST, with a FAST judged
again: it stands only where the draw that owns the valve may be at FAST. The pump's states at a change of its command,
and at the run-on timer, are as the table of the pump gives them. The model's choice: an expiry command brings the
station time to its deadline (log 3). -/
def Obligations.DwellAndPumpTables : Prop :=
  (∀ (s : State) (due : Nat), s.station.state ≠ .powerDown → dwellDue s.valve.stage = some due →
    ∃ t, exec .dwellTimerExpiry s = .next t ∧
      (let fast := s.valve.halt = .clear ∧ (s.station.state = .listening ∨ s.station.state = .running) ∧
         (if s.blend.follower = .unbound then s.draw.state = .flowing
          else s.blend.follower = .fRun ∨ s.blend.follower = .fTrim)
       (s.valve.stage = .stepDown .closed due → t.valve.stage = .closed) ∧
         (s.valve.stage = .stepDown .slow due → t.valve.stage = .slow) ∧
         (s.valve.stage = .stepDown .fast due ∨ s.valve.stage = .slowPendingFast due →
           (fast → t.valve.stage = .fast) ∧ (¬fast → t.valve.stage = .slow))) ∧
      t.valve = { s.valve with stage := t.valve.stage } ∧ t.time = later s.time due ∧ StatAlone s.port t.port ∧
      OnlyChanges [.time, .valve, .port] s t) ∧
  (∀ (needed : Bool) (s : State), s.valve.pumpNeeded ≠ needed →
    (setPumpNeeded needed s).valve = { s.valve with
      pumpNeeded := needed
      pump :=
        match s.valve.pump, needed with
        | .off, true => if s.valve.halt = .clear then .on else .off
        | .on, true => .on
        | .runOn _, true => .on
        | .off, false => .off
        | .on, false => if s.cfg.runOn = 0 then .off else .runOn (s.time + 1000 * s.cfg.runOn)
        | .runOn d, false => .runOn d } ∧
    OnlyChanges [.valve] s (setPumpNeeded needed s)) ∧
  (∀ (s : State) (due : Nat), s.station.state ≠ .powerDown → s.valve.pump = .runOn due →
    ∃ t, exec .runOnExpiry s = .next t ∧ t.valve = { s.valve with pump := .off } ∧ t.time = later s.time due ∧
      StatAlone s.port t.port ∧ OnlyChanges [.time, .valve, .port] s t)

/-- The emergency stop closes the meter valve and turns the pump off at once, halts the station, sends HALT and starts
the HALT period; a FLOWING solo draw is SUSPENDED with the HALT condition ACTIVE. -/
def Obligations.EmergencyStopHaltsAtOnce : Prop :=
  ∀ (s : State) (c : Current), operating s = true → s.inputs.emergencyStop = false → s.valve.halt = .clear →
    s.draw.state = .flowing → s.draw.current = some c → s.blend.follower = .unbound → s.blend.lead = none →
    ∃ t c', exec (.emergencyStopChange true) s = .next t ∧ t.inputs = { s.inputs with emergencyStop := true } ∧
      t.pins = { s.pins with emergencyStop := true } ∧
      t.valve = { s.valve with
        halt := .halted, stage := .closed, pump := .off, haltRepeatDue := some (s.time + 250) } ∧
      t.draw = { s.draw with state := .suspended, current := some c' } ∧ c'.causes = { c.causes with halt := .active } ∧
      (s.station.state = .running → RoomFor 1 s → Queued (haltFrame s.station.number) t) ∧
      (∀ n, compDriven t n = false) ∧
      OnlyChanges [.pins, .inputs, .draw, .valve, .port, .blend, .journal] s t

/-- When the last source of a halt goes inactive, a SELF_CLEARING station returns to CLEAR, with the pump on where it
is needed, and a LATCHED one stays latched with its outputs off; the meter valve stays CLOSED in both. The model's
choice: an expiry command brings the station time to its deadline (log 3). -/
def Obligations.HaltHeardExpiryRecovers : Prop :=
  ∀ (s : State) (due : Nat), s.station.state ≠ .powerDown → s.valve.heardDue = some due → s.valve.halt = .halted →
    s.inputs.emergencyStop = false → s.blend.follower = .unbound → s.draw.state ≠ .suspended →
    ∃ t, exec .haltHeardExpiry s = .next t ∧
      t.valve = (match s.cfg.haltRecovery with
        | .selfClearing => { s.valve with
            heardDue := none, halt := .clear, pump := if s.valve.pumpNeeded then .on else .off }
        | .latched => { s.valve with heardDue := none, halt := .latched }) ∧
      t.time = later s.time due ∧ StatAlone s.port t.port ∧ OnlyChanges [.time, .valve, .port] s t

/-- RESUME_HALT clears a latched halt and restores the outputs; it is refused with HALTED while a source is active, and
answered OK without effect when the halt is CLEAR. A draw held by the halt stays SUSPENDED with HALT CLEARED. -/
def Obligations.ResumeHaltClearsLatchedHalt : Prop :=
  ∀ (s : State) (f : Frame) (arrival : Nat), RequestServed s f arrival 10 .resumeHalt →
    s.blend.follower = .unbound →
    ∃ t, exec .resumeHalt s = .next t ∧
      (match s.valve.halt with
       | .latched =>
         t.valve = { s.valve with halt := .clear, pump := if s.valve.pumpNeeded then .on else .off } ∧
           Answered f ⟨.ok, .none⟩ s t ∧
           (∀ c, s.draw.state = .suspended → s.draw.current = some c → c.causes.halt = .active →
             t.draw = { s.draw with current := some { c with causes := { c.causes with halt := .cleared } } })
       | .halted => t.valve = s.valve ∧ Answered f ⟨.halted, .none⟩ s t ∧ t.draw = s.draw
       | .clear => t.valve = s.valve ∧ Answered f ⟨.ok, .none⟩ s t ∧ t.draw = s.draw) ∧
      TakenAlone s.port t.port ∧ t.claims = heard s f arrival ∧
      OnlyChanges [.draw, .valve, .port, .claims, .handler] s t

/-- A press of hold-to-run restarts the deadman of a FLOWING draw. In SUSPENDED with DEADMAN the one member of the set it
resumes the draw: the set is emptied, the draw is FLOWING with a new soft-start base and the stage that the conditions of
FLOWING give, a checkpoint is asked for, and no ANSWER is sent. A press in SUSPENDED with any other member, or in any
other draw state, and a hold that goes on, have no effect on the draw. The release of hold-to-run, a change of the
reel-stowed input and the return of the power-fail input move their own level alone. -/
def Obligations.OperatorInputsMoveTheirLevel : Prop :=
  (∀ (s : State), operating s = true → s.inputs.holdToRun = false →
    (∀ c, s.draw.state = .flowing → s.draw.current = some c →
      ∃ t, exec .holdToRunPress s = .next t ∧
        t.draw = { s.draw with current := some { c with
          deadmanDue := if s.cfg.deadman = 0 then none else some (s.time + 1000 * s.cfg.deadman) } } ∧
        t.inputs = { s.inputs with holdToRun := true } ∧ t.pins = { s.pins with holdToRun := true } ∧
        OnlyChanges [.pins, .inputs, .draw] s t) ∧
    (∀ c, s.draw.state = .suspended → s.draw.current = some c → s.draw.selection.isSome →
      c.causes = { Causes.empty with deadman := true } →
      ∃ t c', exec .holdToRunPress s = .next t ∧ t.draw = { s.draw with state := .flowing, current := some c' } ∧
        c'.causes = Causes.empty ∧ c'.softBase = s.engine.ctx.gross ∧ c'.enteredAt = s.time ∧
        c'.lastRequest =
          (if s.cfg.startSlow = 0 ∧ belowSlowdown s.engine.ctx = true ∧ s.inputs.air = false then .fast else .slow) ∧
        ((∃ x ∈ t.journal.works, isCheckpoint x = true) ∨
          ∃ w item a, t.journal.inflight = some w ∧ w.change = .checkpoint item a) ∧
        (∀ e ∈ t.port.tx, kindOf e.frame.id = kAnswer → e ∈ s.port.tx) ∧
        t.inputs = { s.inputs with holdToRun := true } ∧ t.pins = { s.pins with holdToRun := true } ∧
        OnlyChanges [.pins, .inputs, .draw, .valve, .port, .blend, .journal] s t) ∧
    (s.draw.state ≠ .flowing →
      (∀ c, s.draw.state = .suspended → s.draw.current = some c → c.causes ≠ { Causes.empty with deadman := true }) →
      ∃ t, exec .holdToRunPress s = .next t ∧ t.inputs = { s.inputs with holdToRun := true } ∧
        t.pins = { s.pins with holdToRun := true } ∧ OnlyChanges [.pins, .inputs] s t)) ∧
  (∀ (s : State), operating s = true → s.inputs.holdToRun = true →
    ∃ t, exec .holdToRunPress s = .next t ∧ t.pins = { s.pins with holdToRun := true } ∧ OnlyChanges [.pins] s t) ∧
  (∀ (s : State), operating s = true →
    (∃ t, exec .holdToRunRelease s = .next t ∧ t.inputs = { s.inputs with holdToRun := false } ∧
      t.pins = { s.pins with holdToRun := false } ∧ OnlyChanges [.pins, .inputs] s t) ∧
    (∀ level, ∃ t, exec (.reelStowedChange level) s = .next t ∧ t.inputs = { s.inputs with reelStowed := level } ∧
      t.pins = { s.pins with reelStowed := level } ∧ OnlyChanges [.pins, .inputs] s t) ∧
    (∃ t, exec .powerFailInputInactive s = .next t ∧ t.pins = { s.pins with powerFail := false } ∧
      OnlyChanges [.pins] s t))

/-- Air in the line of a FLOWING draw starts the air timer, marks AIR_SEEN and brings a request for SLOW; its end stops
the timer. The model's choice: the air timer expires at 5,001 ms, the first millisecond past 5,000 (log 19). -/
def Obligations.AirForcesSlow : Prop :=
  ∀ (active : Bool) (s : State) (c : Current), operating s = true → s.draw.state = .flowing →
    s.draw.current = some c → s.inputs.air = !active →
    ∃ t c', exec (.airDetectorChange active) s = .next t ∧ t.draw = { s.draw with current := some c' } ∧
      t.inputs = { s.inputs with air := active } ∧
      c'.airDue = (if active then some (s.time + 5001) else none) ∧
      c'.exceptions = { c.exceptions with airSeen := c.exceptions.airSeen || active } ∧
      (active = true → c'.lastRequest = .slow) ∧ c'.causes = c.causes ∧ StatAlone s.port t.port ∧
      OnlyChanges [.pins, .inputs, .draw, .valve, .port] s t

/-! ### Chapter 5: the truck line -/

/-- The periods of the line: each expiry of the status timer queues the three pages and starts the timer again; each
expiry of the HALT period hands a HALT and moves the period on; each expiry of the report repeat hands both parts of
the held final report again and moves the repeat on. The model's choice: an expiry command brings the station time to
its deadline (log 3). -/
def Obligations.PeriodsSendAgain : Prop :=
  (∀ (s : State) (due : Nat), s.station.state = .running → s.port.statusDue = some due → RoomFor 3 s →
    ∃ t, exec .statusPeriod s = .next t ∧ t.time = later s.time due ∧
      t.port.statusDue = some (later s.time due + 250) ∧ (∀ n, n ≤ 2 → Queued (pageFrame t n) t) ∧
      StatAlone s.port t.port ∧ OnlyChanges [.time, .port] s t) ∧
  (∀ (s : State) (due : Nat), s.station.state = .running → s.valve.haltRepeatDue = some due → RoomFor 1 s →
    ∃ t, exec .haltRepeat s = .next t ∧ t.time = later s.time due ∧
      t.valve = { s.valve with haltRepeatDue := some (due + 250) } ∧ Queued (haltFrame s.station.number) t ∧
      HandedAlone s.port t.port ∧ OnlyChanges [.time, .valve, .port] s t) ∧
  (∀ (s : State) (h : HeldReport) (due : Nat), s.station.state = .running → s.blend.held = some h →
    h.repeatDue = some due → RoomFor 2 s →
    ∃ t, exec .finalReportRepeat s = .next t ∧ t.time = later s.time due ∧
      t.blend = { s.blend with held := some { h with repeatDue := some (due + 250) } } ∧
      Queued (finalPart1Frame s.station.number h.lead h.claim.sequence h.report) t ∧
      Queued (finalPart2Frame s.station.number h.lead h.claim.sequence h.report) t ∧
      HandedAlone s.port t.port ∧ OnlyChanges [.time, .blend, .port] s t)

/-- The port restart brings a station from LINE_LOST to LISTENING with the error count at 0, and keeps one in
CONFIG_FAULT there; the quiet-listen timer brings a station from LISTENING to RUNNING. The model's choice: an expiry
command brings the station time to its deadline (log 3). In CONFIG_FAULT page 0 is queued and
the status timer starts at the restart itself (log 20, 70). -/
def Obligations.StationReturnsToLine : Prop :=
  (∀ (s : State) (due : Nat), s.station.state = .lineLost → s.port.restartDue = some due →
    ∃ t, exec .portRestart s = .next t ∧ t.time = later s.time due ∧
      t.station = { s.station with state := .listening, quietDue := some (later s.time due + 1000) } ∧
      t.port = { s.port with errors := 0, restartDue := none } ∧ OnlyChanges [.time, .station, .port] s t) ∧
  (∀ (s : State) (due : Nat), s.station.state = .configFault → s.port.restartDue = some due → RoomFor 1 s →
    ∃ t, exec .portRestart s = .next t ∧ t.port.errors = 0 ∧ t.port.restartDue = none ∧
      t.port.statusDue = some (later s.time due + 250) ∧ Queued (pageFrame t 0) t ∧
      OnlyChanges [.time, .port] s t) ∧
  (∀ (s : State) (due : Nat), s.station.state = .listening → s.station.quietDue = some due → s.claims.own = none →
    (∀ p ∈ s.claims.view, p.live = none) → s.inputs.emergencyStop = false → RoomFor 3 s →
    ∃ t, exec .quietListenExpiry s = .next t ∧
      t.station = { s.station with state := .running, quietDue := none } ∧ t.time = later s.time due ∧
      t.port.statusDue = some (later s.time due + 250) ∧ (∀ n, n ≤ 2 → Queued (pageFrame t n) t) ∧
      StatAlone s.port t.port ∧ OnlyChanges [.time, .station, .port] s t)

/-- A CLOCK frame sets the station clock and its second starts afresh; each second steps it on, from 4,294,967,295 to
0. The model's choice: an expiry command brings the station time to its deadline (log 3). -/
def Obligations.ClockIsSetAndSteps : Prop :=
  (∀ (s : State) (f : Frame) (arrival : Nat), OldestFrame s f arrival → kindOf f.id = kClock →
    ∃ t, exec .takeClock s = .next t ∧
      t.port = { s.port with
        rx := s.port.rx.tail, clock := some (fieldAt f 0 4), clockDue := some (s.time + 1000) } ∧
      t.claims = heard s f arrival ∧ OnlyChanges [.port, .claims] s t) ∧
  (∀ (s : State) (due c : Nat), s.station.state ≠ .powerDown → s.port.clockDue = some due → s.port.clock = some c →
    c ≤ 4294967295 →
    ∃ t, exec .clockSecond s = .next t ∧ t.time = later s.time due ∧
      t.port = { s.port with
        clock := some (if c = 4294967295 then 0 else c + 1), clockDue := some (due + 1000) } ∧
      OnlyChanges [.time, .port] s t)

/-- A frame of RUNNING that passes the filter enters the receive queue at its newest end with the station time; one
that fails it is dropped. A HALT that enters halts the station and starts the halt-heard timer for 1,000 ms. The
model's choice: a STAT page that the manual does not list has no length, so it fails the filter (log 31). -/
def Obligations.ArrivalIsFilteredAndQueued : Prop :=
  ∀ (f : Frame) (s : State), s.station.state = .running → (∀ e ∈ s.port.tx, e.onWire = false) →
    rxFrames s.port.rx < 32 →
    (let passes := 1 ≤ kindOf f.id ∧ kindOf f.id ≤ 10 ∧ (destOf f.id = 0 ∨ destOf f.id = s.station.number) ∧
       sourceOf f.id ≠ 0 ∧ sourceOf f.id ≠ s.station.number ∧ lengthOk f = true
     (passes → kindOf f.id ≠ kHalt →
       ∃ t, exec (.frameArrival f) s = .next t ∧
         t.port = { s.port with rx := s.port.rx ++ [.frame f s.time] } ∧ OnlyChanges [.port] s t) ∧
     (passes → kindOf f.id = kHalt →
       ∃ t, exec (.frameArrival f) s = .next t ∧ t.port.rx = s.port.rx ++ [.frame f s.time] ∧
         t.valve.halt = .halted ∧ t.valve.heardDue = some (s.time + 1000) ∧ (∀ n, compDriven t n = false) ∧
         (s.valve.halt = .clear → t.valve.stage = .closed ∧ t.valve.pump = .off) ∧
         OnlyChanges [.draw, .valve, .port, .claims, .blend, .handler, .journal] s t) ∧
     (¬passes → ∃ t, exec (.frameArrival f) s = .next t ∧ OnlyChanges [] s t))

/-- On a free wire the first entry goes ON_WIRE; a lost arbitration returns it to WAITING in its place. An own frame that
completes leaves the queue, takes 1 from the error count, and leaves a completion notice when it is claim-class. -/
def Obligations.TransmitQueueMovesOn : Prop :=
  (∀ (s : State) (e : TxEntry) (es : List TxEntry), s.station.state = .running → s.port.tx = e :: es →
    (∀ x ∈ e :: es, x.onWire = false) →
    ∃ t, exec .transmitStart s = .next t ∧ t.port = { s.port with tx := { e with onWire := true } :: es } ∧
      OnlyChanges [.port] s t) ∧
  (∀ (s : State), s.station.state ≠ .powerDown →
    ∃ t, exec .arbitrationLost s = .next t ∧
      t.port = { s.port with tx := s.port.tx.map (fun e => { e with onWire := false }) } ∧
      OnlyChanges [.port] s t) ∧
  (∀ (s : State) (e : TxEntry) (es : List TxEntry), s.station.state ≠ .powerDown → s.port.tx = e :: es →
    e.onWire = true → (∀ x ∈ es, x.onWire = false) → (∀ n, e.sender ≠ .journal n) →
    ∃ t, exec .frameSent s = .next t ∧
      t.port = { s.port with
        tx := es
        rx := if isClaimClass e.frame then s.port.rx ++ [.notice e.frame] else s.port.rx
        errors := s.port.errors - 1 } ∧
      OnlyChanges [.port] s t)

/-- A failed transmission returns the entry to WAITING and adds 8 to the error count, but for a lack of acknowledgement
at 128 or more; one that would carry the count above 255 puts a RUNNING station in LINE_LOST, with the queues, the view
and the consent records empty and the restart timer at 1,000 ms. That the count keeps its value over bus-off is the model's
choice (log 67). -/
def Obligations.TransmitFailureCountsToBusOff : Prop :=
  ∀ (noAck : Bool) (s : State), s.station.state = .running → (∃ e ∈ s.port.tx, e.onWire = true) →
    (noAck = true ∧ 128 ≤ s.port.errors →
      ∃ t, exec (.transmitFailure noAck) s = .next t ∧
        t.port = { s.port with tx := s.port.tx.map (fun e => { e with onWire := false }) } ∧
        OnlyChanges [.port] s t) ∧
    (¬(noAck = true ∧ 128 ≤ s.port.errors) → s.port.errors + 8 ≤ 255 →
      ∃ t, exec (.transmitFailure noAck) s = .next t ∧
        t.port = { s.port with
          tx := s.port.tx.map (fun e => { e with onWire := false }), errors := s.port.errors + 8 } ∧
        OnlyChanges [.port] s t) ∧
    (¬(noAck = true ∧ 128 ≤ s.port.errors) → 255 < s.port.errors + 8 →
      ∃ t, exec (.transmitFailure noAck) s = .next t ∧ t.station = { s.station with state := .lineLost } ∧
        t.port = { s.port with tx := [], rx := [], statusDue := none, restartDue := some (s.time + 1000) } ∧
        t.claims.view = [] ∧ t.claims.records = [] ∧ t.claims.rebuildDue = none ∧
        t.valve.compCommands = 0 ∧ t.valve.pumpNeeded = false ∧ t.valve.stage ≠ .fast ∧
        t.journal.fetch = none ∧ t.journal.mem = s.journal.mem ∧ t.pulse = s.pulse ∧ t.engine = s.engine)

/-- Takes for the peer view: every take refreshes its sender's entry; a HALT sets the entry's halt flag, a page 1
replaces its compartments, an ANSWER and a TKT do no more; a page 0 replaces the page, or makes the entry. -/
def Obligations.TakesUpdatePeerView : Prop :=
  ∀ (s : State) (f : Frame) (arrival : Nat), OldestFrame s f arrival →
    (let took (i : Instr) (view : List Peer) : Prop :=
       ∃ t, exec i s = .next t ∧ t.port = { s.port with rx := s.port.rx.tail } ∧
         t.claims = { s.claims with view := view } ∧ OnlyChanges [.port, .claims] s t
     let refreshed := (heard s f arrival).view
     let changed (g : Peer → Peer) : List Peer :=
       refreshed.map (fun p => if p.station = sourceOf f.id then g p else p)
     (kindOf f.id = kHalt → took .takeHalt (changed (fun p => { p with haltFlag := true }))) ∧
     (kindOf f.id = kAnswer → took .takeAnswer refreshed) ∧
     (kindOf f.id = kTkt → took .takeTkt refreshed) ∧
     (kindOf f.id = kStat → lowTagOf f.id = 1 →
       took .takeStatPage1 (changed (fun p => { p with comps := decodePage1 f }))) ∧
     (kindOf f.id = kStat → lowTagOf f.id = 0 → s.blend.lastEnded = none →
       took .takeStatPage0
         (if ∃ p ∈ s.claims.view, p.station = sourceOf f.id then
           changed (fun p => { p with
             page := decodePage0 f
             haltFlag := decide ((decodePage0 f).halt ≠ 0)
             live := p.live.map (fun l => { l with codeSince := some (decodePage0 f).stateCode }) })
         else refreshed ++ [{
           station := sourceOf f.id, lastHeard := arrival, page := decodePage0 f, comps := [], live := none
           lastEnded := none, haltFlag := decide ((decodePage0 f).halt ≠ 0) }])))

/-! ### Chapter 6: line claims -/

/-- The judgement of a peer's claim that names one compartment of this station and nothing else of it: GRANTED puts the
claim in the consent record, turns the compartment's command ON and hands the CONSENT; a halt refuses it with HALTED
and leaves the records and the commands. Ranks are the model's own count (log 15). -/
def Obligations.ClaimIsJudgedForOwnCompartment : Prop :=
  ∀ (s : State) (f : Frame) (arrival n : Nat) (p : Peer), OldestFrame s f arrival → kindOf f.id = kClaim →
    s.station.state = .running → peerOf s (sourceOf f.id) = some p → p.live = none →
    p.lastEnded ≠ some (sequenceOf f.id) → s.claims.own = none → s.claims.rebuildDue = none →
    s.blend.binding = none → ownedOf s (decodeClaim f) = [.comp n] → RoomFor 1 s →
    ∃ t, exec .takeClaim s = .next t ∧
      (∃ q l, peerOf t (sourceOf f.id) = some q ∧ q.live = some l ∧ l.claim = decodeClaim f ∧
        l.rank = s.claims.nextRank) ∧
      t.claims.nextRank = s.claims.nextRank + 1 ∧
      (s.valve.halt = .clear → compMatches s (decodeClaim f) n = true →
        (∀ x ∈ s.claims.view, ∀ l, x.live = some l → conflicts l.claim (decodeClaim f) = false) →
        (.comp n, (decodeClaim f).id) ∈ t.claims.records ∧ hasComp t.valve.compCommands n = true ∧
          Queued (consentFrame s.station.number (decodeClaim f).id (.comp n) none) t) ∧
      (s.valve.halt ≠ .clear →
        t.claims.records = s.claims.records ∧ t.valve = s.valve ∧
          Queued (consentFrame s.station.number (decodeClaim f).id (.comp n) (some .halted)) t) ∧
      TakenAlone s.port t.port ∧ OnlyChanges [.valve, .port, .claims] s t

/-- A verdict on the own claim in force: the last GRANTED brings the draw into PRIMING with its session open and the
START answered OK, in the repeat table and, where there is room, in the transmit queue; a REFUSED releases the claim,
returns the draw to READY and answers CONSENT_REFUSED with the owner and the reason. -/
def Obligations.VerdictSettlesOwnClaim : Prop :=
  ∀ (s : State) (f : Frame) (arrival : Nat) (o : OwnClaim) (r : OwnRes) (a : Asker) (c : Current),
    OldestFrame s f arrival → kindOf f.id = kConsent → s.claims.own = some o → o.phase = .inForce →
    o.claim.id.station = s.station.number → consentClaim f = o.claim.id → r ∈ o.resources →
    resourceOf (lowTagOf f.id) = some r.resource → r.owner = sourceOf f.id → o.pumpPending = false →
    s.draw.state = .claiming → s.draw.current = some c → s.blend.lead = none → s.handler.deferred = some a →
    (consentVerdict f = 0 → allGranted (grantStatus r.resource o) = true → 0 < s.cfg.primeTime →
      ∃ t c' o', exec .takeConsent s = .next t ∧ t.draw = { s.draw with state := .priming, current := some c' } ∧
        c'.primeDue = some (s.time + s.cfg.primeTime) ∧ c'.enteredAt = s.time ∧
        t.claims.own = some o' ∧ o'.phase = .consented ∧ o'.claim = o.claim ∧ allGranted o' = true ∧
        t.pulse.session = some .draw ∧ t.pulse.perUpdate = 0 ∧ t.pulse.target = none ∧
        t.engine.updateDue = some (s.time + 100) ∧ t.handler.deferred = none ∧ t.valve = s.valve ∧
        (⟨a, .deferred⟩ ∈ s.handler.table → ⟨a, .settled (some ⟨.ok, .none⟩)⟩ ∈ t.handler.table) ∧
        (RoomFor 1 s → s.station.state = .running → Queued (answerFrame s.station.number a ⟨.ok, .none⟩) t) ∧
        OnlyChanges [.pulse, .engine, .draw, .port, .claims, .handler, .journal] s t) ∧
    (consentVerdict f = 1 →
      ∃ t, exec .takeConsent s = .next t ∧ t.draw = { s.draw with state := .ready, current := none } ∧
        t.claims.own = none ∧ (∀ x ∈ t.claims.records, x.2 ≠ o.claim.id) ∧ t.handler.deferred = none ∧
        (RoomFor 2 s → s.station.state = .running →
          Queued (releaseFrame o.claim.id) t ∧
          Queued (answerFrame s.station.number a
            ⟨.consentRefused, .refusal (sourceOf f.id) (consentReason f)⟩) t) ∧
        OnlyChanges [.draw, .valve, .port, .claims, .blend, .handler, .journal] s t)

/-- The three ways in which a peer's live claim ends here — its RELEASE, a page 2 of none after a page 0 that is not in
CLAIMING, and its sender's silence, which also takes the entry — drop it from every consent record and note it as the
last ended. The model's choice: an expiry command brings the station time to its deadline (log 3). -/
def Obligations.PeerClaimEndsInThreeWays : Prop :=
  ∀ (s : State) (p : Peer) (l : LiveClaim), peerOf s p.station = some p → p.live = some l → s.blend.binding = none →
    s.blend.held = none → l.claim.id.station = p.station →
    (let dropped (t : State) : Prop :=
       t.claims.records = s.claims.records.filter (fun x => x.2 != l.claim.id) ∧
         t.valve.halt = s.valve.halt ∧ t.valve.stage = s.valve.stage ∧
         OnlyChanges [.time, .valve, .port, .claims] s t
     let ended (t : State) : Prop :=
       (∃ q, peerOf t p.station = some q ∧ q.live = none ∧ q.lastEnded = some l.claim.id.sequence) ∧ dropped t
     (∀ f arrival, OldestFrame s f arrival → kindOf f.id = kRelease → sourceOf f.id = p.station →
       sequenceOf f.id = l.claim.id.sequence →
       ∃ t, exec .takeRelease s = .next t ∧ ended t) ∧
     (∀ f arrival code, OldestFrame s f arrival → kindOf f.id = kStat → lowTagOf f.id = 2 → sourceOf f.id = p.station →
       decodePage2 f = none → l.codeSince = some code → code ≠ drawCode .claiming →
       ∃ t, exec .takeStatPage2 s = .next t ∧ ended t) ∧
     (s.station.state ≠ .powerDown → s.claims.own = none →
       ∃ t, exec (.peerSilence p.station) s = .next t ∧ t.time = later s.time (p.lastHeard + 1000) ∧ dropped t ∧
         t.claims.view = s.claims.view.filter (fun q => q.station != p.station)))

/-- The notice of an own CLAIM: the QUEUED claim, where this station owns none of its resources and others are awaited,
is IN_FORCE with the next rank; an abandoned claim is released and forgotten. Ranks are the model's own count (log 15). -/
def Obligations.CompletionNoticePutsClaimInForce : Prop :=
  ∀ (s : State) (f : Frame) (rest : List RxEntry), operating s = true → s.port.rx = .notice f :: rest →
    kindOf f.id = kClaim →
    (∀ o, s.claims.own = some o → o.phase = .queued → o.claim.id.sequence = sequenceOf f.id →
      sequenceOf f.id ∉ s.claims.abandoned → ownedOf s o.claim = [] → allGranted o = false →
      ∃ t, exec .takeCompletionNotice s = .next t ∧
        t.claims = { s.claims with
          own := some { o with phase := .inForce, rank := some s.claims.nextRank, unjudged := false }
          nextRank := s.claims.nextRank + 1 } ∧
        t.port = { s.port with rx := rest } ∧ OnlyChanges [.port, .claims] s t) ∧
    (sequenceOf f.id ∈ s.claims.abandoned → s.station.state = .running → RoomFor 1 s →
      ∃ t, exec .takeCompletionNotice s = .next t ∧
        t.claims = { s.claims with abandoned := s.claims.abandoned.erase (sequenceOf f.id) } ∧
        Queued (releaseFrame ⟨s.station.number, sequenceOf f.id⟩) t ∧ t.port.rx = rest ∧
        OnlyChanges [.port, .claims] s t)

/-- The consent timer ends a claim that is not yet consented: a CLAIM still WAITING is withdrawn, one in force is
released, the draw is in READY and the START is answered CONSENT_TIMEOUT. The rebuild timer ends the view rebuild. The
model's choices: an expiry command brings the station time to its deadline (log 3), and the lead's blend record is
dropped at the return to READY (log 21). -/
def Obligations.ClaimTimersEndWaiting : Prop :=
  (∀ (s : State) (o : OwnClaim) (due : Nat) (a : Asker), s.station.state = .running → s.claims.own = some o →
    o.phase ≠ .consented → o.consentDue = some due → s.handler.deferred = some a → RoomFor 2 s →
    ∃ t, exec .consentTimerExpiry s = .next t ∧ t.time = later s.time due ∧ t.claims.own = none ∧
      t.draw = { s.draw with state := .ready, current := none } ∧ t.blend = { s.blend with lead := none } ∧
      t.handler.deferred = none ∧
      (o.phase = .inForce → Queued (releaseFrame o.claim.id) t) ∧
      (o.phase = .queued → (∃ e ∈ s.port.tx, e.onWire = false ∧ kindOf e.frame.id = kClaim ∧
          sequenceOf e.frame.id = o.claim.id.sequence) →
        (∀ e ∈ t.port.tx, e.onWire = false → kindOf e.frame.id = kClaim →
          sequenceOf e.frame.id ≠ o.claim.id.sequence) ∧ t.claims.abandoned = s.claims.abandoned) ∧
      Queued (answerFrame s.station.number a ⟨.consentTimeout, .none⟩) t ∧
      OnlyChanges [.time, .draw, .valve, .port, .claims, .blend, .handler, .journal] s t) ∧
  (∀ (s : State) (due : Nat), s.station.state ≠ .powerDown → s.claims.rebuildDue = some due → s.claims.own = none →
    (∀ p ∈ s.claims.view, p.live = none) →
    ∃ t, exec .rebuildTimerExpiry s = .next t ∧ t.time = later s.time due ∧
      t.claims = { s.claims with rebuildDue := none } ∧ OnlyChanges [.time, .claims] s t)

/-! ### Chapter 7: blended draws -/

/-- The follower's moves: a lead report of FLOWING in F_RUN is held and restarts the quiet timer, and one of CLOSING
brings F_TRIM for 30,000 ms; the quiet timer brings F_HOLD with LEAD_QUIET; the trim limit brings F_CLOSE with
TRIM_LIMIT. The model's choices: an expiry command brings the station time to its deadline (log 3), and the quiet timer
is not kept in F_TRIM (log 28). -/
def Obligations.FollowerFollowsItsLead : Prop :=
  ∀ (s : State) (b : Binding), operating s = true → s.blend.binding = some b →
    (∀ f arrival, s.blend.follower = .fRun → b.holds = Holds.empty → OldestFrame s f arrival →
      kindOf f.id = kProg → lowTagOf f.id = 0 → sourceOf f.id = b.lead → sequenceOf f.id = b.claim.sequence →
      (∀ r, b.report = some r → r.final = false) →
      (reportedCode (decodeLeadReport f) = drawCode .flowing →
        ∃ t, exec .takeProgLeadReport s = .next t ∧
          t.blend = { s.blend with binding := some { b with
            report := some (decodeLeadReport f), quietDue := some (s.time + 1000) } } ∧
          t.port = { s.port with rx := s.port.rx.tail } ∧ t.claims = heard s f arrival ∧
          OnlyChanges [.port, .claims, .blend] s t) ∧
      (reportedCode (decodeLeadReport f) = drawCode .closing →
        ∃ t, exec .takeProgLeadReport s = .next t ∧ t.blend.follower = .fTrim ∧
          t.blend.trimDue = some (s.time + 30000) ∧ t.claims = heard s f arrival ∧
          (∃ b', t.blend.binding = some b' ∧ b'.claim = b.claim ∧ b'.report = some (decodeLeadReport f) ∧
            b'.quietDue = none) ∧
          OnlyChanges [.valve, .port, .claims, .blend, .journal] s t)) ∧
    (∀ due, s.blend.follower = .fRun → b.quietDue = some due → 0 < s.cfg.dwell → s.valve.halt = .clear →
      ∃ t b', exec .leadQuietExpiry s = .next t ∧ t.blend.follower = .fHold ∧ t.blend.binding = some b' ∧
        b'.holds = { b.holds with leadQuiet := true } ∧ b'.quietDue = none ∧ t.blend.lastRequest = .closed ∧
        t.valve = { s.valve with stage := stageTable (later s.time due + s.cfg.dwell) .closed s.valve.stage } ∧
        t.time = later s.time due ∧ OnlyChanges [.time, .valve, .port, .blend, .journal] s t) ∧
    (∀ due, s.blend.follower = .fTrim → s.blend.trimDue = some due →
      ∃ t, exec .trimTimerExpiry s = .next t ∧ t.blend.follower = .fClose ∧ t.blend.endCode = some .trimLimit ∧
        t.blend.closeEnteredAt = later s.time due ∧ t.blend.trimDue = none ∧ t.time = later s.time due ∧
        OnlyChanges [.time, .valve, .port, .blend, .journal] s t)

/-- The flow stop, or the closing limit, ends F_CLOSE: the last counts are converted, the session closes, the volumes
go to the journal under the bound product, the final report is held with its repeat in 250 ms and its end in 45,000 ms,
and the follower is UNBOUND; both parts of the report are queued where there is room. At that end the held report is
discarded. The model's choice: an expiry command brings the station time to its deadline (log 3). -/
def Obligations.EndOfFollowedDraw : Prop :=
  (∀ (s : State) (b : Binding) (w : Write) (i : Instr), i = .followerFlowStop ∨ i = .followerClosingLimit →
    s.station.state ≠ .powerDown → s.blend.follower = .fClose → s.blend.binding = some b →
    s.journal.inflight = some w →
    ∃ t h, exec i s = .next t ∧
      (let ctx := convert ((s.cfg.kn : Int) * 1000) s.pulse.perUpdate s.engine.ctx
       t.engine.ctx = ctx ∧ h.report.gross = ctx.gross ∧ h.report.net = ctx.net ∧
         t.journal.works = s.journal.works.filter (fun x => x != .followerCheckpoint) ++
           [.followerCompletion b.product.code ctx.gross ctx.net]) ∧
      t.blend = { s.blend with
        follower := .unbound, binding := none, lastEnded := some b.claim, held := some h
        valveNotClosed := decide (i = .followerClosingLimit) } ∧
      h.claim = b.claim ∧ h.lead = b.lead ∧ h.repeatDue = some (t.time + 250) ∧
      h.discardDue = some (t.time + 45000) ∧
      (s.station.state = .running → RoomFor 2 s →
        Queued (finalPart1Frame s.station.number b.lead b.claim.sequence h.report) t ∧
        Queued (finalPart2Frame s.station.number b.lead b.claim.sequence h.report) t) ∧
      h.report.valveNotClosed = decide (i = .followerClosingLimit) ∧ t.pulse.session = none ∧
      t.claims = { s.claims with records := s.claims.records.filter (fun x => x != (.partner, b.claim)) } ∧
      OnlyChanges [.time, .pulse, .engine, .port, .claims, .blend, .journal] s t) ∧
  (∀ (s : State) (h : HeldReport) (due : Nat), s.station.state ≠ .powerDown → s.blend.held = some h →
    h.discardDue = some due →
    ∃ t, exec .finalReportLimit s = .next t ∧ t.blend = { s.blend with held := none } ∧
      t.time = later s.time due ∧ OnlyChanges [.time, .blend] s t)

/-- The lead's side: a follower report in FLOWING whose lag is above twice the blend window sets the throttle mark and
requests SLOW; one whose lag is above four times the window and above the report before suspends the draw with BLEND_LAG; a
part of the final report of a draw still FLOWING is kept; a blend wait that expires before the draw's session is closed is
noted. Once the session is closed, the second part of the final report completes the item with a blend part from it, and
the end of the wait with one from the latest follower report, INCOMPLETE; the held release is made. The achieved share is
0 of nothing, and else the rounded quotient. The model's choices: an expiry command brings the station time to its deadline
(log 3), and the lead's blend record is dropped at the hand-over of the item (log 21). Nothing is said here of a report
whose previous lag was negative, nor of a wait that ends with the second part held and the first missing. -/
def Obligations.LeadWatchesItsFollower : Prop :=
  (∀ (s : State) (l : Lead), s.blend.lead = some l →
    (∀ f arrival c, OldestFrame s f arrival → kindOf f.id = kProg → sourceOf f.id = l.partner →
      sequenceOf f.id = l.sequence → s.draw.state = .flowing → s.draw.current = some c →
      (lowTagOf f.id = 0 → s.blend.follower = .unbound → l.lastLag = none →
        ∃ t c', exec .takeProgFollowerReport s = .next t ∧
          t.blend = { s.blend with lead := some { l with
            report := some (decodeFollowerReport f)
            throttle :=
              if 2 * (s.cfg.blendWindow : Int) < (decodeFollowerReport f).2 then true
              else if (decodeFollowerReport f).2 < (s.cfg.blendWindow : Int) then false
              else l.throttle
            lastLag := some (decodeFollowerReport f).2 } } ∧
          t.draw = { s.draw with current := some c' } ∧
          (2 * (s.cfg.blendWindow : Int) < (decodeFollowerReport f).2 → c'.lastRequest = .slow) ∧
          TakenAlone s.port t.port ∧ t.claims = heard s f arrival ∧
          OnlyChanges [.draw, .valve, .port, .claims, .blend] s t) ∧
      (lowTagOf f.id = 1 →
        ∃ t, exec .takeProgFinalPart s = .next t ∧
          t.blend = { s.blend with lead := some { l with part1 := some (decodeFinalVolumes f) } } ∧
          TakenAlone s.port t.port ∧ t.claims = heard s f arrival ∧ OnlyChanges [.port, .claims, .blend] s t) ∧
      (lowTagOf f.id = 2 →
        ∃ t, exec .takeProgFinalPart s = .next t ∧
          t.blend = { s.blend with lead := some { l with part2 := some (decodeFinalDetails f) } } ∧
          TakenAlone s.port t.port ∧ t.claims = heard s f arrival ∧ OnlyChanges [.port, .claims, .blend] s t)) ∧
    (∀ due c, s.station.state ≠ .powerDown → l.waitDue = some due → s.draw.state = .closing →
      s.draw.current = some c → c.final = none →
      ∃ t, exec .blendWaitExpiry s = .next t ∧ t.time = later s.time due ∧
        t.blend = { s.blend with lead := some { l with waitDue := none, waitOver := true } } ∧
        OnlyChanges [.time, .blend] s t)) ∧
  (∀ (s : State) (l : Lead) (f : Frame) (arrival previous : Nat) (c : Current), s.blend.lead = some l →
    OldestFrame s f arrival → kindOf f.id = kProg → lowTagOf f.id = 0 → sourceOf f.id = l.partner →
    sequenceOf f.id = l.sequence → s.draw.state = .flowing → s.draw.current = some c → s.blend.follower = .unbound →
    l.lastLag = some previous →
    (let lag := (decodeFollowerReport f).2
     ∃ t c', exec .takeProgFollowerReport s = .next t ∧ t.claims = heard s f arrival ∧
       (4 * (s.cfg.blendWindow : Int) < lag ∧ previous < lag →
         t.draw = { s.draw with state := .suspended, current := some c' } ∧
           c'.causes = { c.causes with blendLag := true } ∧
           t.blend = { s.blend with lead := some { l with
             report := some (decodeFollowerReport f), throttle := false, lastLag := none } }) ∧
       (¬(4 * (s.cfg.blendWindow : Int) < lag ∧ previous < lag) →
         t.draw = { s.draw with current := some c' } ∧ c'.causes = c.causes) ∧
       OnlyChanges [.draw, .valve, .port, .claims, .blend, .journal] s t)) ∧
  (∀ (s : State) (l : Lead) (sel : Selection) (b : BlendSel) (d : Drop) (c : Current) (v : FinalValues) (w : Write),
    s.blend.lead = some l → s.draw.state = .closing → s.draw.selection = some sel → sel.blend = some b →
    s.draw.drop = some d → s.draw.current = some c → c.final = some v → s.journal.inflight = some w →
    (let completed (t : State) (part : BlendPart) : Prop :=
       t.draw = ⟨.dropOpen, some { d with items := d.items + 1 }, none, none⟩ ∧ t.claims.own = none ∧
         t.blend = { s.blend with lead := none } ∧
         (∃ item hose closeAhead, item.blend = some part ∧ item.gross = v.gross ∧ item.net = v.net ∧
           t.journal.works =
             s.journal.works.filter (fun x => !isCheckpoint x) ++ [.handOver item hose closeAhead]) ∧
         (∀ o, s.claims.own = some o → s.station.state = .running → RoomFor 1 s →
           Queued (releaseFrame o.claim.id) t) ∧
         OnlyChanges [.time, .draw, .valve, .port, .claims, .blend, .journal] s t
     (∀ f arrival p1, OldestFrame s f arrival → kindOf f.id = kProg → lowTagOf f.id = 2 →
       sourceOf f.id = l.partner → sequenceOf f.id = l.sequence → l.part1 = some p1 →
       ∃ t, exec .takeProgFinalPart s = .next t ∧
         completed t
           { component := b.product, follower := l.partner, gross := some p1.gross, net := p1.net
             temp := (decodeFinalDetails f).temp, targetShare := b.share
             achievedShare := achievedShare p1.net v.net
             incomplete := decide ((decodeFinalDetails f).endCode = 3 ∨ (decodeFinalDetails f).endCode = 4) }) ∧
       (∀ due, s.station.state ≠ .powerDown → l.waitDue = some due → l.part2 = none →
         (let net := (l.report.map (·.1)).getD 0
          ∃ t, exec .blendWaitExpiry s = .next t ∧ t.time = later s.time due ∧
            completed t
              { component := b.product, follower := l.partner, gross := none, net := net, temp := none
                targetShare := b.share, achievedShare := achievedShare net v.net, incomplete := true })))) ∧
  (∀ c l : Int, (l + c = 0 → achievedShare c l = 0) ∧
    (0 ≤ c → 0 < l + c → achievedShare c l = (2 * (c * 10000) + (l + c)) / (2 * (l + c))))

/-! ### Chapter 8: terminal requests -/

/-- Requests answered at once: SET_COMPARTMENT is INVALID for a compartment without an output here, BUSY while a claim
is consented for it, and else OK with the product held; READ_TOTALS of an idle journal answers the value that the
station record holds; an unlisted code is INVALID. That only the compartment's own consent record makes it BUSY is the
model's reading (log 60). -/
def Obligations.CompartmentsAndTotalsAreAnswered : Prop :=
  ∀ (s : State) (f : Frame) (arrival : Nat),
    (∀ comp product, RequestServed s f arrival 9 (.setCompartment comp product) →
      ∃ t ans, exec .setCompartment s = .next t ∧ Answered f ⟨ans, .none⟩ s t ∧ TakenAlone s.port t.port ∧
        (if ∀ o ∈ s.cfg.outputs, o.comp ≠ comp then ans = .invalid ∧ t.claims = heard s f arrival
        else if ∃ x ∈ s.claims.records, x.1 = .comp comp then ans = .busy ∧ t.claims = heard s f arrival
        else ans = .ok ∧
          t.claims = { heard s f arrival with
            products := s.claims.products.filter (fun x => x.1 != comp) ++
              (if product = 0 then [] else [(comp, product)]) } ∧
          productAt t comp = product) ∧
        OnlyChanges [.port, .claims, .handler] s t) ∧
    (∀ item product r, RequestServed s f arrival 15 (.readTotals item product) → s.journal.inflight = none →
      s.journal.mem.station = some r →
      ∃ t, exec .readTotals s = .next t ∧
        Answered f ⟨.ok, .value (match item with
          | .gross => r.grossTotals.getD (product - 1) 0
          | .net => r.netTotals.getD (product - 1) 0
          | .unticketed => r.unticketed
          | .closeAhead => r.closeAhead
          | .calibrationEvents => r.calibrationEvents
          | .ticketSequence => r.sequence)⟩ s t ∧
        TakenAlone s.port t.port ∧ t.claims = heard s f arrival ∧ OnlyChanges [.port, .claims, .handler] s t) ∧
    (s.station.state = .running → s.handler.serving = none → s.port.rx.head? = some (.frame f arrival) →
      kindOf f.id = kAsk → 16 < askCodeOf f.id → destOf f.id ≠ 0 →
      (entryOfStation s.handler.table (sourceOf f.id)).map (·.asker) ≠ some (askerOf f) →
      ∃ t, exec .askUnknownCode s = .next t ∧ Answered f ⟨.invalid, .none⟩ s t ∧ TakenAlone s.port t.port ∧
        t.claims = heard s f arrival ∧ OnlyChanges [.port, .claims, .handler] s t)

/-- Requests on a ticket that the journal holds CLOSED, taken by an idle journal: ACK_TICKET begins the write that sets
it COLLECTED, PRINT with room in the print queue adds a job marked as a copy once it has been printed, and FETCH_TICKET
begins the fetch with its first two segments handed after the answer; each is answered OK. A number that the journal
does not hold is UNKNOWN_TICKET for each. -/
def Obligations.TicketRequestsReachClosedRecord : Prop :=
  ∀ (s : State) (f : Frame) (arrival n : Nat),
    (∀ k, ticketOf s.journal.mem n = some k → k.state = .closed → s.journal.inflight = none → s.journal.works = [] →
      (RequestServed s f arrival 13 (.ackTicket n) →
        ∃ t, exec .ackTicket s = .next t ∧
          t.journal = { s.journal with
            inflight := some ⟨.collect n, s.journal.unticketedSum⟩, unticketedSum := 0 } ∧
          Answered f ⟨.ok, .none⟩ s t ∧ TakenAlone s.port t.port ∧ t.claims = heard s f arrival ∧
          OnlyChanges [.port, .claims, .handler, .journal] s t) ∧
      (RequestServed s f arrival 14 (.print n) → s.printer.queue.length < 4 →
        (∀ j ∈ s.printer.queue, j.ticket ≠ n) →
        ∃ t, exec .print s = .next t ∧ t.printer.queue = s.printer.queue ++ [⟨n, decide (1 ≤ k.printCount)⟩] ∧
          Answered f ⟨.ok, .none⟩ s t ∧ TakenAlone s.port t.port ∧ t.claims = heard s f arrival ∧
          OnlyChanges [.port, .claims, .handler, .printer] s t) ∧
      (RequestServed s f arrival 12 (.fetchTicket n) → s.journal.fetch = none → RoomFor 3 s →
        2 < (ticketSegments k).length →
        ∃ t, exec .fetchTicket s = .next t ∧
          t.journal = { s.journal with
            fetch := some ⟨s.journal.nextFetch, sourceOf f.id, k.number, ticketSegments k, 2, 2⟩
            nextFetch := s.journal.nextFetch + 1 } ∧
          (∀ i segment, i < 2 → (ticketSegments k)[i]? = some segment →
            Queued (tktFrame s.station.number (sourceOf f.id) i false segment) t) ∧
          Answered f ⟨.ok, .none⟩ s t ∧ TakenAlone s.port t.port ∧ t.claims = heard s f arrival ∧
          OnlyChanges [.port, .claims, .handler, .journal] s t)) ∧
    (ticketOf s.journal.mem n = none → s.journal.inflight = none →
      (let unknown (i : Instr) : Prop :=
         ∃ t, exec i s = .next t ∧ Answered f ⟨.unknownTicket, .none⟩ s t ∧ TakenAlone s.port t.port ∧
           t.claims = heard s f arrival ∧ OnlyChanges [.port, .claims, .handler] s t
       (RequestServed s f arrival 13 (.ackTicket n) → unknown .ackTicket) ∧
         (RequestServed s f arrival 14 (.print n) → unknown .print) ∧
         (RequestServed s f arrival 12 (.fetchTicket n) → unknown .fetchTicket)))

/-- WRITE_CONFIG is SEALED outside calibration mode and INVALID for an item that cannot be written; else the write
sequence runs with the request in SERVING. At its completion the image holds the value and an edit count one higher, the
configuration in use is unchanged, a calibration write is asked of the journal, and the answer is OK; in CONFIG_FAULT the
same without the journal. A sequence that the memory does not complete leaves a check word that disagrees and is answered
BUSY, with no work. The form in which the image is held is the model's (log 6), and so is the edit count at the top of its
range (log 40). -/
def Obligations.WriteConfigChangesImageAlone : Prop :=
  (∀ (s : State) (f : Frame) (arrival item value : Nat), RequestServed s f arrival 16 (.writeConfig item value) →
    (s.station.calibration = false ∨ writable s.station.image item value = false →
      ∃ t, exec .writeConfig s = .next t ∧
        Answered f ⟨if s.station.calibration = false then .sealed else .invalid, .none⟩ s t ∧
        TakenAlone s.port t.port ∧ t.claims = heard s f arrival ∧ OnlyChanges [.port, .claims, .handler] s t) ∧
    (s.station.calibration = true → writable s.station.image item value = true →
      ∃ t, exec .writeConfig s = .next t ∧ t.station = { s.station with cfgWrite := some (item, value) } ∧
        t.handler.serving = some ⟨askerOf f, .writeConfig item value⟩ ∧ Entered f s t ∧
        t.claims = heard s f arrival ∧ t.port = { s.port with rx := s.port.rx.tail } ∧
        OnlyChanges [.station, .port, .claims, .handler] s t)) ∧
  (∀ (s : State) (item value : Nat) (sv : Serving) (w : Write), operating s = true →
    s.station.cfgWrite = some (item, value) → s.handler.serving = some sv → 1 ≤ item → item ≤ 94 →
    s.station.image.items.length = 95 → s.journal.inflight = some w →
    ∃ t, exec (.configWriteComplete true) s = .next t ∧ t.station.cfgWrite = none ∧
      itemOf t.station.image item = value ∧
      itemOf t.station.image 95 = (itemOf s.station.image 95 + 1) % 4294967296 ∧
      (∀ n, 1 ≤ n → n ≤ 94 → n ≠ item → itemOf t.station.image n = itemOf s.station.image n) ∧
      t.station.image.sumGood = true ∧ t.journal.works = s.journal.works ++ [.calibration] ∧
      t.handler.serving = none ∧
      (⟨sv.asker, .deferred⟩ ∈ s.handler.table → ⟨sv.asker, .settled (some ⟨.ok, .none⟩)⟩ ∈ t.handler.table) ∧
      (RoomFor 1 s → s.station.state = .running → Queued (answerFrame s.station.number sv.asker ⟨.ok, .none⟩) t) ∧
      HandedAlone s.port t.port ∧ OnlyChanges [.station, .port, .handler, .journal] s t) ∧
  (∀ (s : State) (item value : Nat) (sv : Serving), s.station.state = .configFault →
    s.station.cfgWrite = some (item, value) → s.handler.serving = some sv → 1 ≤ item → item ≤ 94 →
    s.station.image.items.length = 95 → RoomFor 1 s →
    ∃ t, exec (.configWriteComplete true) s = .next t ∧ itemOf t.station.image item = value ∧
      t.station.image.sumGood = true ∧ t.station.cfgWrite = none ∧ t.handler.serving = none ∧
      Queued (answerFrame s.station.number sv.asker ⟨.ok, .none⟩) t ∧ OnlyChanges [.station, .port, .handler] s t) ∧
  (∀ (s : State) (item value : Nat) (sv : Serving), s.station.state = .running →
    s.station.cfgWrite = some (item, value) → s.handler.serving = some sv → RoomFor 1 s →
    ∃ t, exec (.configWriteComplete false) s = .next t ∧ t.station.image.sumGood = false ∧ t.station.cfgWrite = none ∧
      t.handler.serving = none ∧ Queued (answerFrame s.station.number sv.asker ⟨.busy, .none⟩) t ∧
      OnlyChanges [.station, .port, .handler, .freeIndex] s t)

/-! ### Chapter 9: ticket journal and totalizers -/

/-- The completion of a write applies its change to the journal memory, and the next work's write begins; a completed
item adds its gross and net to the totalizers of its product, which hold at the ends of their range, and to no other. A
follower completion writes, in one write, its volumes to the totalizers of its product, the hose record where its gross
is above 0, and the follower part's removal; a pending follower checkpoint leaves the list when it is handed. -/
def Obligations.CompletedWriteChangesMemory : Prop :=
  (∀ (s : State) (w : Write) (next : Work) (works : List Work), operating s = true → s.journal.inflight = some w →
    s.journal.works = next :: works → s.handler.serving = none → s.cfg.autoPrint = false →
    (∀ item a, next ≠ .checkpoint a ∧ w.change ≠ .checkpoint item a) → next ≠ .followerCheckpoint →
    ∃ t, exec .journalWriteComplete s = .next t ∧ t.journal.mem = applyWrite w s.journal.mem ∧
      t.journal.works = works ∧ t.journal.unticketedSum = 0 ∧
      t.journal.inflight = some ⟨changeOf s next, s.journal.unticketedSum⟩ ∧ t.journal.fetch = s.journal.fetch ∧
      OnlyChanges [.journal] s t) ∧
  (∀ (m : Memory) (r : StationRecord) (item : DrawItem) (hose : Option Hose) (closeAhead : Option Int),
    m.station = some r → r.netTotals.length = 15 → r.grossTotals.length = 15 → 1 ≤ item.product → item.product ≤ 15 →
    ∃ r', (applyChange (.handOver item hose closeAhead) m).station = some r' ∧
      totalOf r'.netTotals item.product = saturate 64 (totalOf r.netTotals item.product + item.net) ∧
      totalOf r'.grossTotals item.product = saturate 64 (totalOf r.grossTotals item.product + item.gross) ∧
      (∀ code, 1 ≤ code → code ≤ 15 → code ≠ item.product →
        totalOf r'.netTotals code = totalOf r.netTotals code ∧
        totalOf r'.grossTotals code = totalOf r.grossTotals code) ∧
      r'.closeAhead = closeAhead.getD r.closeAhead ∧ r'.hose = hose.getD r.hose ∧ r'.sequence = r.sequence ∧
      r'.unticketed = r.unticketed) ∧
  (∀ (m : Memory) (r : StationRecord) (product : Nat) (gross net : Int),
    m.station = some r → r.netTotals.length = 15 → r.grossTotals.length = 15 → 1 ≤ product → product ≤ 15 →
    ∃ r', applyChange (.followerCompletion product gross net) m = { m with station := some r' } ∧
      totalOf r'.netTotals product = saturate 64 (totalOf r.netTotals product + net) ∧
      totalOf r'.grossTotals product = saturate 64 (totalOf r.grossTotals product + gross) ∧
      (∀ code, 1 ≤ code → code ≤ 15 → code ≠ product →
        totalOf r'.netTotals code = totalOf r.netTotals code ∧
        totalOf r'.grossTotals code = totalOf r.grossTotals code) ∧
      r'.hose = (if 0 < gross then (if product = 15 then .mixed else .product product) else r.hose) ∧ r'.followerPart = none) ∧
  (∀ (product : Nat) (gross net : Int) (works : List Work),
    .followerCheckpoint ∉ addWork (.followerCompletion product gross net) works ∧
      ∀ w, w ∈ addWork (.followerCompletion product gross net) works ↔
        w = .followerCompletion product gross net ∨ (w ∈ works ∧ w ≠ .followerCheckpoint))

/-- The stream of a ticket record is cut into segments of eight bytes in order, as many as the ceiling of an eighth of its
length, the last filled out with zero bytes and carrying the final flag. A record without items takes 3, one of two items
without further parts 110 bytes and 14, and one of four items with every extension 328 bytes and 41. -/
def Obligations.TicketStreamIsCutIntoSegments : Prop :=
  (∀ (k : Ticket),
    (ticketSegments k).length = ((ticketStream k).length + 7) / 8 ∧
    (ticketSegments k).flatten =
      ticketStream k ++ List.replicate (8 * (ticketSegments k).length - (ticketStream k).length) 0 ∧
    (∀ segment ∈ ticketSegments k, segment.length = 8) ∧
    (k.items = [] → (ticketSegments k).length = 3) ∧
    (k.items.length = 2 → (∀ i ∈ k.items, i.progress = none ∧ i.intermix = none ∧ i.blend = none) →
      (ticketStream k).length = 110 ∧ (ticketSegments k).length = 14) ∧
    (k.items.length = 4 → (∀ i ∈ k.items, i.progress.isSome ∧ i.intermix.isSome ∧ i.blend.isSome) →
      (ticketStream k).length = 328 ∧ (ticketSegments k).length = 41)) ∧
  (∀ (s : State) (f : Fetch) (segment : List Byte), s.station.state = .running → s.journal.fetch = some f →
    f.segments[f.next]? = some segment → RoomFor 1 s →
    Queued (tktFrame s.station.number f.station f.next (decide (f.next + 1 = f.segments.length)) segment)
      (handSegment s))

/-! ### Chapter 10: the ticket printer port -/

/-- The printer's flow permission: XOFF or a clear-to-send that falls holds a printing port with the stall timer at
20,000 ms; a shifted character brings the next one out of the FIFO, in order, and the formatter fills the FIFO on. -/
def Obligations.PrinterSendsWhilePermitted : Prop :=
  (∀ (s : State), operating s = true → s.cfg.flowControl = .xonXoff → s.printer.state = .printing →
    s.printer.go = true →
    ∃ t, exec (.printerCharacterReceived 19 false) s = .next t ∧
      t.printer = { s.printer with go := false, state := .held (s.time + 20000) } ∧ OnlyChanges [.printer] s t) ∧
  (∀ (s : State), operating s = true → s.cfg.flowControl = .cts → s.printer.state = .printing → s.printer.go = true →
    ∃ t, exec (.ctsChange false) s = .next t ∧ t.pins = { s.pins with cts := false } ∧
      t.printer = { s.printer with go := false, state := .held (s.time + 20000) } ∧
      OnlyChanges [.pins, .printer] s t) ∧
  (∀ (s : State) (x c : Byte) (cs : List Byte), operating s = true → s.printer.state = .printing →
    s.printer.shifting = some x → s.printer.fifo = c :: cs → cs.length < 64 →
    ∃ t, exec .characterShifted s = .next t ∧
      t.printer = { s.printer with
        shifting := some c
        fifo := cs ++ s.printer.rest.take (64 - cs.length)
        rest := s.printer.rest.drop (64 - cs.length) } ∧
      OnlyChanges [.printer] s t)

/-- The stall timer aborts the job: PRINTER_STALLED is set, the FIFO and the formatter hold the abort trailer alone,
and the trailer timer runs for 20,000 ms. At the trailer timer, with no character in the shifter, the job leaves the
queue and its ticket's print count is not stepped. The model's choice: an expiry command brings the station time to its
deadline (log 3). The details of the trailer's text are log 30. -/
def Obligations.StalledJobIsAborted : Prop :=
  (∀ (s : State) (due : Nat) (j : Job) (js : List Job), s.station.state ≠ .powerDown → s.printer.state = .held due →
    s.printer.queue = j :: js → s.printer.go = false →
    ∃ t, exec .stallTimerExpiry s = .next t ∧ t.time = later s.time due ∧ t.printer.stalled = true ∧
      t.printer.state = .aborting (some (later s.time due + 20000)) ∧
      t.printer.fifo ++ t.printer.rest = trailerText j.ticket ∧ t.printer.queue = s.printer.queue ∧
      t.printer.shifting = s.printer.shifting ∧ StatAlone s.port t.port ∧
      OnlyChanges [.time, .port, .printer] s t) ∧
  (∀ (s : State) (due : Nat) (j : Job), s.station.state ≠ .powerDown → s.printer.state = .aborting (some due) →
    s.printer.queue = [j] → s.printer.shifting = none →
    ∃ t, exec .trailerTimerExpiry s = .next t ∧ t.time = later s.time due ∧
      t.printer = { s.printer with state := .idle, queue := [], fifo := [], rest := [] } ∧
      OnlyChanges [.time, .printer] s t)

/-! ### Chapter 11: configuration, seal and start-up -/

/-- A power-up and the RESET pin put every block at its reset values with the straps and the seal read; straps of 0
give CONFIG_FAULT. What the journal memory and the configuration memory hold stays, with no write in flight. The values
of the blocks that the manual leaves unknown until the configuration is read are the model's (log 8), and so are the
decoder's levels before counting begins (log 41), the follower's lag before an update (log 47), the power-fail input at
a power-up (log 7) and the flow permission of CTS before LISTENING (log 69). -/
def Obligations.StartResetsEveryBlock : Prop :=
  ∀ (i : Instr) (straps : BitVec 4) (sealOpen : Bool) (s : State),
    i = .powerUp straps sealOpen ∨ (i = .resetPin straps sealOpen ∧ s.pins.powerFail = false) →
    s.journal.inflight = none → s.station.cfgWrite = none →
    ∃ t, exec i s = .next t ∧ t.time = 0 ∧ t.draw = DrawUnit.reset ∧ t.pulse = Pulse.reset ∧
      t.engine = Engine.reset ∧ t.valve = Valve.reset ∧ t.claims = ClaimUnit.reset ∧ t.blend = Blend.reset ∧
      t.handler = Handler.reset ∧ t.printer = Printer.reset ∧ t.inputs = Inputs.reset ∧
      t.journal.mem = s.journal.mem ∧ t.journal.inflight = none ∧ t.journal.works = [] ∧
      t.station.image = s.station.image ∧ t.station.number = straps.toNat ∧ t.station.calibration = sealOpen ∧
      (straps ≠ 0 → t.station.state = .starting ∧ t.station.faultCode = none ∧ t.port = Port.reset) ∧
      (straps = 0 → t.station.state = .configFault ∧ t.station.faultCode = some .strapsZero)

/-- The image of the configuration memory at a start: a memory that does not answer and an image that fails a check
give CONFIG_FAULT with the code and the item; a good image is in use, and with no start write due the station is
LISTENING with the quiet-listen timer at 1,000 ms and counting begun from the levels that stand at the pulser. How the
image is held, and which item is named where several are duplicates, are the model's choices (log 6, 64). -/
def Obligations.ImageReadStartsStation : Prop :=
  ∀ (s : State), s.station.state = .starting → s.journal.inflight = none →
    (∃ t, exec (.configImageRead .silent) s = .next t ∧ t.station.state = .configFault ∧
      t.station.faultCode = some .memorySilent ∧ t.station.faultItem = 0 ∧ OnlyChanges [.station, .port] s t) ∧
    (∀ img code item, imageFault img = some (code, item) →
      ∃ t, exec (.configImageRead (.programmed img)) s = .next t ∧ t.station.state = .configFault ∧
        t.station.faultCode = some code ∧ t.station.faultItem = item ∧ t.station.image = img ∧ t.cfg = s.cfg ∧
        OnlyChanges [.station, .port] s t) ∧
    (∀ img, imageFault img = none → startWorks { s with station := { s.station with image := img }, cfg := imageCfg img } = [] →
      s.pins.emergencyStop = false →
      ∃ t, exec (.configImageRead (.programmed img)) s = .next t ∧ t.cfg = imageCfg img ∧
        t.station = { s.station with
          state := .listening, quietDue := some (s.time + 1000), image := img } ∧
        t.pulse.decoderA = s.pins.pulserA ∧ t.pulse.decoderB = s.pins.pulserB ∧
        t.pulse.running = s.pulse.running ∧ t.pulse.conversionDue = some (s.time + 1000) ∧
        t.engine.probeDue = some (s.time + 100) ∧ t.engine.ctx.mf = firstFactor (imageCfg img) ∧
        t.inputs = ⟨false, s.pins.holdToRun, s.pins.air, s.pins.reelStowed⟩ ∧
        OnlyChanges [.cfg, .station, .inputs, .pulse, .engine, .port, .journal, .printer] s t)

/-- At the power-fail input the station is in POWER_DOWN at once, with the meter valve CLOSED, every output off, and nothing
left pending; the journal memory holds the write in flight, then the pending unticketed sum, then every pending work in its
order with a checkpoint of the item and of the followed part in progress; the halt state, the commands and the pulse
counter are held. Which timers are dropped is the model's reading (log 35). -/
def Obligations.PowerFailClosesAndWrites : Prop :=
  ∀ (s : State), operating s = true → s.station.cfgWrite = none →
    ∃ t, exec .powerFail s = .next t ∧ t.pins = { s.pins with powerFail := true } ∧
      t.station.state = .powerDown ∧ t.valve.stage = .closed ∧ t.valve.pump = .off ∧ pumpDriven t = false ∧
      (∀ n, compDriven t n = false) ∧ t.valve.halt = s.valve.halt ∧
      t.valve.compCommands = s.valve.compCommands ∧ t.valve.pumpNeeded = s.valve.pumpNeeded ∧
      (let flown := match s.journal.inflight with
         | some w => applyWrite w s.journal.mem
         | none => s.journal.mem
       let drawing := s.draw.state = .priming ∨ s.draw.state = .flowing ∨ s.draw.state = .suspended ∨
         s.draw.state = .closing
       let following := s.blend.follower ≠ .unbound ∧ s.blend.follower ≠ .bound
       let works := if drawing then addWork (.checkpoint false) s.journal.works else s.journal.works
       let all := if following then addWork .followerCheckpoint works else works
       t.journal.mem =
         all.foldl (fun m w => applyChange (changeOf s w) m) (addUnticketed s.journal.unticketedSum flown)) ∧
      t.journal.inflight = none ∧ t.journal.works = [] ∧
      t.journal.unticketedSum = 0 ∧ t.pulse = s.pulse ∧ t.engine.ctx = s.engine.ctx ∧
      t.engine.updateDue = none ∧ t.station.image = s.station.image ∧
      OnlyChanges [.station, .pins, .engine, .draw, .valve, .port, .claims, .blend, .journal, .printer,
        .freeIndex] s t
end

