-- ==== Sys2Proof/Laws/Layout.lean ====
section
/-! SUPPORT. What the fields of an identifier read as, once it is put together from them (12.1), and how many bytes a
number takes (R203). -/

namespace Sys2Proof.Machine

theorem identOf_toNat (k a d t : Nat) :
    (identOf k a d t).toNat = k % 16 * 2 ^ 25 + a % 16 * 2 ^ 21 + d % 16 * 2 ^ 17 + t % 2 ^ 17 := by
  simp only [identOf, BitVec.toNat_ofNat]
  have := Nat.mod_lt k (by decide : 16 > 0)
  have := Nat.mod_lt a (by decide : 16 > 0)
  have := Nat.mod_lt d (by decide : 16 > 0)
  have := Nat.mod_lt t (by decide : 2 ^ 17 > 0)
  omega

@[simp] theorem kindOf_identOf (k a d t : Nat) : kindOf (identOf k a d t) = k % 16 := by
  simp only [kindOf, identOf_toNat]; omega

@[simp] theorem sourceOf_identOf (k a d t : Nat) : sourceOf (identOf k a d t) = a % 16 := by
  simp only [sourceOf, identOf_toNat]; omega

@[simp] theorem destOf_identOf (k a d t : Nat) : destOf (identOf k a d t) = d % 16 := by
  simp only [destOf, identOf_toNat]; omega

@[simp] theorem tagOf_identOf (k a d t : Nat) : tagOf (identOf k a d t) = t % 131072 := by
  simp only [tagOf, identOf_toNat]; omega

@[simp] theorem sequenceOf_claimTag (k a d q l : Nat) :
    sequenceOf (identOf k a d (claimTag q l)) = q % 256 := by
  simp only [sequenceOf, tagOf_identOf, claimTag]; omega

@[simp] theorem lowTagOf_claimTag (k a d q l : Nat) : lowTagOf (identOf k a d (claimTag q l)) = l % 16 := by
  simp only [lowTagOf, tagOf_identOf, claimTag]; omega

@[simp] theorem bytesOf_length (n x : Nat) : (bytesOf n x).length = n := by
  induction n generalizing x with
  | zero => rfl
  | succ n ih => simp [bytesOf, ih]

@[simp] theorem signedBytes_length (n : Nat) (x : Int) : (signedBytes n x).length = n := by
  simp [signedBytes]

theorem natOfBytes_append (xs : List Byte) (b : Byte) : natOfBytes (xs ++ [b]) = natOfBytes xs * 256 + b.toNat := by
  simp [natOfBytes]

/-- Bytes carry a number below 256 to the power of their count. -/
theorem natOfBytes_lt (xs : List Byte) : natOfBytes xs < 256 ^ xs.length := by
  induction xs using List.reverseRecOn with
  | nil => simp [natOfBytes]
  | append_singleton xs b ih =>
    rw [natOfBytes_append, List.length_append, List.length_singleton, pow_succ]
    have := b.isLt
    omega

/-- A number put into bytes reads back as itself where it fits (R203). -/
theorem natOfBytes_bytesOf (n x : Nat) (h : x < 256 ^ n) : natOfBytes (bytesOf n x) = x := by
  induction n generalizing x with
  | zero => simp [natOfBytes, bytesOf] at *; omega
  | succ n ih =>
    have hx : x / 256 < 256 ^ n := by
      rw [pow_succ] at h; exact Nat.div_lt_of_lt_mul (by omega)
    rw [bytesOf, natOfBytes_append, ih _ hx]
    simp; omega

theorem fieldAt_lt (f : Frame) (i n : Nat) : fieldAt f i n < 256 ^ n := by
  refine lt_of_lt_of_le (natOfBytes_lt _) (Nat.pow_le_pow_right (by decide) ?_)
  simp

end Sys2Proof.Machine
end

