-- ==== Sys2Proof/Laws/State.lean ====
section
/-! SUPPORT. What each named update of the state leaves of each of its fields: one lemma for each field and update, so
that no proof unfolds a record update. -/

namespace Sys2Proof.Machine

variable (s : State)

/-! ### passTo -/

@[simp] theorem passTo_time (due : Nat) : (passTo due s).time = later s.time due := rfl
@[simp] theorem passTo_cfg (due : Nat) : (passTo due s).cfg = s.cfg := rfl
@[simp] theorem passTo_station (due : Nat) : (passTo due s).station = s.station := rfl
@[simp] theorem passTo_pins (due : Nat) : (passTo due s).pins = s.pins := rfl
@[simp] theorem passTo_inputs (due : Nat) : (passTo due s).inputs = s.inputs := rfl
@[simp] theorem passTo_pulse (due : Nat) : (passTo due s).pulse = s.pulse := rfl
@[simp] theorem passTo_engine (due : Nat) : (passTo due s).engine = s.engine := rfl
@[simp] theorem passTo_draw (due : Nat) : (passTo due s).draw = s.draw := rfl
@[simp] theorem passTo_valve (due : Nat) : (passTo due s).valve = s.valve := rfl
@[simp] theorem passTo_port (due : Nat) : (passTo due s).port = s.port := rfl
@[simp] theorem passTo_claims (due : Nat) : (passTo due s).claims = s.claims := rfl
@[simp] theorem passTo_blend (due : Nat) : (passTo due s).blend = s.blend := rfl
@[simp] theorem passTo_handler (due : Nat) : (passTo due s).handler = s.handler := rfl
@[simp] theorem passTo_journal (due : Nat) : (passTo due s).journal = s.journal := rfl
@[simp] theorem passTo_printer (due : Nat) : (passTo due s).printer = s.printer := rfl
@[simp] theorem passTo_freeIndex (due : Nat) : (passTo due s).freeIndex = s.freeIndex := rfl
@[simp] theorem passTo_pending (due : Nat) : (passTo due s).pending = s.pending := rfl

/-! ### setPins -/

@[simp] theorem setPins_time (f : Pins → Pins) : (setPins f s).time = s.time := rfl
@[simp] theorem setPins_cfg (f : Pins → Pins) : (setPins f s).cfg = s.cfg := rfl
@[simp] theorem setPins_station (f : Pins → Pins) : (setPins f s).station = s.station := rfl
@[simp] theorem setPins_pins (f : Pins → Pins) : (setPins f s).pins = f s.pins := rfl
@[simp] theorem setPins_inputs (f : Pins → Pins) : (setPins f s).inputs = s.inputs := rfl
@[simp] theorem setPins_pulse (f : Pins → Pins) : (setPins f s).pulse = s.pulse := rfl
@[simp] theorem setPins_engine (f : Pins → Pins) : (setPins f s).engine = s.engine := rfl
@[simp] theorem setPins_draw (f : Pins → Pins) : (setPins f s).draw = s.draw := rfl
@[simp] theorem setPins_valve (f : Pins → Pins) : (setPins f s).valve = s.valve := rfl
@[simp] theorem setPins_port (f : Pins → Pins) : (setPins f s).port = s.port := rfl
@[simp] theorem setPins_claims (f : Pins → Pins) : (setPins f s).claims = s.claims := rfl
@[simp] theorem setPins_blend (f : Pins → Pins) : (setPins f s).blend = s.blend := rfl
@[simp] theorem setPins_handler (f : Pins → Pins) : (setPins f s).handler = s.handler := rfl
@[simp] theorem setPins_journal (f : Pins → Pins) : (setPins f s).journal = s.journal := rfl
@[simp] theorem setPins_printer (f : Pins → Pins) : (setPins f s).printer = s.printer := rfl
@[simp] theorem setPins_freeIndex (f : Pins → Pins) : (setPins f s).freeIndex = s.freeIndex := rfl
@[simp] theorem setPins_pending (f : Pins → Pins) : (setPins f s).pending = s.pending := rfl

/-! ### modPeer -/

@[simp] theorem modPeer_time (n : Nat) (f : Peer → Peer) : (modPeer n f s).time = s.time := rfl
@[simp] theorem modPeer_cfg (n : Nat) (f : Peer → Peer) : (modPeer n f s).cfg = s.cfg := rfl
@[simp] theorem modPeer_station (n : Nat) (f : Peer → Peer) : (modPeer n f s).station = s.station := rfl
@[simp] theorem modPeer_pins (n : Nat) (f : Peer → Peer) : (modPeer n f s).pins = s.pins := rfl
@[simp] theorem modPeer_inputs (n : Nat) (f : Peer → Peer) : (modPeer n f s).inputs = s.inputs := rfl
@[simp] theorem modPeer_pulse (n : Nat) (f : Peer → Peer) : (modPeer n f s).pulse = s.pulse := rfl
@[simp] theorem modPeer_engine (n : Nat) (f : Peer → Peer) : (modPeer n f s).engine = s.engine := rfl
@[simp] theorem modPeer_draw (n : Nat) (f : Peer → Peer) : (modPeer n f s).draw = s.draw := rfl
@[simp] theorem modPeer_valve (n : Nat) (f : Peer → Peer) : (modPeer n f s).valve = s.valve := rfl
@[simp] theorem modPeer_port (n : Nat) (f : Peer → Peer) : (modPeer n f s).port = s.port := rfl
@[simp] theorem modPeer_claims (n : Nat) (f : Peer → Peer) :
    (modPeer n f s).claims = { s.claims with view := s.claims.view.map (fun p => if p.station = n then f p else p) } := rfl
@[simp] theorem modPeer_blend (n : Nat) (f : Peer → Peer) : (modPeer n f s).blend = s.blend := rfl
@[simp] theorem modPeer_handler (n : Nat) (f : Peer → Peer) : (modPeer n f s).handler = s.handler := rfl
@[simp] theorem modPeer_journal (n : Nat) (f : Peer → Peer) : (modPeer n f s).journal = s.journal := rfl
@[simp] theorem modPeer_printer (n : Nat) (f : Peer → Peer) : (modPeer n f s).printer = s.printer := rfl
@[simp] theorem modPeer_freeIndex (n : Nat) (f : Peer → Peer) : (modPeer n f s).freeIndex = s.freeIndex := rfl
@[simp] theorem modPeer_pending (n : Nat) (f : Peer → Peer) : (modPeer n f s).pending = s.pending := rfl

/-! ### refreshPeer -/

@[simp] theorem refreshPeer_time (n a : Nat) : (refreshPeer n a s).time = s.time := rfl
@[simp] theorem refreshPeer_cfg (n a : Nat) : (refreshPeer n a s).cfg = s.cfg := rfl
@[simp] theorem refreshPeer_station (n a : Nat) : (refreshPeer n a s).station = s.station := rfl
@[simp] theorem refreshPeer_pins (n a : Nat) : (refreshPeer n a s).pins = s.pins := rfl
@[simp] theorem refreshPeer_inputs (n a : Nat) : (refreshPeer n a s).inputs = s.inputs := rfl
@[simp] theorem refreshPeer_pulse (n a : Nat) : (refreshPeer n a s).pulse = s.pulse := rfl
@[simp] theorem refreshPeer_engine (n a : Nat) : (refreshPeer n a s).engine = s.engine := rfl
@[simp] theorem refreshPeer_draw (n a : Nat) : (refreshPeer n a s).draw = s.draw := rfl
@[simp] theorem refreshPeer_valve (n a : Nat) : (refreshPeer n a s).valve = s.valve := rfl
@[simp] theorem refreshPeer_port (n a : Nat) : (refreshPeer n a s).port = s.port := rfl
@[simp] theorem refreshPeer_claims (n a : Nat) :
    (refreshPeer n a s).claims = { s.claims with
      view := s.claims.view.map (fun p => if p.station = n then { p with lastHeard := later p.lastHeard a } else p) } := rfl
@[simp] theorem refreshPeer_blend (n a : Nat) : (refreshPeer n a s).blend = s.blend := rfl
@[simp] theorem refreshPeer_handler (n a : Nat) : (refreshPeer n a s).handler = s.handler := rfl
@[simp] theorem refreshPeer_journal (n a : Nat) : (refreshPeer n a s).journal = s.journal := rfl
@[simp] theorem refreshPeer_printer (n a : Nat) : (refreshPeer n a s).printer = s.printer := rfl
@[simp] theorem refreshPeer_freeIndex (n a : Nat) : (refreshPeer n a s).freeIndex = s.freeIndex := rfl
@[simp] theorem refreshPeer_pending (n a : Nat) : (refreshPeer n a s).pending = s.pending := rfl

/-! ### modCurrent -/

@[simp] theorem modCurrent_time (f : Current → Current) : (modCurrent f s).time = s.time := rfl
@[simp] theorem modCurrent_cfg (f : Current → Current) : (modCurrent f s).cfg = s.cfg := rfl
@[simp] theorem modCurrent_station (f : Current → Current) : (modCurrent f s).station = s.station := rfl
@[simp] theorem modCurrent_pins (f : Current → Current) : (modCurrent f s).pins = s.pins := rfl
@[simp] theorem modCurrent_inputs (f : Current → Current) : (modCurrent f s).inputs = s.inputs := rfl
@[simp] theorem modCurrent_pulse (f : Current → Current) : (modCurrent f s).pulse = s.pulse := rfl
@[simp] theorem modCurrent_engine (f : Current → Current) : (modCurrent f s).engine = s.engine := rfl
@[simp] theorem modCurrent_draw (f : Current → Current) :
    (modCurrent f s).draw = { s.draw with current := s.draw.current.map f } := rfl
@[simp] theorem modCurrent_valve (f : Current → Current) : (modCurrent f s).valve = s.valve := rfl
@[simp] theorem modCurrent_port (f : Current → Current) : (modCurrent f s).port = s.port := rfl
@[simp] theorem modCurrent_claims (f : Current → Current) : (modCurrent f s).claims = s.claims := rfl
@[simp] theorem modCurrent_blend (f : Current → Current) : (modCurrent f s).blend = s.blend := rfl
@[simp] theorem modCurrent_handler (f : Current → Current) : (modCurrent f s).handler = s.handler := rfl
@[simp] theorem modCurrent_journal (f : Current → Current) : (modCurrent f s).journal = s.journal := rfl
@[simp] theorem modCurrent_printer (f : Current → Current) : (modCurrent f s).printer = s.printer := rfl
@[simp] theorem modCurrent_freeIndex (f : Current → Current) : (modCurrent f s).freeIndex = s.freeIndex := rfl
@[simp] theorem modCurrent_pending (f : Current → Current) : (modCurrent f s).pending = s.pending := rfl

/-! ### modOwn -/

@[simp] theorem modOwn_time (f : OwnClaim → OwnClaim) : (modOwn f s).time = s.time := rfl
@[simp] theorem modOwn_cfg (f : OwnClaim → OwnClaim) : (modOwn f s).cfg = s.cfg := rfl
@[simp] theorem modOwn_station (f : OwnClaim → OwnClaim) : (modOwn f s).station = s.station := rfl
@[simp] theorem modOwn_pins (f : OwnClaim → OwnClaim) : (modOwn f s).pins = s.pins := rfl
@[simp] theorem modOwn_inputs (f : OwnClaim → OwnClaim) : (modOwn f s).inputs = s.inputs := rfl
@[simp] theorem modOwn_pulse (f : OwnClaim → OwnClaim) : (modOwn f s).pulse = s.pulse := rfl
@[simp] theorem modOwn_engine (f : OwnClaim → OwnClaim) : (modOwn f s).engine = s.engine := rfl
@[simp] theorem modOwn_draw (f : OwnClaim → OwnClaim) : (modOwn f s).draw = s.draw := rfl
@[simp] theorem modOwn_valve (f : OwnClaim → OwnClaim) : (modOwn f s).valve = s.valve := rfl
@[simp] theorem modOwn_port (f : OwnClaim → OwnClaim) : (modOwn f s).port = s.port := rfl
@[simp] theorem modOwn_claims (f : OwnClaim → OwnClaim) :
    (modOwn f s).claims = { s.claims with own := s.claims.own.map f } := rfl
@[simp] theorem modOwn_blend (f : OwnClaim → OwnClaim) : (modOwn f s).blend = s.blend := rfl
@[simp] theorem modOwn_handler (f : OwnClaim → OwnClaim) : (modOwn f s).handler = s.handler := rfl
@[simp] theorem modOwn_journal (f : OwnClaim → OwnClaim) : (modOwn f s).journal = s.journal := rfl
@[simp] theorem modOwn_printer (f : OwnClaim → OwnClaim) : (modOwn f s).printer = s.printer := rfl
@[simp] theorem modOwn_freeIndex (f : OwnClaim → OwnClaim) : (modOwn f s).freeIndex = s.freeIndex := rfl
@[simp] theorem modOwn_pending (f : OwnClaim → OwnClaim) : (modOwn f s).pending = s.pending := rfl

/-! ### modBinding -/

@[simp] theorem modBinding_time (f : Binding → Binding) : (modBinding f s).time = s.time := rfl
@[simp] theorem modBinding_cfg (f : Binding → Binding) : (modBinding f s).cfg = s.cfg := rfl
@[simp] theorem modBinding_station (f : Binding → Binding) : (modBinding f s).station = s.station := rfl
@[simp] theorem modBinding_pins (f : Binding → Binding) : (modBinding f s).pins = s.pins := rfl
@[simp] theorem modBinding_inputs (f : Binding → Binding) : (modBinding f s).inputs = s.inputs := rfl
@[simp] theorem modBinding_pulse (f : Binding → Binding) : (modBinding f s).pulse = s.pulse := rfl
@[simp] theorem modBinding_engine (f : Binding → Binding) : (modBinding f s).engine = s.engine := rfl
@[simp] theorem modBinding_draw (f : Binding → Binding) : (modBinding f s).draw = s.draw := rfl
@[simp] theorem modBinding_valve (f : Binding → Binding) : (modBinding f s).valve = s.valve := rfl
@[simp] theorem modBinding_port (f : Binding → Binding) : (modBinding f s).port = s.port := rfl
@[simp] theorem modBinding_claims (f : Binding → Binding) : (modBinding f s).claims = s.claims := rfl
@[simp] theorem modBinding_blend (f : Binding → Binding) :
    (modBinding f s).blend = { s.blend with binding := s.blend.binding.map f } := rfl
@[simp] theorem modBinding_handler (f : Binding → Binding) : (modBinding f s).handler = s.handler := rfl
@[simp] theorem modBinding_journal (f : Binding → Binding) : (modBinding f s).journal = s.journal := rfl
@[simp] theorem modBinding_printer (f : Binding → Binding) : (modBinding f s).printer = s.printer := rfl
@[simp] theorem modBinding_freeIndex (f : Binding → Binding) : (modBinding f s).freeIndex = s.freeIndex := rfl
@[simp] theorem modBinding_pending (f : Binding → Binding) : (modBinding f s).pending = s.pending := rfl

/-! ### joinUnticketed -/

@[simp] theorem joinUnticketed_time (ml : Int) : (joinUnticketed ml s).time = s.time := rfl
@[simp] theorem joinUnticketed_cfg (ml : Int) : (joinUnticketed ml s).cfg = s.cfg := rfl
@[simp] theorem joinUnticketed_station (ml : Int) : (joinUnticketed ml s).station = s.station := rfl
@[simp] theorem joinUnticketed_pins (ml : Int) : (joinUnticketed ml s).pins = s.pins := rfl
@[simp] theorem joinUnticketed_inputs (ml : Int) : (joinUnticketed ml s).inputs = s.inputs := rfl
@[simp] theorem joinUnticketed_pulse (ml : Int) : (joinUnticketed ml s).pulse = s.pulse := rfl
@[simp] theorem joinUnticketed_engine (ml : Int) : (joinUnticketed ml s).engine = s.engine := rfl
@[simp] theorem joinUnticketed_draw (ml : Int) : (joinUnticketed ml s).draw = s.draw := rfl
@[simp] theorem joinUnticketed_valve (ml : Int) : (joinUnticketed ml s).valve = s.valve := rfl
@[simp] theorem joinUnticketed_port (ml : Int) : (joinUnticketed ml s).port = s.port := rfl
@[simp] theorem joinUnticketed_claims (ml : Int) : (joinUnticketed ml s).claims = s.claims := rfl
@[simp] theorem joinUnticketed_blend (ml : Int) : (joinUnticketed ml s).blend = s.blend := rfl
@[simp] theorem joinUnticketed_handler (ml : Int) : (joinUnticketed ml s).handler = s.handler := rfl
@[simp] theorem joinUnticketed_journal (ml : Int) :
    (joinUnticketed ml s).journal = { s.journal with unticketedSum := sum64 (s.journal.unticketedSum + ml) } := rfl
@[simp] theorem joinUnticketed_printer (ml : Int) : (joinUnticketed ml s).printer = s.printer := rfl
@[simp] theorem joinUnticketed_freeIndex (ml : Int) : (joinUnticketed ml s).freeIndex = s.freeIndex := rfl
@[simp] theorem joinUnticketed_pending (ml : Int) : (joinUnticketed ml s).pending = s.pending := rfl

/-! ### clearContext -/

@[simp] theorem clearContext_time (o : Owner) (p : Option ProductEntry) (v : Option Int) (sh : Option Nat) :
    (clearContext o p v sh s).time = s.time := rfl
@[simp] theorem clearContext_cfg (o : Owner) (p : Option ProductEntry) (v : Option Int) (sh : Option Nat) :
    (clearContext o p v sh s).cfg = s.cfg := rfl
@[simp] theorem clearContext_station (o : Owner) (p : Option ProductEntry) (v : Option Int) (sh : Option Nat) :
    (clearContext o p v sh s).station = s.station := rfl
@[simp] theorem clearContext_pins (o : Owner) (p : Option ProductEntry) (v : Option Int) (sh : Option Nat) :
    (clearContext o p v sh s).pins = s.pins := rfl
@[simp] theorem clearContext_inputs (o : Owner) (p : Option ProductEntry) (v : Option Int) (sh : Option Nat) :
    (clearContext o p v sh s).inputs = s.inputs := rfl
@[simp] theorem clearContext_pulse (o : Owner) (p : Option ProductEntry) (v : Option Int) (sh : Option Nat) :
    (clearContext o p v sh s).pulse = s.pulse := rfl
@[simp] theorem clearContext_draw (o : Owner) (p : Option ProductEntry) (v : Option Int) (sh : Option Nat) :
    (clearContext o p v sh s).draw = s.draw := rfl
@[simp] theorem clearContext_valve (o : Owner) (p : Option ProductEntry) (v : Option Int) (sh : Option Nat) :
    (clearContext o p v sh s).valve = s.valve := rfl
@[simp] theorem clearContext_port (o : Owner) (p : Option ProductEntry) (v : Option Int) (sh : Option Nat) :
    (clearContext o p v sh s).port = s.port := rfl
@[simp] theorem clearContext_claims (o : Owner) (p : Option ProductEntry) (v : Option Int) (sh : Option Nat) :
    (clearContext o p v sh s).claims = s.claims := rfl
@[simp] theorem clearContext_blend (o : Owner) (p : Option ProductEntry) (v : Option Int) (sh : Option Nat) :
    (clearContext o p v sh s).blend = s.blend := rfl
@[simp] theorem clearContext_handler (o : Owner) (p : Option ProductEntry) (v : Option Int) (sh : Option Nat) :
    (clearContext o p v sh s).handler = s.handler := rfl
@[simp] theorem clearContext_journal (o : Owner) (p : Option ProductEntry) (v : Option Int) (sh : Option Nat) :
    (clearContext o p v sh s).journal = s.journal := rfl
@[simp] theorem clearContext_printer (o : Owner) (p : Option ProductEntry) (v : Option Int) (sh : Option Nat) :
    (clearContext o p v sh s).printer = s.printer := rfl
@[simp] theorem clearContext_freeIndex (o : Owner) (p : Option ProductEntry) (v : Option Int) (sh : Option Nat) :
    (clearContext o p v sh s).freeIndex = s.freeIndex := rfl
@[simp] theorem clearContext_pending (o : Owner) (p : Option ProductEntry) (v : Option Int) (sh : Option Nat) :
    (clearContext o p v sh s).pending = s.pending := rfl

/-! ### enterRequest -/

@[simp] theorem enterRequest_time (a : Asker) : (enterRequest a s).time = s.time := rfl
@[simp] theorem enterRequest_cfg (a : Asker) : (enterRequest a s).cfg = s.cfg := rfl
@[simp] theorem enterRequest_station (a : Asker) : (enterRequest a s).station = s.station := rfl
@[simp] theorem enterRequest_pins (a : Asker) : (enterRequest a s).pins = s.pins := rfl
@[simp] theorem enterRequest_inputs (a : Asker) : (enterRequest a s).inputs = s.inputs := rfl
@[simp] theorem enterRequest_pulse (a : Asker) : (enterRequest a s).pulse = s.pulse := rfl
@[simp] theorem enterRequest_engine (a : Asker) : (enterRequest a s).engine = s.engine := rfl
@[simp] theorem enterRequest_draw (a : Asker) : (enterRequest a s).draw = s.draw := rfl
@[simp] theorem enterRequest_valve (a : Asker) : (enterRequest a s).valve = s.valve := rfl
@[simp] theorem enterRequest_port (a : Asker) : (enterRequest a s).port = s.port := rfl
@[simp] theorem enterRequest_claims (a : Asker) : (enterRequest a s).claims = s.claims := rfl
@[simp] theorem enterRequest_blend (a : Asker) : (enterRequest a s).blend = s.blend := rfl
@[simp] theorem enterRequest_handler (a : Asker) :
    (enterRequest a s).handler = { s.handler with table := replaceEntry ⟨a, .deferred⟩ s.handler.table } := rfl
@[simp] theorem enterRequest_journal (a : Asker) : (enterRequest a s).journal = s.journal := rfl
@[simp] theorem enterRequest_printer (a : Asker) : (enterRequest a s).printer = s.printer := rfl
@[simp] theorem enterRequest_freeIndex (a : Asker) : (enterRequest a s).freeIndex = s.freeIndex := rfl
@[simp] theorem enterRequest_pending (a : Asker) : (enterRequest a s).pending = s.pending := rfl

/-! ### settleEntry -/

@[simp] theorem settleEntry_time (a : Asker) (ans : Option Answer) : (settleEntry a ans s).time = s.time := rfl
@[simp] theorem settleEntry_cfg (a : Asker) (ans : Option Answer) : (settleEntry a ans s).cfg = s.cfg := rfl
@[simp] theorem settleEntry_station (a : Asker) (ans : Option Answer) :
    (settleEntry a ans s).station = s.station := rfl
@[simp] theorem settleEntry_pins (a : Asker) (ans : Option Answer) : (settleEntry a ans s).pins = s.pins := rfl
@[simp] theorem settleEntry_inputs (a : Asker) (ans : Option Answer) : (settleEntry a ans s).inputs = s.inputs := rfl
@[simp] theorem settleEntry_pulse (a : Asker) (ans : Option Answer) : (settleEntry a ans s).pulse = s.pulse := rfl
@[simp] theorem settleEntry_engine (a : Asker) (ans : Option Answer) : (settleEntry a ans s).engine = s.engine := rfl
@[simp] theorem settleEntry_draw (a : Asker) (ans : Option Answer) : (settleEntry a ans s).draw = s.draw := rfl
@[simp] theorem settleEntry_valve (a : Asker) (ans : Option Answer) : (settleEntry a ans s).valve = s.valve := rfl
@[simp] theorem settleEntry_port (a : Asker) (ans : Option Answer) : (settleEntry a ans s).port = s.port := rfl
@[simp] theorem settleEntry_claims (a : Asker) (ans : Option Answer) : (settleEntry a ans s).claims = s.claims := rfl
@[simp] theorem settleEntry_blend (a : Asker) (ans : Option Answer) : (settleEntry a ans s).blend = s.blend := rfl
@[simp] theorem settleEntry_handler (a : Asker) (ans : Option Answer) :
    (settleEntry a ans s).handler = { s.handler with
      table := s.handler.table.map (fun e => if e.asker = a then { e with phase := .settled ans } else e) } := rfl
@[simp] theorem settleEntry_journal (a : Asker) (ans : Option Answer) :
    (settleEntry a ans s).journal = s.journal := rfl
@[simp] theorem settleEntry_printer (a : Asker) (ans : Option Answer) :
    (settleEntry a ans s).printer = s.printer := rfl
@[simp] theorem settleEntry_freeIndex (a : Asker) (ans : Option Answer) :
    (settleEntry a ans s).freeIndex = s.freeIndex := rfl
@[simp] theorem settleEntry_pending (a : Asker) (ans : Option Answer) :
    (settleEntry a ans s).pending = s.pending := rfl

/-! ### clearThrottle -/

@[simp] theorem clearThrottle_time : (clearThrottle s).time = s.time := rfl
@[simp] theorem clearThrottle_cfg : (clearThrottle s).cfg = s.cfg := rfl
@[simp] theorem clearThrottle_station : (clearThrottle s).station = s.station := rfl
@[simp] theorem clearThrottle_pins : (clearThrottle s).pins = s.pins := rfl
@[simp] theorem clearThrottle_inputs : (clearThrottle s).inputs = s.inputs := rfl
@[simp] theorem clearThrottle_pulse : (clearThrottle s).pulse = s.pulse := rfl
@[simp] theorem clearThrottle_engine : (clearThrottle s).engine = s.engine := rfl
@[simp] theorem clearThrottle_draw : (clearThrottle s).draw = s.draw := rfl
@[simp] theorem clearThrottle_valve : (clearThrottle s).valve = s.valve := rfl
@[simp] theorem clearThrottle_port : (clearThrottle s).port = s.port := rfl
@[simp] theorem clearThrottle_claims : (clearThrottle s).claims = s.claims := rfl
@[simp] theorem clearThrottle_blend :
    (clearThrottle s).blend = { s.blend with lead := s.blend.lead.map (fun l => { l with throttle := false, lastLag := none }) } := rfl
@[simp] theorem clearThrottle_handler : (clearThrottle s).handler = s.handler := rfl
@[simp] theorem clearThrottle_journal : (clearThrottle s).journal = s.journal := rfl
@[simp] theorem clearThrottle_printer : (clearThrottle s).printer = s.printer := rfl
@[simp] theorem clearThrottle_freeIndex : (clearThrottle s).freeIndex = s.freeIndex := rfl
@[simp] theorem clearThrottle_pending : (clearThrottle s).pending = s.pending := rfl

/-! ### dropPartnerRecord -/

@[simp] theorem dropPartnerRecord_time (id : ClaimId) : (dropPartnerRecord id s).time = s.time := rfl
@[simp] theorem dropPartnerRecord_cfg (id : ClaimId) : (dropPartnerRecord id s).cfg = s.cfg := rfl
@[simp] theorem dropPartnerRecord_station (id : ClaimId) : (dropPartnerRecord id s).station = s.station := rfl
@[simp] theorem dropPartnerRecord_pins (id : ClaimId) : (dropPartnerRecord id s).pins = s.pins := rfl
@[simp] theorem dropPartnerRecord_inputs (id : ClaimId) : (dropPartnerRecord id s).inputs = s.inputs := rfl
@[simp] theorem dropPartnerRecord_pulse (id : ClaimId) : (dropPartnerRecord id s).pulse = s.pulse := rfl
@[simp] theorem dropPartnerRecord_engine (id : ClaimId) : (dropPartnerRecord id s).engine = s.engine := rfl
@[simp] theorem dropPartnerRecord_draw (id : ClaimId) : (dropPartnerRecord id s).draw = s.draw := rfl
@[simp] theorem dropPartnerRecord_valve (id : ClaimId) : (dropPartnerRecord id s).valve = s.valve := rfl
@[simp] theorem dropPartnerRecord_port (id : ClaimId) : (dropPartnerRecord id s).port = s.port := rfl
@[simp] theorem dropPartnerRecord_claims (id : ClaimId) :
    (dropPartnerRecord id s).claims = { s.claims with records := s.claims.records.filter (fun x => x != (.partner, id)) } := rfl
@[simp] theorem dropPartnerRecord_blend (id : ClaimId) : (dropPartnerRecord id s).blend = s.blend := rfl
@[simp] theorem dropPartnerRecord_handler (id : ClaimId) : (dropPartnerRecord id s).handler = s.handler := rfl
@[simp] theorem dropPartnerRecord_journal (id : ClaimId) : (dropPartnerRecord id s).journal = s.journal := rfl
@[simp] theorem dropPartnerRecord_printer (id : ClaimId) : (dropPartnerRecord id s).printer = s.printer := rfl
@[simp] theorem dropPartnerRecord_freeIndex (id : ClaimId) : (dropPartnerRecord id s).freeIndex = s.freeIndex := rfl
@[simp] theorem dropPartnerRecord_pending (id : ClaimId) : (dropPartnerRecord id s).pending = s.pending := rfl

/-! ### returnToReady -/

@[simp] theorem returnToReady_time : (returnToReady s).time = s.time := rfl
@[simp] theorem returnToReady_cfg : (returnToReady s).cfg = s.cfg := rfl
@[simp] theorem returnToReady_station : (returnToReady s).station = s.station := rfl
@[simp] theorem returnToReady_pins : (returnToReady s).pins = s.pins := rfl
@[simp] theorem returnToReady_inputs : (returnToReady s).inputs = s.inputs := rfl
@[simp] theorem returnToReady_pulse : (returnToReady s).pulse = s.pulse := rfl
@[simp] theorem returnToReady_engine : (returnToReady s).engine = s.engine := rfl
@[simp] theorem returnToReady_draw : (returnToReady s).draw = { s.draw with state := .ready, current := none } := rfl
@[simp] theorem returnToReady_valve : (returnToReady s).valve = s.valve := rfl
@[simp] theorem returnToReady_port : (returnToReady s).port = s.port := rfl
@[simp] theorem returnToReady_claims : (returnToReady s).claims = s.claims := rfl
@[simp] theorem returnToReady_blend : (returnToReady s).blend = { s.blend with lead := none } := rfl
@[simp] theorem returnToReady_handler : (returnToReady s).handler = s.handler := rfl
@[simp] theorem returnToReady_journal : (returnToReady s).journal = s.journal := rfl
@[simp] theorem returnToReady_printer : (returnToReady s).printer = s.printer := rfl
@[simp] theorem returnToReady_freeIndex : (returnToReady s).freeIndex = s.freeIndex := rfl
@[simp] theorem returnToReady_pending : (returnToReady s).pending = s.pending := rfl

/-! ### listen -/

@[simp] theorem listen_time : (listen s).time = s.time := rfl
@[simp] theorem listen_cfg : (listen s).cfg = s.cfg := rfl
@[simp] theorem listen_station :
    (listen s).station = { s.station with state := .listening, quietDue := some (s.time + Config.quietListenTime) } := rfl
@[simp] theorem listen_pins : (listen s).pins = s.pins := rfl
@[simp] theorem listen_inputs : (listen s).inputs = s.inputs := rfl
@[simp] theorem listen_pulse : (listen s).pulse = s.pulse := rfl
@[simp] theorem listen_engine : (listen s).engine = s.engine := rfl
@[simp] theorem listen_draw : (listen s).draw = s.draw := rfl
@[simp] theorem listen_valve : (listen s).valve = s.valve := rfl
@[simp] theorem listen_port : (listen s).port = { s.port with errors := 0, restartDue := none } := rfl
@[simp] theorem listen_claims : (listen s).claims = s.claims := rfl
@[simp] theorem listen_blend : (listen s).blend = s.blend := rfl
@[simp] theorem listen_handler : (listen s).handler = s.handler := rfl
@[simp] theorem listen_journal : (listen s).journal = s.journal := rfl
@[simp] theorem listen_printer : (listen s).printer = s.printer := rfl
@[simp] theorem listen_freeIndex : (listen s).freeIndex = s.freeIndex := rfl
@[simp] theorem listen_pending : (listen s).pending = s.pending := rfl

/-! ### purgePort -/

@[simp] theorem purgePort_time : (purgePort s).time = s.time := rfl
@[simp] theorem purgePort_cfg : (purgePort s).cfg = s.cfg := rfl
@[simp] theorem purgePort_station : (purgePort s).station = s.station := rfl
@[simp] theorem purgePort_pins : (purgePort s).pins = s.pins := rfl
@[simp] theorem purgePort_inputs : (purgePort s).inputs = s.inputs := rfl
@[simp] theorem purgePort_pulse : (purgePort s).pulse = s.pulse := rfl
@[simp] theorem purgePort_engine : (purgePort s).engine = s.engine := rfl
@[simp] theorem purgePort_draw : (purgePort s).draw = s.draw := rfl
@[simp] theorem purgePort_valve : (purgePort s).valve = s.valve := rfl
@[simp] theorem purgePort_port :
    (purgePort s).port = { s.port with
      tx := [], rx := [], statusDue := none, restartDue := some (s.time + Config.restartTime) } := rfl
@[simp] theorem purgePort_claims : (purgePort s).claims = s.claims := rfl
@[simp] theorem purgePort_blend : (purgePort s).blend = s.blend := rfl
@[simp] theorem purgePort_handler : (purgePort s).handler = s.handler := rfl
@[simp] theorem purgePort_journal : (purgePort s).journal = { s.journal with fetch := none } := rfl
@[simp] theorem purgePort_printer : (purgePort s).printer = s.printer := rfl
@[simp] theorem purgePort_freeIndex : (purgePort s).freeIndex = s.freeIndex := rfl
@[simp] theorem purgePort_pending : (purgePort s).pending = s.pending := rfl

/-! ### pushRx -/

@[simp] theorem pushRx_time (f : Frame) (rx : List RxEntry) : (pushRx f rx s).time = s.time := rfl
@[simp] theorem pushRx_cfg (f : Frame) (rx : List RxEntry) : (pushRx f rx s).cfg = s.cfg := rfl
@[simp] theorem pushRx_station (f : Frame) (rx : List RxEntry) : (pushRx f rx s).station = s.station := rfl
@[simp] theorem pushRx_pins (f : Frame) (rx : List RxEntry) : (pushRx f rx s).pins = s.pins := rfl
@[simp] theorem pushRx_inputs (f : Frame) (rx : List RxEntry) : (pushRx f rx s).inputs = s.inputs := rfl
@[simp] theorem pushRx_pulse (f : Frame) (rx : List RxEntry) : (pushRx f rx s).pulse = s.pulse := rfl
@[simp] theorem pushRx_engine (f : Frame) (rx : List RxEntry) : (pushRx f rx s).engine = s.engine := rfl
@[simp] theorem pushRx_draw (f : Frame) (rx : List RxEntry) : (pushRx f rx s).draw = s.draw := rfl
@[simp] theorem pushRx_valve (f : Frame) (rx : List RxEntry) : (pushRx f rx s).valve = s.valve := rfl
@[simp] theorem pushRx_port (f : Frame) (rx : List RxEntry) :
    (pushRx f rx s).port = { s.port with rx := rx ++ [.frame f s.time] } := rfl
@[simp] theorem pushRx_claims (f : Frame) (rx : List RxEntry) : (pushRx f rx s).claims = s.claims := rfl
@[simp] theorem pushRx_blend (f : Frame) (rx : List RxEntry) : (pushRx f rx s).blend = s.blend := rfl
@[simp] theorem pushRx_handler (f : Frame) (rx : List RxEntry) : (pushRx f rx s).handler = s.handler := rfl
@[simp] theorem pushRx_journal (f : Frame) (rx : List RxEntry) : (pushRx f rx s).journal = s.journal := rfl
@[simp] theorem pushRx_printer (f : Frame) (rx : List RxEntry) : (pushRx f rx s).printer = s.printer := rfl
@[simp] theorem pushRx_freeIndex (f : Frame) (rx : List RxEntry) : (pushRx f rx s).freeIndex = s.freeIndex := rfl
@[simp] theorem pushRx_pending (f : Frame) (rx : List RxEntry) : (pushRx f rx s).pending = s.pending := rfl

/-! ### setClock -/

@[simp] theorem setClock_time (v : Nat) : (setClock v s).time = s.time := rfl
@[simp] theorem setClock_cfg (v : Nat) : (setClock v s).cfg = s.cfg := rfl
@[simp] theorem setClock_station (v : Nat) : (setClock v s).station = s.station := rfl
@[simp] theorem setClock_pins (v : Nat) : (setClock v s).pins = s.pins := rfl
@[simp] theorem setClock_inputs (v : Nat) : (setClock v s).inputs = s.inputs := rfl
@[simp] theorem setClock_pulse (v : Nat) : (setClock v s).pulse = s.pulse := rfl
@[simp] theorem setClock_engine (v : Nat) : (setClock v s).engine = s.engine := rfl
@[simp] theorem setClock_draw (v : Nat) : (setClock v s).draw = s.draw := rfl
@[simp] theorem setClock_valve (v : Nat) : (setClock v s).valve = s.valve := rfl
@[simp] theorem setClock_port (v : Nat) :
    (setClock v s).port = { s.port with clock := some v, clockDue := some (s.time + 1000) } := rfl
@[simp] theorem setClock_claims (v : Nat) : (setClock v s).claims = s.claims := rfl
@[simp] theorem setClock_blend (v : Nat) : (setClock v s).blend = s.blend := rfl
@[simp] theorem setClock_handler (v : Nat) : (setClock v s).handler = s.handler := rfl
@[simp] theorem setClock_journal (v : Nat) : (setClock v s).journal = s.journal := rfl
@[simp] theorem setClock_printer (v : Nat) : (setClock v s).printer = s.printer := rfl
@[simp] theorem setClock_freeIndex (v : Nat) : (setClock v s).freeIndex = s.freeIndex := rfl
@[simp] theorem setClock_pending (v : Nat) : (setClock v s).pending = s.pending := rfl

/-! ### presetSelected -/

@[simp] theorem presetSelected_time (l : Option Nat) : (presetSelected l s).time = s.time := rfl
@[simp] theorem presetSelected_cfg (l : Option Nat) : (presetSelected l s).cfg = s.cfg := rfl
@[simp] theorem presetSelected_station (l : Option Nat) : (presetSelected l s).station = s.station := rfl
@[simp] theorem presetSelected_pins (l : Option Nat) : (presetSelected l s).pins = s.pins := rfl
@[simp] theorem presetSelected_inputs (l : Option Nat) : (presetSelected l s).inputs = s.inputs := rfl
@[simp] theorem presetSelected_pulse (l : Option Nat) : (presetSelected l s).pulse = s.pulse := rfl
@[simp] theorem presetSelected_engine (l : Option Nat) : (presetSelected l s).engine = s.engine := rfl
@[simp] theorem presetSelected_draw (l : Option Nat) :
    (presetSelected l s).draw = { s.draw with selection := s.draw.selection.map (fun sel => { sel with preset := l }) } := rfl
@[simp] theorem presetSelected_valve (l : Option Nat) : (presetSelected l s).valve = s.valve := rfl
@[simp] theorem presetSelected_port (l : Option Nat) : (presetSelected l s).port = s.port := rfl
@[simp] theorem presetSelected_claims (l : Option Nat) : (presetSelected l s).claims = s.claims := rfl
@[simp] theorem presetSelected_blend (l : Option Nat) : (presetSelected l s).blend = s.blend := rfl
@[simp] theorem presetSelected_handler (l : Option Nat) : (presetSelected l s).handler = s.handler := rfl
@[simp] theorem presetSelected_journal (l : Option Nat) : (presetSelected l s).journal = s.journal := rfl
@[simp] theorem presetSelected_printer (l : Option Nat) : (presetSelected l s).printer = s.printer := rfl
@[simp] theorem presetSelected_freeIndex (l : Option Nat) : (presetSelected l s).freeIndex = s.freeIndex := rfl
@[simp] theorem presetSelected_pending (l : Option Nat) : (presetSelected l s).pending = s.pending := rfl

/-! ### setProduct -/

@[simp] theorem setProduct_time (c p : Nat) : (setProduct c p s).time = s.time := rfl
@[simp] theorem setProduct_cfg (c p : Nat) : (setProduct c p s).cfg = s.cfg := rfl
@[simp] theorem setProduct_station (c p : Nat) : (setProduct c p s).station = s.station := rfl
@[simp] theorem setProduct_pins (c p : Nat) : (setProduct c p s).pins = s.pins := rfl
@[simp] theorem setProduct_inputs (c p : Nat) : (setProduct c p s).inputs = s.inputs := rfl
@[simp] theorem setProduct_pulse (c p : Nat) : (setProduct c p s).pulse = s.pulse := rfl
@[simp] theorem setProduct_engine (c p : Nat) : (setProduct c p s).engine = s.engine := rfl
@[simp] theorem setProduct_draw (c p : Nat) : (setProduct c p s).draw = s.draw := rfl
@[simp] theorem setProduct_valve (c p : Nat) : (setProduct c p s).valve = s.valve := rfl
@[simp] theorem setProduct_port (c p : Nat) : (setProduct c p s).port = s.port := rfl
@[simp] theorem setProduct_claims (c p : Nat) :
    (setProduct c p s).claims = { s.claims with
      products := s.claims.products.filter (fun x => x.1 != c) ++ (if p = 0 then [] else [(c, p)]) } := rfl
@[simp] theorem setProduct_blend (c p : Nat) : (setProduct c p s).blend = s.blend := rfl
@[simp] theorem setProduct_handler (c p : Nat) : (setProduct c p s).handler = s.handler := rfl
@[simp] theorem setProduct_journal (c p : Nat) : (setProduct c p s).journal = s.journal := rfl
@[simp] theorem setProduct_printer (c p : Nat) : (setProduct c p s).printer = s.printer := rfl
@[simp] theorem setProduct_freeIndex (c p : Nat) : (setProduct c p s).freeIndex = s.freeIndex := rfl
@[simp] theorem setProduct_pending (c p : Nat) : (setProduct c p s).pending = s.pending := rfl

/-! ### bind -/

@[simp] theorem bind_time (c : ClaimId) (p : ProductEntry) (sh : Nat) : (bind c p sh s).time = s.time := rfl
@[simp] theorem bind_cfg (c : ClaimId) (p : ProductEntry) (sh : Nat) : (bind c p sh s).cfg = s.cfg := rfl
@[simp] theorem bind_station (c : ClaimId) (p : ProductEntry) (sh : Nat) : (bind c p sh s).station = s.station := rfl
@[simp] theorem bind_pins (c : ClaimId) (p : ProductEntry) (sh : Nat) : (bind c p sh s).pins = s.pins := rfl
@[simp] theorem bind_inputs (c : ClaimId) (p : ProductEntry) (sh : Nat) : (bind c p sh s).inputs = s.inputs := rfl
@[simp] theorem bind_pulse (c : ClaimId) (p : ProductEntry) (sh : Nat) : (bind c p sh s).pulse = s.pulse := rfl
@[simp] theorem bind_engine (c : ClaimId) (p : ProductEntry) (sh : Nat) : (bind c p sh s).engine = s.engine := rfl
@[simp] theorem bind_draw (c : ClaimId) (p : ProductEntry) (sh : Nat) : (bind c p sh s).draw = s.draw := rfl
@[simp] theorem bind_valve (c : ClaimId) (p : ProductEntry) (sh : Nat) : (bind c p sh s).valve = s.valve := rfl
@[simp] theorem bind_port (c : ClaimId) (p : ProductEntry) (sh : Nat) : (bind c p sh s).port = s.port := rfl
@[simp] theorem bind_claims (c : ClaimId) (p : ProductEntry) (sh : Nat) : (bind c p sh s).claims = s.claims := rfl
@[simp] theorem bind_blend (c : ClaimId) (p : ProductEntry) (sh : Nat) :
    (bind c p sh s).blend = { s.blend with
      follower := .bound, binding := some ⟨c, c.station, p, sh, none, .empty, none⟩, endCode := none
      held := none } := rfl
@[simp] theorem bind_handler (c : ClaimId) (p : ProductEntry) (sh : Nat) : (bind c p sh s).handler = s.handler := rfl
@[simp] theorem bind_journal (c : ClaimId) (p : ProductEntry) (sh : Nat) : (bind c p sh s).journal = s.journal := rfl
@[simp] theorem bind_printer (c : ClaimId) (p : ProductEntry) (sh : Nat) : (bind c p sh s).printer = s.printer := rfl
@[simp] theorem bind_freeIndex (c : ClaimId) (p : ProductEntry) (sh : Nat) :
    (bind c p sh s).freeIndex = s.freeIndex := rfl
@[simp] theorem bind_pending (c : ClaimId) (p : ProductEntry) (sh : Nat) : (bind c p sh s).pending = s.pending := rfl

end Sys2Proof.Machine
end

