-- ==== Sys2Proof/Laws/Frames.lean ====
section
/-! SUPPORT. Which blocks of the state each shared operation can change: one lemma for each operation. A proof about a
command composes them with `OnlyChanges.comp` and reads a block off with `OnlyChanges.get`. -/

namespace Sys2Proof.Machine

set_option Elab.async false

variable {s t u : State} {bs cs ds : List Block}

/-! ### The calculus -/

@[refl] theorem OnlyChanges.refl (bs : List Block) (s : State) : OnlyChanges bs s s := by
  intro b _; cases b <;> rfl

theorem OnlyChanges.trans (h₁ : OnlyChanges bs s t) (h₂ : OnlyChanges bs t u) : OnlyChanges bs s u := by
  intro b hb
  have a := h₁ b hb
  have c := h₂ b hb
  cases b <;> exact c.trans a

theorem OnlyChanges.mono (h : OnlyChanges bs s t) (hs : ∀ b ∈ bs, b ∈ cs) : OnlyChanges cs s t :=
  fun b hb => h b fun hm => hb (hs b hm)

/-- Two changes one after the other, within a list that holds the blocks of both. -/
theorem OnlyChanges.comp (h₂ : OnlyChanges cs t u) (h₁ : OnlyChanges bs s t)
    (hb : ∀ b ∈ bs, b ∈ ds := by decide) (hc : ∀ b ∈ cs, b ∈ ds := by decide) : OnlyChanges ds s u :=
  (h₁.mono hb).trans (h₂.mono hc)

/-- A block outside the list, read off. -/
theorem OnlyChanges.get (h : OnlyChanges bs s t) (b : Block) (hb : b ∉ bs := by decide) : sameBlock s t b := h b hb

theorem OnlyChanges.ite {p : Prop} [Decidable p] (h₁ : OnlyChanges bs s t) (h₂ : OnlyChanges bs s u) :
    OnlyChanges bs s (if p then t else u) := by split <;> assumption

/-- Steps run over a list keep within the blocks of each. -/
theorem OnlyChanges.foldl {α : Type} (f : State → α → State) (hf : ∀ s x, OnlyChanges bs s (f s x)) (xs : List α)
    (s : State) : OnlyChanges bs s (xs.foldl f s) := by
  induction xs generalizing s with
  | nil => exact .refl _ _
  | cons x xs ih => exact (hf s x).trans (ih _)

/-! ### Updates of one block -/

theorem only_time (x) : OnlyChanges [.time] s { s with time := x } := by
  intro b hb; cases b <;> first | exact absurd (by decide) hb | rfl
theorem only_station (x) : OnlyChanges [.station] s { s with station := x } := by
  intro b hb; cases b <;> first | exact absurd (by decide) hb | rfl
theorem only_pins (x) : OnlyChanges [.pins] s { s with pins := x } := by
  intro b hb; cases b <;> first | exact absurd (by decide) hb | rfl
theorem only_inputs (x) : OnlyChanges [.inputs] s { s with inputs := x } := by
  intro b hb; cases b <;> first | exact absurd (by decide) hb | rfl
theorem only_pulse (x) : OnlyChanges [.pulse] s { s with pulse := x } := by
  intro b hb; cases b <;> first | exact absurd (by decide) hb | rfl
theorem only_engine (x) : OnlyChanges [.engine] s { s with engine := x } := by
  intro b hb; cases b <;> first | exact absurd (by decide) hb | rfl
theorem only_draw (x) : OnlyChanges [.draw] s { s with draw := x } := by
  intro b hb; cases b <;> first | exact absurd (by decide) hb | rfl
theorem only_valve (x) : OnlyChanges [.valve] s { s with valve := x } := by
  intro b hb; cases b <;> first | exact absurd (by decide) hb | rfl
theorem only_port (x) : OnlyChanges [.port] s { s with port := x } := by
  intro b hb; cases b <;> first | exact absurd (by decide) hb | rfl
theorem only_claims (x) : OnlyChanges [.claims] s { s with claims := x } := by
  intro b hb; cases b <;> first | exact absurd (by decide) hb | rfl
theorem only_blend (x) : OnlyChanges [.blend] s { s with blend := x } := by
  intro b hb; cases b <;> first | exact absurd (by decide) hb | rfl
theorem only_handler (x) : OnlyChanges [.handler] s { s with handler := x } := by
  intro b hb; cases b <;> first | exact absurd (by decide) hb | rfl
theorem only_journal (x) : OnlyChanges [.journal] s { s with journal := x } := by
  intro b hb; cases b <;> first | exact absurd (by decide) hb | rfl
theorem only_printer (x) : OnlyChanges [.printer] s { s with printer := x } := by
  intro b hb; cases b <;> first | exact absurd (by decide) hb | rfl
theorem only_freeIndex (x) : OnlyChanges [.freeIndex] s { s with freeIndex := x } := by
  intro b hb; cases b <;> first | exact absurd (by decide) hb | rfl

theorem only_pulse_engine (x y) : OnlyChanges [.pulse, .engine] s { s with pulse := x, engine := y } := by
  intro b hb; cases b <;> first | exact absurd (by decide) hb | rfl
theorem only_port_journal (x y) : OnlyChanges [.port, .journal] s { s with port := x, journal := y } := by
  intro b hb; cases b <;> first | exact absurd (by decide) hb | rfl
theorem only_draw_blend (x y) : OnlyChanges [.draw, .blend] s { s with draw := x, blend := y } := by
  intro b hb; cases b <;> first | exact absurd (by decide) hb | rfl
theorem only_inputs_valve (x y) : OnlyChanges [.inputs, .valve] s { s with inputs := x, valve := y } := by
  intro b hb; cases b <;> first | exact absurd (by decide) hb | rfl

/-! ### The line port -/

theorem abandonFetch_only (n : Nat) (s : State) : OnlyChanges [.port, .journal] s (abandonFetch n s) := by
  unfold abandonFetch
  split
  · split
    · exact only_port_journal _ _
    · exact .refl _ _
  · exact .refl _ _

theorem displaced_only (e : TxEntry) (s : State) : OnlyChanges [.port, .journal] s (displaced e s) := by
  unfold displaced
  split
  · exact abandonFetch_only _ _
  · exact .refl _ _

theorem handFrame_only (w : Sender) (f : Frame) (s : State) :
    OnlyChanges [.port, .journal] s (handFrame w f s).1 := by
  unfold handFrame
  split
  · split
    · exact (only_port _).mono (by decide)
    · split
      · split
        · exact (displaced_only _ _).comp (only_port _)
        · exact .refl _ _
      · exact .refl _ _
  · exact .refl _ _

/-- A frame of a kind that displaces nothing changes the line port alone (R97). -/
theorem handFrame_only_port (w : Sender) (f : Frame) (s : State) (h : isUrgent f = false) :
    OnlyChanges [.port] s (handFrame w f s).1 := by
  unfold handFrame
  rw [h]
  split
  · split
    · exact only_port _
    · exact .refl _ _
  · exact .refl _ _

theorem sendFrame_only (w : Sender) (f : Frame) (s : State) : OnlyChanges [.port, .journal] s (sendFrame w f s) :=
  handFrame_only w f s

theorem sendFrame_only_port (w : Sender) (f : Frame) (s : State) (h : isUrgent f = false) :
    OnlyChanges [.port] s (sendFrame w f s) := handFrame_only_port w f s h

theorem queueStat_only (s : State) : OnlyChanges [.port] s (queueStat s) := by
  unfold queueStat
  split
  · exact only_port _
  · exact only_port _
  · exact .refl _ _

/-- A STAT set touches the transmit queue and the status timer alone (R100). -/
theorem queueStat_port (s : State) : StatAlone s.port (queueStat s).port := by
  unfold queueStat StatAlone
  split <;> rfl

theorem announce_only (f : State → State) (s : State) (h : OnlyChanges bs s (f s)) :
    OnlyChanges (.port :: bs) s (announce f s) := by
  unfold announce
  simp only
  split
  · exact h.mono fun b hb => List.mem_cons_of_mem _ hb
  · exact (queueStat_only _).comp h (fun b hb => List.mem_cons_of_mem _ hb) (by simp)

theorem withdrawClaim_only (n : Nat) (s : State) : OnlyChanges [.port] s (withdrawClaim n s).1 := by
  unfold withdrawClaim
  simp only
  split
  · exact only_port _
  · exact .refl _ _

theorem refreshPeer_only (n a : Nat) (s : State) : OnlyChanges [.claims] s (refreshPeer n a s) := only_claims _

theorem modPeer_only (n : Nat) (f : Peer → Peer) (s : State) : OnlyChanges [.claims] s (modPeer n f s) := only_claims _

/-! ### The journal -/

theorem beginWrite_only (s : State) : OnlyChanges [.journal] s (beginWrite s) := by
  unfold beginWrite
  split
  · exact only_journal _
  · split
    · exact .refl _ _
    · exact only_journal _

theorem beginIfIdle_only (s : State) : OnlyChanges [.journal] s (beginIfIdle s) := by
  unfold beginIfIdle
  split
  · exact beginWrite_only s
  · exact .refl _ _

theorem handWork_only (w : Work) (s : State) : OnlyChanges [.journal] s (handWork w s) :=
  (beginIfIdle_only _).comp (only_journal _)

theorem joinUnticketed_only (ml : Int) (s : State) : OnlyChanges [.journal] s (joinUnticketed ml s) := only_journal _

/-- Handing a work leaves the journal memory as it was: only a completed write changes it (R175). -/
theorem beginIfIdle_mem (s : State) : (beginIfIdle s).journal.mem = s.journal.mem := by
  unfold beginIfIdle beginWrite
  split
  · split
    · rfl
    · split <;> rfl
  · rfl

theorem handWork_mem (w : Work) (s : State) : (handWork w s).journal.mem = s.journal.mem := by
  unfold handWork; rw [beginIfIdle_mem]

/-! ### The valve driver -/

theorem requestStage_only (o : Owner) (r : StageReq) (s : State) : OnlyChanges [.valve] s (requestStage o r s) := by
  unfold requestStage
  split
  · split
    · exact only_valve _
    · exact .refl _ _
  · exact .refl _ _

theorem setPumpNeeded_only (b : Bool) (s : State) : OnlyChanges [.valve] s (setPumpNeeded b s) := by
  unfold setPumpNeeded
  split
  · exact .refl _ _
  · exact only_valve _

theorem setCommands_only (s : State) : OnlyChanges [.valve] s (setCommands s) :=
  (setPumpNeeded_only _ _).comp (only_valve _)

/-! ### Metering -/

theorem clearContext_only (o : Owner) (p : Option ProductEntry) (v : Option Int) (sh : Option Nat) (s : State) :
    OnlyChanges [.engine] s (clearContext o p v sh s) := only_engine _

theorem meterVolumes_only (r : ProbeReading) (s : State) : OnlyChanges [.pulse, .engine] s (meterVolumes r s).1 :=
  only_pulse_engine _ _

theorem loadTarget_only (l : Option Point) (s : State) : OnlyChanges [.pulse] s (loadTarget l s).1 := by
  unfold loadTarget
  split
  · exact only_pulse _
  · split
    · exact only_pulse _
    · simp only
      split <;> exact only_pulse _

theorem evaluatePoints_only (s : State) : OnlyChanges [.pulse, .engine] s (evaluatePoints s).1 := by
  unfold evaluatePoints
  simp only
  exact (loadTarget_only _ _).comp (only_engine _)

theorem regularUpdate_only (r : ProbeReading) (s : State) : OnlyChanges [.pulse, .engine] s (regularUpdate r s).1 := by
  unfold regularUpdate
  simp only
  exact (evaluatePoints_only _).comp (meterVolumes_only r s)

theorem finalUpdate_only (s : State) : OnlyChanges [.pulse, .engine] s (finalUpdate s).1 :=
  only_pulse_engine _ _

theorem convertUnticketed_only (s : State) : OnlyChanges [.pulse, .journal] s (convertUnticketed s) := by
  unfold convertUnticketed
  simp only
  exact (joinUnticketed_only _ _).comp (only_pulse _)

theorem openSession_only (o : Owner) (s : State) : OnlyChanges [.pulse, .engine, .journal] s (openSession o s) := by
  have h : OnlyChanges [.pulse, .journal] s (beginIfIdle (convertUnticketed s)) :=
    (beginIfIdle_only _).comp (convertUnticketed_only s)
  simp only [openSession]
  exact OnlyChanges.comp (t := beginIfIdle (convertUnticketed s)) (only_pulse_engine _ _) h

theorem closeSession_only (s : State) : OnlyChanges [.pulse, .engine] s (closeSession s).1 := by
  simp only [closeSession]
  exact OnlyChanges.comp (t := (finalUpdate s).1) (only_pulse_engine _ _) (finalUpdate_only s)

/-! ### Answers -/

theorem answer_only (a : Asker) (ans : Answer) (s : State) : OnlyChanges [.port, .handler] s (answer a ans s) := by
  unfold answer
  have h : isUrgent (answerFrame s.station.number a ans) = false := by
    simp [isUrgent, answerFrame, kAnswer, kHalt, kClaim, kConsent, kRelease]
  have key : OnlyChanges [.handler] (sendFrame .handler (answerFrame s.station.number a ans) s)
      (settleEntry a (some ans) (sendFrame .handler (answerFrame s.station.number a ans) s)) := only_handler _
  exact key.comp (sendFrame_only_port _ _ _ h)

theorem settleDeferred_only (ans : Answer) (s : State) : OnlyChanges [.port, .handler] s (settleDeferred ans s) := by
  unfold settleDeferred
  split
  · exact (answer_only _ _ _).comp (only_handler _)
  · exact .refl _ _

theorem settleEntry_only (a : Asker) (ans : Option Answer) (s : State) : OnlyChanges [.handler] s (settleEntry a ans s) :=
  only_handler _

theorem abandonDeferred_only (s : State) : OnlyChanges [.handler] s (abandonDeferred s) := by
  unfold abandonDeferred
  split
  · exact (settleEntry_only _ _ _).comp (only_handler _)
  · exact .refl _ _

/-! ### The blend tracker -/

theorem sendLeadProg_only (final : Bool) (s : State) : OnlyChanges [.port] s (sendLeadProg final s) := by
  unfold sendLeadProg
  split
  · exact sendFrame_only_port _ _ _ (by simp [isUrgent, leadProgFrame, kProg, kHalt, kClaim, kConsent, kRelease])
  · exact .refl _ _

theorem sendFollowerProg_only (s : State) : OnlyChanges [.port] s (sendFollowerProg s) := by
  unfold sendFollowerProg
  split
  · exact sendFrame_only_port _ _ _ (by simp [isUrgent, followerProgFrame, kProg, kHalt, kClaim, kConsent, kRelease])
  · exact .refl _ _

theorem modBinding_only (f : Binding → Binding) (s : State) : OnlyChanges [.blend] s (modBinding f s) := only_blend _

theorem clearThrottle_only (s : State) : OnlyChanges [.blend] s (clearThrottle s) := only_blend _

theorem followerChanged_only (s : State) : OnlyChanges [.port, .journal] s (followerChanged s) :=
  (sendFollowerProg_only _).comp (handWork_only _ _)

theorem requestFollower_only (r : StageReq) (s : State) : OnlyChanges [.valve, .blend] s (requestFollower r s) := by
  unfold requestFollower
  simp only
  split
  · exact (only_blend _).comp (requestStage_only _ _ _)
  · exact (requestStage_only _ _ _).mono (by decide)

/-- The blocks that a move of the follower can change. -/
abbrev followBlocks : List Block := [.valve, .blend, .port, .journal]

theorem enterHold_only (s : State) : OnlyChanges followBlocks s (enterHold s) := by
  unfold enterHold
  exact (followerChanged_only _).comp ((requestFollower_only _ _).comp (only_blend _) (ds := [.valve, .blend]))

theorem raiseHold_only (r : HoldReason) (s : State) : OnlyChanges followBlocks s (raiseHold r s) := by
  unfold raiseHold
  split
  · exact (enterHold_only _).comp (modBinding_only _ _)
  · exact (enterHold_only _).comp (modBinding_only _ _)
  · exact (modBinding_only _ _).mono (by decide)
  · exact .refl _ _

theorem enterRun_only (s : State) : OnlyChanges followBlocks s (enterRun s) :=
  (followerChanged_only _).comp (only_blend _)

theorem leaveHold_only (s : State) : OnlyChanges followBlocks s (leaveHold s) := by
  unfold leaveHold
  split
  · split
    · split
      · exact (followerChanged_only _).comp (only_blend _)
      · split
        · exact enterRun_only s
        · exact .refl _ _
    · exact .refl _ _
  · exact .refl _ _

theorem dropHold_only (r : HoldReason) (s : State) : OnlyChanges followBlocks s (dropHold r s) := by
  unfold dropHold
  split
  · simp only
    split
    · exact (leaveHold_only _).comp (modBinding_only _ _)
    · exact (modBinding_only _ _).mono (by decide)
  · exact .refl _ _

theorem enterFClose_only (c : EndCode) (s : State) : OnlyChanges followBlocks s (enterFClose c s) := by
  unfold enterFClose
  exact (followerChanged_only _).comp
    ((requestFollower_only _ _).comp ((only_blend _).comp (modBinding_only _ _) (ds := [.blend])) (ds := [.valve, .blend]))

theorem enterTrim_only (s : State) : OnlyChanges followBlocks s (enterTrim s) := by
  unfold enterTrim
  refine (followerChanged_only _).comp (bs := [.valve, .blend]) ?_
  refine .ite ?_ ?_
  · exact (requestFollower_only _ _).comp ((only_blend _).comp (modBinding_only _ _) (ds := [.blend]))
  · exact (only_blend _).comp (modBinding_only _ _)

theorem enterFPrime_only (s : State) :
    OnlyChanges [.pulse, .engine, .valve, .blend, .port, .journal] s (enterFPrime s) := by
  unfold enterFPrime
  split
  · have h : ∀ x : State, OnlyChanges [.pulse, .engine, .valve, .blend, .port, .journal] x
        (if x.valve.halt = .clear then x else raiseHold .halt x) := fun x =>
      .ite (.refl _ _) ((raiseHold_only _ _).mono (by decide))
    refine (h _).comp (bs := [.pulse, .engine, .blend, .port, .journal]) ?_
    exact (followerChanged_only _).comp ((only_blend _).comp ((openSession_only _ _).comp (clearContext_only _ _ _ _ _)
      (ds := [.pulse, .engine, .journal])) (ds := [.pulse, .engine, .blend, .journal]))
  · exact .refl _ _

theorem bindingEnd_only (id : ClaimId) (s : State) : OnlyChanges followBlocks s (bindingEnd id s) := by
  unfold bindingEnd
  split
  · split
    · split
      · exact (only_blend _).mono (by decide)
      · exact enterFClose_only _ s
      · exact enterFClose_only _ s
      · exact enterFClose_only _ s
      · exact enterFClose_only _ s
      · exact .refl _ _
    · exact .refl _ _
  · exact .refl _ _

theorem discardHeld_only (p : HeldReport → Bool) (s : State) : OnlyChanges [.blend] s (discardHeld p s) := by
  unfold discardHeld
  split
  · split
    · exact only_blend _
    · exact .refl _ _
  · exact .refl _ _

theorem sendFinalReport_only (l q : Nat) (r : FinalReport) (s : State) :
    OnlyChanges [.port] s (sendFinalReport l q r s) := by
  unfold sendFinalReport
  exact (sendFrame_only_port _ _ _ (by simp [isUrgent, finalPart2Frame, kProg, kHalt, kClaim, kConsent, kRelease])).comp
    (sendFrame_only_port _ _ _ (by simp [isUrgent, finalPart1Frame, kProg, kHalt, kClaim, kConsent, kRelease]))

theorem dropPartnerRecord_only (id : ClaimId) (s : State) : OnlyChanges [.claims] s (dropPartnerRecord id s) :=
  only_claims _

theorem followerFinish_only (v : Bool) (s : State) :
    OnlyChanges [.pulse, .engine, .claims, .blend, .port, .journal] s (followerFinish v s) := by
  unfold followerFinish
  split
  · refine (only_blend _).comp (bs := [.pulse, .engine, .claims, .blend, .port, .journal]) ?_
    refine (dropPartnerRecord_only _ _).comp (bs := [.pulse, .engine, .blend, .port, .journal]) ?_
    refine (handWork_only _ _).comp (bs := [.pulse, .engine, .blend, .port, .journal]) ?_
    refine (sendFinalReport_only _ _ _ _).comp (bs := [.pulse, .engine, .blend, .journal]) ?_
    refine .ite ?_ ?_
    · exact (handWork_only _ _).comp ((closeSession_only _).comp (only_blend _) (ds := [.pulse, .engine, .blend]))
    · exact (closeSession_only _).comp (only_blend _)
  · exact .refl _ _

theorem followerPulseFault_only (s : State) :
    OnlyChanges [.valve, .claims, .blend, .port, .journal] s (followerPulseFault s) := by
  unfold followerPulseFault
  split
  · have h : ∀ (b : Binding), OnlyChanges [.valve, .claims, .blend, .port, .journal] s
        (enterFClose .pulseFault (dropPartnerRecord b.claim
          (sendFrame .blend (consentFrame s.station.number b.claim .partner (some .partnerEnded)) s))) := fun b =>
      (enterFClose_only _ _).comp ((dropPartnerRecord_only _ _).comp (sendFrame_only _ _ _)
        (ds := [.claims, .port, .journal]))
    split <;> first | exact h _ | exact .refl _ _
  · exact .refl _ _

/-! ### The draw controller -/

theorem modCurrent_only (f : Current → Current) (s : State) : OnlyChanges [.draw] s (modCurrent f s) := only_draw _

theorem drawChanged_only (s : State) : OnlyChanges [.port, .journal] s (drawChanged s) :=
  (sendLeadProg_only _ _).comp (handWork_only _ _)

theorem requestDraw_only (r : StageReq) (s : State) : OnlyChanges [.draw, .valve] s (requestDraw r s) :=
  (modCurrent_only _ _).comp (requestStage_only _ _ _)

theorem evaluateStage_only (s : State) : OnlyChanges [.draw, .valve] s (evaluateStage s) := by
  unfold evaluateStage
  split
  · simp only
    split <;> split <;> first | exact requestDraw_only _ _ | exact .refl _ _
  · exact .refl _ _

/-- The blocks that a move of the draw can change. -/
abbrev drawBlocks : List Block := [.draw, .valve, .blend, .port, .journal]

theorem enterFlowing_only (s : State) : OnlyChanges drawBlocks s (enterFlowing s) := by
  unfold enterFlowing
  exact (drawChanged_only _).comp ((evaluateStage_only _).comp ((only_draw _).comp
    ((modCurrent_only _ _).comp (clearThrottle_only _) (ds := [.draw, .blend])) (ds := [.draw, .blend]))
    (ds := [.draw, .valve, .blend]))

theorem enterPriming_only (s : State) :
    OnlyChanges [.pulse, .engine, .draw, .valve, .blend, .port, .journal] s (enterPriming s) := by
  unfold enterPriming
  have h : ∀ x : State, OnlyChanges [.pulse, .engine, .draw, .valve, .blend, .port, .journal] x
      (if s.cfg.primeTime = 0 then enterFlowing x else x) := fun x =>
    .ite ((enterFlowing_only _).mono (by decide)) (.refl _ _)
  refine (h _).comp (bs := [.pulse, .engine, .draw, .port, .journal]) ?_
  refine (sendLeadProg_only _ _).comp (bs := [.pulse, .engine, .draw, .journal]) ?_
  refine (handWork_only _ _).comp (bs := [.pulse, .engine, .draw, .journal]) ?_
  exact (openSession_only _ _).comp ((modCurrent_only _ _).comp (only_draw _) (ds := [.draw]))

theorem leaveFlow_only (d : DrawState) (f : Current → Current) (s : State) :
    OnlyChanges drawBlocks s (leaveFlow d f s) := by
  unfold leaveFlow
  exact (drawChanged_only _).comp ((requestDraw_only _ _).comp ((only_draw _).comp
    ((modCurrent_only _ _).comp (clearThrottle_only _) (ds := [.draw, .blend])) (ds := [.draw, .blend]))
    (ds := [.draw, .valve, .blend]))

theorem suspend_only (f : Causes → Causes) (s : State) : OnlyChanges drawBlocks s (suspend f s) := by
  unfold suspend
  split
  · exact leaveFlow_only _ _ _
  · exact leaveFlow_only _ _ _
  · exact (modCurrent_only _ _).mono (by decide)
  · exact .refl _ _

theorem clearCause_only (k : Cond) (s : State) : OnlyChanges [.draw] s (clearCause k s) := by
  unfold clearCause
  split
  · exact modCurrent_only _ _
  · exact .refl _ _

theorem enterClosing_only (e : Ending) (s : State) : OnlyChanges drawBlocks s (enterClosing e s) := by
  unfold enterClosing
  split
  · exact (only_blend _).comp (leaveFlow_only _ _ _)
  · exact .refl _ _

theorem returnToReady_only (s : State) : OnlyChanges [.draw, .blend] s (returnToReady s) := only_draw_blend _ _

theorem signalPoint_only (p : Point) (s : State) : OnlyChanges (.engine :: drawBlocks) s (signalPoint p s) := by
  unfold signalPoint
  split
  · exact (evaluateStage_only _).comp (only_engine _)
  · exact .ite ((enterClosing_only _ _).mono (by decide)) (.refl _ _)

theorem drawTempEvent_only (e : TempEvent) (s : State) : OnlyChanges drawBlocks s (drawTempEvent e s) := by
  unfold drawTempEvent
  split
  · exact suspend_only _ _
  · exact (clearCause_only _ _).mono (by decide)

theorem followerTempEvent_only (e : TempEvent) (s : State) : OnlyChanges followBlocks s (followerTempEvent e s) := by
  unfold followerTempEvent
  split
  · exact raiseHold_only _ _
  · exact dropHold_only _ _

theorem superviseOverspeed_only (s : State) : OnlyChanges drawBlocks s (superviseOverspeed s) := by
  unfold superviseOverspeed
  split
  · split
    · simp only
      split
      · exact (suspend_only _ _).comp (modCurrent_only _ _)
      · exact (modCurrent_only _ _).mono (by decide)
    · exact (modCurrent_only _ _).mono (by decide)
  · exact .refl _ _

theorem superviseReverse_only (s : State) : OnlyChanges drawBlocks s (superviseReverse s) := by
  unfold superviseReverse
  exact .ite (enterClosing_only _ _) (.refl _ _)

theorem followStage_only (s : State) : OnlyChanges followBlocks s (followStage s) := by
  unfold followStage
  split
  · simp only
    split
    · exact .refl _ _
    · exact (requestFollower_only _ _).mono (by decide)
  · split
    · exact enterFClose_only _ _
    · exact (requestFollower_only _ _).mono (by decide)
  · exact .refl _ _

theorem raisePulseFault_only (s : State) :
    OnlyChanges [.pulse, .draw, .valve, .claims, .blend, .port, .journal] s (raisePulseFault s) := by
  unfold raisePulseFault
  split
  · exact .refl _ _
  · simp only
    split
    · exact (enterClosing_only _ _).comp (only_pulse _)
    · exact (followerPulseFault_only _).comp (only_pulse _)
    · exact (only_pulse _).mono (by decide)

/-- Reactions in whichever order keep within the blocks of each, and take one free choice. -/
theorem runAnyOrder_only (rs : List (State → State)) (s : State) (h : ∀ r ∈ rs, ∀ x, OnlyChanges bs x (r x)) :
    OnlyChanges (.freeIndex :: bs) s (runAnyOrder rs s) := by
  have mem_pick : ∀ {α : Type} (n : Nat) (x : α) (xs : List α),
      (pick n x xs).1 ∈ x :: xs ∧ ∀ y ∈ (pick n x xs).2, y ∈ x :: xs := by
    intro α n x xs
    induction n, x, xs using pick.induct with
    | case1 x xs => simp [pick]; tauto
    | case2 n x => simp [pick]
    | case3 n x y ys ih =>
      simp only [pick]
      constructor
      · exact List.mem_cons_of_mem _ ih.1
      · intro z hz
        rcases List.mem_cons.1 hz with rfl | hz
        · exact List.mem_cons_self
        · exact List.mem_cons_of_mem _ (ih.2 z hz)
  have mem_arrange : ∀ {α : Type} (n c : Nat) (xs : List α), ∀ y ∈ arrange n c xs, y ∈ xs := by
    intro α n
    induction n with
    | zero => intro c xs y hy; simpa [arrange] using hy
    | succ n ih =>
      intro c xs y hy
      match xs with
      | [] => simp [arrange] at hy
      | [x] => simpa [arrange] using hy
      | x :: z :: zs =>
        simp only [arrange] at hy
        rcases List.mem_cons.1 hy with rfl | hy
        · exact (mem_pick _ _ _).1
        · exact (mem_pick _ _ _).2 _ (ih _ _ _ hy)
  have fold : ∀ (l : List (State → State)), (∀ r ∈ l, r ∈ rs) → ∀ x, OnlyChanges bs x (l.foldl (fun t f => f t) x) := by
    intro l
    induction l with
    | nil => intro _ x; exact .refl _ _
    | cons r l ih =>
      intro hl x
      exact (h r (hl r List.mem_cons_self) x).trans (ih (fun q hq => hl q (List.mem_cons_of_mem _ hq)) _)
  unfold runAnyOrder
  exact (fold _ (fun r hr => mem_arrange _ _ _ r hr) _).comp (only_freeIndex _) (by simp)
    (fun b hb => List.mem_cons_of_mem _ hb)

/-! ### The claim unit -/

theorem modOwn_only (f : OwnClaim → OwnClaim) (s : State) : OnlyChanges [.claims] s (modOwn f s) := only_claims _

theorem dropRecords_only (id : ClaimId) (s : State) : OnlyChanges [.valve, .claims] s (dropRecords id s) :=
  (setCommands_only _).comp (only_claims _)

theorem addRecord_only (r : Resource) (id : ClaimId) (s : State) : OnlyChanges [.valve, .claims] s (addRecord r id s) :=
  (setCommands_only _).comp (only_claims _)

/-- The blocks that the end of a claim can change. -/
abbrev claimBlocks : List Block := [.valve, .claims, .port, .journal]

theorem releaseOwn_only (s : State) : OnlyChanges claimBlocks s (releaseOwn s) := by
  unfold releaseOwn
  split
  · exact (only_claims _).comp ((dropRecords_only _ _).comp (sendFrame_only _ _ _) (ds := claimBlocks))
  · exact .refl _ _

theorem withdrawOwn_only (s : State) : OnlyChanges [.claims, .port] s (withdrawOwn s) := by
  unfold withdrawOwn
  split
  · exact (only_claims _).comp (withdrawClaim_only _ _)
  · exact .refl _ _

/-- The blocks that a move of the own claim can change. -/
abbrev ownBlocks : List Block := [.pulse, .engine, .draw, .valve, .port, .claims, .blend, .handler, .journal]

theorem endClaiming_only (ans : Answer) (s : State) :
    OnlyChanges [.draw, .valve, .port, .claims, .blend, .handler, .journal] s (endClaiming ans s) := by
  unfold endClaiming
  split
  · refine (settleDeferred_only _ _).comp (bs := [.draw, .valve, .port, .claims, .blend, .journal]) ?_
    refine (returnToReady_only _).comp (bs := claimBlocks) ?_
    exact .ite ((withdrawOwn_only _).mono (by decide)) (releaseOwn_only _)
  · exact .refl _ _

theorem revokeOwn_only (s : State) :
    OnlyChanges [.draw, .valve, .port, .claims, .blend, .journal] s (revokeOwn s) :=
  (enterClosing_only _ _).comp (releaseOwn_only _)

theorem refusedOwn_only (n r : Nat) (s : State) :
    OnlyChanges [.draw, .valve, .port, .claims, .blend, .handler, .journal] s (refusedOwn n r s) := by
  unfold refusedOwn
  split
  · split
    · exact .refl _ _
    · exact endClaiming_only _ _
    · exact (revokeOwn_only _).mono (by decide)
  · exact .refl _ _

theorem settleConsent_only (s : State) : OnlyChanges ownBlocks s (settleConsent s) := by
  unfold settleConsent
  split
  · split
    · exact .refl _ _
    · split
      · exact (settleDeferred_only _ _).comp ((enterPriming_only _).comp (modOwn_only _ _)
          (ds := [.pulse, .engine, .draw, .valve, .blend, .port, .journal, .claims]))
      · exact .refl _ _
    · split
      · have h : ∀ x : State, OnlyChanges [.draw] x (clearCause .lineLost (clearCause .ownerSilent x)) := fun x =>
          (clearCause_only _ _).comp (clearCause_only _ _)
        simp only
        split <;> split <;>
          first
          | exact ((clearCause_only _ _).comp (h _) (ds := [.draw])).mono (by decide)
          | exact (h _).mono (by decide)
          | exact (clearCause_only _ _).mono (by decide)
          | exact .refl _ _
      · exact .refl _ _
  · exact .refl _ _

theorem sendConsent_only (id : ClaimId) (r : Resource) (x : Option Reason) (s : State) :
    OnlyChanges [.port, .journal] s (sendConsent id r x s) := sendFrame_only _ _ _

theorem countConsented_only (x : Subject) (n : Nat) (s : State) : OnlyChanges [.claims] s (countConsented x n s) := by
  unfold countConsented
  exact .ite (.refl _ _) (modPeer_only _ _ _)

theorem setPumpPending_only (x : Subject) (on : Bool) (s : State) : OnlyChanges [.claims] s (setPumpPending x on s) := by
  unfold setPumpPending
  exact .ite (modOwn_only _ _) (modPeer_only _ _ _)

theorem ownGranted_only (x : Subject) (r : Resource) (s : State) : OnlyChanges [.claims] s (ownGranted x r s) := by
  unfold ownGranted
  exact .ite (modOwn_only _ _) (.refl _ _)

theorem grant_only (x : Subject) (r : Resource) (s : State) : OnlyChanges claimBlocks s (grant x r s) := by
  have h : OnlyChanges claimBlocks s (ownGranted x r (sendConsent x.claim.id r none (addRecord r x.claim.id s))) :=
    (ownGranted_only _ _ _).comp ((sendConsent_only _ _ _ _).comp (addRecord_only _ _ _) (ds := claimBlocks))
  unfold grant
  simp only
  split
  · exact (countConsented_only _ _ _).comp h
  · exact h

theorem pumpVerdict_only (x : Subject) (m : Manifold) (s : State) : OnlyChanges claimBlocks s (pumpVerdict x m s).1 := by
  unfold pumpVerdict
  simp only
  split
  · exact (sendConsent_only _ _ _ _).comp (setPumpPending_only _ _ _)
  · exact (grant_only _ _ _).comp (setPumpPending_only _ _ _)

theorem bind_only (c : ClaimId) (p : ProductEntry) (sh : Nat) (s : State) : OnlyChanges [.blend] s (bind c p sh s) :=
  only_blend _

/-- The blocks that a judgement can change. -/
abbrev judgeBlocks : List Block := [.valve, .claims, .blend, .port, .journal]

theorem judgeResource_only (x : Subject) (r : Resource) (s : State) :
    OnlyChanges judgeBlocks s (judgeResource x r s).1 := by
  unfold judgeResource
  split
  · exact (sendConsent_only _ _ _ _).mono (by decide)
  · split
    · exact (grant_only _ _ _).mono (by decide)
    · split
      · exact (pumpVerdict_only _ _ _).mono (by decide)
      · exact (setPumpPending_only _ _ _).mono (by decide)
    · split
      · exact (sendConsent_only _ _ _ _).mono (by decide)
      · exact (bind_only _ _ _ _).comp (grant_only _ _ _)

theorem judgeAll_only (x : Subject) (rs : List Resource) (s : State) :
    OnlyChanges judgeBlocks s (judgeAll x rs s).1 := by
  induction rs generalizing s with
  | nil => exact .refl _ _
  | cons r rs ih => exact (judgeResource_only x r s).trans (ih _)

theorem concludeOwn_only (x : OwnRefusal) (s : State) : OnlyChanges ownBlocks s (concludeOwn x s) := by
  unfold concludeOwn
  split
  · exact (refusedOwn_only _ _ _).mono (by decide)
  · exact settleConsent_only _

theorem judgeOwn_only (s : State) : OnlyChanges ownBlocks s (judgeOwn s) := by
  unfold judgeOwn
  split
  · exact (concludeOwn_only _ _).comp ((judgeAll_only _ _ _).comp ((modOwn_only _ _).comp (only_claims _)
      (ds := [.claims])) (ds := judgeBlocks))
  · exact .refl _ _

theorem settleOwnPump_only (s : State) : OnlyChanges ownBlocks s (settleOwnPump s) := by
  unfold settleOwnPump
  split
  · simp only
    split
    · exact (concludeOwn_only _ _).comp (pumpVerdict_only _ _ _)
    · exact .refl _ _
  · exact .refl _ _

theorem settlePeerPump_only (n : Nat) (s : State) : OnlyChanges claimBlocks s (settlePeerPump n s) := by
  unfold settlePeerPump
  split
  · simp only
    exact .ite (pumpVerdict_only _ _ _) (.refl _ _)
  · exact .refl _ _

theorem judgePeer_only (d : Bool) (n : Nat) (rs : List Resource) (s : State) :
    OnlyChanges judgeBlocks s (judgePeer d n rs s) := by
  unfold judgePeer
  split
  · exact judgeAll_only _ _ _
  · exact .refl _ _

theorem endPeerClaim_only (n : Nat) (s : State) : OnlyChanges judgeBlocks s (endPeerClaim n s) := by
  unfold endPeerClaim
  split
  · exact (bindingEnd_only _ _).comp ((dropRecords_only _ _).comp (modPeer_only _ _ _) (ds := [.valve, .claims]))
  · exact .refl _ _

theorem enterClaim_only (c : Claim) (p : Bool) (s : State) : OnlyChanges judgeBlocks s (enterClaim c p s) := by
  unfold enterClaim
  exact (modPeer_only _ _ _).comp
    ((only_claims _).comp (announce_only (bs := judgeBlocks) _ _ (endPeerClaim_only _ _)) (ds := judgeBlocks))

theorem yieldTo_only (c : Claim) (s : State) :
    OnlyChanges [.draw, .valve, .port, .claims, .blend, .handler, .journal] s (yieldTo c s) := by
  unfold yieldTo
  split
  · exact .ite (endClaiming_only _ _) (.refl _ _)
  · exact .refl _ _

theorem judgePendingOf_only (n : Nat) (s : State) : OnlyChanges judgeBlocks s (judgePendingOf n s) := by
  unfold judgePendingOf
  split
  · simp only
    split
    · exact (judgePeer_only _ _ _ _).comp ((modPeer_only _ _ _).comp (only_claims _) (ds := [.claims]))
    · exact .refl _ _
  · exact .refl _ _

theorem judgePending_only (s : State) : OnlyChanges ownBlocks s (judgePending s) := by
  unfold judgePending
  simp only
  have h := OnlyChanges.foldl (fun s n => judgePendingOf n s) (fun s n => judgePendingOf_only n s) (pendingStations s) s
  split
  · split
    · exact (judgeOwn_only _).comp h
    · exact h.mono (by decide)
  · exact h.mono (by decide)

theorem enterRebuild_only (s : State) :
    OnlyChanges [.draw, .valve, .port, .claims, .blend, .handler, .journal] s (enterRebuild s) := by
  unfold enterRebuild
  simp only
  split
  · split
    · exact (endClaiming_only _ _).comp (only_claims _)
    · exact (only_claims _).mono (by decide)
  · exact (only_claims _).mono (by decide)

/-! ### Closing, halt and the line -/

theorem completeItem_only (sel : Selection) (c : Current) (f : FinalValues) (p : Option BlendPart) (s : State) :
    OnlyChanges [.draw, .blend, .journal] s (completeItem sel c f p s) := by
  unfold completeItem
  exact (only_draw_blend _ _).comp (handWork_only _ _)

/-- The blocks that the end of a draw can change. -/
abbrev closeBlocks : List Block := [.draw, .valve, .port, .claims, .blend, .journal]

theorem tryAssemble_only (s : State) : OnlyChanges closeBlocks s (tryAssemble s) := by
  unfold tryAssemble
  split
  · split
    · split
      · exact (releaseOwn_only _).comp (completeItem_only _ _ _ _ _)
      · exact .refl _ _
    · exact .refl _ _
  · exact .refl _ _

theorem finishClosing_only (v : Bool) (s : State) :
    OnlyChanges [.pulse, .engine, .draw, .valve, .port, .claims, .blend, .journal] s (finishClosing v s) := by
  have h₁ : ∀ f, OnlyChanges [.pulse, .engine, .draw] s (closeSession (modCurrent f s)).1 := fun f =>
    (closeSession_only _).comp (modCurrent_only f s)
  have h₂ : ∀ (x : State) (g : Current → Current) (p : Bool), OnlyChanges [.pulse, .engine, .draw] s x →
      OnlyChanges [.pulse, .engine, .draw, .port, .journal] s
        (sendLeadProg true (if p = true then checkpoint (modCurrent g x) else modCurrent g x)) := by
    intro x g p hx
    refine (sendLeadProg_only _ _).comp (bs := [.pulse, .engine, .draw, .journal]) ?_
    have hg : OnlyChanges [.pulse, .engine, .draw] s (modCurrent g x) := (modCurrent_only _ _).comp hx
    exact .ite ((handWork_only _ _).comp hg) (hg.mono (by decide))
  unfold finishClosing
  simp only
  split
  · split
    · exact (completeItem_only _ _ _ _ _).comp ((releaseOwn_only _).comp (h₂ _ _ _ (h₁ _))
        (ds := [.pulse, .engine, .draw, .valve, .port, .claims, .journal]))
    · exact (tryAssemble_only _).comp ((modCurrent_only _ _).comp (h₂ _ _ _ (h₁ _))
        (ds := [.pulse, .engine, .draw, .port, .journal]))
  · exact (h₂ _ _ _ (h₁ _)).mono (by decide)

/-- The blocks that a move of the halt state can change. -/
abbrev haltBlocks : List Block := [.draw, .valve, .port, .claims, .blend, .handler, .journal]

theorem haltBegins_only (s : State) : OnlyChanges haltBlocks s (haltBegins s) := by
  unfold haltBegins
  refine (raiseHold_only _ _).comp (bs := haltBlocks) ?_
  refine .ite ?_ ?_
  · exact (endClaiming_only _ _).comp (only_valve _)
  · exact (suspend_only _ _).comp (only_valve _)

theorem haltEnds_only (s : State) : OnlyChanges haltBlocks s (haltEnds s) := by
  unfold haltEnds
  exact (dropHold_only _ _).comp ((clearCause_only _ _).comp (only_valve _) (ds := [.draw, .valve]))

theorem setHalt_only (h : HaltState) (s : State) : OnlyChanges haltBlocks s (setHalt h s) := by
  unfold setHalt
  simp only
  split
  · exact (haltBegins_only _).comp (only_valve _)
  · split
    · exact (haltEnds_only _).comp (only_valve _)
    · exact (only_valve _).mono (by decide)

theorem sourceQuiet_only (s : State) : OnlyChanges haltBlocks s (sourceQuiet s) := by
  unfold sourceQuiet
  split
  · split <;> exact setHalt_only _ _
  · exact .refl _ _

theorem sendHalt_only (s : State) : OnlyChanges [.port, .journal] s (sendHalt s) := sendFrame_only _ _ _

theorem localHalt_only (s : State) : OnlyChanges (.inputs :: haltBlocks) s (localHalt s) := by
  unfold localHalt
  exact (setHalt_only _ _).comp ((sendHalt_only _).comp (only_inputs_valve _ _)
    (ds := [.inputs, .valve, .port, .journal]))

theorem hearHalt_only (s : State) : OnlyChanges haltBlocks s (hearHalt s) :=
  (setHalt_only _ _).comp (only_valve _)

theorem claimsLost_only (s : State) : OnlyChanges [.valve, .claims] s (claimsLost s) :=
  (setCommands_only _).comp (only_claims _)

theorem bindingLost_only (s : State) : OnlyChanges followBlocks s (bindingLost s) := by
  unfold bindingLost
  split
  · exact bindingEnd_only _ _
  · exact .refl _ _

theorem drawLost_only (s : State) : OnlyChanges [.draw, .valve, .blend, .port, .handler, .journal] s (drawLost s) := by
  unfold drawLost
  exact .ite ((abandonDeferred_only _).comp (returnToReady_only _)) ((suspend_only _ _).mono (by decide))

theorem purgePort_only (s : State) : OnlyChanges [.port, .journal] s (purgePort s) := only_port_journal _ _

theorem enterLineLost_only (s : State) : OnlyChanges (.station :: haltBlocks) s (enterLineLost s) := by
  unfold enterLineLost
  refine (drawLost_only _).comp (bs := .station :: haltBlocks) ?_
  refine (bindingLost_only _).comp (bs := [.station, .valve, .port, .claims, .journal]) ?_
  refine (claimsLost_only _).comp (bs := [.station, .valve, .port, .journal]) ?_
  exact (only_valve _).comp ((purgePort_only _).comp (only_station _) (ds := [.station, .port, .journal]))

theorem enterRunning_only (s : State) : OnlyChanges (.station :: ownBlocks) s (enterRunning s) := by
  unfold enterRunning
  simp only
  have h₁ : OnlyChanges (.station :: ownBlocks) s
      (queueStat { s with station := { s.station with state := .running, quietDue := none } }) :=
    (queueStat_only _).comp (only_station _)
  have h₂ : ∀ x : State, OnlyChanges ownBlocks x (if x.claims.rebuildDue.isSome then x else judgePending x) := fun x =>
    .ite (.refl _ _) (judgePending_only _)
  have h₃ := (settleConsent_only _).comp ((h₂ _).comp h₁ (ds := .station :: ownBlocks)) (ds := .station :: ownBlocks)
  refine .ite ?_ h₃
  exact (sendHalt_only _).comp ((only_valve _).comp h₃ (ds := .station :: ownBlocks))

/-! ### Requests and the printer -/

theorem handSegment_only (s : State) : OnlyChanges [.port, .journal] s (handSegment s) := by
  unfold handSegment
  split
  · split
    · simp only
      split
      · exact (only_journal _).comp (handFrame_only _ _ _)
      · exact abandonFetch_only _ _
    · exact .refl _ _
  · exact .refl _ _

theorem segmentSent_only (n : Nat) (s : State) : OnlyChanges [.port, .journal] s (segmentSent n s) := by
  unfold segmentSent
  split
  · simp only
    split
    · split
      · exact (handSegment_only _).comp (only_journal _)
      · split
        · exact (only_journal _).comp (only_journal _) (bs := [.journal])
        · exact (only_journal _).mono (by decide)
    · exact .refl _ _
  · exact .refl _ _

theorem beginFetch_only (n : Nat) (t : Ticket) (s : State) : OnlyChanges [.port, .journal] s (beginFetch n t s) :=
  (handSegment_only _).comp ((handSegment_only _).comp (only_journal _) (ds := [.port, .journal]))

theorem serveJournal_only (a : Asker) (r : Request) (s : State) :
    OnlyChanges [.pulse, .draw, .port, .handler, .journal] s (serveJournal a r s) := by
  have ans : ∀ (x : Answer) (y : State), OnlyChanges [.pulse, .draw, .port, .handler, .journal] y (answer a x y) :=
    fun x y => (answer_only _ _ _).mono (by decide)
  unfold serveJournal
  split
  · unfold serveOpenDrop
    split
    · exact ans _ _
    · exact (ans _ _).comp ((only_draw _).comp ((handWork_only _ _).comp (convertUnticketed_only _)
        (ds := [.pulse, .journal])) (ds := [.pulse, .draw, .journal]))
  · unfold serveCloseDrop
    split
    · exact (ans _ _).comp ((only_draw _).comp (handWork_only _ _) (ds := [.draw, .journal]))
    · exact ans _ _
  · unfold serveAckTicket
    split
    · exact ans _ _
    · split
      · exact ans _ _
      · exact ans _ _
      · exact (ans _ _).comp (.ite (.refl _ _) (handWork_only _ _))
  · unfold serveFetchTicket
    split
    · exact ans _ _
    · exact .ite (ans _ _) ((beginFetch_only _ _ _).comp (answer_only _ _ _))
  · exact ans _ _
  · exact .refl _ _

theorem askJournal_only (a : Asker) (r : Request) (s : State) :
    OnlyChanges [.pulse, .draw, .port, .handler, .journal] s (askJournal a r s) := by
  unfold askJournal
  exact .ite (serveJournal_only _ _ _) ((only_handler _).mono (by decide))

theorem startJob_only (s : State) : OnlyChanges [.printer] s (startJob s) := by
  unfold startJob
  split
  · split
    · exact only_printer _
    · exact .refl _ _
  · exact .refl _ _

theorem addJob_only (j : Job) (s : State) : OnlyChanges [.printer] s (addJob j s) :=
  (startJob_only _).comp (only_printer _)

theorem leaveJob_only (s : State) : OnlyChanges [.printer] s (leaveJob s) := (startJob_only _).comp (only_printer _)

theorem completeJob_only (s : State) : OnlyChanges [.printer, .journal] s (completeJob s) := by
  unfold completeJob
  split
  · exact (leaveJob_only _).comp ((only_printer _).comp (handWork_only _ _) (ds := [.printer, .journal]))
  · exact (leaveJob_only _).mono (by decide)

theorem characterDone_only (s : State) : OnlyChanges [.printer, .journal] s (characterDone s) := by
  have p : ∀ (x y : Printer), OnlyChanges [.printer, .journal] s
      { ({ s with printer := x } : State) with printer := y } := fun x y => (only_printer _).mono (by decide)
  have q : ∀ (x : Printer), OnlyChanges [.printer, .journal] s { s with printer := x } := fun x =>
    (only_printer _).mono (by decide)
  unfold characterDone
  split
  · exact .refl _ _
  · simp only
    split
    · exact q _
    · exact .ite ((completeJob_only _).comp (q _)) (p _ _)
    · exact .ite ((completeJob_only _).comp (q _)) (q _)
    · exact (leaveJob_only _).comp (q _)
    · exact .ite ((leaveJob_only _).comp (q _)) (p _ _)

theorem setGo_only (go : Bool) (s : State) : OnlyChanges [.printer] s (setGo go s) := by
  unfold setGo
  exact .ite (.refl _ _) (only_printer _)

theorem abortJob_only (s : State) : OnlyChanges [.printer] s (abortJob s) := by
  unfold abortJob
  split
  · exact only_printer _
  · exact .refl _ _

theorem endTrailer_only (s : State) : OnlyChanges [.printer] s (endTrailer s) := by
  unfold endTrailer
  exact .ite (only_printer _) ((leaveJob_only _).comp (only_printer _))

theorem autoPrint_only (c : Change) (s : State) : OnlyChanges [.printer] s (autoPrint c s) := by
  unfold autoPrint
  split
  · exact .ite (addJob_only _ _) (.refl _ _)
  · exact .refl _ _

end Sys2Proof.Machine
end

