-- ==== Sys2Proof/Laws/Steps.lean ====
section
/-! SUPPORT. The form of a step seen from outside: what `announce` leaves of each field, and when the forms of
Machine/Ops.lean answer which next state. -/

namespace Sys2Proof.Machine

set_option Elab.async false

variable (f : State → State) (s : State)

/-! ### A STAT set changes the line port alone -/

@[simp] theorem queueStat_time : (queueStat s).time = s.time := (queueStat_only s).get .time
@[simp] theorem queueStat_cfg : (queueStat s).cfg = s.cfg := (queueStat_only s).get .cfg
@[simp] theorem queueStat_station : (queueStat s).station = s.station := (queueStat_only s).get .station
@[simp] theorem queueStat_pins : (queueStat s).pins = s.pins := (queueStat_only s).get .pins
@[simp] theorem queueStat_inputs : (queueStat s).inputs = s.inputs := (queueStat_only s).get .inputs
@[simp] theorem queueStat_pulse : (queueStat s).pulse = s.pulse := (queueStat_only s).get .pulse
@[simp] theorem queueStat_engine : (queueStat s).engine = s.engine := (queueStat_only s).get .engine
@[simp] theorem queueStat_draw : (queueStat s).draw = s.draw := (queueStat_only s).get .draw
@[simp] theorem queueStat_valve : (queueStat s).valve = s.valve := (queueStat_only s).get .valve
@[simp] theorem queueStat_claims : (queueStat s).claims = s.claims := (queueStat_only s).get .claims
@[simp] theorem queueStat_blend : (queueStat s).blend = s.blend := (queueStat_only s).get .blend
@[simp] theorem queueStat_handler : (queueStat s).handler = s.handler := (queueStat_only s).get .handler
@[simp] theorem queueStat_journal : (queueStat s).journal = s.journal := (queueStat_only s).get .journal
@[simp] theorem queueStat_printer : (queueStat s).printer = s.printer := (queueStat_only s).get .printer
@[simp] theorem queueStat_freeIndex : (queueStat s).freeIndex = s.freeIndex := (queueStat_only s).get .freeIndex
@[simp] theorem queueStat_pending : (queueStat s).pending = s.pending := (queueStat_only s).get .pending

/-! ### A step keeps what its part left, but for the line port -/

@[simp] theorem announce_time : (announce f s).time = (f s).time := by
  unfold announce; simp only; split <;> simp

@[simp] theorem announce_cfg : (announce f s).cfg = (f s).cfg := by
  unfold announce; simp only; split <;> simp

@[simp] theorem announce_station : (announce f s).station = (f s).station := by
  unfold announce; simp only; split <;> simp

@[simp] theorem announce_pins : (announce f s).pins = (f s).pins := by
  unfold announce; simp only; split <;> simp

@[simp] theorem announce_inputs : (announce f s).inputs = (f s).inputs := by
  unfold announce; simp only; split <;> simp

@[simp] theorem announce_pulse : (announce f s).pulse = (f s).pulse := by
  unfold announce; simp only; split <;> simp

@[simp] theorem announce_engine : (announce f s).engine = (f s).engine := by
  unfold announce; simp only; split <;> simp

@[simp] theorem announce_draw : (announce f s).draw = (f s).draw := by
  unfold announce; simp only; split <;> simp

@[simp] theorem announce_valve : (announce f s).valve = (f s).valve := by
  unfold announce; simp only; split <;> simp

@[simp] theorem announce_claims : (announce f s).claims = (f s).claims := by
  unfold announce; simp only; split <;> simp

@[simp] theorem announce_blend : (announce f s).blend = (f s).blend := by
  unfold announce; simp only; split <;> simp

@[simp] theorem announce_handler : (announce f s).handler = (f s).handler := by
  unfold announce; simp only; split <;> simp

@[simp] theorem announce_journal : (announce f s).journal = (f s).journal := by
  unfold announce; simp only; split <;> simp

@[simp] theorem announce_printer : (announce f s).printer = (f s).printer := by
  unfold announce; simp only; split <;> simp

@[simp] theorem announce_freeIndex : (announce f s).freeIndex = (f s).freeIndex := by
  unfold announce; simp only; split <;> simp

@[simp] theorem announce_pending : (announce f s).pending = (f s).pending := by
  unfold announce; simp only; split <;> simp

/-- The line port after a step is that of its part, but for a STAT set (R100). -/
theorem announce_port : StatAlone (f s).port (announce f s).port := by
  unfold announce
  simp only
  split
  · rfl
  · exact queueStat_port _

/-- A step that changes no state field of page 0 queues no STAT set. -/
theorem announce_same (h : page0State (f s) = page0State s) : announce f s = f s := by
  simp only [announce, h, if_true]

/-- A step that changes a state field of page 0 queues a STAT set. -/
theorem announce_changed (h : page0State (f s) ≠ page0State s) : announce f s = queueStat (f s) := by
  simp only [announce, h, if_false]

/-! ### The forms of a step -/

theorem stepOf_next (h : s.station.state ≠ .powerDown) : stepOf f s = .next (announce f s) := by
  simp only [stepOf, h, if_false]

theorem stepWhenOperating_next (h : operating s = true) : stepWhenOperating f s = .next (announce f s) := by
  simp only [stepWhenOperating, h, if_true]

/-- An operating station is not in POWER_DOWN. -/
theorem not_powerDown_of_operating (h : operating s = true) : s.station.state ≠ .powerDown := by
  intro hp; simp [operating, hp] at h

theorem stepAtExpiry_next (timer : State → Option Nat) (due : Nat) (h : s.station.state ≠ .powerDown)
    (ht : timer s = some due) :
    stepAtExpiry timer f s = .next (announce (fun s => f (passTo due s)) s) := by
  simp only [stepAtExpiry, ht, stepOf, h, if_false]

/-- A timer that does not run: its command changes nothing. -/
theorem stepAtExpiry_none (timer : State → Option Nat) (ht : timer s = none) : stepAtExpiry timer f s = .next s := by
  simp only [stepAtExpiry, ht]

/-- Every command answers a next state: none faults and none is refused. -/
theorem exec_next (i : Instr) (s : State) : ∃ t, exec i s = .next t := by
  have h₁ : ∀ (f : State → State) (s : State), ∃ t, stepOf f s = .next t := by
    intro f s; unfold stepOf; split <;> exact ⟨_, rfl⟩
  have h₂ : ∀ (f : State → State) (s : State), ∃ t, stepWhenOperating f s = .next t := by
    intro f s; unfold stepWhenOperating; split <;> exact ⟨_, rfl⟩
  have h₃ : ∀ (d : State → Option Nat) (f : State → State) (s : State), ∃ t, stepAtExpiry d f s = .next t := by
    intro d f s; unfold stepAtExpiry; split
    · exact h₁ _ _
    · exact ⟨_, rfl⟩
  cases i <;>
    first
    | exact h₁ _ _
    | exact h₂ _ _
    | exact h₃ _ _ _
    | exact ⟨_, rfl⟩
    | (simp only [exec, execHaltRepeat, execProbeReading, execMeteringUpdate, execConversionTimer, execDwellTimerExpiry,
        execRunOnExpiry, execHaltHeardExpiry, execStatusPeriod, execPortRestart, execQuietListenExpiry,
        execRebuildTimerExpiry, execLeadQuietExpiry, execTrimTimerExpiry, execFinalReportRepeat,
        execFinalReportLimit, execBlendWaitExpiry, execClockSecond]
       exact h₃ _ _ _)
    | (simp only [exec, execConfigImageRead, execPowerFail]; split <;> exact ⟨_, rfl⟩)

/-- The oldest entry of the receive queue is taken when it is a frame that satisfies `p` (R93, R102). -/
theorem takeThen_taken (p : Frame → Bool) (g : Frame → Nat → State → State) (fr : Frame) (a : Nat)
    (h : s.port.rx.head? = some (.frame fr a)) (hp : p fr = true) :
    takeThen p g s =
      g fr a (refreshPeer (sourceOf fr.id) a { s with port := { s.port with rx := s.port.rx.tail } }) := by
  unfold takeThen takeFrame
  match hrx : s.port.rx with
  | [] => simp [hrx] at h
  | x :: xs =>
    simp only [hrx, List.head?_cons, Option.some.injEq] at h
    subst h
    simp [hp]

end Sys2Proof.Machine
end

