-- ==== Sys2Proof/Tests/Slice0.lean ====
section
/-! SUPPORT. The author's own tests. The refusals of the well-formedness checks come first; then small steps with the
figures of the manual's worked sequences; then, for each statement that has hypotheses, witnesses: concrete states and
operands that meet them all, one for each clause, at the ends of ranges where a clause has a range. -/

namespace Sys2Proof.Tests

open Sys2Proof Sys2Proof.Machine

set_option Elab.async false

/-! ### States -/

/-- The meter line of 2.11 at station 3: X4, a phase-error limit of 2, W = 1,000, a dwell of 800 ms, compartments 1 and 2
on manifold A with its pump, and compartment 7 on manifold B. -/
def cfg : Cfg :=
  { Cfg.reset with
    countMode := .x4, kn := 200, phaseLimit := 2, loneLimit := 4
    points := [(500, 1004000), (2000, 1001000), (4000, 999000)]
    products := [⟨1, true, 840, 2, chars "OIL     "⟩, ⟨2, false, 0, 0, chars "KEROSENE"⟩]
    slowdown := 30000, aMax := 5000, initialCloseAhead := 1800, primeTime := 100, startSlow := 5000, deadman := 120
    noFlow := 30, fmax := 3000, reverseLimit := 20, hoseVolume := 12000, dwell := 800, haltRecovery := .selfClearing
    runOn := 10, outputs := [⟨1, 1, .a⟩, ⟨2, 2, .a⟩, ⟨3, 7, .b⟩], pump := some .a, blendWindow := 1000
    flowControl := .xonXoff }

/-- The station record of a part that has opened ticket 4,120 (9.9). -/
def record : StationRecord := { newStationRecord 1800 0 with sequence := 4120, unticketed := 420 }

/-- Station 3 in RUNNING at station time 10,000 ms, with nothing under way. -/
def base : State :=
  { State.reset with
    time := 10000, cfg := cfg
    station := { Station.reset with state := .running, number := 3 }
    engine := { Engine.reset with probe := .good, lastGood := some 450, probeDue := some 10100 }
    pulse := { Pulse.reset with conversionDue := some 11000 }
    claims := { ClaimUnit.reset with products := [(1, 1), (2, 1), (7, 3)] }
    journal := { Journal.reset with mem := ⟨some record, []⟩ } }

/-- A context of the draw of 2.11. -/
def context : Context :=
  { Context.reset with
    owner := some .draw, product := some ⟨1, true, 840, 2⟩, preset := some 1000000, slowdown := 30000, closeAhead := 1800
    mf := 1004000, temp := 450, vcf := 1008600 }

/-- The selection of 1,000 L of product 1 from compartment 1. -/
def selection : Selection := ⟨1, 1, some 1000, none⟩

/-- A ticket record of station 3. -/
def ticket (n : Nat) (state : RecordState) : Ticket :=
  { number := n, station := 3, account := 7, tank := 2, opener := 14, openTime := none, closeTime := none
    timeNotSet := true, calibration := false, status := none, printCount := 0, carriedIn := none, items := []
    state := state }

/-- A current draw record. -/
def current : Current :=
  { causes := .empty, softBase := 0, softDone := false, stageAtClose := none, ending := none, exceptions := .empty
    hoseAtStart := .product 1, hoseDiffers := false, hoseFilled := false, enteredAt := 9000, lastRequest := .closed
    primeDue := none, deadmanDue := none, airDue := none, overForce := false, overStart := none, presetAtClose := none
    final := none }

/-- The drop of terminal 14 at the state `d`, with `items` appended. -/
def dropAt (d : DrawState) (items : Nat) (sel : Option Selection) (c : Option Current) : State :=
  { base with
    draw := ⟨d, some ⟨7, 2, 14, 4120, items⟩, sel, c⟩
    journal := { base.journal with mem := ⟨some record, [ticket 4120 .opened]⟩ } }

/-- A draw with its session open. -/
def drawAt (d : DrawState) (c : Current) : State :=
  { dropAt d 0 (some selection) (some c) with
    pulse := { base.pulse with session := some .draw }
    engine := { base.engine with ctx := context, updateDue := some 10100 } }

/-- A write in flight that changes nothing. -/
def write : Write := ⟨.nothing, 0⟩

/-- A state with a journal write in flight. -/
def flying (s : State) : State := { s with journal := { s.journal with inflight := some write } }

/-- A state with a frame as the oldest entry of its receive queue. -/
def hearing (f : Frame) (s : State) : State := { s with port := { s.port with rx := [.frame f 9990] } }

/-- The ASK of terminal 14 to station 3, request number 21. -/
def ask (code : Nat) (data : List Byte) : Frame := ⟨identOf kAsk 14 3 (code * 4096 + 21), data⟩

/-- A peer of the view. -/
def peer (station : Nat) (live : Option LiveClaim) : Peer := ⟨station, 9900, default, [], live, none, false⟩

/-- A view of one peer. -/
def knowing (p : Peer) (s : State) : State := { s with claims := { s.claims with view := [p] } }

/-! ### Well-formedness -/

theorem test_wellFormed_image_short :
    (Instr.configImageRead (.programmed ⟨List.replicate 94 0, true⟩)).wellFormed = false := by decide
theorem test_wellFormed_image_whole :
    (Instr.configImageRead (.programmed ⟨List.replicate 95 0, true⟩)).wellFormed = true := by decide
theorem test_wellFormed_station_zero : (Instr.peerSilence 0).wellFormed = false := by decide
theorem test_wellFormed_station_sixteen : (Instr.peerSilence 16).wellFormed = false := by decide
theorem test_wellFormed_station_fifteen : (Instr.peerSilence 15).wellFormed = true := by decide
theorem test_wellFormed_frame_nine :
    (Instr.frameArrival ⟨identOf kTkt 4 12 0, List.replicate 9 0⟩).wellFormed = false := by decide
theorem test_wellFormed_frame_eight :
    (Instr.frameArrival ⟨identOf kTkt 4 12 0, List.replicate 8 0⟩).wellFormed = true := by decide

/-! ### Figures of the manual -/

/-- The state after a command. -/
def after (i : Instr) (s : State) : State :=
  match exec i s with
  | .next t => t
  | .fault _ => s
  | .refused _ => s

/-- The levels of the short run of 1.8. -/
def shortRun : List (Bool × Bool) :=
  [(false, false), (true, false), (true, true), (false, true), (false, false), (true, false), (false, false),
    (true, false), (false, false), (false, true)]

/-- The pulse counter after the levels of a run, with a session open. -/
def counted (mode : CountMode) (run : List (Bool × Bool)) : Pulse :=
  run.foldl (fun p l => (takeTransition { cfg with countMode := mode } 0 l.1 l.2 p).1)
    { Pulse.reset with session := some .draw }

/-- Source: the table of 1.8. -/
theorem test_count_x4 : (counted .x4 shortRun).running = 3 ∧ (counted .x4 shortRun).perUpdate = 3 := by decide
theorem test_count_x1 : (counted .x1 shortRun).running = 1 := by decide
theorem test_lone_edges : (counted .x4 (shortRun.take 9)).loneA = 4 ∧ (counted .x4 shortRun).loneA = 0 := by decide
/-- Source: 1.8, the window that closes at 1,000 forward counts, and the third phase error of the next. -/
theorem test_window_closes :
    (windowCount { Pulse.reset with session := some .draw, windowErrors := 1, windowForward := 999 }).windowErrors = 0 := by
  decide
theorem test_window_fault :
    (takePhaseError 2 { Pulse.reset with session := some .draw, windowErrors := 2, windowForward := 320 }).2 = true := by
  decide

/-- Source: 2.11, the VCF at 4.50 °C. -/
theorem test_vcf : vcfOf (some ⟨1, true, 840, 2⟩) 450 = 1008600 := by decide

/-- The draw of 2.11 before its update `n`. -/
def before (n : Int) (window : List Int) (gross grossRem net netRem : Int) : State :=
  let s := drawAt .flowing { current with lastRequest := .slow }
  { s with
    pulse := { s.pulse with perUpdate := n, running := 40092 }
    engine := { s.engine with
      ctx := { context with window := window, gross := gross, grossRem := grossRem, net := net, netRem := netRem } } }

/-- The converter's reading of 2.11. -/
def reading : ProbeReading := ⟨.normal, 450⟩

/-- The gross, its remainder, the net and its remainder of a state. -/
def volumes (s : State) : Int × Int × Int × Int :=
  (s.engine.ctx.gross, s.engine.ctx.grossRem, s.engine.ctx.net, s.engine.ctx.netRem)

/-- Source: 2.11, updates 1, 3 and 5, the target after update 5, and the reverse update. -/
theorem test_update_first : volumes (after (.meteringUpdate reading) (before 12 [] 0 0 0 0)) = (60, 48000, 60, 516000) := by
  decide +kernel
theorem test_update_third :
    volumes (after (.meteringUpdate reading) (before 20 [12, 20] 160 128000 161 376000)) = (261, 7200, 263, 244600) := by
  decide +kernel
theorem test_update_target :
    (after (.meteringUpdate reading) (before 20 [12, 20, 20, 20] 361 85600 364 104600)).pulse.target =
      some ⟨231618, .slowdown⟩ := by decide +kernel
theorem test_update_reverse :
    volumes (after (.meteringUpdate reading) (before (-3) [12] 60 48000 60 516000)) = (45, 36000, 45, 387000) := by
  decide +kernel
/-- Source: 2.11, reaching the close point. -/
theorem test_close_target :
    countsTo 200000 998200 { context with net := 997500, netRem := 470000, grossRem := 177000, mf := 1003800 } = 139 := by
  decide
/-- Source: 2.11, an update in full flow. -/
theorem test_factor_full_flow : factorAt (rateOf 200 [90, 90, 90, 90]) cfg.points = 1000300 := by decide

/-- Source: 3.10, the stage in the pause of a draw at FAST, and 4.7, a CLOSED request in FAST. -/
theorem test_pause_steps_down :
    (requestStage .draw .closed { drawAt .flowing current with valve := { Valve.reset with stage := .fast } }).valve.stage =
      .stepDown .closed 10800 := by decide
/-- Source: 3.10, three draws and the hose. -/
theorem test_hose_first : hoseDiffers (.product 2) ⟨1, none⟩ = true ∧ hoseAfter 8400 false (.product 2) ⟨1, none⟩ = some .mixed ∧
    intermixOf 8400 true (.product 2) 12000 = some ⟨.product 2, 8400⟩ := by decide
theorem test_hose_second : hoseAfter 150600 true .mixed ⟨1, none⟩ = some (.product 1) ∧
    intermixOf 150600 true .mixed 12000 = some ⟨.mixed, 12000⟩ := by decide
theorem test_hose_third : hoseAfter 3100 false (.product 1) ⟨1, none⟩ = none := by decide

/-- An entry of the crowded transmit queue of 5.9. -/
def waiting (kind dest tag : Nat) (sender : Sender) : TxEntry := ⟨⟨identOf kind 3 dest tag, []⟩, sender, false⟩

/-- The crowded transmit queue of 5.9, with the fetch that its segments belong to. -/
def crowded : State :=
  { base with
    port := { base.port with
      tx := [waiting kProg 4 0 .blend, waiting kAnswer 14 21 .handler, waiting kAnswer 14 22 .handler,
        waiting kStat 0 0 .port, waiting kStat 0 1 .port, waiting kStat 0 2 .port, waiting kTkt 12 6 (.journal 0),
        waiting kTkt 12 7 (.journal 0)] }
    journal := { base.journal with fetch := some ⟨0, 12, 4120, [], 8, 2⟩ } }

/-- Source: 5.9, a CONSENT displaces segment 7, and segment 6 is purged. -/
theorem test_consent_displaces :
    let t := sendFrame .claimUnit (consentFrame 3 ⟨6, 1⟩ (.comp 1) none) crowded
    t.port.tx.length = 7 ∧ t.journal.fetch = none ∧
      t.port.tx.head?.map (·.frame) = some (consentFrame 3 ⟨6, 1⟩ (.comp 1) none) := by decide
/-- Source: 5.9, an ANSWER to a full queue is refused. -/
theorem test_answer_refused : (handFrame .handler (answerFrame 3 ⟨14, 6, 23⟩ (plain .ok)) crowded).2 = false := by decide

/-- Source: 6.8, two claims on manifold A. -/
theorem test_claims_conflict :
    conflicts ⟨⟨3, 12⟩, some ⟨1, 5⟩, none, none⟩ ⟨⟨6, 7⟩, some ⟨2, 8⟩, none, none⟩ = true := by decide

/-- Source: 7.9, the lag of report 1, and the follower's requests of reports 2 to 7. -/
theorem test_lag : lagOf ⟨⟨3, 40⟩, 3, ⟨3, false, 0, 0⟩, 200, some ⟨400000, 5, false⟩, Holds.empty, none⟩ 97500 = 2500 := by
  decide
theorem test_follower_stages :
    [chooseStage cfg .fast 700, chooseStage cfg .fast (-200), chooseStage cfg .closed 200, chooseStage cfg .closed 450,
      chooseStage cfg .slow 800, chooseStage cfg .slow 1100] = [.fast, .closed, .closed, .slow, .slow, .fast] := by decide
/-- Source: 7.9, the lead target and the achieved share. -/
theorem test_lead_target : slowdownPoint { context with share := some 200 } = some 770000 ∧
    closePoint { context with share := some 200 } = some 798200 := by decide
theorem test_achieved_share : achievedShare 199400 800000 = 1995 := by decide

/-- Source: R153, a quotient below 0. -/
theorem test_achieved_share_negative : achievedShare (-200) 1000 = -2500 ∧ achievedShare 0 0 = 0 := by decide
/-- Source: R143, the next point at clearing where the lead target less the slowdown volume is not above 0. -/
theorem test_next_at_clearing :
    (clearContext .draw none (some 30000) (some 200) base).engine.ctx.nextPoint = .close ∧
      (clearContext .draw none (some 1000000) (some 200) base).engine.ctx.nextPoint = .slowdown ∧
      (clearContext .draw none (some 30000) none base).engine.ctx.nextPoint = .slowdown := by decide
/-- Source: R203, bit 10 of the suspend causes has no name, and is not read. -/
theorem test_cause_bit_unnamed :
    (decodePage0 (statFrame 5 0 [6, 0, 0, 0, 0, 4, 0, 0])).causes = 0 ∧
      (decodePage0 (statFrame 5 0 [6, 0, 0, 255, 255, 255, 255, 255])).causes % 2048 < 1024 := by decide
/-- Source: R148, a lag above 0 while the valve steps down to CLOSED: the request stands at SLOW. -/
theorem test_trim_stands_at_slow :
    (followStage { base with
      blend := { Blend.reset with follower := .fTrim, lag := 1 }
      valve := { Valve.reset with stage := .stepDown .closed 10800 } }).valve.stage = .stepDown .slow 10800 := by decide
/-- Source: R72 and R61. -/
theorem test_overspeed_start_held :
    (holdDraw ⟨.flowing, none, none, some { current with overForce := true, overStart := some 9000, airDue := some 1 }⟩).current =
      some { current with overForce := true, overStart := some 9000 } := by decide
/-- Source: R96 and R107, CONFIG_FAULT while the controller restarts. -/
theorem test_config_fault_takes_answer :
    portTakes { base with
      station := { base.station with state := .configFault }, port := { Port.reset with restartDue := some 11000 } }
      (answerFrame 3 ⟨14, 16, 23⟩ (plain .ok)) = true := by decide
/-- Source: R123, a claim without a resource of this station re-announced in a view rebuild. -/
theorem test_reannounced_pending :
    let s := knowing (peer 6 none) { base with claims := { base.claims with rebuildDue := some 10500 } }
    ((peerOf (reAnnounced ⟨⟨6, 7⟩, some ⟨2, 8⟩, none, none⟩ ⟨8, false, false, false⟩ { s with cfg := { cfg with pump := none } }) 6).bind
      (·.live)).map (·.pending) = some true := by decide
/-- Source: R201, the order value, edit count, check word. -/
theorem test_cut_sequence (reach : Bool × Bool) :
    let img := cutImage reach ⟨List.replicate 95 0, true⟩ 94 1
    img.sumGood = false ∧ (itemOf img 95 = 1 → itemOf img 94 = 1) := by
  rcases reach with ⟨a, b⟩; cases a <;> cases b <;> decide
/-- Source: R84, at an empty queue one command that is due joins it, so that a HALT period restarted by what came first is
judged anew. -/
theorem test_idle_one_command (s : State) (h : s.pending = []) : (idle s).pending.length ≤ 1 := by
  unfold idle
  split
  · simp [h]
  · split
    · simp [h]
    · exact List.length_take_le 1 _

/-- An item of 43 bytes. -/
def item (gross net : Int) : DrawItem :=
  ⟨1, 1, some 1000, gross, net, some 450, 1008600, some .presetReached, Exceptions.empty, none, none, none, none, none⟩

/-- An item with every extension. -/
def fullItem : DrawItem :=
  { item 1000 1000 with
    intermix := some ⟨.mixed, 1000⟩
    blend := some ⟨3, 4, some 200, 200, some 450, 200, 1995, false⟩
    progress := some ⟨.flowing, .empty, none, .mixed, true, false, false⟩ }

/-- Source: 9.9, the flow carried in. -/
theorem test_carried_in :
    ((applyWrite ⟨.openRecord (ticket 4121 .opened) none, 35⟩ ⟨some record, []⟩).tickets.map (·.carriedIn)) =
      [some 455] := by decide
/-- Source: R204. -/
theorem test_segments_empty : (ticketSegments (ticket 4121 .closed)).length = 3 := by decide +kernel
theorem test_segments_four :
    (ticketStream { ticket 4121 .opened with items := List.replicate 4 fullItem }).length = 328 := by decide +kernel
theorem test_segments_two :
    (ticketSegments { ticket 4121 .closed with items := [item 150600 151900, item 43880 44260] }).length = 14 := by
  decide +kernel
/-- Source: 12.5. -/
theorem test_volume_text : volumeText 12345678 = chars "12345.678 L" ∧ shareText 1995 = chars "199.5 per mille" := by
  decide +kernel
theorem test_trailer : trailerText 4121 = chars "*** TICKET 00004121 ABORTED ***" ++ [13, 10, 10] := by decide +kernel
/-- Source: 11.5, the catch-up adds 2. -/
theorem test_catch_up :
    (applyChange (.editCatchUp 45) ⟨some { record with calibrationEvents := 14, lastEditCount := 43 }, []⟩).station.map
      (fun r => (r.calibrationEvents, r.lastEditCount)) = some (16, 45) := by decide

/-! ### Witnesses: the whole part -/

theorem witness_powerDown :
    { base with station := { base.station with state := .powerDown } }.station.state = .powerDown ∧
      ∀ straps sealOpen, Instr.statusPeriod ≠ .powerUp straps sealOpen ∧ Instr.statusPeriod ≠ .resetPin straps sealOpen :=
  ⟨rfl, fun _ _ => ⟨nofun, nofun⟩⟩

/-- A draw at FAST. -/
def fastDraw : State := { drawAt .flowing current with valve := { Valve.reset with stage := .fast } }

/-- A draw whose valve is stepping down. -/
def steppingDraw : State :=
  { drawAt .suspended current with valve := { Valve.reset with stage := .stepDown .closed 10800 } }

theorem witness_page0Change :
    ∃ t, exec .dwellTimerExpiry steppingDraw = .next t ∧ t.station.state = .running ∧
      page0State t ≠ page0State steppingDraw := ⟨_, rfl, by decide, by decide⟩

/-- A draw with its claim CONSENTED and a command waiting. -/
def soundDraw : State :=
  { fastDraw with
    claims := { fastDraw.claims with own := some ⟨⟨⟨3, 12⟩, some ⟨1, 1⟩, none, none⟩, .consented, [], none, some 0, false, false⟩ }
    pending := [.pause] }

theorem witness_sound : ∃ t, Sound soundDraw ∧ step soundDraw = .next t :=
  ⟨_, { draw := ⟨rfl, rfl, rfl⟩
        claim := (rfl : drawOpen .flowing = true)
        pair := by unfold PairShape; decide
        wait := trivial
        halt := by unfold HaltHoldsOff; decide
        fast := by unfold FastGuarded; decide }, rfl⟩

theorem witness_portSound : ∃ t, PortSound soundDraw.port ∧ step soundDraw = .next t :=
  ⟨_, { order := by decide
        room := by decide
        onWire := by decide
        received := by decide
        clock := by decide }, rfl⟩

/-- A station that prints, with a character in the shifter. -/
def printing : State :=
  { base with
    printer := { Printer.reset with
      state := .printing, queue := [⟨4120, false⟩], rest := chars "TEXT", fifo := [65, 66], shifting := some 64 }
    pending := [.characterShifted] }

theorem witness_printerSound : ∃ t, PrinterSound printing.printer ∧ step printing = .next t :=
  ⟨_, { fifo := by decide
        jobs := by decide
        busy := by decide }, rfl⟩

/-! ### Witnesses: chapters 1 and 2 -/

theorem witness_x4_forward : operating base = true ∧ base.cfg.countMode = .x4 ∧
    (base.pulse.decoderA, base.pulse.decoderB, true, false) ∈ forwardEdges := by decide
theorem witness_x4_reverse : operating base = true ∧ base.cfg.countMode = .x4 ∧
    (base.pulse.decoderA, base.pulse.decoderB, false, true) ∈ reverseEdges := by decide
theorem witness_x4_other : operating base = true ∧ base.cfg.countMode = .x4 ∧
    (base.pulse.decoderA, base.pulse.decoderB, true, true) ∉ forwardEdges ++ reverseEdges := by decide
theorem witness_x1 :
    operating { base with cfg := { cfg with countMode := .x1 } } = true ∧
      { base with cfg := { cfg with countMode := .x1 } }.cfg.countMode = .x1 := by decide
theorem witness_unticketed : operating base = true ∧ base.pulse.session = none ∧ base.pulse.target = none := by decide

/-- A draw whose window holds as many phase errors as the limit. -/
def errorDraw : State :=
  { drawAt .flowing current with pulse := { (drawAt .flowing current).pulse with windowErrors := 2 } }

theorem witness_phaseError :
    operating errorDraw = true ∧ errorDraw.pulse.session = some .draw ∧ errorDraw.draw.state = .flowing ∧
      errorDraw.draw.current = some current ∧ errorDraw.pulse.faultLatch = false ∧ true ≠ errorDraw.pulse.decoderA ∧
      true ≠ errorDraw.pulse.decoderB ∧ errorDraw.cfg.phaseLimit < errorDraw.pulse.windowErrors + 1 := by decide

/-- A draw whose lone-edge counters stand at `n`, with the comparator disarmed. -/
def loneDraw (n : Nat) : State :=
  { drawAt .flowing current with pulse := { (drawAt .flowing current).pulse with loneA := n, loneB := n } }

theorem witness_loneEdge_fault :
    operating (loneDraw 4) = true ∧ (loneDraw 4).pulse.session = some .draw ∧ (loneDraw 4).pulse.target = none ∧
      (loneDraw 4).draw.state = .flowing ∧ (loneDraw 4).draw.current = some current ∧
      (loneDraw 4).pulse.faultLatch = false ∧ true ≠ (loneDraw 4).pulse.decoderA ∧
      false = (loneDraw 4).pulse.decoderB ∧ (loneDraw 4).cfg.loneLimit < (loneDraw 4).pulse.loneA + 1 := by decide
theorem witness_loneEdge_fault_b :
    false = (loneDraw 4).pulse.decoderA ∧ true ≠ (loneDraw 4).pulse.decoderB ∧
      (loneDraw 4).cfg.loneLimit < (loneDraw 4).pulse.loneB + 1 := by decide
theorem witness_loneEdge_within :
    operating (loneDraw 3) = true ∧ (loneDraw 3).pulse.session.isSome ∧ (loneDraw 3).pulse.target = none ∧
      true ≠ (loneDraw 3).pulse.decoderA ∧ false = (loneDraw 3).pulse.decoderB ∧
      (loneDraw 3).pulse.loneA + 1 ≤ (loneDraw 3).cfg.loneLimit ∧ (loneDraw 3).pulse.loneB + 1 ≤ (loneDraw 3).cfg.loneLimit := by
  decide

/-- Counts outside a session, with a write in flight. -/
def countedOutside : State := flying { base with pulse := { base.pulse with unticketed := -1 } }

theorem witness_conversion :
    countedOutside.station.state ≠ .powerDown ∧ countedOutside.pulse.conversionDue = some 11000 ∧
      countedOutside.pulse.unticketed ≠ 0 ∧ countedOutside.journal.inflight = some write := by decide

theorem witness_clearFaults_inactive :
    RequestServed (hearing (ask 11 []) base) (ask 11 []) 9990 11 .clearFaults ∧
      ((base.draw.state = .idle ∨ base.draw.state = .dropOpen ∨ base.draw.state = .ready) ∧
        (base.blend.follower = .unbound ∨ base.blend.follower = .bound)) := by
  unfold RequestServed; decide
theorem witness_answered_room : RoomFor 2 base ∧ RoomFor 2 fastDraw := by unfold RoomFor; decide
theorem witness_clearFaults_active :
    RequestServed (hearing (ask 11 []) fastDraw) (ask 11 []) 9990 11 .clearFaults ∧
      ¬((fastDraw.draw.state = .idle ∨ fastDraw.draw.state = .dropOpen ∨ fastDraw.draw.state = .ready) ∧
        (fastDraw.blend.follower = .unbound ∨ fastDraw.blend.follower = .bound)) := by
  unfold RequestServed; decide

theorem witness_meteringUpdate :
    fastDraw.station.state ≠ .powerDown ∧ fastDraw.pulse.session.isSome ∧ fastDraw.engine.updateDue = some 10100 := by
  decide
/-- The draw of 2.11 at a net, with the comparator's next point. -/
def netDraw (net : Int) (next : Point) : State :=
  { fastDraw with engine := { fastDraw.engine with ctx := { context with net := net, nextPoint := next } } }

theorem witness_meteringUpdate_points (net : Int) (next : Point) :
    (netDraw net next).station.state ≠ .powerDown ∧ (netDraw net next).pulse.session = some .draw ∧
      (netDraw net next).engine.updateDue = some 10100 ∧ (netDraw net next).engine.ctx.owner = some .draw ∧
      (netDraw net next).engine.ctx.pending = none ∧ (netDraw net next).engine.ctx.preset = some 1000000 ∧
      (netDraw net next).draw.state = .flowing ∧ (netDraw net next).draw.current = some current :=
  ⟨nofun, rfl, rfl, rfl, rfl, rfl, rfl, rfl⟩
/-- The context that an update leaves at its step 9; neither step 10 nor the reactions change what is read of it here. -/
def updated (s : State) : Context := (meterVolumes reading s).1.engine.ctx

/-- The close point of 998,200 ml is reached, with a product that is not compensated. -/
theorem witness_meteringUpdate_close :
    let s := netDraw 998200 .close
    let u := { s with engine := { s.engine with ctx := { s.engine.ctx with product := none } } }
    let c := updated u
    (998200 : Int) ≤ c.net ∧ isCompensated u.engine.ctx = false ∧ u.engine.ctx.expiry = false ∧ c.rate ≤ u.cfg.fmax ∧
      c.reverse ≤ u.cfg.reverseLimit := by decide +kernel
/-- The slowdown point of 970,000 ml is reached, and the close point lies ahead. -/
theorem witness_meteringUpdate_slowdown :
    let c := updated (netDraw 970000 .slowdown)
    c.net < 998200 ∧ (970000 : Int) ≤ c.net ∧ 0 < countsTo 200000 998200 c := by decide +kernel
/-- One millilitre before the slowdown point, and before the close point. -/
theorem witness_meteringUpdate_ahead :
    0 < countsTo 200000 970000 (updated (netDraw 969999 .slowdown)) ∧ (updated (netDraw 969999 .slowdown)).net = 969999 ∧
      0 < countsTo 200000 998200 (updated (netDraw 998199 .close)) ∧ (updated (netDraw 998199 .close)).net = 998199 := by decide +kernel

/-- A draw one count before its target. -/
def matchDraw (kind : Point) : State :=
  { fastDraw with pulse := { fastDraw.pulse with running := 231617, target := some ⟨231618, kind⟩, loneA := 3, loneB := 3 } }

theorem witness_match (kind : Point) :
    operating (matchDraw kind) = true ∧ (matchDraw kind).pulse.session = some .draw ∧
      (matchDraw kind).cfg.countMode = .x4 ∧
      ((matchDraw kind).pulse.decoderA, (matchDraw kind).pulse.decoderB, true, false) ∈ forwardEdges ∧
      (matchDraw kind).pulse.loneA + 1 ≤ (matchDraw kind).cfg.loneLimit ∧
      (matchDraw kind).pulse.loneB + 1 ≤ (matchDraw kind).cfg.loneLimit ∧
      (matchDraw kind).pulse.target = some ⟨231618, kind⟩ ∧ sum64 ((matchDraw kind).pulse.running + 1) = 231618 ∧
      (matchDraw kind).draw.state = .flowing ∧ (matchDraw kind).draw.current = some current ∧
      (matchDraw kind).engine.ctx.preset.isSome := by
  cases kind <;> decide

theorem witness_meterFactor_first : (cfg.points.map (·.1)).Pairwise (· < ·) ∧
    cfg.points.head? = some (500, 1004000) ∧ 500 ≤ (500, 1004000).1 := by decide
theorem witness_meterFactor_last : (cfg.points.map (·.1)).Pairwise (· < ·) ∧
    cfg.points.getLast? = some (4000, 999000) ∧ (4000, 999000).1 ≤ 4000 := by decide
theorem witness_meterFactor_between : (cfg.points.map (·.1)).Pairwise (· < ·) ∧
    cfg.points[0]? = some (500, 1004000) ∧ cfg.points[0 + 1]? = some (2000, 1001000) ∧ (500, 1004000).1 < 501 ∧
    501 < (2000, 1001000).1 := by decide
theorem witness_noPartLost : (0 : Int) < grossDivisor cfg := by decide
theorem witness_probe_good :
    base.station.state ≠ .powerDown ∧ base.pulse.session = none ∧ base.engine.probeDue = some 10100 ∧
      (⟨.normal, 7000⟩ : ProbeReading).status = .normal ∧ (-4000 : Int) ≤ 7000 ∧ (7000 : Int) ≤ 7000 := by decide
theorem witness_probe_fault :
    base.station.state ≠ .powerDown ∧ base.pulse.session = none ∧ base.engine.probeDue = some 10100 ∧
      ¬((⟨.normal, 7001⟩ : ProbeReading).status = .normal ∧ (-4000 : Int) ≤ 7001 ∧ (7001 : Int) ≤ 7000) := by decide

/-! ### Witnesses: chapter 3 -/

/-- The ASK of an OPEN_DROP for account 77 and tank 15. -/
def openAsk : Frame := ask 1 (bytesOf 4 77 ++ [15])

theorem witness_openDrop :
    RequestServed (hearing openAsk base) openAsk 9990 1 (.openDrop 77 15) ∧ base.draw.state = .idle ∧
      base.journal.inflight = none ∧ base.journal.works = [] ∧ base.journal.mem.station = some record ∧
      base.journal.mem.tickets.length < 200 ∧ record.sequence < 99999999 ∧
      (∀ k ∈ base.journal.mem.tickets, k.number ≠ record.sequence + 1) := by
  unfold RequestServed; decide

theorem witness_closeDrop_items :
    RequestServed (hearing (ask 7 []) (dropAt .dropOpen 1 none none)) (ask 7 []) 9990 7 .closeDrop ∧
      ((dropAt .dropOpen 1 none none).draw.state = .dropOpen ∨ (dropAt .dropOpen 1 none none).draw.state = .ready) ∧
      (dropAt .dropOpen 1 none none).draw.drop = some ⟨7, 2, 14, 4120, 1⟩ ∧ (⟨7, 2, 14, 4120, 1⟩ : Drop).items ≠ 0 ∧
      (dropAt .dropOpen 1 none none).journal.inflight = none ∧ (dropAt .dropOpen 1 none none).journal.works = [] := by
  unfold RequestServed; decide
theorem witness_closeDrop_empty :
    RequestServed (hearing (ask 7 []) (dropAt .ready 0 (some selection) none)) (ask 7 []) 9990 7 .closeDrop ∧
      (dropAt .ready 0 (some selection) none).draw.state = .ready ∧
      (dropAt .ready 0 (some selection) none).draw.drop = some ⟨7, 2, 14, 4120, 0⟩ ∧
      (⟨7, 2, 14, 4120, 0⟩ : Drop).items = 0 := by
  unfold RequestServed; decide

/-- The ASK of a SELECT of a product from compartments 1 and 2, without a blend, with a preset of 100,000 L. -/
def selectAsk (product comps : Nat) : Frame :=
  ask 2 ([nibbles product 0, BitVec.ofNat 8 comps] ++ bytesOf 3 100000 ++ [0, 0, 0])

theorem witness_select_full :
    RequestServed (hearing (selectAsk 1 3) (dropAt .dropOpen 4 none none)) (selectAsk 1 3) 9990 2
        (.select ⟨1, 3, some 99999, none⟩ true) ∧
      (dropAt .dropOpen 4 none none).draw.state = .dropOpen ∧
      (dropAt .dropOpen 4 none none).draw.drop = some ⟨7, 2, 14, 4120, 4⟩ ∧ 4 ≤ (⟨7, 2, 14, 4120, 4⟩ : Drop).items := by
  unfold RequestServed; decide
theorem witness_select_invalid :
    RequestServed (hearing (selectAsk 15 3) (dropAt .ready 3 (some selection) none)) (selectAsk 15 3) 9990 2
        (.select ⟨15, 3, some 99999, none⟩ true) ∧
      (dropAt .ready 3 (some selection) none).draw.state = .ready ∧ (∀ p ∈ cfg.products, p.code ≠ 15) := by
  unfold RequestServed; decide
theorem witness_select_taken :
    RequestServed (hearing (selectAsk 1 3) (dropAt .dropOpen 3 none none)) (selectAsk 1 3) 9990 2
        (.select ⟨1, 3, some 99999, none⟩ true) ∧
      (dropAt .dropOpen 3 none none).draw.state = .dropOpen ∧
      (dropAt .dropOpen 3 none none).draw.drop = some ⟨7, 2, 14, 4120, 3⟩ ∧
      ¬((∀ p ∈ cfg.products, p.code ≠ 1) ∨ (3 : CompSet) = 0) := by
  unfold RequestServed; decide

/-- The ASK of a SET_PRESET of 0 L, which is none. -/
def presetAsk : Frame := ask 8 [0, 0, 0]

theorem witness_setPreset_ready :
    RequestServed (hearing presetAsk (dropAt .ready 0 (some selection) none)) presetAsk 9990 8 (.setPreset none false) ∧
      (dropAt .ready 0 (some selection) none).draw.selection = some selection ∧ selection.blend = none ∧
      (dropAt .ready 0 (some selection) none).draw.state = .ready := by
  unfold RequestServed; decide
theorem witness_setPreset_flowing :
    RequestServed (hearing presetAsk fastDraw) presetAsk 9990 8 (.setPreset none false) ∧
      fastDraw.draw.selection = some selection ∧ selection.blend = none ∧ fastDraw.draw.state = .flowing ∧
      fastDraw.draw.state ≠ .ready := by
  unfold RequestServed; decide

/-- A drop that is READY to START. -/
def readyDrop : State := hearing (ask 3 []) (dropAt .ready 0 (some selection) none)

theorem witness_start :
    RequestServed readyDrop (ask 3 []) 9990 3 .start ∧ readyDrop.claims.rebuildDue = none ∧
      readyDrop.valve.halt = .clear ∧ readyDrop.draw.state = .ready ∧ readyDrop.blend.follower = .unbound ∧
      readyDrop.inputs.reelStowed = false ∧ readyDrop.pulse.faultLatch = false ∧
      readyDrop.draw.selection = some selection ∧
      (∀ p ∈ readyDrop.cfg.products, p.code = selection.product → p.compensated = true → readyDrop.engine.probe = .good) ∧
      readyDrop.draw.drop = some ⟨7, 2, 14, 4120, 0⟩ ∧
      ticketOf readyDrop.journal.mem 4120 = some (ticket 4120 .opened) ∧ (ticket 4120 .opened).state = .opened ∧
      localChecks (taken readyDrop (ask 3 []) 9990) selection
        (buildClaim (taken readyDrop (ask 3 []) 9990) selection) = none ∧
      RoomFor 1 readyDrop := by
  unfold RequestServed RoomFor; decide

theorem witness_pause :
    RequestServed (hearing (ask 4 []) fastDraw) (ask 4 []) 9990 4 .pause ∧ fastDraw.draw.state = .flowing ∧
      fastDraw.draw.current = some current ∧ fastDraw.blend.lead = none ∧ fastDraw.blend.follower = .unbound ∧
      fastDraw.valve.halt = .clear ∧ 0 < fastDraw.cfg.dwell := by
  unfold RequestServed; decide

theorem witness_pause_suspended :
    RequestServed (hearing (ask 4 []) (drawAt .suspended current)) (ask 4 []) 9990 4 .pause ∧
      (drawAt .suspended current).draw.state = .suspended ∧ (drawAt .suspended current).draw.current = some current := by
  unfold RequestServed; decide
theorem witness_pause_busy :
    RequestServed (hearing (ask 4 []) base) (ask 4 []) 9990 4 .pause ∧ base.draw.state ≠ .priming ∧
      base.draw.state ≠ .flowing ∧ base.draw.state ≠ .suspended := by
  unfold RequestServed; decide

/-- A draw held by a halt. -/
def heldDraw (flag : CondFlag) : State :=
  drawAt .suspended { current with causes := { Causes.empty with halt := flag } }

theorem witness_resume_ok :
    RequestServed (hearing (ask 5 []) (heldDraw .cleared)) (ask 5 []) 9990 5 .resume ∧
      (heldDraw .cleared).draw.state = .suspended ∧
      (heldDraw .cleared).draw.current = some { current with causes := { Causes.empty with halt := .cleared } } ∧
      (heldDraw .cleared).blend.lead = none ∧
      (∀ k, condFlag { Causes.empty with halt := .cleared } k ≠ .active) :=
  ⟨by unfold RequestServed; decide, rfl, rfl, rfl, fun k => by cases k <;> decide⟩
theorem witness_resume_halted :
    RequestServed (hearing (ask 5 []) (heldDraw .active)) (ask 5 []) 9990 5 .resume ∧
      (heldDraw .active).draw.state = .suspended ∧
      (heldDraw .active).draw.current = some { current with causes := { Causes.empty with halt := .active } } ∧
      (heldDraw .active).blend.lead = none := by
  unfold RequestServed; decide

theorem witness_end_flowing :
    RequestServed (hearing (ask 6 []) fastDraw) (ask 6 []) 9990 6 .endDraw ∧ fastDraw.draw.state = .flowing ∧
      fastDraw.draw.current = some current ∧ fastDraw.blend.lead = none := by
  unfold RequestServed; decide
theorem witness_end_ready :
    RequestServed (hearing (ask 6 []) (dropAt .ready 0 (some selection) none)) (ask 6 []) 9990 6 .endDraw ∧
      (dropAt .ready 0 (some selection) none).draw.state = .ready := by
  unfold RequestServed; decide

theorem witness_end_closing :
    RequestServed (hearing (ask 6 []) (drawAt .closing current)) (ask 6 []) 9990 6 .endDraw ∧
      (drawAt .closing current).draw.state = .closing := by
  unfold RequestServed; decide
theorem witness_end_idle :
    RequestServed (hearing (ask 6 []) base) (ask 6 []) 9990 6 .endDraw ∧ base.draw.state = .idle := by
  unfold RequestServed; decide

/-- A draw in PRIMING, with a start-slow volume. -/
def primingDraw (startSlow : Nat) : State :=
  { drawAt .priming { current with primeDue := some 10000 } with cfg := { cfg with startSlow := startSlow } }

theorem witness_prime_slow :
    (primingDraw 1).draw.state = .priming ∧
      (primingDraw 1).draw.current = some { current with primeDue := some 10000 } ∧
      operating (primingDraw 1) = true ∧ (primingDraw 1).valve.halt = .clear ∧
      (primingDraw 1).station.state ≠ .lineLost ∧ (primingDraw 1).valve.stage = .closed ∧
      (primingDraw 1).blend.lead = none ∧ (primingDraw 1).blend.follower = .unbound ∧ 0 < (primingDraw 1).cfg.dwell ∧
      ¬((primingDraw 1).cfg.startSlow = 0) := by decide
theorem witness_prime_fast :
    (primingDraw 0).draw.state = .priming ∧
      (primingDraw 0).draw.current = some { current with primeDue := some 10000 } ∧
      operating (primingDraw 0) = true ∧ (primingDraw 0).valve.halt = .clear ∧
      (primingDraw 0).station.state ≠ .lineLost ∧ (primingDraw 0).valve.stage = .closed ∧
      (primingDraw 0).blend.lead = none ∧ (primingDraw 0).blend.follower = .unbound ∧ 0 < (primingDraw 0).cfg.dwell ∧
      (primingDraw 0).cfg.startSlow = 0 ∧ belowSlowdown (primingDraw 0).engine.ctx = true ∧
      (primingDraw 0).inputs.air = false := by decide

/-- A draw in FLOWING with its deadman and air timers running. -/
def watchedDraw : State :=
  { drawAt .flowing { current with deadmanDue := some 10000, airDue := some 10001 } with
    valve := { Valve.reset with stage := .fast } }

theorem witness_supervisors :
    watchedDraw.draw.state = .flowing ∧
      watchedDraw.draw.current = some { current with deadmanDue := some 10000, airDue := some 10001 } ∧
      watchedDraw.blend.lead = none ∧ watchedDraw.blend.follower = .unbound ∧ operating watchedDraw = true ∧
      watchedDraw.valve.halt = .clear ∧ 0 < watchedDraw.cfg.dwell := by decide

/-- A draw in CLOSING with a journal write in flight. -/
def closingDraw : State := flying (drawAt .closing { current with ending := some .presetReached })

theorem witness_endOfClosing :
    operating closingDraw = true ∧ closingDraw.draw.state = .closing ∧
      closingDraw.draw.current = some { current with ending := some .presetReached } ∧
      closingDraw.draw.selection = some selection ∧ closingDraw.draw.drop = some ⟨7, 2, 14, 4120, 0⟩ ∧
      selection.blend = none ∧ current.final = none ∧ closingDraw.journal.inflight = some write ∧
      closingDraw.blend.lead = none := by decide

/-- The end of CLOSING from SLOW, of a draw that has delivered `gross` through a hose that held product 2. -/
def closingFrom (gross : Int) : State :=
  let s := closingDraw
  { s with
    draw := { s.draw with
      current := some { current with
        ending := some .presetReached, stageAtClose := some .slow, presetAtClose := some 1000000
        hoseAtStart := .product 2, hoseDiffers := true } }
    engine := { s.engine with ctx := { s.engine.ctx with gross := gross, net := 1000400 } } }

/-- What the item's completion hands to the journal: the intermix, the hose record and the close-ahead. -/
def completion (i : Instr) (s : State) : Option (Option Intermix × Option Hose × Option Int) :=
  match (after i s).journal.works with
  | [.handOver item hose closeAhead] => some (item.intermix, hose, closeAhead)
  | _ => none

/-- Source: R37 and R71: an overrun of 400 ml adds 100 ml; the hose of 12,000 ml is filled at 12,000 and MIXED below, and
no intermix is had of a gross of 0. A limit teaches nothing. -/
theorem test_completion_filled :
    completion .flowStop (closingFrom 12000) = some (some ⟨.product 2, 12000⟩, some (.product 1), some 1900) := by decide +kernel
theorem test_completion_mixed :
    completion .closingLimit (closingFrom 11999) = some (some ⟨.product 2, 11999⟩, some .mixed, none) := by decide +kernel
theorem test_completion_nothing : completion .flowStop (closingFrom 0) = some (none, none, some 1900) := by decide +kernel
theorem witness_endOfClosing_learns :
    (closingFrom 12000).draw.state = .closing ∧ (closingFrom 12000).engine.ctx.share = none ∧
      (closingFrom 12000).draw.selection = some selection ∧ (closingFrom 12000).journal.inflight = some write ∧
      (closingFrom 12000).blend.lead = none := by decide

/-! ### Witnesses: chapter 4 -/

theorem witness_stage_accepted :
    0 < fastDraw.cfg.dwell ∧ requestAccepted .draw .closed fastDraw = true ∧ fastDraw.valve.halt = .clear := by decide
theorem witness_stage_noDwell :
    let s := { fastDraw with cfg := { cfg with dwell := 0 } }
    s.cfg.dwell = 0 ∧ requestAccepted .draw .closed s = true ∧ s.valve.halt = .clear := by decide
theorem witness_stage_refused :
    0 < fastDraw.cfg.dwell ∧ requestAccepted .blend .closed fastDraw = false := by decide
/-- A draw in FLOWING or SUSPENDED with the valve at a stage. -/
def stagedDraw (d : DrawState) (v : ValveRec) : State := { drawAt d current with valve := { Valve.reset with stage := v } }

theorem witness_dwell_closed : (stagedDraw .suspended (.stepDown .closed 10800)).station.state ≠ .powerDown ∧
    dwellDue (stagedDraw .suspended (.stepDown .closed 10800)).valve.stage = some 10800 := by decide
theorem witness_dwell_slow : (stagedDraw .flowing (.stepDown .slow 10800)).station.state ≠ .powerDown ∧
    dwellDue (stagedDraw .flowing (.stepDown .slow 10800)).valve.stage = some 10800 := by decide
theorem witness_dwell_fast :
    let s := stagedDraw .flowing (.stepDown .fast 10800)
    s.station.state ≠ .powerDown ∧ dwellDue s.valve.stage = some 10800 ∧ s.valve.halt = .clear ∧
      s.station.state = .running ∧ s.blend.follower = .unbound ∧ s.draw.state = .flowing := by decide
theorem witness_dwell_pending :
    let s := stagedDraw .suspended (.slowPendingFast 10800)
    s.station.state ≠ .powerDown ∧ dwellDue s.valve.stage = some 10800 ∧ s.blend.follower = .unbound ∧
      ¬s.draw.state = .flowing := by decide

theorem witness_pump_command : base.valve.pumpNeeded ≠ true := by decide
theorem witness_pump_runOn :
    let s := { base with valve := { Valve.reset with pump := .runOn 10000 } }
    s.station.state ≠ .powerDown ∧ s.valve.pump = .runOn 10000 := by decide

theorem witness_emergencyStop :
    operating fastDraw = true ∧ fastDraw.inputs.emergencyStop = false ∧ fastDraw.valve.halt = .clear ∧
      fastDraw.draw.state = .flowing ∧ fastDraw.draw.current = some current ∧ fastDraw.blend.follower = .unbound ∧
      fastDraw.blend.lead = none ∧ fastDraw.station.state = .running ∧ RoomFor 1 fastDraw := by
  unfold RoomFor; decide

/-- A station halted by a HALT it has heard. -/
def heardHalt (h : HaltState) : State := { base with valve := { Valve.reset with halt := h, heardDue := some 10000 } }

theorem witness_haltHeard :
    (heardHalt .halted).station.state ≠ .powerDown ∧ (heardHalt .halted).valve.heardDue = some 10000 ∧
      (heardHalt .halted).valve.halt = .halted ∧ (heardHalt .halted).inputs.emergencyStop = false ∧
      (heardHalt .halted).blend.follower = .unbound ∧ (heardHalt .halted).draw.state ≠ .suspended := by decide

theorem witness_resumeHalt_latched :
    RequestServed (hearing (ask 10 []) (heardHalt .latched)) (ask 10 []) 9990 10 .resumeHalt ∧
      (heardHalt .latched).blend.follower = .unbound ∧ (heardHalt .latched).valve.halt = .latched := by
  unfold RequestServed; decide
theorem witness_resumeHalt_halted :
    RequestServed (hearing (ask 10 []) (heardHalt .halted)) (ask 10 []) 9990 10 .resumeHalt ∧
      (heardHalt .halted).blend.follower = .unbound ∧ (heardHalt .halted).valve.halt = .halted := by
  unfold RequestServed; decide
theorem witness_resumeHalt_clear :
    RequestServed (hearing (ask 10 []) base) (ask 10 []) 9990 10 .resumeHalt ∧ base.blend.follower = .unbound ∧
      base.valve.halt = .clear := by
  unfold RequestServed; decide

theorem witness_holdToRun_press : operating fastDraw = true ∧ fastDraw.inputs.holdToRun = false ∧
    fastDraw.draw.state = .flowing ∧ fastDraw.draw.current = some current := by decide
theorem witness_holdToRun_resume :
    let c := { current with causes := { Causes.empty with deadman := true } }
    operating (drawAt .suspended c) = true ∧ (drawAt .suspended c).inputs.holdToRun = false ∧
      (drawAt .suspended c).draw.state = .suspended ∧ (drawAt .suspended c).draw.current = some c ∧
      (drawAt .suspended c).draw.selection.isSome ∧ c.causes = { Causes.empty with deadman := true } := by decide
theorem witness_holdToRun_other :
    operating (heldDraw .cleared) = true ∧ (heldDraw .cleared).inputs.holdToRun = false ∧
      (heldDraw .cleared).draw.state ≠ .flowing ∧
      { Causes.empty with halt := .cleared } ≠ { Causes.empty with deadman := true } := by decide
theorem witness_holdToRun_held :
    let s := { base with inputs := { base.inputs with holdToRun := true } }
    operating s = true ∧ s.inputs.holdToRun = true := by decide
theorem witness_air_begins : operating fastDraw = true ∧ fastDraw.draw.state = .flowing ∧
    fastDraw.draw.current = some current ∧ fastDraw.inputs.air = !true := by decide
theorem witness_air_ends :
    let s := { fastDraw with inputs := { base.inputs with air := true } }
    operating s = true ∧ s.draw.state = .flowing ∧ s.draw.current = some current ∧ s.inputs.air = !false := by decide

/-! ### Witnesses: chapter 5 -/

/-- A line port with its transmit queue at `n` entries. -/
def queueOf (n : Nat) : List TxEntry := List.replicate n (waiting kTkt 12 6 .handler)

/-- A final report held for the lead. -/
def heldReport : HeldReport := ⟨⟨2, 40⟩, 2, ⟨199350, 199400, some 450, 1008600, .trimLimit, false, false⟩, some 10000, some 54750⟩

theorem witness_statusPeriod :
    let s := { base with port := { Port.reset with statusDue := some 10000, tx := queueOf 5 } }
    s.station.state = .running ∧ s.port.statusDue = some 10000 ∧ RoomFor 3 s := by unfold RoomFor; decide
theorem witness_haltRepeat :
    let s := { base with
      valve := { Valve.reset with halt := .halted, haltRepeatDue := some 10000 }, port := { Port.reset with tx := queueOf 7 } }
    s.station.state = .running ∧ s.valve.haltRepeatDue = some 10000 ∧ RoomFor 1 s := by unfold RoomFor; decide
theorem witness_reportRepeat :
    let s := { base with blend := { Blend.reset with held := some heldReport }, port := { Port.reset with tx := queueOf 6 } }
    s.station.state = .running ∧ s.blend.held = some heldReport ∧ heldReport.repeatDue = some 10000 ∧ RoomFor 2 s := by
  unfold RoomFor; decide

/-- A station in a state of the line, with the controller off it. -/
def offLineStation (state : StationState) : State :=
  { base with
    station := { base.station with state := state }
    port := { Port.reset with errors := 248, restartDue := some 11000 } }

theorem witness_restart_lineLost : (offLineStation .lineLost).station.state = .lineLost ∧
    (offLineStation .lineLost).port.restartDue = some 11000 := by decide
theorem witness_restart_configFault : (offLineStation .configFault).station.state = .configFault ∧
    (offLineStation .configFault).port.restartDue = some 11000 ∧ RoomFor 1 (offLineStation .configFault) := by
  unfold RoomFor; decide
theorem witness_quietListen :
    let s := { base with station := { base.station with state := .listening, quietDue := some 10000 } }
    s.station.state = .listening ∧ s.station.quietDue = some 10000 ∧ s.claims.own = none ∧
      (∀ p ∈ s.claims.view, p.live = none) ∧ s.inputs.emergencyStop = false ∧ RoomFor 3 s := by unfold RoomFor; decide

/-- A CLOCK frame of the terminal at station 14. -/
def clockFrame : Frame := ⟨identOf kClock 14 0 0, bytesOf 4 4294967295⟩

theorem witness_takeClock : OldestFrame (hearing clockFrame base) clockFrame 9990 ∧ kindOf clockFrame.id = kClock := by
  unfold OldestFrame; decide
theorem witness_clockSecond :
    let s := { base with port := { Port.reset with clock := some 4294967295, clockDue := some 10000 } }
    s.station.state ≠ .powerDown ∧ s.port.clockDue = some 10000 ∧ s.port.clock = some 4294967295 ∧
      4294967295 ≤ 4294967295 := by decide

/-- The receive queue with room for one frame more. -/
def nearlyFull : State := { base with port := { Port.reset with rx := List.replicate 31 (.frame clockFrame 9000) } }

theorem witness_arrival_passes :
    nearlyFull.station.state = .running ∧ (∀ e ∈ nearlyFull.port.tx, e.onWire = false) ∧
      rxFrames nearlyFull.port.rx < 32 ∧ 1 ≤ kindOf clockFrame.id ∧ kindOf clockFrame.id ≤ 10 ∧
      destOf clockFrame.id = 0 ∧ sourceOf clockFrame.id ≠ 0 ∧ sourceOf clockFrame.id ≠ nearlyFull.station.number ∧
      lengthOk clockFrame = true ∧ kindOf clockFrame.id ≠ kHalt := by decide
theorem witness_arrival_halt :
    nearlyFull.station.state = .running ∧ (∀ e ∈ nearlyFull.port.tx, e.onWire = false) ∧
      rxFrames nearlyFull.port.rx < 32 ∧ 1 ≤ kindOf (haltFrame 5).id ∧ kindOf (haltFrame 5).id ≤ 10 ∧
      destOf (haltFrame 5).id = 0 ∧ sourceOf (haltFrame 5).id ≠ 0 ∧
      sourceOf (haltFrame 5).id ≠ nearlyFull.station.number ∧ lengthOk (haltFrame 5) = true ∧
      kindOf (haltFrame 5).id = kHalt ∧ nearlyFull.valve.halt = .clear := by decide
theorem witness_arrival_filtered :
    nearlyFull.station.state = .running ∧ (∀ e ∈ nearlyFull.port.tx, e.onWire = false) ∧
      rxFrames nearlyFull.port.rx < 32 ∧ ¬sourceOf (haltFrame 3).id ≠ nearlyFull.station.number := by decide

/-- A CLAIM of station 3. -/
def ownClaim : Claim := ⟨⟨3, 12⟩, some ⟨1, 1⟩, none, none⟩

/-- A transmit queue with a CLAIM of station 3, WAITING or ON_WIRE. -/
def sending (onWire : Bool) : State :=
  { base with port := { Port.reset with tx := [⟨claimFrame ownClaim, .claimUnit, onWire⟩] } }

theorem witness_transmitStart : (sending false).station.state = .running ∧
    (sending false).port.tx = ⟨claimFrame ownClaim, .claimUnit, false⟩ :: [] ∧
    (∀ x ∈ (sending false).port.tx, x.onWire = false) := by decide
theorem witness_arbitrationLost : (sending true).station.state ≠ .powerDown := by decide
theorem witness_frameSent :
    (sending true).station.state ≠ .powerDown ∧ (sending true).port.tx = ⟨claimFrame ownClaim, .claimUnit, true⟩ :: [] ∧
      (⟨claimFrame ownClaim, .claimUnit, true⟩ : TxEntry).onWire = true ∧
      (∀ x ∈ ([] : List TxEntry), x.onWire = false) ∧ ∀ n, Sender.claimUnit ≠ .journal n :=
  ⟨by decide, by decide, rfl, nofun, nofun⟩

/-- A transmission under way at an error count. -/
def failing (errors : Nat) : State := { sending true with port := { (sending true).port with errors := errors } }

theorem witness_failure_noAck : (failing 128).station.state = .running ∧ (∃ e ∈ (failing 128).port.tx, e.onWire = true) ∧
    true = true ∧ 128 ≤ (failing 128).port.errors := by decide
theorem witness_failure_counts : (failing 247).station.state = .running ∧
    (∃ e ∈ (failing 247).port.tx, e.onWire = true) ∧ ¬(false = true ∧ 128 ≤ (failing 247).port.errors) ∧
    (failing 247).port.errors + 8 ≤ 255 := by decide
theorem witness_failure_busOff : (failing 248).station.state = .running ∧
    (∃ e ∈ (failing 248).port.tx, e.onWire = true) ∧ ¬(false = true ∧ 128 ≤ (failing 248).port.errors) ∧
    255 < (failing 248).port.errors + 8 := by decide

theorem witness_takeHalt : OldestFrame (hearing (haltFrame 5) base) (haltFrame 5) 9990 ∧
    kindOf (haltFrame 5).id = kHalt := by unfold OldestFrame; decide
theorem witness_takeAnswer :
    OldestFrame (hearing (answerFrame 5 ⟨3, 1, 2⟩ (plain .ok)) base) (answerFrame 5 ⟨3, 1, 2⟩ (plain .ok)) 9990 ∧
      kindOf (answerFrame 5 ⟨3, 1, 2⟩ (plain .ok)).id = kAnswer := by unfold OldestFrame; decide
theorem witness_takeTkt :
    OldestFrame (hearing (tktFrame 5 3 0 true (List.replicate 8 0)) base) (tktFrame 5 3 0 true (List.replicate 8 0)) 9990 ∧
      kindOf (tktFrame 5 3 0 true (List.replicate 8 0)).id = kTkt := by unfold OldestFrame; decide
/-- A STAT page of station 5. -/
def pageOf5 (page : Nat) : Frame := statFrame 5 page (List.replicate (if page = 2 then 7 else 8) 0)
theorem witness_takePage1 : OldestFrame (hearing (pageOf5 1) base) (pageOf5 1) 9990 ∧
    kindOf (pageOf5 1).id = kStat ∧ lowTagOf (pageOf5 1).id = 1 := by unfold OldestFrame; decide
theorem witness_takePage0_known :
    OldestFrame (hearing (pageOf5 0) (knowing (peer 5 none) base)) (pageOf5 0) 9990 ∧ kindOf (pageOf5 0).id = kStat ∧
      lowTagOf (pageOf5 0).id = 0 ∧ base.blend.lastEnded = none ∧
      ∃ p ∈ (knowing (peer 5 none) base).claims.view, p.station = sourceOf (pageOf5 0).id := by
  unfold OldestFrame; decide
theorem witness_takePage0_new :
    OldestFrame (hearing (pageOf5 0) base) (pageOf5 0) 9990 ∧ kindOf (pageOf5 0).id = kStat ∧
      lowTagOf (pageOf5 0).id = 0 ∧ base.blend.lastEnded = none ∧
      ¬∃ p ∈ base.claims.view, p.station = sourceOf (pageOf5 0).id := by
  unfold OldestFrame; decide

/-! ### Witnesses: chapter 6 -/

/-- The CLAIM (6, 255) for compartment 2 on manifold A. -/
def claim6 : Claim := ⟨⟨6, 255⟩, some ⟨1, 2⟩, none, none⟩

/-- A station that owns no pump and knows station 6. -/
def owner (h : HaltState) : State :=
  { knowing (peer 6 none) base with cfg := { cfg with pump := none }, valve := { Valve.reset with halt := h } }

theorem witness_judged_granted :
    OldestFrame (hearing (claimFrame claim6) (owner .clear)) (claimFrame claim6) 9990 ∧
      kindOf (claimFrame claim6).id = kClaim ∧ (owner .clear).station.state = .running ∧
      peerOf (owner .clear) (sourceOf (claimFrame claim6).id) = some (peer 6 none) ∧ (peer 6 none).live = none ∧
      (peer 6 none).lastEnded ≠ some (sequenceOf (claimFrame claim6).id) ∧ (owner .clear).claims.own = none ∧
      (owner .clear).claims.rebuildDue = none ∧ (owner .clear).blend.binding = none ∧
      ownedOf (owner .clear) (decodeClaim (claimFrame claim6)) = [.comp 2] ∧ RoomFor 1 (owner .clear) ∧
      (owner .clear).valve.halt = .clear ∧ compMatches (owner .clear) (decodeClaim (claimFrame claim6)) 2 = true ∧
      (∀ x ∈ (owner .clear).claims.view, x.live = none) := by
  unfold OldestFrame RoomFor; decide
theorem witness_judged_halted :
    OldestFrame (hearing (claimFrame claim6) (owner .latched)) (claimFrame claim6) 9990 ∧
      kindOf (claimFrame claim6).id = kClaim ∧ (owner .latched).station.state = .running ∧
      peerOf (owner .latched) (sourceOf (claimFrame claim6).id) = some (peer 6 none) ∧ (peer 6 none).live = none ∧
      (peer 6 none).lastEnded ≠ some (sequenceOf (claimFrame claim6).id) ∧
      (owner .latched).claims.own = none ∧ (owner .latched).claims.rebuildDue = none ∧
      (owner .latched).blend.binding = none ∧
      ownedOf (owner .latched) (decodeClaim (claimFrame claim6)) = [.comp 2] ∧ RoomFor 1 (owner .latched) ∧
      (owner .latched).valve.halt ≠ .clear := by
  unfold OldestFrame RoomFor; decide

/-- The own claim for a compartment of station 5, with its START not yet answered. -/
def ownOf (phase : Phase) : OwnClaim :=
  ⟨⟨⟨3, 12⟩, some ⟨1, 4⟩, none, none⟩, phase, [⟨.comp 3, 5, .awaited⟩], some 11000, none, false, false⟩

/-- A draw in CLAIMING with its own claim at a phase. -/
def claimingDraw (phase : Phase) : State :=
  let s := dropAt .claiming 0 (some selection) (some current)
  { s with
    cfg := { cfg with pump := none }
    claims := { s.claims with own := some (ownOf phase), nextSequence := 13 }
    handler := { s.handler with deferred := some ⟨14, 3, 21⟩, table := [⟨⟨14, 3, 21⟩, .deferred⟩] } }

/-- A CONSENT of station 5 for compartment 3. -/
def verdict (refused : Option Reason) : Frame := consentFrame 5 ⟨3, 12⟩ (.comp 3) refused

theorem witness_end_claiming :
    RequestServed (hearing (ask 6 []) (claimingDraw .inForce)) (ask 6 []) 9990 6 .endDraw ∧
      (claimingDraw .inForce).draw.state = .claiming ∧ (claimingDraw .inForce).claims.own = some (ownOf .inForce) ∧
      (claimingDraw .inForce).handler.deferred = some ⟨14, 3, 21⟩ ∧ RoomFor 3 (claimingDraw .inForce) ∧
      (ownOf .inForce).phase ≠ .queued ∧ (ownOf .queued).phase = .queued := by
  unfold RequestServed RoomFor; decide
theorem witness_verdict (refused : Option Reason) (h : refused = none ∨ refused = some .conflict) :
    OldestFrame (hearing (verdict refused) (claimingDraw .inForce)) (verdict refused) 9990 ∧
      kindOf (verdict refused).id = kConsent ∧ (claimingDraw .inForce).claims.own = some (ownOf .inForce) ∧
      (ownOf .inForce).phase = .inForce ∧ (ownOf .inForce).claim.id.station = (claimingDraw .inForce).station.number ∧
      (ownOf .inForce).pumpPending = false ∧ consentClaim (verdict refused) = (ownOf .inForce).claim.id ∧
      ⟨.comp 3, 5, .awaited⟩ ∈ (ownOf .inForce).resources ∧
      resourceOf (lowTagOf (verdict refused).id) = some (.comp 3) ∧ sourceOf (verdict refused).id = 5 ∧
      (claimingDraw .inForce).draw.state = .claiming ∧ (claimingDraw .inForce).draw.current = some current ∧
      (claimingDraw .inForce).blend.lead = none ∧
      (claimingDraw .inForce).handler.deferred = some ⟨14, 3, 21⟩ := by
  rcases h with rfl | rfl <;> (unfold OldestFrame; decide)
theorem witness_verdict_granted : consentVerdict (verdict none) = 0 ∧
    allGranted (grantStatus (.comp 3) (ownOf .inForce)) = true ∧ 0 < (claimingDraw .inForce).cfg.primeTime ∧
    ⟨⟨14, 3, 21⟩, .deferred⟩ ∈ (claimingDraw .inForce).handler.table ∧ RoomFor 1 (claimingDraw .inForce) ∧
    (claimingDraw .inForce).station.state = .running := by unfold RoomFor; decide
theorem witness_verdict_refused : consentVerdict (verdict (some .conflict)) = 1 ∧
    RoomFor 2 (claimingDraw .inForce) ∧ (claimingDraw .inForce).station.state = .running := by
  unfold RoomFor; decide

/-- A live claim of station 6 with the code of a page 0 since it entered the view. -/
def live6 (code : Option Nat) : LiveClaim := ⟨claim6, 0, false, 2, false, code⟩

/-- A station whose consent record holds the claim of station 6. -/
def consenting (code : Option Nat) : State :=
  let s := knowing (peer 6 (some (live6 code))) (owner .clear)
  { s with claims := { s.claims with records := [(.comp 2, ⟨6, 255⟩)], nextRank := 1 } }

/-- The page 2 of none of station 6. -/
def nonePage6 : Frame := statFrame 6 2 (encodePage2 none)

theorem witness_claimEnds_release :
    peerOf (consenting none) 6 = some (peer 6 (some (live6 none))) ∧ (consenting none).blend.binding = none ∧
      (consenting none).blend.held = none ∧ (live6 none).claim.id.station = 6 ∧
      OldestFrame (hearing (releaseFrame ⟨6, 255⟩) (consenting none)) (releaseFrame ⟨6, 255⟩) 9990 ∧
      kindOf (releaseFrame ⟨6, 255⟩).id = kRelease ∧ sourceOf (releaseFrame ⟨6, 255⟩).id = 6 ∧
      sequenceOf (releaseFrame ⟨6, 255⟩).id = (live6 none).claim.id.sequence := by
  unfold OldestFrame; decide
theorem witness_claimEnds_page2 :
    peerOf (consenting (some 4)) 6 = some (peer 6 (some (live6 (some 4)))) ∧
      (consenting (some 4)).blend.binding = none ∧ (consenting (some 4)).blend.held = none ∧
      (live6 (some 4)).claim.id.station = 6 ∧ OldestFrame (hearing nonePage6 (consenting (some 4))) nonePage6 9990 ∧ kindOf nonePage6.id = kStat ∧
      lowTagOf nonePage6.id = 2 ∧ sourceOf nonePage6.id = 6 ∧ decodePage2 nonePage6 = none ∧
      (live6 (some 4)).codeSince = some 4 ∧ 4 ≠ drawCode .claiming := by
  unfold OldestFrame; decide
theorem witness_claimEnds_silence :
    peerOf (consenting none) 6 = some (peer 6 (some (live6 none))) ∧ (consenting none).blend.binding = none ∧
      (consenting none).blend.held = none ∧ (live6 none).claim.id.station = 6 ∧ (consenting none).station.state ≠ .powerDown ∧ (consenting none).claims.own = none := by decide

/-- A state whose oldest receive-queue entry is the notice of an own CLAIM. -/
def noticing (s : State) : State := { s with port := { s.port with rx := [.notice (claimFrame (ownOf .queued).claim)] } }

theorem witness_notice_queued :
    let s := noticing (claimingDraw .queued)
    operating s = true ∧ s.port.rx = .notice (claimFrame (ownOf .queued).claim) :: [] ∧
      kindOf (claimFrame (ownOf .queued).claim).id = kClaim ∧ s.claims.own = some (ownOf .queued) ∧
      (ownOf .queued).phase = .queued ∧
      (ownOf .queued).claim.id.sequence = sequenceOf (claimFrame (ownOf .queued).claim).id ∧
      sequenceOf (claimFrame (ownOf .queued).claim).id ∉ s.claims.abandoned ∧
      ownedOf s (ownOf .queued).claim = [] ∧ allGranted (ownOf .queued) = false := by
  decide
theorem witness_notice_abandoned :
    let s := noticing { base with claims := { base.claims with abandoned := [12] } }
    operating s = true ∧ s.port.rx = .notice (claimFrame (ownOf .queued).claim) :: [] ∧
      sequenceOf (claimFrame (ownOf .queued).claim).id ∈ s.claims.abandoned ∧ s.station.state = .running ∧
      RoomFor 1 s := by unfold RoomFor; decide

theorem witness_consentTimer_inForce :
    (claimingDraw .inForce).station.state = .running ∧ (claimingDraw .inForce).claims.own = some (ownOf .inForce) ∧
      (ownOf .inForce).phase ≠ .consented ∧ (ownOf .inForce).consentDue = some 11000 ∧
      (claimingDraw .inForce).handler.deferred = some ⟨14, 3, 21⟩ ∧ RoomFor 2 (claimingDraw .inForce) := by
  unfold RoomFor; decide
theorem witness_consentTimer_queued :
    let s := { claimingDraw .queued with
      port := { Port.reset with tx := [⟨claimFrame (ownOf .queued).claim, .claimUnit, false⟩] } }
    s.station.state = .running ∧ s.claims.own = some (ownOf .queued) ∧ (ownOf .queued).phase = .queued ∧
      (ownOf .queued).consentDue = some 11000 ∧ s.handler.deferred = some ⟨14, 3, 21⟩ ∧ RoomFor 2 s ∧
      ∃ e ∈ s.port.tx, e.onWire = false ∧ kindOf e.frame.id = kClaim ∧
        sequenceOf e.frame.id = (ownOf .queued).claim.id.sequence := by
  unfold RoomFor; decide
theorem witness_rebuild :
    let s := { base with claims := { base.claims with rebuildDue := some 10000 } }
    s.station.state ≠ .powerDown ∧ s.claims.rebuildDue = some 10000 ∧ s.claims.own = none ∧
      (∀ p ∈ s.claims.view, p.live = none) := by decide

/-! ### Witnesses: chapter 7 -/

/-- The binding of a follower to the claim (2, 40) of its lead. -/
def binding : Binding := ⟨⟨2, 40⟩, 2, ⟨3, false, 0, 0⟩, 200, none, Holds.empty, none⟩

/-- R156: on power-fail the binding record is held, with the lead quiet timer that R136 puts in it. -/
theorem test_power_fail_holds_binding :
    (holdBlend { Blend.reset with follower := .fRun, binding := some { binding with quietDue := some 10000 } }).binding =
      some { binding with quietDue := some 10000 } := by decide

/-- A follower bound to its lead. -/
def follower (f : FollowerState) (b : Binding) : State :=
  { base with blend := { Blend.reset with follower := f, binding := some b, trimDue := some 40000 } }

/-- A lead report of station 2. -/
def leadReport (d : DrawState) : Frame := leadProgFrame 2 3 40 400000 d .fast false

theorem witness_leadReport_flowing :
    operating (follower .fRun binding) = true ∧ (follower .fRun binding).blend.binding = some binding ∧
      (follower .fRun binding).blend.follower = .fRun ∧ binding.holds = Holds.empty ∧
      OldestFrame (hearing (leadReport .flowing) (follower .fRun binding)) (leadReport .flowing) 9990 ∧
      kindOf (leadReport .flowing).id = kProg ∧ lowTagOf (leadReport .flowing).id = 0 ∧
      sourceOf (leadReport .flowing).id = binding.lead ∧
      sequenceOf (leadReport .flowing).id = binding.claim.sequence ∧ binding.report = none ∧
      reportedCode (decodeLeadReport (leadReport .flowing)) = drawCode .flowing := by
  unfold OldestFrame; decide
theorem witness_leadReport_closing :
    operating (follower .fRun binding) = true ∧ (follower .fRun binding).blend.binding = some binding ∧
      (follower .fRun binding).blend.follower = .fRun ∧ binding.holds = Holds.empty ∧ binding.report = none ∧ OldestFrame (hearing (leadReport .closing) (follower .fRun binding)) (leadReport .closing) 9990 ∧
      kindOf (leadReport .closing).id = kProg ∧ lowTagOf (leadReport .closing).id = 0 ∧
      sourceOf (leadReport .closing).id = binding.lead ∧
      sequenceOf (leadReport .closing).id = binding.claim.sequence ∧
      reportedCode (decodeLeadReport (leadReport .closing)) = drawCode .closing := by
  unfold OldestFrame; decide
theorem witness_leadQuiet :
    let b := { binding with quietDue := some 10000 }
    operating (follower .fRun b) = true ∧ (follower .fRun b).blend.binding = some b ∧
      (follower .fRun b).blend.follower = .fRun ∧ b.quietDue = some 10000 ∧ 0 < (follower .fRun b).cfg.dwell ∧
      (follower .fRun b).valve.halt = .clear := by decide
theorem witness_trim : operating (follower .fTrim binding) = true ∧
    (follower .fTrim binding).blend.binding = some binding ∧ (follower .fTrim binding).blend.follower = .fTrim ∧
    (follower .fTrim binding).blend.trimDue = some 40000 := by decide
theorem witness_followedEnd :
    let s := flying (follower .fClose binding)
    s.station.state ≠ .powerDown ∧ s.blend.follower = .fClose ∧ s.blend.binding = some binding ∧
      s.journal.inflight = some write ∧ s.station.state = .running ∧ RoomFor 2 s := by unfold RoomFor; decide
theorem witness_heldReport :
    let s := { base with blend := { Blend.reset with held := some heldReport } }
    s.station.state ≠ .powerDown ∧ s.blend.held = some heldReport ∧ heldReport.discardDue = some 54750 := by decide

/-- The lead's side of the blended draw (3, 40) with station 4. -/
def lead : Lead := ⟨40, 4, false, none, none, none, none, some 10000, false⟩

/-- A blended draw. -/
def blendedDraw (d : DrawState) : State := { drawAt d current with blend := { Blend.reset with lead := some lead } }

/-- A follower report of a lag of 2,001 ml. -/
def lagReport : Frame := followerProgFrame 4 3 40 97500 2001 .fRun .fast

theorem witness_followerReport :
    OldestFrame (hearing lagReport (blendedDraw .flowing)) lagReport 9990 ∧ (blendedDraw .flowing).blend.lead = some lead ∧
      kindOf lagReport.id = kProg ∧ sourceOf lagReport.id = lead.partner ∧ sequenceOf lagReport.id = lead.sequence ∧
      (blendedDraw .flowing).draw.state = .flowing ∧ (blendedDraw .flowing).draw.current = some current ∧
      lowTagOf lagReport.id = 0 ∧ (blendedDraw .flowing).blend.follower = .unbound ∧ lead.lastLag = none ∧
      2 * ((blendedDraw .flowing).cfg.blendWindow : Int) < (decodeFollowerReport lagReport).2 := by
  unfold OldestFrame; decide
/-- A follower report of a lag, heard by a lead that has had one of `previous`. -/
def lagAfter (previous lag : Int) : State :=
  let s := hearing (followerProgFrame 4 3 40 97500 lag .fRun .fast) (blendedDraw .flowing)
  { s with blend := { s.blend with lead := some { lead with lastLag := some previous } } }

theorem witness_lagAbort :
    OldestFrame (lagAfter 4000 4001) (followerProgFrame 4 3 40 97500 4001 .fRun .fast) 9990 ∧
      (lagAfter 4000 4001).draw.state = .flowing ∧ (lagAfter 4000 4001).draw.current = some current ∧
      (lagAfter 4000 4001).blend.follower = .unbound ∧
      4 * ((lagAfter 4000 4001).cfg.blendWindow : Int) <
        (decodeFollowerReport (followerProgFrame 4 3 40 97500 4001 .fRun .fast)).2 := by
  unfold OldestFrame; decide
theorem witness_lagKept :
    OldestFrame (lagAfter 4001 4001) (followerProgFrame 4 3 40 97500 4001 .fRun .fast) 9990 ∧
      ¬(4 * ((lagAfter 4001 4001).cfg.blendWindow : Int) <
          (decodeFollowerReport (followerProgFrame 4 3 40 97500 4001 .fRun .fast)).2 ∧
        4001 < (decodeFollowerReport (followerProgFrame 4 3 40 97500 4001 .fRun .fast)).2) := by
  unfold OldestFrame; decide
/-- The parts of a final report. -/
def finalPart (n : Nat) : Frame :=
  if n = 1 then finalPart1Frame 4 3 40 heldReport.report else finalPart2Frame 4 3 40 heldReport.report
theorem witness_finalPart (n : Nat) (h : n = 1 ∨ n = 2) :
    OldestFrame (hearing (finalPart n) (blendedDraw .flowing)) (finalPart n) 9990 ∧
      kindOf (finalPart n).id = kProg ∧ sourceOf (finalPart n).id = lead.partner ∧
      sequenceOf (finalPart n).id = lead.sequence ∧ lowTagOf (finalPart n).id = n := by
  rcases h with rfl | rfl <;> (unfold OldestFrame; decide)
/-- A blended draw whose session is closed, with a part 1 of the final report. -/
def closedBlend : State :=
  let s := blendedDraw .closing
  { s with
    draw := { s.draw with
      selection := some ⟨1, 1, some 1000, some ⟨200, 3, 8⟩⟩
      current := some { current with final := some ⟨800000, 800000, 1008600, 450, false⟩ } }
    claims := { s.claims with own := some ⟨⟨⟨3, 40⟩, some ⟨1, 1⟩, none, some (4, 200)⟩, .consented, [], none, some 0, false, false⟩ }
    blend := { s.blend with lead := some { lead with part1 := some ⟨199350, 199400⟩ } }
    journal := { s.journal with inflight := some write } }

theorem witness_assembly :
    closedBlend.draw.state = .closing ∧ closedBlend.journal.inflight = some write ∧
      OldestFrame (hearing (finalPart 2) closedBlend) (finalPart 2) 9990 ∧ lowTagOf (finalPart 2).id = 2 ∧
      sourceOf (finalPart 2).id = lead.partner ∧ sequenceOf (finalPart 2).id = lead.sequence ∧
      closedBlend.station.state = .running ∧ RoomFor 1 closedBlend ∧ lead.waitDue = some 10000 ∧ lead.part2 = none := by
  unfold OldestFrame RoomFor; decide
theorem witness_blendWait :
    (blendedDraw .closing).station.state ≠ .powerDown ∧ lead.waitDue = some 10000 ∧
      (blendedDraw .closing).draw.state = .closing ∧ (blendedDraw .closing).draw.current = some current ∧
      current.final = none := by decide

/-! ### Witnesses: chapters 8 and 9 -/

theorem witness_compartment_invalid :
    RequestServed (hearing (ask 9 [8, 1]) base) (ask 9 [8, 1]) 9990 9 (.setCompartment 8 1) ∧
      ∀ o ∈ base.cfg.outputs, o.comp ≠ 8 := by unfold RequestServed; decide
theorem witness_compartment_busy :
    RequestServed (hearing (ask 9 [2, 15]) (consenting none)) (ask 9 [2, 15]) 9990 9 (.setCompartment 2 15) ∧
      ¬(∀ o ∈ (consenting none).cfg.outputs, o.comp ≠ 2) ∧ ∃ x ∈ (consenting none).claims.records, x.1 = .comp 2 := by
  unfold RequestServed; decide
theorem witness_compartment_ok :
    RequestServed (hearing (ask 9 [1, 0]) base) (ask 9 [1, 0]) 9990 9 (.setCompartment 1 0) ∧
      ¬(∀ o ∈ base.cfg.outputs, o.comp ≠ 1) ∧ ¬∃ x ∈ base.claims.records, x.1 = .comp 1 := by
  unfold RequestServed; decide
theorem witness_readTotals :
    RequestServed (hearing (ask 15 [2, 15]) base) (ask 15 [2, 15]) 9990 15 (.readTotals .net 15) ∧
      base.journal.inflight = none ∧ base.journal.mem.station = some record := by unfold RequestServed; decide
theorem witness_unknownCode :
    base.station.state = .running ∧ base.handler.serving = none ∧
      (hearing (ask 17 []) base).port.rx.head? = some (.frame (ask 17 []) 9990) ∧ kindOf (ask 17 []).id = kAsk ∧
      16 < askCodeOf (ask 17 []).id ∧ destOf (ask 17 []).id ≠ 0 ∧
      (entryOfStation base.handler.table (sourceOf (ask 17 []).id)).map (·.asker) ≠ some (askerOf (ask 17 [])) := by decide

/-- A journal that holds ticket 4,120 CLOSED. -/
def closedTicket : State := { base with journal := { base.journal with mem := ⟨some record, [ticket 4120 .closed]⟩ } }

/-- A request on a ticket. -/
def ticketAsk (code n : Nat) : Frame := ask code (bytesOf 4 n)

theorem witness_ticket_closed :
    ticketOf closedTicket.journal.mem 4120 = some (ticket 4120 .closed) ∧ (ticket 4120 .closed).state = .closed ∧
      closedTicket.journal.inflight = none ∧ closedTicket.journal.works = [] ∧
      RequestServed (hearing (ticketAsk 13 4120) closedTicket) (ticketAsk 13 4120) 9990 13 (.ackTicket 4120) := by
  unfold RequestServed; decide
theorem witness_ticket_print :
    RequestServed (hearing (ticketAsk 14 4120) closedTicket) (ticketAsk 14 4120) 9990 14 (.print 4120) ∧
      closedTicket.printer.queue.length < 4 ∧ ∀ j ∈ closedTicket.printer.queue, j.ticket ≠ 4120 := by
  unfold RequestServed; decide
theorem witness_ticket_fetch :
    RequestServed (hearing (ticketAsk 12 4120) closedTicket) (ticketAsk 12 4120) 9990 12 (.fetchTicket 4120) ∧
      closedTicket.journal.fetch = none ∧ RoomFor 3 closedTicket ∧ 2 < (ticketSegments (ticket 4120 .closed)).length := by
  unfold RequestServed RoomFor; decide +kernel
theorem witness_ticket_unknown :
    ticketOf closedTicket.journal.mem 4121 = none ∧ closedTicket.journal.inflight = none ∧
      RequestServed (hearing (ticketAsk 13 4121) closedTicket) (ticketAsk 13 4121) 9990 13 (.ackTicket 4121) ∧
      RequestServed (hearing (ticketAsk 14 4121) closedTicket) (ticketAsk 14 4121) 9990 14 (.print 4121) ∧
      RequestServed (hearing (ticketAsk 12 4121) closedTicket) (ticketAsk 12 4121) 9990 12 (.fetchTicket 4121) := by
  unfold RequestServed; decide

/-- Station 3 in calibration mode or sealed. -/
def sealOf (calibration : Bool) : State := { base with station := { base.station with calibration := calibration } }

/-- A WRITE_CONFIG of item 94. -/
def writeAsk (value : Nat) : Frame := ask 16 ([94] ++ bytesOf 7 value)

theorem witness_writeConfig_sealed :
    RequestServed (hearing (writeAsk 1) (sealOf false)) (writeAsk 1) 9990 16 (.writeConfig 94 1) ∧
      (sealOf false).station.calibration = false := by unfold RequestServed; decide
theorem witness_writeConfig_invalid :
    RequestServed (hearing (writeAsk 2) (sealOf true)) (writeAsk 2) 9990 16 (.writeConfig 94 2) ∧
      writable (sealOf true).station.image 94 2 = false := by unfold RequestServed; decide
theorem witness_writeConfig_written :
    RequestServed (hearing (writeAsk 1) (sealOf true)) (writeAsk 1) 9990 16 (.writeConfig 94 1) ∧
      (sealOf true).station.calibration = true ∧ writable (sealOf true).station.image 94 1 = true := by
  unfold RequestServed; decide
theorem witness_configWritten :
    let s := flying { base with
      station := { base.station with cfgWrite := some (94, 1) }
      handler := { Handler.reset with serving := some ⟨⟨14, 16, 21⟩, .writeConfig 94 1⟩ } }
    operating s = true ∧ s.station.cfgWrite = some (94, 1) ∧
      s.handler.serving = some ⟨⟨14, 16, 21⟩, .writeConfig 94 1⟩ ∧ 1 ≤ 94 ∧ 94 ≤ 94 ∧
      s.station.image.items.length = 95 ∧ s.journal.inflight = some write ∧ RoomFor 1 s := by unfold RoomFor; decide
theorem witness_configWritten_fault :
    let s := { base with
      station := { base.station with state := .configFault, cfgWrite := some (1, 1) }
      handler := { Handler.reset with serving := some ⟨⟨14, 16, 21⟩, .writeConfig 1 1⟩ } }
    s.station.state = .configFault ∧ s.station.cfgWrite = some (1, 1) ∧
      s.handler.serving = some ⟨⟨14, 16, 21⟩, .writeConfig 1 1⟩ ∧ 1 ≤ 1 ∧ 1 ≤ 94 ∧ s.station.image.items.length = 95 ∧
      RoomFor 1 s := by unfold RoomFor; decide
theorem witness_journalWrite :
    let s := flying { base with journal := { base.journal with works := [.collect 4120] } }
    operating s = true ∧ s.journal.inflight = some write ∧ s.journal.works = .collect 4120 :: [] ∧
      s.handler.serving = none ∧ s.cfg.autoPrint = false ∧
      (∀ item a, Work.collect 4120 ≠ .checkpoint a ∧ write.change ≠ .checkpoint item a) ∧
      Work.collect 4120 ≠ .followerCheckpoint :=
  ⟨rfl, rfl, rfl, rfl, rfl, fun _ _ => ⟨nofun, nofun⟩, nofun⟩
theorem witness_handOver :
    base.journal.mem.station = some record ∧ record.netTotals.length = 15 ∧ record.grossTotals.length = 15 ∧
      1 ≤ (item 150600 151900).product ∧ (item 150600 151900).product ≤ 15 := by decide

theorem witness_segments_two :
    let k := { ticket 4121 .closed with items := [item 150600 151900, item 43880 44260] }
    k.items.length = 2 ∧ ∀ i ∈ k.items, i.progress = none ∧ i.intermix = none ∧ i.blend = none := by decide
theorem witness_segments_four :
    let k := { ticket 4121 .opened with items := [fullItem, fullItem, fullItem, fullItem] }
    k.items.length = 4 ∧ ∀ i ∈ k.items, i.progress.isSome ∧ i.intermix.isSome ∧ i.blend.isSome := by decide
theorem witness_segment :
    let s := { base with journal := { base.journal with fetch := some ⟨0, 12, 4120, [List.replicate 8 0], 0, 0⟩ } }
    s.station.state = .running ∧ s.journal.fetch = some ⟨0, 12, 4120, [List.replicate 8 0], 0, 0⟩ ∧
      [List.replicate 8 (0 : Byte)][0]? = some (List.replicate 8 0) ∧ RoomFor 1 s := by unfold RoomFor; decide

/-! ### Witnesses: chapters 10 and 11 -/

theorem witness_xoff : operating printing = true ∧ printing.cfg.flowControl = .xonXoff ∧
    printing.printer.state = .printing ∧ printing.printer.go = true := by decide
theorem witness_cts :
    let s := { printing with cfg := { cfg with flowControl := .cts } }
    operating s = true ∧ s.cfg.flowControl = .cts ∧ s.printer.state = .printing ∧ s.printer.go = true := by decide
theorem witness_shifted : operating printing = true ∧ printing.printer.state = .printing ∧
    printing.printer.shifting = some 64 ∧ printing.printer.fifo = 65 :: [66] ∧ [(66 : Byte)].length < 64 := by decide

/-- A printer in a state with one job. -/
def printerAt (st : PrintState) : State :=
  { base with printer := { Printer.reset with state := st, queue := [⟨4120, false⟩], go := false } }

theorem witness_stall : (printerAt (.held 10000)).station.state ≠ .powerDown ∧
    (printerAt (.held 10000)).printer.state = .held 10000 ∧
    (printerAt (.held 10000)).printer.queue = ⟨4120, false⟩ :: [] ∧ (printerAt (.held 10000)).printer.go = false := by
  decide
theorem witness_trailer : (printerAt (.aborting (some 10000))).station.state ≠ .powerDown ∧
    (printerAt (.aborting (some 10000))).printer.state = .aborting (some 10000) ∧
    (printerAt (.aborting (some 10000))).printer.queue = [⟨4120, false⟩] ∧
    (printerAt (.aborting (some 10000))).printer.shifting = none := by decide

theorem witness_powerUp : Instr.powerUp 15 true = .powerUp 15 true ∧ base.journal.inflight = none ∧
    base.station.cfgWrite = none ∧ (15 : BitVec 4) ≠ 0 := by decide
theorem witness_resetPin : Instr.resetPin 0 false = .resetPin 0 false ∧ base.pins.powerFail = false ∧
    base.journal.inflight = none ∧ base.station.cfgWrite = none := by decide

/-- A name of eight spaces. -/
def blankName : Nat := 0x40810204081020

/-- An image of a HOSE station with one linearization point and one product. -/
def goodImage : Image :=
  { items := [0, 1, 0, 200, 2, 4, 1] ++ [500, 1004000] ++ List.replicate 14 0 ++ [1] ++ [1, 1, 840, 2, blankName, blankName] ++
      List.replicate 42 0 ++ [30000, 5000, 1800, 100, 5000, 120, 30, 3000, 20, 12000, 800, 1, 10] ++
      [2, 4, 0, 0, 1, 1000, 9600, 1, 0, 0]
    sumGood := true }

/-- Station 3 in STARTING with a journal of its own. -/
def starting : State := { base with station := { base.station with state := .starting } }

theorem witness_imageRead_silent : starting.station.state = .starting ∧ starting.journal.inflight = none := by decide
theorem witness_imageRead_bad : imageFault { goodImage with sumGood := false } = some (.sumBad, 0) := by decide
theorem witness_imageRead_good : imageFault goodImage = none ∧
    startWorks { starting with station := { starting.station with image := goodImage }, cfg := imageCfg goodImage } = [] ∧
    starting.pins.emergencyStop = false := by decide +kernel
theorem witness_powerFail : operating fastDraw = true ∧ fastDraw.station.cfgWrite = none := by decide

end Sys2Proof.Tests
end

