-- ==== Sys2Proof/Proofs/PulserCounts.lean ====
section
/-! PROOFS. Chapter 1: the count of a transition (R2 to R4) joins the running count, and nothing that the transition
sets off moves it. The proof follows the transition's way through the part: the decoder and the count, the checks of pulse
security, then the match and the PULSE_FAULT in either order (log 4). -/

namespace Sys2Proof.Machine

/-! ### Reactions in any order (log 4) -/

theorem pick_perm {α : Type} (n : Nat) (x : α) (xs : List α) :
    ((pick n x xs).1 :: (pick n x xs).2).Perm (x :: xs) := by
  induction n, x, xs using pick.induct with
  | case1 x xs => exact .refl _
  | case2 n x => exact .refl _
  | case3 n x y ys ih => exact (List.Perm.swap _ _ _).trans (ih.cons x)

theorem arrange_perm {α : Type} (n choice : Nat) (xs : List α) : (arrange n choice xs).Perm xs := by
  induction n, choice, xs using arrange.induct with
  | case1 choice xs => exact .refl _
  | case2 n choice => exact .refl _
  | case3 n choice x => exact .refl _
  | case4 n choice x y zs len r ih => exact (ih.cons _).trans (pick_perm _ _ _)

theorem anyOrder_perm {α : Type} (i : Nat) (xs : List α) : (anyOrder i xs).Perm xs := arrange_perm _ _ _

/-- What every reaction leaves as it was, and what does not read the count of free choices, stands after all of them,
whatever their order. -/
theorem runAnyOrder_keeps {β : Type} (g : State → β) (rs : List (State → State)) (s : State)
    (hfree : g { s with freeIndex := s.freeIndex + 1 } = g s) (hrs : ∀ r ∈ rs, ∀ x, g (r x) = g x) :
    g (runAnyOrder rs s) = g s := by
  have fold : ∀ (l : List (State → State)) (x : State), (∀ r ∈ l, r ∈ rs) → g (l.foldl (fun t f => f t) x) = g x := by
    intro l
    induction l with
    | nil => intro x _; rfl
    | cons r l ih =>
      intro x hl
      exact (ih (r x) fun q hq => hl q (List.mem_cons_of_mem _ hq)).trans (hrs r (hl r List.mem_cons_self) x)
  exact (fold _ _ fun r hr => (anyOrder_perm _ _).mem_iff.1 hr).trans hfree

/-! ### Where the pulse counter stands -/

/-- The decoder state and the running count: what R2 to R4 say of the pulse counter. -/
def Pulse.position (p : Pulse) : Bool × Bool × Int := (p.decoderA, p.decoderB, p.running)

/-- The running count once a transition's count has joined it (R7); a transition without a count leaves it. -/
def joinRunning (n running : Int) : Int := if n = 0 then running else sum64 (running + n)

@[simp] theorem joinRunning_zero (r : Int) : joinRunning 0 r = r := rfl
@[simp] theorem joinRunning_one (r : Int) : joinRunning 1 r = sum64 (r + 1) := rfl
@[simp] theorem joinRunning_neg_one (r : Int) : joinRunning (-1) r = sum64 (r - 1) := rfl

theorem addCount_position (now : Nat) (n : Int) (p : Pulse) :
    (addCount now n p).position = (p.decoderA, p.decoderB, sum64 (p.running + n)) := by
  unfold addCount; split <;> rfl

@[simp] theorem windowCount_position (p : Pulse) : (windowCount p).position = p.position := by
  unfold windowCount
  split
  · split <;> rfl
  · rfl

@[simp] theorem matchTarget_position (p : Pulse) : (matchTarget p).1.position = p.position := by
  unfold matchTarget
  split
  · split <;> rfl
  · rfl

theorem takeCount_position (now : Nat) (n : Int) (p : Pulse) :
    (takeCount now n p).1.position = (p.decoderA, p.decoderB, joinRunning n p.running) := by
  unfold takeCount joinRunning
  split
  · rfl
  · split
    · rw [matchTarget_position, windowCount_position, addCount_position]
    · exact addCount_position _ _ _

@[simp] theorem takePhaseError_position (limit : Nat) (p : Pulse) :
    (takePhaseError limit p).1.position = p.position := by
  unfold takePhaseError
  split
  · split <;> rfl
  · rfl

@[simp] theorem takeLoneEdge_position (limit : Nat) (onA : Bool) (p : Pulse) :
    (takeLoneEdge limit onA p).1.position = p.position := by
  unfold takeLoneEdge
  split
  · split <;> split <;> rfl
  · rfl

/-! ### The count of a transition (R2 to R5) -/

theorem edgeOf_eq_forward_iff (a b a' b' : Bool) : edgeOf a b a' b' = .forward ↔ (a, b, a', b') ∈ forwardEdges := by
  revert a b a' b'; decide

theorem edgeOf_eq_reverse_iff (a b a' b' : Bool) : edgeOf a b a' b' = .reverse ↔ (a, b, a', b') ∈ reverseEdges := by
  revert a b a' b'; decide

theorem countOfEdge_none {a b a' b' : Bool} (mode : CountMode) (h : edgeOf a b a' b' = .none) :
    countOfEdge mode a b a' b' = 0 := by
  cases mode <;> simp [countOfEdge, h]

theorem countOfEdge_phaseError {a b a' b' : Bool} (mode : CountMode) (h : edgeOf a b a' b' = .phaseError) :
    countOfEdge mode a b a' b' = 0 := by
  cases mode <;> simp [countOfEdge, h]

theorem countOfEdge_x4_forward {a b a' b' : Bool} (h : (a, b, a', b') ∈ forwardEdges) :
    countOfEdge .x4 a b a' b' = 1 := by
  simp [countOfEdge, (edgeOf_eq_forward_iff a b a' b').2 h]

theorem countOfEdge_x4_reverse {a b a' b' : Bool} (h : (a, b, a', b') ∈ reverseEdges) :
    countOfEdge .x4 a b a' b' = -1 := by
  simp [countOfEdge, (edgeOf_eq_reverse_iff a b a' b').2 h]

theorem countOfEdge_x4_other {a b a' b' : Bool} (h : (a, b, a', b') ∉ forwardEdges ++ reverseEdges) :
    countOfEdge .x4 a b a' b' = 0 := by
  rw [List.mem_append, ← edgeOf_eq_forward_iff, ← edgeOf_eq_reverse_iff, not_or] at h
  obtain ⟨hforward, hreverse⟩ := h
  cases hedge : edgeOf a b a' b' with
  | none => exact countOfEdge_none _ hedge
  | forward => exact absurd hedge hforward
  | reverse => exact absurd hedge hreverse
  | phaseError => exact countOfEdge_phaseError _ hedge

/-- The one place of the cycle where X1 counts (R4). -/
theorem countOfEdge_x1 (a b a' b' : Bool) :
    countOfEdge .x1 a b a' b' =
      if (a, b, a', b') = (false, false, true, false) then 1
      else if (a, b, a', b') = (true, false, false, false) then -1
      else 0 := by
  revert a b a' b'; decide

/-- A transition and the same transition backward count to nothing, in either mode. -/
theorem countOfEdge_add_reverse (mode : CountMode) (a b a' b' : Bool) :
    countOfEdge mode a b a' b' + countOfEdge mode a' b' a b = 0 := by
  cases mode
  · revert a b a' b'; decide
  · revert a b a' b'; decide

/-! ### A transition taken by the part -/

/-- The decoder takes the new levels whatever the kind of the transition, and its count joins the running count. -/
theorem takeTransition_position (cfg : Cfg) (now : Nat) (a b : Bool) (p : Pulse) :
    (takeTransition cfg now a b p).1.position =
      (a, b, joinRunning (countOfEdge cfg.countMode p.decoderA p.decoderB a b) p.running) := by
  unfold takeTransition
  cases hedge : edgeOf p.decoderA p.decoderB a b with
  | none => simp [countOfEdge_none _ hedge, Pulse.position]
  | forward => simp [takeCount_position]
  | reverse => simp [takeCount_position]
  | phaseError =>
    rw [countOfEdge_phaseError _ hedge]
    exact takePhaseError_position _ _

theorem signalPoint_pulse (p : Point) (s : State) : (signalPoint p s).pulse = s.pulse :=
  (signalPoint_only p s).get .pulse

/-- PULSE_FAULT sets the latch and leaves the counts: counting goes on (R14). -/
theorem raisePulseFault_position (s : State) : (raisePulseFault s).pulse.position = s.pulse.position := by
  unfold raisePulseFault
  split
  · rfl
  · have enter : ∀ e x, (enterClosing e x).pulse = x.pulse := fun e x => (enterClosing_only e x).get .pulse
    have follow : ∀ x, (followerPulseFault x).pulse = x.pulse := fun x => (followerPulseFault_only x).get .pulse
    simp only
    split
    · rw [enter]; rfl
    · rw [follow]; rfl
    · rfl

/-- A reaction to a transition is the signal of a match or the raise of PULSE_FAULT. -/
theorem mem_pulseReactions {e : PulseEvents} {r : State → State} (h : r ∈ pulseReactions e) :
    (∃ p, r = signalPoint p) ∨ r = raisePulseFault := by
  rcases List.mem_append.1 h with hsignal | hfault
  · obtain ⟨p, -, rfl⟩ : ∃ p, e.point = some p ∧ signalPoint p = r := by simpa using hsignal
    exact .inl ⟨p, rfl⟩
  · split at hfault
    · exact .inr (List.mem_singleton.1 hfault)
    · exact absurd hfault List.not_mem_nil

theorem pulseReactions_only {e : PulseEvents} {r : State → State} (h : r ∈ pulseReactions e) (s : State) :
    OnlyChanges [.pulse, .engine, .draw, .valve, .port, .claims, .blend, .journal] s (r s) := by
  obtain ⟨p, rfl⟩ | rfl := mem_pulseReactions h
  · exact (signalPoint_only p s).mono (by decide)
  · exact (raisePulseFault_only s).mono (by decide)

theorem pulseReactions_position {e : PulseEvents} {r : State → State} (h : r ∈ pulseReactions e) (s : State) :
    (r s).pulse.position = s.pulse.position := by
  obtain ⟨p, rfl⟩ | rfl := mem_pulseReactions h
  · rw [signalPoint_pulse]
  · exact raisePulseFault_position s

theorem transition_position (a b : Bool) (s : State) :
    (transition a b s).pulse.position =
      (a, b, joinRunning (countOfEdge s.cfg.countMode s.pulse.decoderA s.pulse.decoderB a b) s.pulse.running) :=
  (runAnyOrder_keeps (fun x => x.pulse.position) _ _ rfl fun _ hr => pulseReactions_position hr).trans
    (takeTransition_position _ _ _ _ _)

theorem transition_only (a b : Bool) (s : State) :
    OnlyChanges [.pulse, .engine, .draw, .valve, .port, .claims, .blend, .journal, .freeIndex] s (transition a b s) :=
  (runAnyOrder_only _ _ fun _ hr => pulseReactions_only hr).comp (only_pulse _)

theorem exec_pulserTransition (a b : Bool) (s : State) (h : operating s = true) :
    exec (.pulserTransition a b) s =
      .next (announce (transition a b) (setPins (fun p => { p with pulserA := a, pulserB := b }) s)) :=
  stepWhenOperating_next _ _ h

/-- PULSER_TRANSITION in a station whose counter runs (R2, R7, R17). -/
theorem pulserTransition_joins_count (a b : Bool) (s : State) (h : operating s = true) :
    ∃ t, exec (.pulserTransition a b) s = .next t ∧ t.pulse.decoderA = a ∧ t.pulse.decoderB = b ∧
      t.pulse.running =
        joinRunning (countOfEdge s.cfg.countMode s.pulse.decoderA s.pulse.decoderB a b) s.pulse.running ∧
      OnlyChanges [.pins, .pulse, .engine, .draw, .valve, .port, .claims, .blend, .journal, .freeIndex] s t := by
  refine ⟨_, exec_pulserTransition a b s h, ?_⟩
  have hposition := transition_position a b (setPins (fun p => { p with pulserA := a, pulserB := b }) s)
  simp only [Pulse.position, Prod.mk.injEq] at hposition
  obtain ⟨hA, hB, hrunning⟩ := hposition
  rw [announce_pulse]
  exact ⟨hA, hB, hrunning, (announce_only _ _ (transition_only a b _)).comp (only_pins _)⟩

/-! ### A way through levels, there and back -/

theorem zip_tail_eq_dropLast_zip_tail {α : Type} (l : List α) : l.zip l.tail = l.dropLast.zip l.tail := by
  rw [List.zip_eq_zip_take_min]
  simp [List.dropLast_eq_take, List.take_of_length_le]

/-- A list read backward passes the same neighbours, each pair the other way round. -/
theorem zip_tail_reverse {α : Type} (l : List α) :
    l.reverse.zip l.reverse.tail = ((l.zip l.tail).map Prod.swap).reverse := by
  calc l.reverse.zip l.reverse.tail
      = l.reverse.dropLast.zip l.reverse.tail := zip_tail_eq_dropLast_zip_tail _
    _ = l.tail.reverse.zip l.dropLast.reverse := by rw [List.dropLast_reverse, List.tail_reverse]
    _ = (l.tail.zip l.dropLast).reverse := (List.reverse_zipWith (by simp)).symm
    _ = ((l.zip l.tail).map Prod.swap).reverse := by rw [zip_tail_eq_dropLast_zip_tail l, List.zip_swap]

/-- Where a step back undoes a step, the way there and back comes to nothing. -/
theorem sum_there_and_back {α : Type} (f : α → α → Int) (h : ∀ x y, f x y + f y x = 0) (l : List α) :
    ((l.zip l.tail).map (fun e => f e.1 e.2)).sum +
      ((l.reverse.zip l.reverse.tail).map (fun e => f e.1 e.2)).sum = 0 := by
  rw [zip_tail_reverse, List.map_reverse, List.sum_reverse, List.map_map, ← List.sum_map_add]
  simp [h]

/-! ### The statements -/

/-- Settles O8: the part takes every transition's count into the running count, and in X4 that is the sign of the edge. -/
theorem x4CountsEveryValidEdge : Obligations.X4CountsEveryValidEdge := by
  refine ⟨fun a b s hop hmode => ?_, countOfEdge_add_reverse .x4⟩
  obtain ⟨t, hexec, hA, hB, hrunning, honly⟩ := pulserTransition_joins_count a b s hop
  rw [hmode] at hrunning
  refine ⟨t, hexec, hA, hB, fun hforward => ?_, fun hreverse => ?_, fun hother => ?_, honly⟩
  · rw [hrunning, countOfEdge_x4_forward hforward, joinRunning_one]
  · rw [hrunning, countOfEdge_x4_reverse hreverse, joinRunning_neg_one]
  · rw [hrunning, countOfEdge_x4_other hother, joinRunning_zero]

/-- Settles O9: in X1 the count stands at one place of the cycle; there and back comes to nothing since each step back
undoes its step. -/
theorem x1CountsOncePerCycle : Obligations.X1CountsOncePerCycle := by
  refine ⟨fun a b s hop hmode => ?_,
    sum_there_and_back (fun x y : Bool × Bool => countOfEdge .x1 x.1 x.2 y.1 y.2) fun x y =>
      countOfEdge_add_reverse .x1 x.1 x.2 y.1 y.2⟩
  obtain ⟨t, hexec, hA, hB, hrunning, honly⟩ := pulserTransition_joins_count a b s hop
  refine ⟨t, hexec, hA, hB, ?_, honly⟩
  rw [hrunning, hmode, countOfEdge_x1]
  split
  · exact joinRunning_one _
  · split
    · exact joinRunning_neg_one _
    · exact joinRunning_zero _

end Sys2Proof.Machine
end

