-- ==== Sys2Proof/Proofs/VolumeComputation.lean ====
section
/-! PROOFS. Chapter 2: the conversion of counts to gross and net (R24, R28). Each of the two steps divides what its
remainder and the new part make and keeps the rest; that a part taken back carries back exactly the quotient it gave is one
fact about floors (`floorDiv_carry_back`), used for the gross and for the net. -/

namespace Sys2Proof.Machine

/-! ### A remainder carried from one floor to the next -/

theorem sub_floorDiv_mul (a d : Int) : a - floorDiv a d * d = a % d := by
  rw [Int.emod_def, Int.mul_comm, floorDiv]

theorem floorDiv_eq_zero {r d : Int} (h0 : 0 ≤ r) (hd : r < d) : floorDiv r d = 0 :=
  Int.ediv_eq_zero_of_lt h0 hd

/-- The part `x` joins a remainder `r` and a quotient is taken: what is left, with `x` taken back, gives the quotient
back. -/
theorem floorDiv_carry_back {r d : Int} (x : Int) (h0 : 0 ≤ r) (hd : r < d) :
    floorDiv (r + x - floorDiv (r + x) d * d + -x) d = -floorDiv (r + x) d := by
  have hd0 : d ≠ 0 := (h0.trans_lt hd).ne'
  calc floorDiv (r + x - floorDiv (r + x) d * d + -x) d
      = floorDiv (r + -floorDiv (r + x) d * d) d := by congr 1; ring
    _ = floorDiv r d + -floorDiv (r + x) d := Int.add_mul_ediv_right _ _ hd0
    _ = -floorDiv (r + x) d := by rw [floorDiv_eq_zero h0 hd, zero_add]

/-! ### What a conversion leaves in the context -/

section
variable (dg n : Int) (c : Context)

@[simp] theorem convert_mf : (convert dg n c).mf = c.mf := rfl
@[simp] theorem convert_vcf : (convert dg n c).vcf = c.vcf := rfl
@[simp] theorem convert_gross : (convert dg n c).gross = sum64 (c.gross + grossOf dg n c) := rfl
@[simp] theorem convert_net : (convert dg n c).net = sum64 (c.net + netOf (grossOf dg n c) c) := rfl

theorem convert_grossRem :
    (convert dg n c).grossRem = c.grossRem + n * c.mf - grossOf dg n c * dg := rfl

theorem convert_netRem :
    (convert dg n c).netRem = c.netRem + grossOf dg n c * c.vcf - netOf (grossOf dg n c) c * 1000000 := rfl

theorem convert_grossRem_eq_emod : (convert dg n c).grossRem = (c.grossRem + n * c.mf) % dg :=
  sub_floorDiv_mul _ _

theorem convert_netRem_eq_emod :
    (convert dg n c).netRem = (c.netRem + grossOf dg n c * c.vcf) % 1000000 :=
  sub_floorDiv_mul _ _

/-! ### The ranges of the remainders (R24, R28) -/

theorem convert_grossRem_nonneg (hdg : 0 < dg) : 0 ≤ (convert dg n c).grossRem := by
  rw [convert_grossRem_eq_emod]
  exact Int.emod_nonneg _ hdg.ne'

theorem convert_grossRem_lt (hdg : 0 < dg) : (convert dg n c).grossRem < dg := by
  rw [convert_grossRem_eq_emod]
  exact Int.emod_lt_of_pos _ hdg

theorem convert_netRem_nonneg : 0 ≤ (convert dg n c).netRem := by
  rw [convert_netRem_eq_emod]
  exact Int.emod_nonneg _ (by decide)

theorem convert_netRem_le : (convert dg n c).netRem ≤ 999999 := by
  rw [convert_netRem_eq_emod]
  exact Int.le_of_lt_add_one (Int.emod_lt_of_pos _ (by decide))

end

/-! ### The same counts taken back -/

section
variable {dg : Int} (n : Int) {c : Context}

theorem grossOf_neg_convert (h0 : 0 ≤ c.grossRem) (hd : c.grossRem < dg) :
    grossOf dg (-n) (convert dg n c) = -grossOf dg n c := by
  rw [grossOf, convert_mf, convert_grossRem, Int.neg_mul]
  exact floorDiv_carry_back (n * c.mf) h0 hd

theorem netOf_neg_convert (h0 : 0 ≤ c.netRem) (hd : c.netRem ≤ 999999) :
    netOf (-grossOf dg n c) (convert dg n c) = -netOf (grossOf dg n c) c := by
  rw [netOf, convert_vcf, convert_netRem, Int.neg_mul]
  exact floorDiv_carry_back (grossOf dg n c * c.vcf) h0 (Int.lt_add_one_of_le hd)

theorem convert_neg_convert_grossRem (h0 : 0 ≤ c.grossRem) (hd : c.grossRem < dg) :
    (convert dg (-n) (convert dg n c)).grossRem = c.grossRem := by
  rw [convert_grossRem, grossOf_neg_convert n h0 hd, convert_mf, convert_grossRem]
  ring

theorem convert_neg_convert_netRem (hg0 : 0 ≤ c.grossRem) (hgd : c.grossRem < dg) (hn0 : 0 ≤ c.netRem)
    (hnd : c.netRem ≤ 999999) : (convert dg (-n) (convert dg n c)).netRem = c.netRem := by
  rw [convert_netRem, grossOf_neg_convert n hg0 hgd, netOf_neg_convert n hn0 hnd, convert_vcf, convert_netRem]
  ring

end

/-! ### No counts -/

section
variable {dg : Int} {c : Context}

theorem grossOf_zero (h0 : 0 ≤ c.grossRem) (hd : c.grossRem < dg) : grossOf dg 0 c = 0 := by
  rw [grossOf, zero_mul, add_zero]
  exact floorDiv_eq_zero h0 hd

theorem netOf_zero (h0 : 0 ≤ c.netRem) (hd : c.netRem ≤ 999999) : netOf 0 c = 0 := by
  rw [netOf, zero_mul, add_zero]
  exact floorDiv_eq_zero h0 (Int.lt_add_one_of_le hd)

theorem convert_zero_grossRem (h0 : 0 ≤ c.grossRem) (hd : c.grossRem < dg) :
    (convert dg 0 c).grossRem = c.grossRem := by
  simp [convert_grossRem, grossOf_zero h0 hd]

theorem convert_zero_netRem (hg0 : 0 ≤ c.grossRem) (hgd : c.grossRem < dg) (hn0 : 0 ≤ c.netRem)
    (hnd : c.netRem ≤ 999999) : (convert dg 0 c).netRem = c.netRem := by
  simp [convert_netRem, grossOf_zero hg0 hgd, netOf_zero hn0 hnd]

end

/-! ### The statement -/

/-- Settles O16: each new remainder is what the division leaves, so the part taken back meets the remainder it came from
and its floor is the first quotient with the sign turned. -/
theorem noPartOfACountIsLost : Obligations.NoPartOfACountIsLost := by
  intro dg n c hdg
  refine ⟨convert_gross dg n c, convert_grossRem dg n c, convert_grossRem_nonneg dg n c hdg,
    convert_grossRem_lt dg n c hdg, convert_net dg n c, convert_netRem dg n c, convert_netRem_nonneg dg n c,
    convert_netRem_le dg n c, fun hg0 hgd hn0 hnd => ⟨?takenBack, ?noCounts⟩⟩
  case takenBack =>
    exact ⟨grossOf_neg_convert n hg0 hgd, netOf_neg_convert n hn0 hnd, convert_neg_convert_grossRem n hg0 hgd,
      convert_neg_convert_netRem n hg0 hgd hn0 hnd⟩
  case noCounts =>
    rintro rfl
    have hgross : grossOf dg 0 c = 0 := grossOf_zero hg0 hgd
    have hnet : netOf (grossOf dg 0 c) c = 0 := by rw [hgross, netOf_zero hn0 hnd]
    exact ⟨hgross, hnet, convert_zero_grossRem hg0 hgd, convert_zero_netRem hg0 hgd hn0 hnd⟩

end Sys2Proof.Machine
end

