-- ==== Sys2Proof/Proofs/RequestAnswers.lean ====
section
/-! PROOFS. What a request command does on the way in and on the way out (chapter 8): a request that is served reaches
its block with its entry DEFERRED in the repeat table, and its answer settles that entry and joins the transmit queue,
where the STAT set of the step leaves it. The proofs about single requests use these rules and add what the request's own
block does. -/

namespace Sys2Proof.Machine

/-! ### The transmit queue (R95 to R97) -/

@[simp] theorem mem_txInsert_iff (e x : TxEntry) (tx : List TxEntry) : e ∈ txInsert x tx ↔ e = x ∨ e ∈ tx := by
  induction tx with
  | nil => simp [txInsert]
  | cons y ys ih =>
    unfold txInsert
    split
    · rw [List.mem_cons, ih, List.mem_cons]; tauto
    · exact List.mem_cons

@[simp] theorem txInsert_length (x : TxEntry) (tx : List TxEntry) : (txInsert x tx).length = tx.length + 1 := by
  induction tx with
  | nil => rfl
  | cons y ys ih =>
    unfold txInsert
    split
    · simp [ih]
    · rfl

theorem operating_of_running {s : State} (hrun : s.station.state = .running) : operating s = true := by
  simp [operating, hrun]

theorem portTakes_of_running {s : State} (f : Frame) (hrun : s.station.state = .running) : portTakes s f = true := by
  simp [portTakes, hrun]

/-- In RUNNING a queue with room takes a frame of any kind (R96, R97). -/
theorem sendFrame_of_room {s : State} (w : Sender) (f : Frame) (hrun : s.station.state = .running)
    (hroom : s.port.tx.length < Config.txRoom) :
    sendFrame w f s = { s with port := { s.port with tx := txInsert ⟨f, w, false⟩ s.port.tx } } := by
  simp only [sendFrame, handFrame, portTakes_of_running f hrun, hroom, if_true]

/-- From `s` to `t` the line port changed by at most `n` frames that were handed. -/
structure Hands (n : Nat) (s t : State) : Prop where
  port : HandedAlone s.port t.port
  length : t.port.tx.length ≤ s.port.tx.length + n

theorem Hands.of_port {s t : State} (n : Nat) (h : t.port = s.port) : Hands n s t :=
  ⟨by rw [h]; rfl, by rw [h]; exact Nat.le_add_right _ _⟩

theorem Hands.trans {m n : Nat} {s t u : State} (h₁ : Hands m s t) (h₂ : Hands n t u) : Hands (m + n) s u where
  port := by have h := h₂.port; rw [h₁.port] at h; exact h
  length := by have := h₁.length; have := h₂.length; omega

theorem Hands.of_left_port {n : Nat} {s t u : State} (h : Hands n t u) (hport : t.port = s.port) : Hands n s u :=
  ⟨hport ▸ h.port, hport ▸ h.length⟩

/-- A frame that displaces nothing joins the queue or is refused (R97). -/
theorem sendFrame_hands (w : Sender) (f : Frame) (s : State) (hf : isUrgent f = false) : Hands 1 s (sendFrame w f s) := by
  unfold sendFrame handFrame
  rw [hf]
  split
  · split
    · exact ⟨rfl, by simp⟩
    · exact .of_port 1 rfl
  · exact .of_port 1 rfl

/-! ### A STAT set leaves the frames of every other kind (R100) -/

theorem mem_pageInto_iff {f : Frame} {e : TxEntry} (tx : List TxEntry) (hf : kindOf f.id = kStat)
    (he : kindOf e.frame.id ≠ kStat) : e ∈ pageInto f tx ↔ e ∈ tx := by
  have hne : e.frame ≠ f := fun h => he (h ▸ hf)
  have hid : e.frame.id ≠ f.id := fun h => he (h ▸ hf)
  unfold pageInto
  split
  · rw [List.mem_map]
    constructor
    · rintro ⟨x, hx, rfl⟩
      split at hne
      · exact absurd rfl hne
      · next hother => rwa [if_neg hother]
    · exact fun hmem => ⟨e, hmem, if_neg fun h => hid h.1⟩
  · split
    · rw [mem_txInsert_iff, or_iff_right fun h => hne (congrArg TxEntry.frame h)]
    · rfl

theorem kindOf_pageFrame (s : State) (n : Nat) : kindOf (pageFrame s n).id = kStat := by
  match n with
  | 0 | 1 | n + 2 => exact kindOf_identOf _ _ _ _

theorem mem_queueStat_iff {e : TxEntry} (s : State) (he : kindOf e.frame.id ≠ kStat) :
    e ∈ (queueStat s).port.tx ↔ e ∈ s.port.tx := by
  have page := fun n tx => mem_pageInto_iff (e := e) tx (kindOf_pageFrame s n) he
  unfold queueStat
  split
  · simp only [page]
  · exact page 0 _
  · rfl

theorem mem_announce_iff {e : TxEntry} (g : State → State) (s : State) (he : kindOf e.frame.id ≠ kStat) :
    e ∈ (announce g s).port.tx ↔ e ∈ (g s).port.tx := by
  by_cases h : page0State (g s) = page0State s
  · rw [announce_same g s h]
  · rw [announce_changed g s h, mem_queueStat_iff _ he]

/-- The end of a step can change the line port alone. -/
theorem announce_only_port (g : State → State) (s : State) : OnlyChanges [.port] (g s) (announce g s) := by
  by_cases h : page0State (g s) = page0State s
  · rw [announce_same g s h]
  · rw [announce_changed g s h]; exact queueStat_only _

theorem Queued.announce {f : Frame} {g : State → State} {s : State} (hf : kindOf f.id ≠ kStat) (h : Queued f (g s)) :
    Queued f (announce g s) := by
  obtain ⟨e, hmem, rfl⟩ := h
  exact ⟨e, (mem_announce_iff g s hf).2 hmem, rfl⟩

/-! ### An answer is settled and handed (R161) -/

theorem kindOf_answerFrame (n : Nat) (a : Asker) (ans : Answer) : kindOf (answerFrame n a ans).id = kAnswer :=
  kindOf_identOf _ _ _ _

theorem isUrgent_answerFrame (n : Nat) (a : Asker) (ans : Answer) : isUrgent (answerFrame n a ans) = false := by
  simp [isUrgent, kindOf_answerFrame]

theorem kindOf_answerFrame_ne_stat (n : Nat) (a : Asker) (ans : Answer) : kindOf (answerFrame n a ans).id ≠ kStat := by
  simp [kindOf_answerFrame]

section
variable (a : Asker) (ans : Answer) (s : State)

theorem answer_port : (answer a ans s).port = (sendFrame .handler (answerFrame s.station.number a ans) s).port := rfl

theorem answer_handler :
    (answer a ans s).handler = { s.handler with
      table := s.handler.table.map (fun e => if e.asker = a then { e with phase := .settled (some ans) } else e) } := by
  have h := (sendFrame_only_port .handler (answerFrame s.station.number a ans) s (isUrgent_answerFrame _ _ _)).get .handler
  simp only [sameBlock] at h
  simp only [answer, settleEntry_handler, h]

theorem answer_hands : Hands 1 s (answer a ans s) := by
  obtain ⟨hport, hlength⟩ := sendFrame_hands .handler (answerFrame s.station.number a ans) s (isUrgent_answerFrame _ _ _)
  exact ⟨hport, hlength⟩

end

section
variable {s : State} (a : Asker) (ans : Answer) (hrun : s.station.state = .running)

include hrun

/-- An answer that finds room in RUNNING joins the queue. -/
theorem answer_tx_of_room (hroom : s.port.tx.length < Config.txRoom) :
    (answer a ans s).port.tx = txInsert ⟨answerFrame s.station.number a ans, .handler, false⟩ s.port.tx := by
  rw [answer_port, sendFrame_of_room _ _ hrun hroom]

theorem queued_answer (hroom : s.port.tx.length < Config.txRoom) :
    Queued (answerFrame s.station.number a ans) (answer a ans s) := by
  refine ⟨⟨answerFrame s.station.number a ans, .handler, false⟩, ?_, rfl⟩
  rw [answer_tx_of_room a ans hrun hroom, mem_txInsert_iff]
  exact .inl rfl

/-- Two answers one after the other, both with room: what waits then in the queue. -/
theorem mem_answer_answer_iff (b : Asker) (ans' : Answer) {e : TxEntry} (hroom : RoomFor 2 s) :
    e ∈ (answer b ans' (answer a ans s)).port.tx ↔
      e = ⟨answerFrame s.station.number b ans', .handler, false⟩ ∨
        e = ⟨answerFrame s.station.number a ans, .handler, false⟩ ∨ e ∈ s.port.tx := by
  have hstation : (answer a ans s).station = s.station := (answer_only a ans s).get .station
  have hfirst := answer_tx_of_room a ans hrun (by unfold RoomFor at hroom; omega)
  have hsecond := answer_tx_of_room (s := answer a ans s) b ans' (by rw [hstation, hrun])
    (by rw [hfirst, txInsert_length]; exact hroom)
  rw [hsecond, mem_txInsert_iff, hfirst, mem_txInsert_iff, hstation]

end

/-- The entry of a request just entered is the one that its answer settles (R159). -/
theorem settle_replaceEntry (a : Asker) (p q : RepeatPhase) (table : List RepeatEntry) :
    (replaceEntry ⟨a, p⟩ table).map (fun e => if e.asker = a then { e with phase := q } else e) =
      table.filter (fun e => e.asker.station != a.station) ++ [⟨a, q⟩] := by
  rw [replaceEntry, List.map_append, List.map_singleton, if_pos rfl]
  congr 1
  conv_rhs => rw [← List.map_id (table.filter _)]
  refine List.map_congr_left fun e he => if_neg ?_
  rintro rfl
  simp at he

/-! ### A request that is served -/

/-- The part as a request finds it that is served: its frame taken, its entry DEFERRED in the repeat table. -/
def asked (s : State) (f : Frame) (arrival : Nat) : State := enterRequest (askerOf f) (taken s f arrival)

section
variable (s : State) (f : Frame) (arrival : Nat)

@[simp] theorem asked_time : (asked s f arrival).time = s.time := rfl
@[simp] theorem asked_cfg : (asked s f arrival).cfg = s.cfg := rfl
@[simp] theorem asked_station : (asked s f arrival).station = s.station := rfl
@[simp] theorem asked_pulse : (asked s f arrival).pulse = s.pulse := rfl
@[simp] theorem asked_draw : (asked s f arrival).draw = s.draw := rfl
@[simp] theorem asked_valve : (asked s f arrival).valve = s.valve := rfl
@[simp] theorem asked_port : (asked s f arrival).port = { s.port with rx := s.port.rx.tail } := rfl
@[simp] theorem asked_claims : (asked s f arrival).claims = heard s f arrival := rfl
@[simp] theorem asked_handler :
    (asked s f arrival).handler = { s.handler with table := replaceEntry ⟨askerOf f, .deferred⟩ s.handler.table } := rfl
@[simp] theorem asked_journal : (asked s f arrival).journal = s.journal := rfl

theorem asked_only : OnlyChanges [.port, .claims, .handler] s (asked s f arrival) :=
  OnlyChanges.comp (t := taken s f arrival) (only_handler _)
    (OnlyChanges.comp (ds := [.port, .claims]) (refreshPeer_only _ _ _) (only_port _))

end

section
variable {s v : State} {f : Frame} {arrival code : Nat} {r : Request} {i : Instr} {ans : Answer} {bs : List Block}
  {serve : Asker → Request → State → State}

theorem RequestServed.running (hs : RequestServed s f arrival code r) : s.station.state = .running := by
  obtain ⟨hrun, -⟩ := hs
  exact hrun

/-- The first entry of a new request: the handler judges it, and does not answer it from the table (R159). -/
theorem handleAsk_of_new (t : State)
    (hnew : (entryOfStation t.handler.table (sourceOf f.id)).map (·.asker) ≠ some (askerOf f)) :
    handleAsk f serve t = judgeAsk f serve (enterRequest (askerOf f) t) := by
  have hstation : (askerOf f).station = sourceOf f.id := rfl
  unfold handleAsk
  simp only [hstation]
  split
  · next e he => rw [if_neg fun h => hnew (by rw [he, ← h]; rfl)]
  · rfl

/-- A request that is served reaches the block that answers it (R93, R157 to R160). -/
theorem takeRequest_served (hs : RequestServed s f arrival code r) :
    takeRequest code serve s = serve (askerOf f) r (asked s f arrival) := by
  obtain ⟨hrun, hidle, hhead, hkind, hcode, hnew, hdest, hdecode, howner⟩ := hs
  have hask : isAsk (· == code) f = true := by simp [isAsk, hkind, hcode]
  have htakes : handlerTakes s = true := by simp [handlerTakes, hrun, hidle]
  have hbroadcast : ¬(destOf f.id = 0 ∧ servedBroadcast (askerOf f).code = false) := by
    rintro ⟨hzero, hset⟩
    obtain hdest | rfl | rfl | rfl := hdest
    · exact hdest hzero
    all_goals simp [askerOf, hcode, servedBroadcast] at hset
  have hfault : (asked s f arrival).station.state ≠ .configFault := by simp [hrun]
  have hentered : notOwner (asked s f arrival) (askerOf f) r = false := howner
  calc takeRequest code serve s
      = handleAsk f serve (taken s f arrival) := by
        rw [takeRequest, takeAsk, if_pos htakes, takeThen_taken _ _ _ _ _ hhead hask]; rfl
    _ = judgeAsk f serve (asked s f arrival) := handleAsk_of_new _ hnew
    _ = serve (askerOf f) r (asked s f arrival) := by
        simp only [judgeAsk, if_neg hbroadcast, hfault, false_and, if_false, hdecode, hentered, Bool.false_eq_true]

/-- A request command on a request that is served: the step runs what serves it. -/
theorem exec_served (hexec : exec i s = stepOf (takeRequest code serve) s) (hs : RequestServed s f arrival code r) :
    exec i s = .next (announce (takeRequest code serve) s) := by
  rw [hexec, stepOf_next _ _ (by rw [hs.running]; decide)]

/-- A request that is served and answered at once. `v` is what its block made of the part before the ANSWER, with at most
one PROG handed and the handler, the station and the claim unit left alone; the rest of the part stands as in `v`. -/
theorem exec_answered (hexec : exec i s = stepOf (takeRequest code serve) s) (hs : RequestServed s f arrival code r)
    (hserve : serve (askerOf f) r (asked s f arrival) = answer (askerOf f) ans v)
    (hhands : Hands 1 (asked s f arrival) v) (honly : OnlyChanges bs (asked s f arrival) v)
    (hbs : .station ∉ bs ∧ .handler ∉ bs ∧ .claims ∉ bs := by decide) :
    ∃ t, exec i s = .next t ∧ OnlyChanges [.port, .handler] v t ∧ Answered f ans s t ∧ TakenAlone s.port t.port ∧
      t.claims = heard s f arrival ∧ OnlyChanges (.port :: .claims :: .handler :: bs) s t := by
  obtain ⟨hstation, hhandler, hclaims⟩ := hbs
  have hbody : takeRequest code serve s = answer (askerOf f) ans v := (takeRequest_served hs).trans hserve
  have hvstation : v.station = s.station := honly.get .station hstation
  have hvhandler : v.handler = _ := (honly.get .handler hhandler).trans (asked_handler s f arrival)
  have hvclaims : v.claims = _ := (honly.get .claims hclaims).trans (asked_claims s f arrival)
  have hrest : OnlyChanges [.port, .handler] v (announce (takeRequest code serve) s) :=
    (announce_only_port _ _).comp (hbody ▸ answer_only _ _ v : OnlyChanges [.port, .handler] v _)
  refine ⟨_, exec_served hexec hs, hrest, ⟨?table, fun hroom => ?queued⟩, ?port, ?claims, ?only⟩
  case table => rw [announce_handler, hbody, answer_handler, hvhandler, settle_replaceEntry]; rfl
  case queued =>
    have hlength := hhands.length
    have hvroom : v.port.tx.length < Config.txRoom := by
      simp only [RoomFor, asked_port] at hroom hlength; omega
    refine Queued.announce (kindOf_answerFrame_ne_stat _ _ _) ?_
    rw [hbody, ← hvstation]
    exact queued_answer _ _ (by rw [hvstation, hs.running]) hvroom
  case port =>
    have hstat := announce_port (takeRequest code serve) s
    have hhanded := (hhands.trans (answer_hands (askerOf f) ans v)).port
    rw [hbody] at hstat
    rw [HandedAlone, asked_port] at hhanded
    rw [StatAlone, hhanded] at hstat
    rw [TakenAlone, hstat]
  case claims => rw [announce_claims, hbody, (answer_only _ _ v).get .claims, hvclaims]
  case only =>
    exact ((asked_only s f arrival).mono (by simp)).trans ((honly.mono (by simp +contextual)).trans (hrest.mono (by simp)))

/-- A request that is served and answered without effect on the part. -/
theorem exec_answered_alone (hexec : exec i s = stepOf (takeRequest code serve) s)
    (hs : RequestServed s f arrival code r)
    (hserve : serve (askerOf f) r (asked s f arrival) = answer (askerOf f) ans (asked s f arrival)) :
    ∃ t, exec i s = .next t ∧ Answered f ans s t ∧ TakenAlone s.port t.port ∧ t.claims = heard s f arrival ∧
      OnlyChanges [.port, .claims, .handler] s t := by
  obtain ⟨t, hnext, -, h⟩ := exec_answered hexec hs hserve (.of_port 1 rfl) (.refl [] _)
  exact ⟨t, hnext, h⟩

end

end Sys2Proof.Machine
end

