-- ==== Sys2Proof/Proofs/DrawPauseEnd.lean ====
section
/-! PROOFS. Chapter 3: PAUSE and END in every draw state (R46, R56, R64). Both leave PRIMING and FLOWING by one operation,
`leaveFlow`, so what it makes of the draw, the valve and the line port is said once here; the end of a claim in CLAIMING is
followed through the transmit queue, which has room for the RELEASE and the two ANSWERs. -/

namespace Sys2Proof.Machine

/-! ### Leaving PRIMING, FLOWING and SUSPENDED (R48, R53, R65) -/

theorem sendLeadProg_hands (final : Bool) (s : State) : Hands 1 s (sendLeadProg final s) := by
  unfold sendLeadProg
  split
  · exact sendFrame_hands _ _ _ (by simp [isUrgent, leadProgFrame, kProg, kHalt, kClaim, kConsent, kRelease])
  · exact .of_port 1 rfl

theorem drawChanged_hands (s : State) : Hands 1 s (drawChanged s) :=
  (sendLeadProg_hands false _).of_left_port ((handWork_only (.checkpoint false) s).get .port)

/-- The draw's request for CLOSED is taken by a station that operates, while no follower owns the stage (R76, R90). -/
theorem requestStage_draw_closed_valve {s : State} (hop : operating s = true) (hfollower : s.blend.follower = .unbound)
    (hhalt : s.valve.halt = .clear) (hdwell : 0 < s.cfg.dwell) :
    (requestStage .draw .closed s).valve =
      { s.valve with stage := stageTable (s.time + s.cfg.dwell) .closed s.valve.stage } := by
  have haccepted : requestAccepted .draw .closed s = true := by simp [requestAccepted, hop, stageOwner, hfollower]
  rw [requestStage, if_pos haccepted, if_pos hhalt, withDwell, if_neg hdwell.ne']

/-- The current draw record once the draw has left the flow: the supervisors stopped, what `f` enters, and the request
CLOSED. -/
def leftRecord (now : Nat) (f : Current → Current) (c : Current) : Current :=
  { f { stopSupervisors c with enteredAt := now } with lastRequest := .closed }

section
variable (d : DrawState) (f : Current → Current) (s : State)

theorem leaveFlow_draw :
    (leaveFlow d f s).draw = { s.draw with state := d, current := s.draw.current.map (leftRecord s.time f) } := by
  rw [leaveFlow, (drawChanged_only _).get .draw, requestDraw, modCurrent_draw, (requestStage_only _ _ _).get .draw]
  simp only [modCurrent_draw, clearThrottle_draw, Option.map_map]
  rfl

theorem leaveFlow_hands : Hands 1 s (leaveFlow d f s) :=
  (drawChanged_hands _).of_left_port ((requestDraw_only .closed _).get .port)

theorem leaveFlow_valve (hop : operating s = true) (hfollower : s.blend.follower = .unbound)
    (hhalt : s.valve.halt = .clear) (hdwell : 0 < s.cfg.dwell) :
    (leaveFlow d f s).valve = { s.valve with stage := stageTable (s.time + s.cfg.dwell) .closed s.valve.stage } := by
  rw [leaveFlow, (drawChanged_only _).get .valve, requestDraw, modCurrent_valve]
  exact requestStage_draw_closed_valve hop hfollower hhalt hdwell

/-- The journal memory waits for the write of the checkpoint (R69, R175). -/
theorem leaveFlow_mem : (leaveFlow d f s).journal.mem = s.journal.mem := by
  rw [leaveFlow, drawChanged, (sendLeadProg_only _ _).get .journal, checkpoint, handWork_mem,
    (requestDraw_only _ _).get .journal]
  rfl

end

/-! ### PAUSE (R56) -/

section
variable {s : State} (a : Asker) (r : Request)

theorem servePause_in_flow (h : s.draw.state = .priming ∨ s.draw.state = .flowing ∨ s.draw.state = .suspended) :
    servePause a r s = answer a ⟨.ok, .none⟩ (suspend (raiseLatch .pause) s) := by
  obtain h | h | h := h <;> simp only [servePause, h] <;> rfl

theorem servePause_busy (hpriming : s.draw.state ≠ .priming) (hflowing : s.draw.state ≠ .flowing)
    (hsuspended : s.draw.state ≠ .suspended) : servePause a r s = answer a ⟨.busy, .none⟩ s := by
  unfold servePause
  split
  · contradiction
  · contradiction
  · contradiction
  · rfl

end

theorem suspend_from_flow {s : State} (raise : Causes → Causes)
    (h : s.draw.state = .priming ∨ s.draw.state = .flowing) :
    suspend raise s = leaveFlow .suspended (fun c => { c with causes := raise c.causes }) s := by
  obtain h | h := h <;> simp only [suspend, h]

theorem suspend_suspended {s : State} (raise : Causes → Causes) (h : s.draw.state = .suspended) :
    suspend raise s = modCurrent (fun c => { c with causes := raise c.causes }) s := by
  simp only [suspend, h]

/-- Settles O23: the ANSWER of a PAUSE stands on what `suspend` made of the part, which leaves the flow from PRIMING and
FLOWING and changes the set alone in SUSPENDED. -/
theorem pauseSuspendsDraw : Obligations.PauseSuspendsDraw := by
  intro s f arrival hs
  refine ⟨fun c hstate hcurrent => ?fromFlow, fun c hstate hcurrent => ?suspended, fun hp hf hsu => ?busy⟩
  case fromFlow =>
    have hserve := servePause_in_flow (s := asked s f arrival) (askerOf f) .pause (by rw [asked_draw]; tauto)
    rw [suspend_from_flow (s := asked s f arrival) _ hstate] at hserve
    have honly := leaveFlow_only .suspended (fun c => { c with causes := raiseLatch .pause c.causes }) (asked s f arrival)
    obtain ⟨t, hexec, hrest, hanswered, htaken, hclaims, hchanges⟩ :=
      exec_answered (i := .pause) rfl hs hserve (leaveFlow_hands _ _ _) honly
    refine ⟨t, hexec, ?_, fun hfollower hhalt hdwell => ?_, ?_, hanswered, htaken, hclaims, hchanges.mono (by decide)⟩
    · rw [hrest.get .draw, leaveFlow_draw, asked_draw, asked_time, hcurrent]
      rfl
    · rw [hrest.get .valve,
        leaveFlow_valve _ _ (asked s f arrival) (operating_of_running hs.running) hfollower hhalt hdwell,
        asked_valve, asked_time, asked_cfg]
    · rw [hrest.get .journal, leaveFlow_mem, asked_journal]
  case suspended =>
    have hserve := servePause_in_flow (s := asked s f arrival) (askerOf f) .pause (.inr (.inr hstate))
    rw [suspend_suspended (s := asked s f arrival) _ hstate] at hserve
    have honly := modCurrent_only (fun c => { c with causes := raiseLatch .pause c.causes }) (asked s f arrival)
    obtain ⟨t, hexec, hrest, hanswered, htaken, hclaims, hchanges⟩ :=
      exec_answered (i := .pause) rfl hs hserve (.of_port 1 rfl) honly
    refine ⟨t, hexec, ?_, hanswered, htaken, hclaims, hchanges.mono (by decide)⟩
    rw [hrest.get .draw, modCurrent_draw, asked_draw, hcurrent]
    rfl
  case busy => exact exec_answered_alone rfl hs (servePause_busy (s := asked s f arrival) _ _ hp hf hsu)

/-! ### The end of a claim in CLAIMING (R46, R98, R114, R116) -/

/-- No CLAIM of a sequence waits in the transmit queue. -/
def NoWaitingClaim (n : Nat) (s : State) : Prop :=
  ∀ e ∈ s.port.tx, e.onWire = false → kindOf e.frame.id = kClaim → sequenceOf e.frame.id ≠ n

theorem withdrawClaim_noWaitingClaim (n : Nat) (s : State) : NoWaitingClaim n (withdrawClaim n s).1 := by
  intro e hmem hwaits hkind hsequence
  unfold withdrawClaim at hmem
  simp only at hmem
  split at hmem
  · simp [hwaits, hkind, hsequence] at hmem
  · next hnone => exact hnone (List.any_eq_true.2 ⟨e, hmem, by simp [hwaits, hkind, hsequence]⟩)

theorem withdrawClaim_length (n : Nat) (s : State) : (withdrawClaim n s).1.port.tx.length ≤ s.port.tx.length := by
  unfold withdrawClaim
  simp only
  split
  · exact List.length_filter_le _ _
  · exact le_rfl

section
variable {s : State} {o : OwnClaim} (hown : s.claims.own = some o)

include hown

theorem withdrawOwn_own : (withdrawOwn s).claims.own = none := by
  simp only [withdrawOwn, hown]

theorem withdrawOwn_port : (withdrawOwn s).port = (withdrawClaim o.claim.id.sequence s).1.port := by
  simp only [withdrawOwn, hown]

theorem releaseOwn_own : (releaseOwn s).claims.own = none := by
  simp only [releaseOwn, hown]

theorem releaseOwn_port :
    (releaseOwn s).port = (sendFrame .claimUnit (releaseFrame o.claim.id) s).port := by
  simp only [releaseOwn, hown]
  exact (dropRecords_only _ _).get .port

end

theorem kindOf_releaseFrame (id : ClaimId) : kindOf (releaseFrame id).id = kRelease := kindOf_identOf _ _ _ _

/-- The part once the own claim has ended in CLAIMING, before the START is answered: the CLAIM withdrawn or released, the
draw back in READY, the deferred answer taken. -/
def claimEnded (o : OwnClaim) (s : State) : State :=
  let t := returnToReady (if o.phase = .queued then withdrawOwn s else releaseOwn s)
  { t with handler := { t.handler with deferred := none } }

theorem endOwn_only (o : OwnClaim) (s : State) :
    OnlyChanges claimBlocks s (if o.phase = .queued then withdrawOwn s else releaseOwn s) :=
  .ite ((withdrawOwn_only s).mono (by decide)) (releaseOwn_only s)

theorem claimEnded_only (o : OwnClaim) (s : State) :
    OnlyChanges [.draw, .valve, .port, .claims, .blend, .handler, .journal] s (claimEnded o s) :=
  OnlyChanges.comp (only_handler _) ((returnToReady_only _).comp (endOwn_only o s)
    (ds := [.draw, .valve, .port, .claims, .blend, .journal]))

theorem claimEnded_draw (o : OwnClaim) (s : State) :
    (claimEnded o s).draw = { s.draw with state := .ready, current := none } := by
  have h := (endOwn_only o s).get .draw
  simp only [sameBlock] at h
  simp only [claimEnded, returnToReady_draw, h]

theorem claimEnded_deferred (o : OwnClaim) (s : State) : (claimEnded o s).handler.deferred = none := rfl

theorem claimEnded_port (o : OwnClaim) (s : State) :
    (claimEnded o s).port = (if o.phase = .queued then withdrawOwn s else releaseOwn s).port := rfl

section
variable {s : State} {o : OwnClaim} (hown : s.claims.own = some o)

include hown

theorem endClaiming_of_deferred {a : Asker} (ans : Answer) (hdeferred : s.handler.deferred = some a) :
    endClaiming ans s = answer a ans (claimEnded o s) := by
  have h := (endOwn_only o s).get .handler
  simp only [sameBlock] at h
  simp only [endClaiming, hown, settleDeferred, returnToReady_handler, h, hdeferred]
  simp only [claimEnded, returnToReady_handler, h]

theorem claimEnded_own : (claimEnded o s).claims.own = none := by
  show (if o.phase = .queued then withdrawOwn s else releaseOwn s).claims.own = none
  split
  · exact withdrawOwn_own hown
  · exact releaseOwn_own hown

/-- A CLAIM that waits is withdrawn (R98). -/
theorem claimEnded_noWaitingClaim (hphase : o.phase = .queued) :
    NoWaitingClaim o.claim.id.sequence (claimEnded o s) := by
  rw [NoWaitingClaim, claimEnded_port, if_pos hphase, withdrawOwn_port hown]
  exact withdrawClaim_noWaitingClaim _ _

section
variable (hrun : s.station.state = .running) (hroom : s.port.tx.length < Config.txRoom)

include hrun hroom

theorem claimEnded_length : (claimEnded o s).port.tx.length ≤ s.port.tx.length + 1 := by
  rw [claimEnded_port]
  split
  · rw [withdrawOwn_port hown]
    exact (withdrawClaim_length _ _).trans (Nat.le_succ _)
  · rw [releaseOwn_port hown, sendFrame_of_room _ _ hrun hroom, txInsert_length]

/-- A claim whose frame has completed is released (R116). -/
theorem claimEnded_released (hphase : o.phase ≠ .queued) : Queued (releaseFrame o.claim.id) (claimEnded o s) := by
  refine ⟨⟨releaseFrame o.claim.id, .claimUnit, false⟩, ?_, rfl⟩
  rw [claimEnded_port, if_neg hphase, releaseOwn_port hown, sendFrame_of_room _ _ hrun hroom, mem_txInsert_iff]
  exact .inl rfl

end

end

/-! ### END (R46, R64) -/

/-- What an entry into CLOSING enters into the current draw record (R65). -/
def closingRecord (ending : Ending) (s : State) (c : Current) : Current :=
  { c with
    causes := .empty
    stageAtClose := some (stageOf s.valve.stage)
    ending := some ending
    presetAtClose := s.engine.ctx.preset }

section
variable {s : State} (ending : Ending)
  (h : s.draw.state = .priming ∨ s.draw.state = .flowing ∨ s.draw.state = .suspended)

include h

theorem enterClosing_leaves_flow :
    ∃ b, enterClosing ending s = { leaveFlow .closing (closingRecord ending s) s with blend := b } :=
  ⟨_, if_pos h⟩

theorem enterClosing_draw :
    (enterClosing ending s).draw =
      { s.draw with
        state := .closing, current := s.draw.current.map (leftRecord s.time (closingRecord ending s)) } := by
  obtain ⟨b, hleave⟩ := enterClosing_leaves_flow ending h
  rw [hleave]
  exact leaveFlow_draw _ _ _

theorem enterClosing_hands : Hands 1 s (enterClosing ending s) := by
  obtain ⟨b, hleave⟩ := enterClosing_leaves_flow ending h
  obtain ⟨hport, hlength⟩ := leaveFlow_hands .closing (closingRecord ending s) s
  rw [hleave]
  exact ⟨hport, hlength⟩

theorem serveEnd_in_flow (a : Asker) (r : Request) :
    serveEnd a r s = answer a ⟨.ok, .none⟩ (enterClosing .endedByRequest s) := by
  obtain h | h | h := h <;> simp only [serveEnd, h] <;> rfl

end

section
variable {s : State} (a : Asker) (r : Request)

theorem serveEnd_claiming (h : s.draw.state = .claiming) :
    serveEnd a r s = answer a ⟨.ok, .none⟩ (endClaiming ⟨.cancelled, .none⟩ s) := by
  simp only [serveEnd, h]; rfl

theorem serveEnd_ready (h : s.draw.state = .ready) :
    serveEnd a r s =
      answer a ⟨.ok, .none⟩ { s with draw := { s.draw with state := .dropOpen, selection := none } } := by
  simp only [serveEnd, h]; rfl

theorem serveEnd_closing (h : s.draw.state = .closing) : serveEnd a r s = answer a ⟨.ok, .none⟩ s := by
  simp only [serveEnd, h]; rfl

theorem serveEnd_no_draw (h : s.draw.state = .idle ∨ s.draw.state = .dropOpen) :
    serveEnd a r s = answer a ⟨.invalid, .none⟩ s := by
  obtain h | h := h <;> simp only [serveEnd, h] <;> rfl

end

/-- END in CLAIMING: the claim ends, then the START is answered, then the END. With room for three frames all that was
handed waits in the queue. -/
theorem exec_endDraw_claiming {s : State} {f : Frame} {arrival : Nat} {o : OwnClaim} {a : Asker}
    (hs : RequestServed s f arrival 6 .endDraw) (hstate : s.draw.state = .claiming) (hown : s.claims.own = some o)
    (hdeferred : s.handler.deferred = some a) (hroom : RoomFor 3 s) :
    ∃ t, exec .endDraw s = .next t ∧ t.draw = { s.draw with state := .ready, current := none } ∧
      t.claims.own = none ∧ t.handler.deferred = none ∧
      (o.phase ≠ .queued → Queued (releaseFrame o.claim.id) t) ∧
      (o.phase = .queued → NoWaitingClaim o.claim.id.sequence t) ∧
      Queued (answerFrame s.station.number a ⟨.cancelled, .none⟩) t ∧
      Queued (answerFrame s.station.number (askerOf f) ⟨.ok, .none⟩) t ∧
      OnlyChanges [.draw, .valve, .port, .claims, .blend, .handler, .journal] s t := by
  have hown' : (asked s f arrival).claims.own = some o := hown
  have hstart : (asked s f arrival).port.tx.length < Config.txRoom := by
    simp only [RoomFor, asked_port] at hroom ⊢; omega
  have hbody : takeRequest 6 serveEnd s =
      answer (askerOf f) ⟨.ok, .none⟩ (answer a ⟨.cancelled, .none⟩ (claimEnded o (asked s f arrival))) := by
    rw [takeRequest_served hs, serveEnd_claiming (s := asked s f arrival) _ _ hstate,
      endClaiming_of_deferred hown' _ hdeferred]
  have hended : OnlyChanges haltBlocks s (claimEnded o (asked s f arrival)) :=
    (claimEnded_only o _).comp (asked_only s f arrival)
  have hanswers : OnlyChanges [.port, .handler] (claimEnded o (asked s f arrival))
      (announce (takeRequest 6 serveEnd) s) := by
    refine (announce_only_port _ _).comp (bs := [.port, .handler]) ?_
    rw [hbody]
    exact (answer_only _ _ _).trans (answer_only _ _ _)
  have hmem : ∀ e : TxEntry, kindOf e.frame.id ≠ kStat → (e ∈ (announce (takeRequest 6 serveEnd) s).port.tx ↔
      e = ⟨answerFrame s.station.number (askerOf f) ⟨.ok, .none⟩, .handler, false⟩ ∨
        e = ⟨answerFrame s.station.number a ⟨.cancelled, .none⟩, .handler, false⟩ ∨
        e ∈ (claimEnded o (asked s f arrival)).port.tx) := by
    intro e hkind
    have hstation : (claimEnded o (asked s f arrival)).station = s.station := hended.get .station
    have hlength := claimEnded_length hown' hs.running hstart
    rw [mem_announce_iff _ _ hkind, hbody, mem_answer_answer_iff _ _ (by rw [hstation, hs.running]) _ _, hstation]
    simp only [RoomFor, asked_port] at hroom hlength ⊢; omega
  refine ⟨_, exec_served (i := .endDraw) rfl hs, ?draw, ?own, ?deferred, fun hphase => ?released,
    fun hphase => ?withdrawn, ?cancelled, ?ok, hanswers.comp hended⟩
  case draw => rw [hanswers.get .draw, claimEnded_draw, asked_draw]
  case own => rw [hanswers.get .claims, claimEnded_own hown']
  case deferred => rw [announce_handler, hbody, answer_handler, answer_handler, claimEnded_deferred]
  case released =>
    obtain ⟨e, he, hframe⟩ := claimEnded_released hown' hs.running hstart hphase
    have hkind : kindOf e.frame.id ≠ kStat := by rw [hframe, kindOf_releaseFrame]; decide
    exact ⟨e, (hmem e hkind).2 (.inr (.inr he)), hframe⟩
  case withdrawn =>
    intro e he hwaits hkind
    obtain rfl | rfl | he := (hmem e (by rw [hkind]; decide)).1 he
    · simp [kindOf_answerFrame] at hkind
    · simp [kindOf_answerFrame] at hkind
    · exact claimEnded_noWaitingClaim hown' hphase e he hwaits hkind
  case cancelled => exact ⟨_, (hmem _ (kindOf_answerFrame_ne_stat _ _ _)).2 (.inr (.inl rfl)), rfl⟩
  case ok => exact ⟨_, (hmem _ (kindOf_answerFrame_ne_stat _ _ _)).2 (.inl rfl), rfl⟩

/-- Settles O25: one case for each draw state. From PRIMING, FLOWING and SUSPENDED the ANSWER stands on the entry into
CLOSING; in CLAIMING on the end of the claim; in the other states the draw unit alone changes, or nothing. -/
theorem endClosesDraw : Obligations.EndClosesDraw := by
  intro s f arrival hs
  refine ⟨fun c hstate hcurrent => ?flow, fun o a hstate hown hdeferred hroom => ?claiming, fun hstate => ?ready,
    fun hstate => ?closing, fun hstate => ?noDraw⟩
  case flow =>
    have hstate' : (asked s f arrival).draw.state = .priming ∨ (asked s f arrival).draw.state = .flowing ∨
        (asked s f arrival).draw.state = .suspended := hstate
    have honly := enterClosing_only .endedByRequest (asked s f arrival)
    obtain ⟨t, hexec, hrest, hanswered, htaken, hclaims, hchanges⟩ :=
      exec_answered (i := .endDraw) rfl hs (serveEnd_in_flow hstate' _ _) (enterClosing_hands _ hstate') honly
    refine ⟨t, leftRecord s.time (closingRecord .endedByRequest s) c, hexec, ?_, rfl, rfl, rfl, rfl, rfl, ?_, hanswered,
      htaken, hclaims, hchanges.mono (by decide)⟩
    · rw [hrest.get .draw, enterClosing_draw _ hstate', asked_draw, asked_time, hcurrent]
      rfl
    · rw [hrest.get .pulse, honly.get .pulse, asked_pulse]
  case claiming => exact exec_endDraw_claiming hs hstate hown hdeferred hroom
  case ready =>
    obtain ⟨t, hexec, hrest, hanswered, htaken, hclaims, hchanges⟩ :=
      exec_answered (i := .endDraw) rfl hs (serveEnd_ready (s := asked s f arrival) _ _ hstate) (.of_port 1 rfl)
        (only_draw _)
    exact ⟨t, hexec, hrest.get .draw, hanswered, htaken, hclaims, hchanges.mono (by decide)⟩
  case closing => exact exec_answered_alone rfl hs (serveEnd_closing (s := asked s f arrival) _ _ hstate)
  case noDraw => exact exec_answered_alone rfl hs (serveEnd_no_draw (s := asked s f arrival) _ _ hstate)

end Sys2Proof.Machine
end

