-- ==== Sys2Proof/Proofs/StageRequests.lean ====
section
/-! PROOFS. Chapter 4: stage requests (R76 to R79). What `requestStage` does is said once for a refused or halted
request and once for one that is taken; the tables then speak of the stage record alone. -/

namespace Sys2Proof.Machine

/-! ### Stage requests (R76) -/

section
variable {who : Owner} {r : StageReq} {s : State}

/-- The stage record a taken request leaves: the table's row, with a dwell of 0 expiring at once (R76, R77). -/
def stageTaken (who : Owner) (r : StageReq) (s : State) : ValveRec :=
  withDwell s.cfg.dwell (fastAccepted who s) (stageTable (s.time + s.cfg.dwell) r s.valve.stage)

theorem requestStage_taken (haccepted : requestAccepted who r s = true) (hhalt : s.valve.halt = .clear) :
    requestStage who r s = { s with valve := { s.valve with stage := stageTaken who r s } } := by
  rw [requestStage, if_pos haccepted, if_pos hhalt, stageTaken]

/-- A refused request changes nothing, nor does one while the halt state is not CLEAR (R78, R79). -/
theorem requestStage_not_taken (h : requestAccepted who r s = false ∨ s.valve.halt ≠ .clear) :
    requestStage who r s = s := by
  obtain hrefused | hhalt := h
  · rw [requestStage, hrefused, if_neg Bool.false_ne_true]
  · rw [requestStage, if_neg hhalt, ite_self]

theorem requestStage_taken_or_same (who : Owner) (r : StageReq) (s : State) :
    requestStage who r s = { s with valve := { s.valve with stage := stageTaken who r s } } ∨
      requestStage who r s = s := by
  by_cases h : requestAccepted who r s = true ∧ s.valve.halt = .clear
  · exact .inl (requestStage_taken h.1 h.2)
  · exact .inr (requestStage_not_taken (by rwa [not_and_or, Bool.not_eq_true] at h))

/-- A request changes no field of the valve unit but the stage record. -/
theorem requestStage_valve (who : Owner) (r : StageReq) (s : State) :
    (requestStage who r s).valve = { s.valve with stage := (requestStage who r s).valve.stage } := by
  obtain h | h := requestStage_taken_or_same who r s <;> rw [h]

/-- A request for FAST that is accepted finds the FAST allowed, so a dwell that expires with it gives FAST (R77, R78). -/
theorem fastAccepted_of_requestAccepted (h : requestAccepted who .fast s = true) : fastAccepted who s = true := by
  rw [requestAccepted, Bool.and_eq_true] at h
  exact h.2

theorem stageTaken_of_dwell_pos (hdwell : 0 < s.cfg.dwell) :
    stageTaken who r s = stageTable (s.time + s.cfg.dwell) r s.valve.stage := by
  rw [stageTaken, withDwell, if_neg hdwell.ne']

/-- A dwell over at once brings every stage to the one requested: the row holds it already, or awaits it as its
destination or its pending FAST (R76, R77). -/
theorem dwellOver_stageTable {fastOk : Bool} (hfast : r = .fast → fastOk = true) (due : Nat) (v : ValveRec) :
    dwellOver fastOk (stageTable due r v) = settle r := by
  cases r with
  | closed => cases v <;> rfl
  | slow => cases v <;> rfl
  | fast => rw [hfast rfl]; cases v <;> rfl

theorem stageTaken_of_dwell_zero (haccepted : requestAccepted who r s = true) (hdwell : s.cfg.dwell = 0) :
    stageTaken who r s = settle r := by
  rw [stageTaken, withDwell, if_pos hdwell]
  exact dwellOver_stageTable (fun hr => fastAccepted_of_requestAccepted (hr ▸ haccepted)) _ _

end

/-- Settles O29: the frame from the two outcomes of a request, the table from a taken one whose dwell runs, and the
stage requested from a taken one whose dwell is over at once. -/
theorem stageRequestTable : Obligations.StageRequestTable := by
  refine ⟨fun who r s => ⟨requestStage_only who r s, requestStage_valve who r s, fun hnot => ?notTaken,
    fun hdwell haccepted hhalt => ?table⟩, fun who r s hdwell haccepted hhalt => ?straight⟩
  case notTaken => rw [requestStage_not_taken hnot]
  case table =>
    rw [requestStage_taken haccepted hhalt]
    exact stageTaken_of_dwell_pos hdwell
  case straight =>
    rw [requestStage_taken haccepted hhalt]
    exact stageTaken_of_dwell_zero haccepted hdwell

end Sys2Proof.Machine
end

