-- ==== Sys2Proof/Proofs/CompletedWrites.lean ====
section
/-! PROOFS. Chapter 9: the completion of a write (R175), and what its change makes of the journal memory (R177, R178). The
totalizers are spoken of once, for one list and then for the record, and both changes that add to them use that. -/

namespace Sys2Proof.Machine

/-! ### The next write begins (R175) -/

section
variable {s : State} {w : Write} {next : Work} {works : List Work}

/-- The values that a write takes when it begins are none of the journal's own. -/
theorem changeOf_with_journal (j : Journal) (work : Work) : changeOf { s with journal := j } work = changeOf s work := by
  cases work <;> rfl

theorem beginIfIdle_of_work (hidle : s.journal.inflight = none) (hworks : s.journal.works = next :: works) :
    beginIfIdle s = { s with
      journal := { s.journal with
        inflight := some ⟨changeOf s next, s.journal.unticketedSum⟩, works := works, unticketedSum := 0 } } := by
  rw [beginIfIdle, hidle, Option.isNone_none, if_pos rfl]
  simp only [beginWrite, hworks]

theorem takeWaiting_of_no_request (h : s.handler.serving = none) : takeWaiting s = s := by
  simp only [takeWaiting, waitingRequest, h]

theorem autoPrint_off (c : Change) (h : s.cfg.autoPrint = false) : autoPrint c s = s := by
  cases c with
  | closeRecord number time => simp [autoPrint, h]
  | _ => rfl

/-- The start writes come before LISTENING (R181), so a write that completes while the station operates is none of them. -/
theorem not_starting_of_operating (h : operating s = true) : s.station.state ≠ .starting := by
  intro hstarting; simp [operating, hstarting] at h

theorem takeWaiting_autoPrint_idle (c : Change) (j : Journal) (hserving : s.handler.serving = none)
    (hprint : s.cfg.autoPrint = false) :
    takeWaiting (autoPrint c { s with journal := j }) = { s with journal := j } :=
  (congrArg takeWaiting (autoPrint_off (s := { s with journal := j }) c hprint)).trans
    (takeWaiting_of_no_request hserving)

/-- The part once a write has completed with a work pending, no request waiting and auto-print off. -/
theorem writeCompleted_of_work (hop : operating s = true) (hflight : s.journal.inflight = some w)
    (hworks : s.journal.works = next :: works) (hserving : s.handler.serving = none)
    (hprint : s.cfg.autoPrint = false) :
    writeCompleted s = { s with
      journal := { s.journal with
        mem := applyWrite w s.journal.mem, inflight := some ⟨changeOf s next, s.journal.unticketedSum⟩,
        works := works, unticketedSum := 0 } } := by
  simp only [writeCompleted, hflight, if_neg (not_starting_of_operating hop)]
  rw [takeWaiting_autoPrint_idle _ _ hserving hprint, beginIfIdle_of_work (next := next) (works := works),
    changeOf_with_journal]
  · rfl
  · exact hworks

/-- A step of the journal alone queues no STAT set: page 0 shows nothing of the journal (R100). -/
theorem announce_of_journal {f : State → State} {j : Journal} (h : f s = { s with journal := j }) :
    announce f s = { s with journal := j } := by
  rw [announce_same f s (by rw [h]; rfl), h]

theorem exec_journalWriteComplete (hpower : s.station.state ≠ .powerDown) :
    exec .journalWriteComplete s = .next (announce writeCompleted s) :=
  stepOf_next writeCompleted s hpower

end

/-! ### Totalizers (R177) -/

section
variable {code : Nat} {ts : List Int} {r : StationRecord}

theorem totalOf_addTotal_same (ml : Int) (hlength : ts.length = 15) (hlow : 1 ≤ code) (hhigh : code ≤ 15) :
    totalOf (addTotal ts code ml) code = saturate 64 (totalOf ts code + ml) := by
  have hindex : code - 1 < ts.length := by omega
  rw [totalOf, addTotal, List.getD_eq_getElem?_getD, List.getElem?_set_self hindex, Option.getD_some]

theorem totalOf_addTotal_other {other : Nat} (ml : Int) (hlow : 1 ≤ code) (hother : 1 ≤ other) (hne : other ≠ code) :
    totalOf (addTotal ts code ml) other = totalOf ts other := by
  have hindex : code - 1 ≠ other - 1 := by omega
  rw [totalOf, addTotal, List.getD_eq_getElem?_getD, List.getElem?_set_ne hindex, ← List.getD_eq_getElem?_getD, totalOf]

@[simp] theorem setHose_netTotals (h : Option Hose) : (setHose h r).netTotals = r.netTotals := by cases h <;> rfl
@[simp] theorem setHose_grossTotals (h : Option Hose) : (setHose h r).grossTotals = r.grossTotals := by cases h <;> rfl
@[simp] theorem setHose_sequence (h : Option Hose) : (setHose h r).sequence = r.sequence := by cases h <;> rfl
@[simp] theorem setHose_unticketed (h : Option Hose) : (setHose h r).unticketed = r.unticketed := by cases h <;> rfl
@[simp] theorem setHose_hose (h : Option Hose) : (setHose h r).hose = h.getD r.hose := by cases h <;> rfl

/-- A volume reaches the totalizers of its product and no other; the hose record is not one of them. -/
theorem totalOf_setHose_addTotals (hose : Option Hose) (gross net : Int) (hnets : r.netTotals.length = 15)
    (hgrosses : r.grossTotals.length = 15) (hlow : 1 ≤ code) (hhigh : code ≤ 15) :
    totalOf (setHose hose (addTotals code gross net r)).netTotals code = saturate 64 (totalOf r.netTotals code + net) ∧
    totalOf (setHose hose (addTotals code gross net r)).grossTotals code =
      saturate 64 (totalOf r.grossTotals code + gross) ∧
    ∀ other, 1 ≤ other → other ≤ 15 → other ≠ code →
      totalOf (setHose hose (addTotals code gross net r)).netTotals other = totalOf r.netTotals other ∧
      totalOf (setHose hose (addTotals code gross net r)).grossTotals other = totalOf r.grossTotals other := by
  rw [setHose_netTotals, setHose_grossTotals]
  exact ⟨totalOf_addTotal_same net hnets hlow hhigh, totalOf_addTotal_same gross hgrosses hlow hhigh,
    fun other hother _ hne =>
      ⟨totalOf_addTotal_other net hlow hother hne, totalOf_addTotal_other gross hlow hother hne⟩⟩

end

/-! ### The changes that add to them (R177, R178) -/

section
variable {m : Memory} {r : StationRecord}

theorem applyChange_handOver (item : DrawItem) (hose : Option Hose) (closeAhead : Option Int)
    (h : m.station = some r) :
    applyChange (.handOver item hose closeAhead) m =
      ⟨some { setHose hose (addTotals item.product item.gross item.net r) with
          closeAhead := closeAhead.getD r.closeAhead },
        modOpen (placeItem true (withTotals r item)) m.tickets⟩ := by
  simp only [applyChange, h]

theorem applyChange_followerCompletion (product : Nat) (gross net : Int) (h : m.station = some r) :
    applyChange (.followerCompletion product gross net) m =
      { m with station := some (completeFollower product gross net r) } := by
  simp only [applyChange, h]

/-- The hose holds the component alone once any of it was delivered; product code 15 is MIXED (R71, R170, R178). -/
theorem completeFollower_hose (product : Nat) (gross net : Int) :
    (completeFollower product gross net r).hose =
      if 0 < gross then (if product = 15 then .mixed else .product product) else r.hose := by
  rw [completeFollower, setHose_hose]
  split <;> rfl

end

/-- A follower completion takes the place of the follower checkpoints still pending (R178). -/
theorem mem_addWork_followerCompletion (product : Nat) (gross net : Int) (works : List Work) (w : Work) :
    w ∈ addWork (.followerCompletion product gross net) works ↔
      w = .followerCompletion product gross net ∨ (w ∈ works ∧ w ≠ .followerCheckpoint) := by
  simp only [addWork, List.mem_append, List.mem_filter, List.mem_singleton, bne_iff_ne]
  exact or_comm

/-- Settles O54: the completed step is written out with the next write begun; the item's and the follower's changes both
rest on the totalizers of one record; and the list of works is read by its members. -/
theorem completedWriteChangesMemory : Obligations.CompletedWriteChangesMemory := by
  refine ⟨fun s w next works hop hflight hworks hserving hprint _ _ => ?completion,
    fun m r item hose closeAhead hr hnets hgrosses hlow hhigh => ?item,
    fun m r product gross net hr hnets hgrosses hlow hhigh => ?follower,
    fun product gross net works => ⟨?gone, mem_addWork_followerCompletion product gross net works⟩⟩
  case completion =>
    have hstep := announce_of_journal (writeCompleted_of_work hop hflight hworks hserving hprint)
    refine ⟨_, (exec_journalWriteComplete (not_powerDown_of_operating s hop)).trans (congrArg _ hstep),
      rfl, rfl, rfl, rfl, rfl, only_journal _⟩
  case item =>
    obtain ⟨hnet, hgross, hothers⟩ := totalOf_setHose_addTotals hose item.gross item.net hnets hgrosses hlow hhigh
    exact ⟨_, congrArg Memory.station (applyChange_handOver item hose closeAhead hr), hnet, hgross, hothers, rfl,
      setHose_hose hose, setHose_sequence hose, setHose_unticketed hose⟩
  case follower =>
    obtain ⟨hnet, hgross, hothers⟩ := totalOf_setHose_addTotals _ gross net hnets hgrosses hlow hhigh
    exact ⟨_, applyChange_followerCompletion product gross net hr, hnet, hgross, hothers,
      completeFollower_hose product gross net, rfl⟩
  case gone =>
    rw [mem_addWork_followerCompletion]
    simp

end Sys2Proof.Machine
end

