-- ==== Sys2Proof/Proofs/TicketStream.lean ====
section
/-! PROOFS. Chapter 12: the streamed ticket record (12.4) and its segments (R204). The cutting of a stream is spoken of
for any stream and any number of segments; the counts of R204 are then the lengths of the header, the base block and the
extensions. -/

namespace Sys2Proof.Machine

/-! ### A stream cut into segments (R204) -/

@[simp] theorem segmentsOf_length (n : Nat) (bs : List Byte) : (segmentsOf n bs).length = n := by
  induction n generalizing bs with
  | zero => rfl
  | succ n ih => rw [segmentsOf, List.length_cons, ih]

theorem length_of_mem_segmentsOf {n : Nat} {bs segment : List Byte} (h : segment ∈ segmentsOf n bs) :
    segment.length = 8 := by
  induction n generalizing bs with
  | zero => exact absurd h List.not_mem_nil
  | succ n ih =>
    obtain rfl | hrest := List.mem_cons.1 h
    · rw [List.length_append, List.length_take, List.length_replicate]; omega
    · exact ih hrest

/-- The segments in order give the stream back, filled out with zero bytes. While eight bytes remain a segment has no
filling; from the end of the stream on, all is filling. -/
theorem segmentsOf_flatten {n : Nat} {bs : List Byte} (h : bs.length ≤ 8 * n) :
    (segmentsOf n bs).flatten = bs ++ List.replicate (8 * n - bs.length) 0 := by
  induction n generalizing bs with
  | zero => rw [List.eq_nil_of_length_eq_zero (Nat.le_zero.1 h)]; rfl
  | succ n ih =>
    have hrest : (bs.drop 8).length ≤ 8 * n := by rw [List.length_drop]; omega
    rw [segmentsOf, List.flatten_cons, ih hrest, List.length_drop]
    obtain hlong | hshort := Nat.le_total 8 bs.length
    · have hfill : 8 * n - (bs.length - 8) = 8 * (n + 1) - bs.length := by omega
      rw [Nat.sub_eq_zero_of_le hlong, List.replicate_zero, List.append_nil, ← List.append_assoc, List.take_append_drop,
        hfill]
    · have hfill : 8 - bs.length + (8 * n - (bs.length - 8)) = 8 * (n + 1) - bs.length := by omega
      rw [List.take_of_length_le hshort, List.drop_eq_nil_of_le hshort, List.nil_append, List.append_assoc,
        List.replicate_append_replicate, hfill]

theorem ticketSegments_length (k : Ticket) : (ticketSegments k).length = ((ticketStream k).length + 7) / 8 :=
  segmentsOf_length _ _

theorem ticketSegments_flatten (k : Ticket) :
    (ticketSegments k).flatten =
      ticketStream k ++ List.replicate (8 * (ticketSegments k).length - (ticketStream k).length) 0 := by
  rw [ticketSegments_length]
  exact segmentsOf_flatten (by omega)

/-! ### The length of a stream (12.4) -/

@[simp] theorem tempBytes_length (t : Option Int) : (tempBytes t).length = 2 := signedBytes_length 2 _

@[simp] theorem totalsBytes_length (t : Option (Int × Int)) : (totalsBytes t).length = 12 := by simp [totalsBytes]

@[simp] theorem hoseBytes_length (h : Hose) : (hoseBytes h).length = 4 := by
  cases h with
  | blend p c s => simp [hoseBytes]
  | _ => rfl

theorem progressBytes_length (p : Progress) : (progressBytes p).length = 9 := by simp [progressBytes]

theorem intermixBytes_length (i : Intermix) : (intermixBytes i).length = 8 := by simp [intermixBytes]

theorem blendBytes_length (b : BlendPart) : (blendBytes b).length = 16 := by simp [blendBytes, shareBytes]

theorem headerBytes_length (k : Ticket) : (headerBytes k).length = 24 := by simp [headerBytes]

/-- A base block is 43 bytes; the extensions follow it. -/
theorem itemBytes_length (i : DrawItem) :
    (itemBytes i).length =
      43 + ((i.progress.map progressBytes).getD []).length + ((i.intermix.map intermixBytes).getD []).length +
        ((i.blend.map blendBytes).getD []).length := by
  simp only [itemBytes, List.length_append, List.length_cons, List.length_nil, bytesOf_length, signedBytes_length,
    tempBytes_length, totalsBytes_length]

theorem itemBytes_length_without_extensions {i : DrawItem}
    (h : i.progress = none ∧ i.intermix = none ∧ i.blend = none) : (itemBytes i).length = 43 := by
  obtain ⟨hprogress, hintermix, hblend⟩ := h
  rw [itemBytes_length, hprogress, hintermix, hblend]; rfl

theorem itemBytes_length_with_every_extension {i : DrawItem}
    (h : i.progress.isSome ∧ i.intermix.isSome ∧ i.blend.isSome) : (itemBytes i).length = 76 := by
  obtain ⟨hprogress, hintermix, hblend⟩ := h
  obtain ⟨p, hp⟩ := Option.isSome_iff_exists.1 hprogress
  obtain ⟨m, hm⟩ := Option.isSome_iff_exists.1 hintermix
  obtain ⟨b, hb⟩ := Option.isSome_iff_exists.1 hblend
  rw [itemBytes_length, hp, hm, hb]
  simp only [Option.map_some, Option.getD_some, progressBytes_length, intermixBytes_length, blendBytes_length]

/-- A stream whose items all take `n` bytes. -/
theorem ticketStream_length {k : Ticket} {n : Nat} (h : ∀ i ∈ k.items, (itemBytes i).length = n) :
    (ticketStream k).length = 24 + k.items.length * n := by
  rw [ticketStream, List.length_append, headerBytes_length, List.length_flatMap, List.map_congr_left h, List.map_const',
    List.sum_replicate, smul_eq_mul]

/-! ### A segment is handed (R183) -/

/-- In RUNNING a queue with room answers that it took the frame (R96, R97). -/
theorem handFrame_of_room {s : State} (w : Sender) (f : Frame) (hrun : s.station.state = .running)
    (hroom : s.port.tx.length < Config.txRoom) :
    handFrame w f s = ({ s with port := { s.port with tx := txInsert ⟨f, w, false⟩ s.port.tx } }, true) := by
  simp only [handFrame, portTakes_of_running f hrun, hroom, if_true]

/-- The next segment of a fetch joins a queue with room, and the fetch moves on by one. -/
theorem handSegment_of_room {s : State} {f : Fetch} {segment : List Byte} (hrun : s.station.state = .running)
    (hfetch : s.journal.fetch = some f) (hsegment : f.segments[f.next]? = some segment) (hroom : RoomFor 1 s) :
    handSegment s = { s with
      port := { s.port with
        tx := txInsert
          ⟨tktFrame s.station.number f.station f.next (decide (f.next + 1 = f.segments.length)) segment,
            .journal f.number, false⟩ s.port.tx }
      journal := { s.journal with fetch := some { f with next := f.next + 1, queued := f.queued + 1 } } } := by
  simp only [handSegment, hfetch, hsegment, handFrame_of_room _ _ hrun hroom, if_true]

/-- Settles O55: the cut is that of any stream into as many segments as its bytes need; the three counts rest on items
of one length each, 43 bytes alone and 76 with every extension, after a header of 24; a segment handed is in the queue. -/
theorem ticketStreamIsCutIntoSegments : Obligations.TicketStreamIsCutIntoSegments := by
  refine ⟨fun k => ⟨ticketSegments_length k, ticketSegments_flatten k, fun _ => length_of_mem_segmentsOf,
    fun hitems => ?noItem, fun hitems hbare => ?twoBare, fun hitems hfull => ?fourFull⟩,
    fun s f segment hrun hfetch hsegment hroom => ?handed⟩
  case noItem =>
    rw [ticketSegments_length, ticketStream, hitems, List.flatMap_nil, List.append_nil, headerBytes_length]
  case twoBare =>
    have hstream := ticketStream_length fun i hi => itemBytes_length_without_extensions (hbare i hi)
    rw [ticketSegments_length, hstream, hitems]
    exact ⟨rfl, rfl⟩
  case fourFull =>
    have hstream := ticketStream_length fun i hi => itemBytes_length_with_every_extension (hfull i hi)
    rw [ticketSegments_length, hstream, hitems]
    exact ⟨rfl, rfl⟩
  case handed =>
    rw [handSegment_of_room hrun hfetch hsegment hroom]
    exact ⟨_, (mem_txInsert_iff _ _ _).2 (.inl rfl), rfl⟩

end Sys2Proof.Machine
end

