-- ==== Sys2Proof/Proofs/StepForms.lean ====
section
/-! PROOFS. The whole part: what a command is, seen from outside. But for the commands that start or stop the part, every
command is a level at a pin and an act of the blocks, after which a changed page 0 queues a STAT set; in POWER_DOWN it is
the level alone. The statements about every command rest on this one form. -/

namespace Sys2Proof.Machine

set_option Elab.async false

/-! ### The act of a command -/

/-- The level that a command brings to its pin (log 7). -/
def pinsBrought (i : Instr) (p : Pins) : Pins :=
  match i with
  | .emergencyStopChange active => { p with emergencyStop := active }
  | .holdToRunPress => { p with holdToRun := true }
  | .holdToRunRelease => { p with holdToRun := false }
  | .airDetectorChange active => { p with air := active }
  | .reelStowedChange active => { p with reelStowed := active }
  | .pulserTransition a b => { p with pulserA := a, pulserB := b }
  | .ctsChange active => { p with cts := active }
  | .powerFail => { p with powerFail := true }
  | .powerFailInputInactive => { p with powerFail := false }
  | _ => p

/-- What a timer's expiry does, where the timer runs (log 2, log 3). -/
def expire (timer : State → Option Nat) (f : State → State) (s : State) : State :=
  match timer s with
  | some due => f (passTo due s)
  | none => s

/-- What the blocks do that run from LISTENING on (R88, R107). -/
def whileOperating (f : State → State) (s : State) : State := if operating s then f s else s

/-- What the take of the oldest receive-queue entry does (R93). -/
def atTake (p : Frame → Bool) (f : Frame → Nat → State → State) : State → State := whileOperating (takeThen p f)

/-- The commands that start or stop the part (R195, R196, R200). -/
def startsOrStops : Instr → Bool
  | .powerUp _ _ => true
  | .resetPin _ _ => true
  | .configImageRead _ => true
  | .powerFail => true
  | _ => false

/-- What a command does to the part, the level at its pin in place, where it neither starts nor stops it. -/
def act (i : Instr) : State → State :=
  match i with
  | .powerUp _ _ | .resetPin _ _ | .configImageRead _ | .powerFail | .powerFailInputInactive => fun s => s
  | .emergencyStopChange active => whileOperating (emergencyStopChanged active)
  | .haltRepeat =>
    expire (fun s => s.valve.haltRepeatDue) fun s =>
      sendHalt { s with valve := { s.valve with haltRepeatDue := s.valve.haltRepeatDue.map (· + Config.statusPeriod) } }
  | .holdToRunPress => whileOperating pressed
  | .airDetectorChange active => whileOperating (airChanged active)
  | .reelStowedChange active => whileOperating fun s => { s with inputs := { s.inputs with reelStowed := active } }
  | .pulserTransition a b => whileOperating (transition a b)
  | .probeReading reading =>
    expire (fun s => if s.pulse.session.isNone then s.engine.probeDue else none) (probeRead reading)
  | .meteringUpdate reading =>
    expire (fun s => if s.pulse.session.isSome then s.engine.updateDue else none) (metered reading)
  | .conversionTimer =>
    expire (fun s => s.pulse.conversionDue) fun s =>
      let t := { s with pulse := { s.pulse with conversionDue := s.pulse.conversionDue.map (· + Config.conversionPeriod) } }
      if s.pulse.unticketed = 0 then t else beginIfIdle (convertUnticketed t)
  | .primeTimerExpiry => expire (drawTimer .priming (·.primeDue)) enterFlowing
  | .deadmanExpiry => expire (drawTimer .flowing (·.deadmanDue)) (suspend (raiseLatch .deadman))
  | .airTimerExpiry => expire (drawTimer .flowing (·.airDue)) (suspend (raiseCond .air))
  | .noFlowExpiry => expire noFlowDue (suspend (raiseLatch .noFlow))
  | .flowStop => expire flowStopDue (finishClosing false)
  | .closingLimit => expire closingLimitDue (finishClosing true)
  | .dwellTimerExpiry =>
    expire (fun s => dwellDue s.valve.stage) fun s =>
      { s with valve := { s.valve with stage := dwellOver (fastAccepted (stageOwner s) s) s.valve.stage } }
  | .runOnExpiry => expire (fun s => runOnDue s.valve.pump) fun s => { s with valve := { s.valve with pump := .off } }
  | .haltHeardExpiry =>
    expire (fun s => s.valve.heardDue) fun s => sourceQuiet { s with valve := { s.valve with heardDue := none } }
  | .statusPeriod => expire (fun s => s.port.statusDue) queueStat
  | .portRestart => expire (fun s => s.port.restartDue) portRestarted
  | .quietListenExpiry =>
    expire (fun s => if s.station.state = .listening then s.station.quietDue else none) enterRunning
  | .peerSilence station => expire (silenceDue station) (peerSilent station)
  | .consentTimerExpiry => expire consentDueOf (endClaiming (plain .consentTimeout))
  | .rebuildTimerExpiry => expire (fun s => s.claims.rebuildDue) rebuildOver
  | .leadQuietExpiry => expire (fun s => s.blend.binding.bind (·.quietDue)) leadQuiet
  | .trimTimerExpiry =>
    expire (fun s => if s.blend.follower = .fTrim then s.blend.trimDue else none) (enterFClose .trimLimit)
  | .followerFlowStop => expire followerStopDue (followerFinish false)
  | .followerClosingLimit => expire followerLimitDue (followerFinish true)
  | .finalReportRepeat => expire (fun s => s.blend.held.bind (·.repeatDue)) repeatReport
  | .finalReportLimit => expire (fun s => s.blend.held.bind (·.discardDue)) (discardHeld fun _ => true)
  | .blendWaitExpiry => expire (fun s => s.blend.lead.bind (·.waitDue)) blendWaitOver
  | .clockSecond => expire (fun s => s.port.clockDue) fun s => { s with port := clockTick s.port }
  | .stallTimerExpiry => expire stallDue abortJob
  | .trailerTimerExpiry => expire trailerDue endTrailer
  | .ctsChange active => whileOperating fun s => if s.cfg.flowControl = .cts then setGo active s else s
  | .printerCharacterReceived character framingError => whileOperating (characterReceived character framingError)
  | .characterShifted => whileOperating characterDone
  | .frameArrival frame => arrived frame
  | .takeHalt => atTake (ofKind kHalt) fun f _ s => modPeer (sourceOf f.id) (fun p => { p with haltFlag := true }) s
  | .takeClaim => atTake (ofKind kClaim) fun f _ s => claimTaken f s
  | .takeConsent => atTake (ofKind kConsent) fun f _ s => consentTaken f s
  | .takeRelease => atTake (ofKind kRelease) fun f _ s => releaseTaken f s
  | .takeProgLeadReport => fun s => atTake (isProgress true s) (fun f _ s => leadReportTaken f s) s
  | .takeProgFollowerReport => fun s => atTake (isProgress false s) (fun f _ s => followerReportTaken f s) s
  | .takeProgFinalPart => atTake isFinalPart fun f _ s => finalPartTaken f s
  | .takeStatPage0 => atTake (isPage 0) page0Taken
  | .takeStatPage1 =>
    atTake (isPage 1) fun f _ s => modPeer (sourceOf f.id) (fun p => { p with comps := decodePage1 f }) s
  | .takeStatPage2 => atTake (isPage 2) fun f _ s => page2Taken f s
  | .takeAnswer => atTake (ofKind kAnswer) fun _ _ s => s
  | .takeTkt => atTake (ofKind kTkt) fun _ _ s => s
  | .takeClock => atTake (ofKind kClock) fun f _ s => setClock (fieldAt f 0 4) s
  | .takeCompletionNotice => whileOperating noticeTaken
  | .transmitStart => started
  | .arbitrationLost => fun s => { s with port := { s.port with tx := allWaiting s.port.tx } }
  | .frameSent => sent
  | .transmitFailure noAck => failed noAck
  | .journalWriteComplete => writeCompleted
  | .configWriteComplete completed => configWritten completed
  | .openDrop => takeRequest 1 serveOpen
  | .select => takeRequest 2 serveSelect
  | .start => takeRequest 3 serveStart
  | .pause => takeRequest 4 servePause
  | .resume => takeRequest 5 serveResume
  | .endDraw => takeRequest 6 serveEnd
  | .closeDrop => takeRequest 7 serveClose
  | .setPreset => takeRequest 8 servePreset
  | .setCompartment => takeRequest 9 serveCompartment
  | .resumeHalt => takeRequest 10 serveResumeHalt
  | .clearFaults => takeRequest 11 serveClearFaults
  | .fetchTicket => takeRequest 12 askJournal
  | .ackTicket => takeRequest 13 askJournal
  | .print => takeRequest 14 servePrint
  | .readTotals => takeRequest 15 askJournal
  | .writeConfig => takeRequest 16 serveWriteConfig
  | .askUnknownCode => takeAsk (fun code => code == 0 || decide (16 < code)) fun _ _ s => s
  | .holdToRunRelease => whileOperating fun s => { s with inputs := { s.inputs with holdToRun := false } }

/-- A part with the level at its pin, after an act that a change of page 0 announces; in POWER_DOWN the level alone. -/
def afterAct (f : State → State) (s : State) : State := if s.station.state = .powerDown then s else announce f s

theorem stepOf_afterAct (f : State → State) (s : State) : stepOf f s = .next (afterAct f s) := by
  unfold stepOf afterAct; split <;> rfl

theorem afterAct_of_same {f : State → State} {s : State} (h : f s = s) : afterAct f s = s := by
  rw [afterAct, announce_same f s (by rw [h]), h, ite_self]

theorem stepWhenOperating_afterAct (f : State → State) (s : State) :
    stepWhenOperating f s = .next (afterAct (whileOperating f) s) := by
  by_cases hop : operating s = true
  · have hbody : announce (whileOperating f) s = announce f s := by simp only [announce, whileOperating, hop, if_true]
    rw [stepWhenOperating_next f s hop, afterAct, if_neg (not_powerDown_of_operating s hop), hbody]
  · rw [stepWhenOperating, if_neg hop, afterAct_of_same (by rw [whileOperating, if_neg hop])]

theorem stepAtExpiry_afterAct (timer : State → Option Nat) (f : State → State) (s : State) :
    stepAtExpiry timer f s = .next (afterAct (expire timer f) s) := by
  cases htimer : timer s with
  | none => rw [stepAtExpiry_none f s timer htimer, afterAct_of_same (by rw [expire, htimer])]
  | some due =>
    have hbody : announce (expire timer f) s = announce (fun s => f (passTo due s)) s := by
      simp only [announce, expire, htimer]
    simp only [stepAtExpiry, htimer, stepOf_afterAct, afterAct, hbody]

/-- Every command that neither starts nor stops the part is the level at its pin and its act. -/
theorem exec_eq_act (i : Instr) (s : State) (h : startsOrStops i = false) :
    exec i s = .next (afterAct (act i) (setPins (pinsBrought i) s)) := by
  cases i
  case powerUp | resetPin | configImageRead | powerFail => cases h
  case powerFailInputInactive =>
    exact congrArg _ (afterAct_of_same (f := fun s => s) (s := setPins (fun p => { p with powerFail := false }) s) rfl).symm
  case takeProgLeadReport => exact stepWhenOperating_afterAct _ s
  case takeProgFollowerReport => exact stepWhenOperating_afterAct _ s
  all_goals
    first
    | exact stepOf_afterAct _ _
    | exact stepWhenOperating_afterAct _ _
    | exact stepAtExpiry_afterAct _ _ _
    | (simp only [exec, execHaltRepeat, execProbeReading, execMeteringUpdate, execConversionTimer, execDwellTimerExpiry,
        execRunOnExpiry, execHaltHeardExpiry, execStatusPeriod, execPortRestart, execQuietListenExpiry,
        execRebuildTimerExpiry, execLeadQuietExpiry, execTrimTimerExpiry, execFinalReportRepeat,
        execFinalReportLimit, execBlendWaitExpiry, execClockSecond]
       exact stepAtExpiry_afterAct _ _ _)

/-! ### What every step keeps -/

theorem setPins_only (f : Pins → Pins) (s : State) : OnlyChanges [.pins] s (setPins f s) := only_pins _

theorem only_pending {s : State} (x : List Instr) : OnlyChanges [.pending] s { s with pending := x } := by
  intro b hb; cases b <;> first | exact absurd (by decide) hb | rfl

/-- With no command waiting, a millisecond passes or a command joins the queue (log 1). -/
theorem idle_only (s : State) : OnlyChanges [.time, .pending, .freeIndex] s (idle s) := by
  unfold idle
  refine .ite (.refl _ _) (.ite ((only_time _).mono (by decide)) ?_)
  exact OnlyChanges.comp (t := { s with pending := (anyOrder s.freeIndex (dueCommands s)).take 1 })
    (only_freeIndex _) (only_pending _)

section
variable {P : State → Prop}
  (hlocal : ∀ s t, OnlyChanges [.time, .pins, .freeIndex, .pending] s t → P s → P t)
  (hstart : ∀ straps sealOpen s, P s → P (startUp straps sealOpen s))
  (hread : ∀ read s, s.station.state = .starting → P s → P (readImage read s))
  (hdown : ∀ s, P s → P (enterPowerDown s))
  (hact : ∀ i s, P s → P (act i s))
  (hstat : ∀ s, P s → P (queueStat s))

include hact hstat in
theorem afterAct_keeps (i : Instr) {s : State} (hs : P s) : P (afterAct (act i) s) := by
  unfold afterAct announce
  simp only
  split
  · exact hs
  · split
    · exact hact i s hs
    · exact hstat _ (hact i s hs)

include hlocal hstart hread hdown hact hstat

theorem exec_keeps (i : Instr) (s t : State) (hs : P s) (hexec : exec i s = .next t) : P t := by
  have hpins : ∀ f, P (setPins f s) := fun f => hlocal _ _ ((setPins_only f s).mono (by decide)) hs
  cases hkind : startsOrStops i with
  | false =>
    rw [exec_eq_act i s hkind, Host.Outcome.next.injEq] at hexec
    subst hexec
    exact afterAct_keeps hact hstat i (hpins _)
  | true =>
    cases i
    case powerUp straps sealOpen => cases hexec; exact hstart _ _ _ (hpins _)
    case resetPin straps sealOpen => cases hexec; exact hstart _ _ _ hs
    case configImageRead read =>
      simp only [exec, execConfigImageRead] at hexec
      split at hexec
      · next h => cases hexec; exact hread _ _ h.1 hs
      · cases hexec; exact hs
    case powerFail =>
      simp only [exec, execPowerFail] at hexec
      split at hexec
      · cases hexec; exact hpins _
      · cases hexec; exact hdown _ (hpins _)
    all_goals cases hkind

/-- What a start, the image read, a power fail, every act and a STAT set keep, and what does not read the time, the pins
and the model's own counts, every step keeps. -/
theorem step_keeps (s t : State) (hs : P s) (hstep : step s = .next t) : P t := by
  unfold step at hstep
  split at hstep
  · next rest _ =>
    exact exec_keeps hlocal hstart hread hdown hact hstat _ _ t
      (hlocal _ _ ((only_pending rest).mono (by decide)) hs) hstep
  · cases hstep
    exact hlocal _ _ ((idle_only s).mono (by decide)) hs

end

/-! ### The statements about every command -/

/-- Settles O1: it is the step's own first case. -/
theorem stepRunsFrontCommand : Obligations.StepRunsFrontCommand := fun _ _ _ => rfl

/-- Settles O2: in POWER_DOWN no command acts, and the level at its pin is all that is left of it. -/
theorem powerDownTakesNoCommand : Obligations.PowerDownTakesNoCommand := by
  intro i s hdown hstart
  cases hkind : startsOrStops i with
  | false =>
    refine ⟨_, exec_eq_act i s hkind, ?_⟩
    rw [afterAct, if_pos (by rw [setPins_station, hdown])]
    exact setPins_only _ _
  | true =>
    cases i
    case powerUp straps sealOpen => exact absurd rfl (hstart straps sealOpen).1
    case resetPin straps sealOpen => exact absurd rfl (hstart straps sealOpen).2
    case configImageRead read => exact ⟨s, if_neg (by simp [hdown]), .refl _ _⟩
    case powerFail => exact ⟨_, if_pos hdown, setPins_only _ _⟩
    all_goals cases hkind

/-- Settles O7: at reset no draw, no claim and no pairing stand, the valve is CLOSED and every queue is empty. -/
theorem resetIsSound : Obligations.ResetIsSound := by
  refine ⟨⟨⟨rfl, rfl, rfl⟩, nofun, ⟨⟨fun _ => rfl, fun _ => rfl⟩, fun _ => rfl⟩, trivial, fun _ => ⟨rfl, rfl⟩, nofun⟩,
    ⟨.nil, Nat.zero_le _, Nat.zero_le _, Nat.zero_le _, nofun⟩, ⟨Nat.zero_le _, Nat.zero_le _, fun h => absurd rfl h⟩⟩

end Sys2Proof.Machine
end

