-- ==== Sys2Proof/Proofs/ActFrames.lean ====
section
/-! PROOFS. Which blocks the acts of the commands can change, after the shared operations of Laws/Frames.lean: the local
lines, the metering updates, the takes of the receive queue, the timers and the requests. -/

namespace Sys2Proof.Machine

set_option Elab.async false

variable {s : State} {bs : List Block}

/-! ### The forms of an act -/

theorem expire_only {timer : State → Option Nat} {f : State → State} (h : ∀ s, OnlyChanges bs s (f s)) (s : State) :
    OnlyChanges (.time :: bs) s (expire timer f s) := by
  unfold expire
  split
  · exact OnlyChanges.comp (h _) (only_time _) (by simp) (fun b hb => List.mem_cons_of_mem _ hb)
  · exact .refl _ _

theorem whileOperating_only {f : State → State} (h : ∀ s, OnlyChanges bs s (f s)) (s : State) :
    OnlyChanges bs s (whileOperating f s) := .ite (h s) (.refl _ _)

/-- A take does nothing, or the oldest entry was a frame of its kind and what the take does follows (R93). -/
theorem takeThen_cases (p : Frame → Bool) (g : Frame → Nat → State → State) (s : State) :
    takeThen p g s = s ∨
      ∃ f a, s.port.rx.head? = some (.frame f a) ∧ p f = true ∧ takeThen p g s = g f a (taken s f a) := by
  cases hhead : s.port.rx.head? with
  | none => left; simp [takeThen, takeFrame, List.head?_eq_none_iff.1 hhead]
  | some e =>
    cases e with
    | notice f =>
      obtain ⟨rest, hrx⟩ := List.head?_eq_some_iff.1 hhead
      left; simp [takeThen, takeFrame, hrx]
    | frame f a =>
      cases hp : p f with
      | true => exact .inr ⟨f, a, rfl, hp, takeThen_taken s p g f a hhead hp⟩
      | false =>
        obtain ⟨rest, hrx⟩ := List.head?_eq_some_iff.1 hhead
        left; simp [takeThen, takeFrame, hrx, hp]

theorem taken_only (s : State) (f : Frame) (a : Nat) : OnlyChanges [.port, .claims] s (taken s f a) :=
  (refreshPeer_only _ _ _).comp (only_port _)

theorem takeThen_only {p : Frame → Bool} {f : Frame → Nat → State → State} (h : ∀ x a s, OnlyChanges bs s (f x a s))
    (s : State) : OnlyChanges (.port :: .claims :: bs) s (takeThen p f s) := by
  obtain hsame | ⟨x, a, -, -, htake⟩ := takeThen_cases p f s
  · rw [hsame]
  · rw [htake]
    exact (h x a _).comp (taken_only s x a) (by simp) (by simp +contextual)

theorem atTake_only {p : Frame → Bool} {f : Frame → Nat → State → State} (h : ∀ x a s, OnlyChanges bs s (f x a s))
    (s : State) : OnlyChanges (.port :: .claims :: bs) s (atTake p f s) :=
  whileOperating_only (takeThen_only h) s

theorem expire_keeps {Q : State → Prop} {timer : State → Option Nat} {f : State → State} {s : State}
    (h : Q s) (hf : ∀ due, timer s = some due → Q (f (passTo due s))) : Q (expire timer f s) := by
  unfold expire
  split
  · next due htimer => exact hf due htimer
  · exact h

theorem whileOperating_keeps {Q : State → Prop} {f : State → State} {s : State} (h : Q s) (hf : Q s → Q (f s)) :
    Q (whileOperating f s) := by
  unfold whileOperating
  split
  · exact hf h
  · exact h

theorem atTake_keeps {Q : State → Prop} {p : Frame → Bool} {g : Frame → Nat → State → State} {s : State} (h : Q s)
    (hg : ∀ f a, s.port.rx.head? = some (.frame f a) → p f = true → Q s → Q (g f a (taken s f a))) :
    Q (atTake p g s) := by
  refine whileOperating_keeps h fun h => ?_
  obtain hsame | ⟨f, a, hhead, hp, htake⟩ := takeThen_cases p g s
  · rw [hsame]; exact h
  · rw [htake]; exact hg f a hhead hp h

/-! ### Local lines and metering -/

theorem emergencyStopChanged_only (active : Bool) (s : State) :
    OnlyChanges (.inputs :: haltBlocks) s (emergencyStopChanged active s) := by
  unfold emergencyStopChanged
  exact .ite (.refl _ _) (.ite (localHalt_only s) ((sourceQuiet_only _).comp (only_inputs_valve _ _)))

theorem pressed_only (s : State) : OnlyChanges (.inputs :: drawBlocks) s (pressed s) := by
  unfold pressed
  refine .ite (.refl _ _) ?_
  simp only
  split
  · exact (modCurrent_only _ _).comp (only_inputs _)
  · exact .ite ((enterFlowing_only _).comp (only_inputs _)) ((only_inputs _).mono (by decide))
  · exact (only_inputs _).mono (by decide)

theorem airChanged_only (active : Bool) (s : State) : OnlyChanges [.inputs, .draw, .valve] s (airChanged active s) := by
  unfold airChanged
  refine .ite (.refl _ _) ?_
  simp only
  split
  · exact (evaluateStage_only _).comp ((modCurrent_only _ _).comp (only_inputs _) (ds := [.inputs, .draw]))
  · exact .ite ((modCurrent_only _ _).comp (only_inputs _)) ((clearCause_only _ _).comp (only_inputs _))
  · exact (only_inputs _).mono (by decide)

/-- A reaction of the draw to an update is one of four (R26, R50, R61, R62). -/
theorem mem_drawReactions {r : Results} {s : State} {f : State → State} (h : f ∈ drawReactions r s) :
    (∃ e, f = drawTempEvent e) ∨ f = superviseOverspeed ∨ f = superviseReverse ∨ ∃ p, f = signalPoint p := by
  simp only [drawReactions, List.mem_append, Option.mem_toList, Option.map_eq_some_iff, List.mem_map] at h
  obtain ((⟨e, -, rfl⟩ | h) | h) | ⟨p, -, rfl⟩ := h
  · exact .inl ⟨e, rfl⟩
  · split at h
    · exact .inr (.inl (List.mem_singleton.1 h))
    · exact absurd h List.not_mem_nil
  · split at h
    · exact .inr (.inr (.inl (List.mem_singleton.1 h)))
    · exact absurd h List.not_mem_nil
  · exact .inr (.inr (.inr ⟨p, rfl⟩))

theorem drawReactions_only (r : Results) (s : State) :
    ∀ f ∈ drawReactions r s, ∀ x, OnlyChanges (.engine :: drawBlocks) x (f x) := by
  intro f hf x
  obtain ⟨e, rfl⟩ | rfl | rfl | ⟨p, rfl⟩ := mem_drawReactions hf
  · exact (drawTempEvent_only e x).mono (by decide)
  · exact (superviseOverspeed_only x).mono (by decide)
  · exact (superviseReverse_only x).mono (by decide)
  · exact signalPoint_only p x

theorem drawUpdate_only (r : Results) (s : State) :
    OnlyChanges (.freeIndex :: .engine :: drawBlocks) s (drawUpdate r s) := by
  unfold drawUpdate
  refine (evaluateStage_only _).comp (bs := .freeIndex :: .engine :: drawBlocks) ?_
  refine (runAnyOrder_only _ _ (drawReactions_only _ _)).comp (bs := [.draw, .port, .journal]) ?_
  refine (sendLeadProg_only _ _).comp (bs := [.draw, .journal]) ?_
  exact .ite ((handWork_only _ _).comp (modCurrent_only _ _)) ((modCurrent_only _ _).mono (by decide))

theorem followerReactions_only (temp : Option TempEvent) :
    ∀ f ∈ (temp.map followerTempEvent).toList ++ [followStage], ∀ x, OnlyChanges followBlocks x (f x) := by
  intro f hf x
  simp only [List.mem_append, Option.mem_toList, Option.map_eq_some_iff, List.mem_singleton] at hf
  obtain ⟨e, -, rfl⟩ | rfl := hf
  · exact followerTempEvent_only e x
  · exact followStage_only x

theorem followerUpdate_only (r : Results) (s : State) :
    OnlyChanges (.freeIndex :: followBlocks) s (followerUpdate r s) := by
  unfold followerUpdate
  refine (runAnyOrder_only _ _ (followerReactions_only _)).comp (bs := [.blend, .port, .journal]) ?_
  refine (sendFollowerProg_only _).comp (bs := [.blend, .journal]) ?_
  exact .ite ((handWork_only _ _).comp (only_blend _)) ((only_blend _).mono (by decide))

theorem metered_only (reading : ProbeReading) (s : State) :
    OnlyChanges [.pulse, .engine, .draw, .valve, .port, .blend, .journal, .freeIndex] s (metered reading s) := by
  have hupdate : ∀ x, OnlyChanges [.pulse, .engine] s { (regularUpdate reading s).1 with engine := x } := fun x =>
    (only_engine x).comp (regularUpdate_only reading s)
  unfold metered
  simp only
  split
  · exact (drawUpdate_only _ _).comp (hupdate _)
  · exact (followerUpdate_only _ _).comp (hupdate _)
  · exact (hupdate _).mono (by decide)

/-! ### The timers -/

theorem listen_only (s : State) : OnlyChanges [.station, .port] s (listen s) :=
  OnlyChanges.comp (t := { s with station := (listen s).station }) (only_port _) (only_station _)

theorem portRestarted_only (s : State) : OnlyChanges [.station, .port] s (portRestarted s) := by
  unfold portRestarted
  split
  · exact listen_only s
  · exact (queueStat_only _).comp (only_port _)
  · exact .refl _ _

theorem loseOwner_only (n : Nat) (s : State) : OnlyChanges (.claims :: drawBlocks) s (loseOwner n s) := by
  unfold loseOwner
  split
  · refine .ite ?_ (.refl _ _)
    have first : ∀ (p : Prop) [Decidable p] (f : OwnClaim → OwnClaim), OnlyChanges (.claims :: drawBlocks) s
        (if p then suspend (raiseCond .ownerSilent) (modOwn f s) else modOwn f s) := fun p _ f =>
      .ite ((suspend_only _ _).comp (modOwn_only f s)) ((modOwn_only f s).mono (by decide))
    exact .ite ((suspend_only _ _).comp (first _ _)) (first _ _)
  · exact .refl _ _

theorem peerSilent_only (n : Nat) (s : State) : OnlyChanges (.claims :: drawBlocks) s (peerSilent n s) := by
  unfold peerSilent
  exact (loseOwner_only _ _).comp ((only_claims _).comp (endPeerClaim_only n s) (ds := judgeBlocks))

theorem rebuildOver_only (s : State) : OnlyChanges ownBlocks s (rebuildOver s) := by
  unfold rebuildOver
  exact .ite ((judgePending_only _).comp (only_claims _)) ((only_claims _).mono (by decide))

theorem leadQuiet_only (s : State) : OnlyChanges followBlocks s (leadQuiet s) :=
  (raiseHold_only _ _).comp (modBinding_only _ _)

theorem repeatReport_only (s : State) : OnlyChanges [.blend, .port] s (repeatReport s) := by
  unfold repeatReport
  split
  · exact (sendFinalReport_only _ _ _ _).comp (only_blend _)
  · exact .refl _ _

theorem blendWaitOver_only (s : State) : OnlyChanges closeBlocks s (blendWaitOver s) :=
  (tryAssemble_only _).comp (only_blend _)

/-! ### Arrival and the takes -/

theorem entered_only (f : Frame) (s : State) : OnlyChanges haltBlocks s (entered f s) := .ite (hearHalt_only s) (.refl _ _)

theorem pushRx_only (f : Frame) (rx : List RxEntry) (s : State) : OnlyChanges [.port] s (pushRx f rx s) := only_port _

theorem offerFrame_only (f : Frame) (s : State) : OnlyChanges haltBlocks s (offerFrame f s) := by
  unfold offerFrame
  refine .ite ((entered_only _ _).comp (pushRx_only _ _ _)) (.ite ?_ (.refl _ _))
  split
  · exact (entered_only _ _).comp (pushRx_only _ _ _)
  · exact (enterRebuild_only s).mono (by decide)

theorem arrived_only (f : Frame) (s : State) : OnlyChanges haltBlocks s (arrived f s) := .ite (offerFrame_only f s)
  (.refl _ _)

/-- Judging a claim announces a change of page 0 by itself (log 5). -/
theorem announce_judgePeer_only (d : Bool) (n : Nat) (rs : List Resource) (s : State) :
    OnlyChanges judgeBlocks s (announce (judgePeer d n rs) s) :=
  (announce_only _ _ (judgePeer_only d n rs s)).mono (by decide)

theorem claimTaken_only (f : Frame) (s : State) : OnlyChanges haltBlocks s (claimTaken f s) := by
  have hyield : ∀ c p, OnlyChanges haltBlocks s (yieldTo c (enterClaim c p s)) := fun c p =>
    (yieldTo_only c _).comp (enterClaim_only c p s)
  unfold claimTaken
  simp only
  split
  · exact .ite (.refl _ _) (.ite ((announce_judgePeer_only _ _ _ _).comp (hyield _ _)) (hyield _ _))
  · exact .refl _ _

theorem ownVerdict_only (o : OwnClaim) (r : Resource) (n v w : Nat) (s : State) :
    OnlyChanges ownBlocks s (ownVerdict o r n v w s) := by
  unfold ownVerdict
  refine .ite (.ite ?_ (.ite ((refusedOwn_only _ _ s).mono (by decide)) (.refl _ _))) (.refl _ _)
  exact (settleConsent_only _).comp ((settleOwnPump_only _).comp (modOwn_only _ _) (ds := ownBlocks))

theorem peerVerdict_only (id : ClaimId) (n : Nat) (s : State) : OnlyChanges claimBlocks s (peerVerdict id n s) :=
  (settlePeerPump_only _ _).comp (modPeer_only _ _ _)

theorem consentTaken_only (f : Frame) (s : State) : OnlyChanges ownBlocks s (consentTaken f s) := by
  unfold consentTaken
  simp only
  split
  · exact .refl _ _
  · split
    · split
      · exact .ite (ownVerdict_only _ _ _ _ _ s) (.refl _ _)
      · exact .refl _ _
    · split
      · exact .ite ((peerVerdict_only _ _ s).mono (by decide)) (.refl _ _)
      · exact .refl _ _

theorem releaseTaken_only (f : Frame) (s : State) : OnlyChanges judgeBlocks s (releaseTaken f s) := by
  have hdiscard := fun p => (discardHeld_only p s).mono (cs := judgeBlocks) (by decide)
  unfold releaseTaken
  simp only
  split
  · exact .ite ((endPeerClaim_only _ _).comp (discardHeld_only _ s)) (hdiscard _)
  · exact hdiscard _

/-- The blocks that a lead report can change: it can open the followed session. -/
abbrev reportBlocks : List Block := [.pulse, .engine, .valve, .blend, .port, .journal]

theorem followReport_only (code : Nat) (s : State) : OnlyChanges reportBlocks s (followReport code s) := by
  unfold followReport
  simp only
  generalize ht : (if s.blend.follower = .bound ∧ drawCode .priming ≤ code ∧ code ≤ drawCode .closing then
    enterFPrime s else s) = t
  have hstart : OnlyChanges reportBlocks s t := ht ▸ .ite (enterFPrime_only s) (.refl _ _)
  have after : ∀ {u}, OnlyChanges followBlocks t u → OnlyChanges reportBlocks s u := fun h => h.comp hstart
  refine .ite ?_ (.ite (after (raiseHold_only _ _)) (.ite (after (dropHold_only _ _)) (.ite ?_ hstart)))
  · split <;> first | exact after (enterTrim_only _) | exact hstart
  · exact .ite (after ((enterRun_only _).comp (dropHold_only _ _))) (after (dropHold_only _ _))

theorem takeLeadReport_only (r : LeadReport) (s : State) : OnlyChanges reportBlocks s (takeLeadReport r s) := by
  unfold takeLeadReport
  refine (modBinding_only _ _).comp (bs := reportBlocks) ?_
  exact (followReport_only _ _).comp ((dropHold_only _ _).comp (modBinding_only _ _) (ds := followBlocks))

theorem leadReportTaken_only (f : Frame) (s : State) : OnlyChanges reportBlocks s (leadReportTaken f s) := by
  unfold leadReportTaken
  split
  · exact .ite (takeLeadReport_only _ s) (.refl _ _)
  · exact .refl _ _

theorem actOnLag_only (lag : Int) (l : Lead) (s : State) : OnlyChanges drawBlocks s (actOnLag lag l s) := by
  have hmark : ∀ x, OnlyChanges [.draw, .valve, .blend] s (evaluateStage { s with blend := x }) := fun x =>
    (evaluateStage_only _).comp (only_blend x)
  unfold actOnLag
  exact .ite (.ite ((suspend_only _ _).comp (hmark _)) ((hmark _).mono (by decide))) (.refl _ _)

theorem followerReportTaken_only (f : Frame) (s : State) : OnlyChanges drawBlocks s (followerReportTaken f s) := by
  unfold followerReportTaken
  split
  · exact .ite ((actOnLag_only _ _ _).comp (only_blend _)) (.refl _ _)
  · exact .refl _ _

theorem finalPartTaken_only (f : Frame) (s : State) : OnlyChanges closeBlocks s (finalPartTaken f s) := by
  have hpart : ∀ x, OnlyChanges closeBlocks s (tryAssemble { s with blend := x }) := fun x =>
    (tryAssemble_only _).comp (only_blend x)
  unfold finalPartTaken
  split
  · exact .ite (.ite (hpart _) (.ite (hpart _) (.refl _ _))) (.refl _ _)
  · exact .refl _ _

theorem page0Taken_only (f : Frame) (a : Nat) (s : State) : OnlyChanges [.claims, .blend] s (page0Taken f a s) := by
  have forget : ∀ n c t, OnlyChanges [.blend] t (forgetLead n c t) := fun n c t => .ite (only_blend _) (.refl _ _)
  unfold page0Taken
  simp only
  split
  · exact (forget _ _ _).comp (modPeer_only _ _ _)
  · exact (forget _ _ _).comp (only_claims _)

theorem answerAwaited_only (l : LiveClaim) (w : Awaited) (s : State) :
    OnlyChanges judgeBlocks s (answerAwaited l w s) := by
  unfold answerAwaited
  exact (judgePeer_only _ _ _ _).comp
    (OnlyChanges.foldl (fun s r => sendConsent l.claim.id r none s) (fun s r => sendConsent_only _ r none s) _ s)

theorem heldPage_only (l : LiveClaim) (w : Awaited) (s : State) : OnlyChanges judgeBlocks s (heldPage l w s) := by
  have hcount : OnlyChanges [.claims] s (countPage l.claim.id.station (notAwaited l.claim w) s) := modPeer_only _ _ _
  unfold heldPage
  exact .ite ((settlePeerPump_only _ _).comp ((answerAwaited_only l w _).comp hcount (ds := judgeBlocks)))
    (hcount.mono (by decide))

theorem reAnnounced_only (c : Claim) (w : Awaited) (s : State) : OnlyChanges judgeBlocks s (reAnnounced c w s) := by
  have hcount : ∀ p, OnlyChanges judgeBlocks s (countPage c.id.station (notAwaited c w) (enterClaim c p s)) := fun p =>
    OnlyChanges.comp (modPeer_only _ _ _) (enterClaim_only c p s)
  unfold reAnnounced
  exact .ite (hcount _) ((announce_judgePeer_only _ _ _ _).comp (hcount _))

theorem page2Compared_only (p : Peer) (c : Option (Claim × Awaited)) (s : State) :
    OnlyChanges judgeBlocks s (page2Compared p c s) := by
  unfold page2Compared
  split
  · exact .ite (heldPage_only _ _ s) (.ite (.refl _ _) (reAnnounced_only _ _ s))
  · exact .ite (.refl _ _) (reAnnounced_only _ _ s)
  · unfold nonePage
    split
    · exact .refl _ _
    · exact .ite (.refl _ _) (endPeerClaim_only _ s)
  · exact .refl _ _

theorem page2Taken_only (f : Frame) (s : State) : OnlyChanges judgeBlocks s (page2Taken f s) := by
  unfold page2Taken
  simp only
  split
  · exact (page2Compared_only _ _ _).comp (discardHeld_only _ s)
  · exact (discardHeld_only _ s).mono (by decide)

theorem claimCompleted_only (n : Nat) (s : State) : OnlyChanges ownBlocks s (claimCompleted n s) := by
  unfold claimCompleted
  refine .ite ((sendFrame_only _ _ _).comp (only_claims _)) ?_
  split
  · exact .ite ((judgeOwn_only _).comp (modOwn_only _ _)) (.refl _ _)
  · exact .refl _ _

theorem noticeTaken_only (s : State) : OnlyChanges ownBlocks s (noticeTaken s) := by
  unfold noticeTaken
  split
  · exact .ite ((claimCompleted_only _ _).comp (only_port _)) ((only_port _).mono (by decide))
  · exact .refl _ _

/-! ### The transmit side and the memories -/

theorem started_only (s : State) : OnlyChanges [.port] s (started s) := .ite (only_port _) (.refl _ _)

theorem sent_only (s : State) : OnlyChanges [.port, .journal] s (sent s) := by
  unfold sent reportSent
  split
  · split
    · exact (segmentSent_only _ _).comp (only_port _)
    · exact (only_port _).mono (by decide)
  · exact .refl _ _

theorem busOff_only (s : State) : OnlyChanges (.station :: haltBlocks) s (busOff s) := by
  unfold busOff
  split
  · exact enterLineLost_only s
  · exact (purgePort_only s).mono (by decide)

theorem failed_only (noAck : Bool) (s : State) : OnlyChanges (.station :: haltBlocks) s (failed noAck s) := by
  unfold failed
  refine .ite ?_ (.refl _ _)
  simp only
  split
  · exact (only_port _).mono (by decide)
  · exact (busOff_only _).comp (only_port _)

theorem takeWaiting_only (s : State) :
    OnlyChanges [.pulse, .draw, .port, .handler, .journal] s (takeWaiting s) := by
  unfold takeWaiting
  split
  · exact (serveJournal_only _ _ _).comp (only_handler _)
  · exact .refl _ _

theorem configWritten_only (completed : Bool) (s : State) :
    OnlyChanges [.station, .port, .handler, .journal, .freeIndex] s (configWritten completed s) := by
  unfold configWritten
  split
  · next w sv _ _ =>
    simp only
    generalize ht : ({ s with station := _, handler := _, freeIndex := _ } : State) = t
    have hend : OnlyChanges [.station, .handler, .freeIndex] s t := by
      subst ht
      intro b hb; cases b <;> first | exact absurd (by decide) hb | rfl
    exact (answer_only _ _ _).comp (.ite ((handWork_only _ _).comp hend) (hend.mono (by decide)))
      (bs := [.station, .handler, .freeIndex, .journal])
  · exact .refl _ _

/-! ### Requests -/

section
variable {serve : Asker → Request → State → State} (hserve : ∀ a r s, OnlyChanges bs s (serve a r s))

include hserve

theorem judgeAsk_only (f : Frame) (s : State) : OnlyChanges (.port :: .handler :: bs) s (judgeAsk f serve s) := by
  have hanswer : ∀ a x, OnlyChanges (.port :: .handler :: bs) s (answer a x s) := fun a x =>
    (answer_only a x s).mono (by simp)
  unfold judgeAsk
  refine .ite ((settleEntry_only _ _ s).mono (by simp)) (.ite (hanswer _ _) ?_)
  split
  · exact hanswer _ _
  · exact .ite (hanswer _ _) ((hserve _ _ s).mono fun b hb => by simp [hb])

theorem handleAsk_only (f : Frame) (s : State) : OnlyChanges (.port :: .handler :: bs) s (handleAsk f serve s) := by
  have hjudge : OnlyChanges (.port :: .handler :: bs) s (judgeAsk f serve (enterRequest (askerOf f) s)) :=
    (judgeAsk_only hserve f _).comp (only_handler _) (by simp) (fun _ h => h)
  unfold handleAsk
  simp only
  split
  · refine .ite ?_ hjudge
    split
    · exact (sendFrame_only_port _ _ _ (isUrgent_answerFrame _ _ _)).mono (by simp)
    · exact .refl _ _
    · exact .refl _ _
  · exact hjudge

theorem takeAsk_only (code : Nat → Bool) (s : State) :
    OnlyChanges (.port :: .claims :: .handler :: bs) s (takeAsk code serve s) :=
  .ite ((takeThen_only (fun f _ s => handleAsk_only hserve f s) s).mono (by simp +contextual)) (.refl _ _)

end

/-- What the handler's own moves keep and what serves the request keeps, the request command keeps: the frame taken, an
answer, an entry of the repeat table, an answer sent again (R157 to R161). -/
theorem takeAsk_keeps {Q : State → Prop} {code : Nat → Bool} {serve : Asker → Request → State → State}
    (htaken : ∀ s f a, Q s → Q (taken s f a)) (hanswer : ∀ a x s, Q s → Q (answer a x s))
    (hrepeat : ∀ n a x s, Q s → Q (sendFrame .handler (answerFrame n a x) s))
    (htable : ∀ s x, Q s → Q { s with handler := { s.handler with table := x } })
    (hserve : ∀ f r s, kindOf f.id = kAsk → code (askCodeOf f.id) = true → decodeAsk f = some r →
      s.handler.serving = none → Q s → Q (serve (askerOf f) r s))
    {s : State} (h : Q s) : Q (takeAsk code serve s) := by
  unfold takeAsk
  split
  swap; · exact h
  next htakes =>
  obtain hsame | ⟨f, a, -, hask, htake⟩ := takeThen_cases (isAsk code) (fun f _ t => handleAsk f serve t) s
  · rw [hsame]; exact h
  · rw [htake]
    have hidle : s.handler.serving = none := by
      simp only [handlerTakes, Bool.and_eq_true, Option.isNone_iff_eq_none] at htakes
      exact htakes.2
    obtain ⟨hkind, hcode⟩ : kindOf f.id = kAsk ∧ code (askCodeOf f.id) = true := by
      simpa [isAsk] using hask
    have hq : Q (taken s f a) := htaken s f a h
    have hjudge : Q (judgeAsk f serve (enterRequest (askerOf f) (taken s f a))) := by
      have hentered : Q (enterRequest (askerOf f) (taken s f a)) := htable _ _ hq
      unfold judgeAsk
      simp only
      split
      · exact htable _ _ hentered
      · split
        · exact hanswer _ _ _ hentered
        · split
          · exact hanswer _ _ _ hentered
          · next r hdecode =>
            split
            · exact hanswer _ _ _ hentered
            · exact hserve f r _ hkind hcode hdecode hidle hentered
    unfold handleAsk
    simp only
    split
    · split
      · split
        · exact hrepeat _ _ _ _ hq
        · exact hq
        · exact hq
      · exact hjudge
    · exact hjudge

section
variable (a : Asker) (r : Request) (s : State)

theorem serveOpen_only : OnlyChanges [.pulse, .draw, .port, .handler, .journal] s (serveOpen a r s) :=
  .ite (askJournal_only a r s) ((answer_only _ _ _).mono (by decide))

theorem serveSelect_only : OnlyChanges [.draw, .port, .handler] s (serveSelect a r s) := by
  have hanswer : ∀ x, OnlyChanges [.draw, .port, .handler] s (answer a x s) := fun x =>
    (answer_only a x s).mono (by decide)
  unfold serveSelect
  split
  · split
    · exact hanswer _
    · split
      · exact hanswer _
      · exact (answer_only _ _ _).comp (only_draw _)
    · split
      · exact hanswer _
      · exact (answer_only _ _ _).comp (only_draw _)
    · exact hanswer _
  · exact .refl _ _

theorem serveClose_only : OnlyChanges [.pulse, .draw, .port, .handler, .journal] s (serveClose a r s) := by
  have hanswer : ∀ x, OnlyChanges [.pulse, .draw, .port, .handler, .journal] s (answer a x s) := fun x =>
    (answer_only a x s).mono (by decide)
  unfold serveClose
  split
  · exact hanswer _
  · exact .ite (hanswer _) ((askJournal_only _ _ _).comp (only_draw _))
  · exact .ite (hanswer _) ((askJournal_only _ _ _).comp (only_draw _))
  · exact hanswer _

/-- The blocks that a START can change. -/
abbrev startBlocks : List Block := [.engine, .draw, .port, .claims, .blend, .handler, .journal]

theorem startDraw_only (sel : Selection) (c : Claim) : OnlyChanges startBlocks s (startDraw a sel c s) := by
  unfold startDraw
  simp only
  generalize ht : clearContext _ _ _ _ _ = t
  have hcleared : OnlyChanges [.engine, .draw, .claims] s t := by
    subst ht
    refine (clearContext_only _ _ _ _ _).comp (bs := [.draw, .claims]) ?_
    exact OnlyChanges.comp (t := { s with draw := { s.draw with current := some (newDraw s sel) } })
      (only_claims _) (only_draw _)
  refine .ite ?_ ((answer_only _ _ _).comp ((only_draw _).comp hcleared (ds := [.engine, .draw, .claims])))
  have hhanded : OnlyChanges startBlocks s (handFrame .claimUnit (claimFrame c) t).1 :=
    (handFrame_only _ _ _).comp hcleared
  refine hhanded.trans fun b hb => ?_
  cases b <;> first | exact absurd (by decide) hb | rfl

theorem serveStart_only : OnlyChanges startBlocks s (serveStart a r s) := by
  have hanswer : ∀ x, OnlyChanges startBlocks s (answer a x s) := fun x => (answer_only a x s).mono (by decide)
  unfold serveStart
  split
  · exact hanswer _
  · split
    · split
      · exact hanswer _
      · exact startDraw_only a s _ _
    · exact hanswer _

theorem servePause_only : OnlyChanges (.handler :: drawBlocks) s (servePause a r s) := by
  have hsuspend : OnlyChanges (.handler :: drawBlocks) s (answer a (plain .ok) (suspend (raiseLatch .pause) s)) :=
    (answer_only _ _ _).comp (suspend_only _ s)
  unfold servePause
  split
  · exact hsuspend
  · exact hsuspend
  · exact hsuspend
  · exact (answer_only a _ s).mono (by decide)

theorem serveResume_only : OnlyChanges (.handler :: drawBlocks) s (serveResume a r s) := by
  unfold serveResume
  split
  · split
    · exact (answer_only _ _ _).comp (enterFlowing_only _)
    · exact (answer_only _ _ _).mono (by decide)
  · exact (answer_only _ _ _).mono (by decide)

theorem serveEnd_only : OnlyChanges haltBlocks s (serveEnd a r s) := by
  have hanswer : ∀ x, OnlyChanges haltBlocks s (answer a x s) := fun x => (answer_only a x s).mono (by decide)
  have hclosing : OnlyChanges haltBlocks s (answer a (plain .ok) (enterClosing .endedByRequest s)) :=
    (answer_only _ _ _).comp (enterClosing_only _ s)
  unfold serveEnd
  split
  · exact hanswer _
  · exact hanswer _
  · exact (answer_only _ _ _).comp (only_draw _)
  · exact (answer_only _ _ _).comp (endClaiming_only _ s)
  · exact hclosing
  · exact hclosing
  · exact hclosing
  · exact hanswer _

theorem servePreset_only : OnlyChanges [.engine, .draw, .port, .handler] s (servePreset a r s) := by
  have hanswer : ∀ x, OnlyChanges [.engine, .draw, .port, .handler] s (answer a x s) := fun x =>
    (answer_only a x s).mono (by decide)
  have hselected : ∀ l, OnlyChanges [.draw] s (presetSelected l s) := fun l => only_draw _
  have hpending : ∀ l t, OnlyChanges [.engine] t (presetPending l t) := fun l t => only_engine _
  unfold servePreset
  split
  · simp only
    split
    · exact hanswer _
    · exact hanswer _
    · exact .ite (hanswer _) ((answer_only _ _ _).comp (hselected _))
    · exact .ite (hanswer _) ((answer_only _ _ _).comp ((hpending _ _).comp (hselected _) (ds := [.engine, .draw])))
    · exact .ite (hanswer _) ((answer_only _ _ _).comp ((hpending _ _).comp (hselected _) (ds := [.engine, .draw])))
    · exact hanswer _
  · exact .refl _ _

theorem serveCompartment_only : OnlyChanges [.port, .claims, .handler] s (serveCompartment a r s) := by
  have hanswer : ∀ x, OnlyChanges [.port, .claims, .handler] s (answer a x s) := fun x =>
    (answer_only a x s).mono (by decide)
  unfold serveCompartment
  split
  · exact .ite (hanswer _) (.ite (hanswer _) ((answer_only _ _ _).comp (only_claims _)))
  · exact .refl _ _

theorem serveResumeHalt_only : OnlyChanges haltBlocks s (serveResumeHalt a r s) := by
  unfold serveResumeHalt
  split
  · exact (answer_only _ _ _).comp (setHalt_only _ _)
  · exact (answer_only _ _ _).mono (by decide)
  · exact (answer_only _ _ _).mono (by decide)

theorem serveClearFaults_only : OnlyChanges [.pulse, .port, .handler] s (serveClearFaults a r s) :=
  .ite ((answer_only _ _ _).mono (by decide)) ((answer_only _ _ _).comp (only_pulse _))

theorem servePrint_only : OnlyChanges [.port, .handler, .printer] s (servePrint a r s) := by
  unfold servePrint
  split
  · exact .ite ((answer_only _ _ _).comp (addJob_only _ _)) ((answer_only _ _ _).mono (by decide))
  · exact .refl _ _

theorem serveWriteConfig_only : OnlyChanges [.station, .port, .handler] s (serveWriteConfig a r s) := by
  have hanswer : ∀ x, OnlyChanges [.station, .port, .handler] s (answer a x s) := fun x =>
    (answer_only a x s).mono (by decide)
  unfold serveWriteConfig
  split
  · refine .ite (hanswer _) (.ite ?_ (hanswer _))
    intro b hb; cases b <;> first | exact absurd (by decide) hb | rfl
  · exact .refl _ _

end

/-! ### The act of each command -/

theorem askUnknown_only (code : Nat → Bool) (s : State) :
    OnlyChanges [.port, .claims, .handler] s (takeAsk code (fun _ _ s => s) s) :=
  (takeAsk_only (bs := []) (fun _ _ s => .refl _ s) code s).mono (by decide)

theorem conversion_only (s : State) : OnlyChanges [.pulse, .journal] s
    (let t := { s with pulse := { s.pulse with conversionDue := s.pulse.conversionDue.map (· + Config.conversionPeriod) } }
      if s.pulse.unticketed = 0 then t else beginIfIdle (convertUnticketed t)) := by
  simp only
  exact .ite ((only_pulse _).mono (by decide)) ((beginIfIdle_only _).comp ((convertUnticketed_only _).comp (only_pulse _)
    (ds := [.pulse, .journal])))

theorem beginOrEnterListening_only (s : State) :
    OnlyChanges [.station, .inputs, .pulse, .engine, .draw, .valve, .port, .claims, .blend, .handler, .journal, .printer] s
      (continueStart s) := by
  refine .ite ?_ ((beginWrite_only s).mono (by decide))
  unfold enterListening
  simp only
  generalize hu : ({ listen s with pulse := _, engine := _, inputs := _, printer := _ } : State) = u
  have hlisten : OnlyChanges [.station, .inputs, .pulse, .engine, .port, .printer] s u := by
    subst hu
    intro b hb; cases b <;> first | exact absurd (by decide) hb | rfl
  exact .ite ((localHalt_only _).comp hlisten) (hlisten.mono (by decide))

theorem writeCompleted_only (s : State) :
    OnlyChanges [.station, .inputs, .pulse, .engine, .draw, .valve, .port, .claims, .blend, .handler, .journal, .printer] s
      (writeCompleted s) := by
  unfold writeCompleted
  split
  · refine .ite ((beginOrEnterListening_only _).comp (only_journal _)) ?_
    refine (beginIfIdle_only _).comp (bs := [.pulse, .draw, .port, .handler, .journal, .printer]) ?_
    exact (takeWaiting_only _).comp ((autoPrint_only _ _).comp (only_journal _) (ds := [.journal, .printer]))
  · exact .refl _ _

/-- The blocks that the act of a command can change. -/
def actBlocks (i : Instr) : List Block :=
  match i with
  | .powerUp _ _ | .resetPin _ _ | .configImageRead _ | .powerFail | .powerFailInputInactive => []
  | .emergencyStopChange _ => .inputs :: haltBlocks
  | .haltRepeat => [.time, .valve, .port, .journal]
  | .holdToRunPress => .inputs :: drawBlocks
  | .holdToRunRelease | .reelStowedChange _ => [.inputs]
  | .airDetectorChange _ => [.inputs, .draw, .valve]
  | .pulserTransition _ _ => [.pulse, .engine, .draw, .valve, .port, .claims, .blend, .journal, .freeIndex]
  | .probeReading _ => [.time, .engine]
  | .meteringUpdate _ => [.time, .pulse, .engine, .draw, .valve, .port, .blend, .journal, .freeIndex]
  | .conversionTimer => [.time, .pulse, .journal]
  | .primeTimerExpiry | .deadmanExpiry | .airTimerExpiry | .noFlowExpiry => .time :: drawBlocks
  | .flowStop | .closingLimit => [.time, .pulse, .engine, .draw, .valve, .port, .claims, .blend, .journal]
  | .dwellTimerExpiry | .runOnExpiry => [.time, .valve]
  | .haltHeardExpiry => .time :: haltBlocks
  | .statusPeriod | .clockSecond => [.time, .port]
  | .portRestart => [.time, .station, .port]
  | .quietListenExpiry => .time :: .station :: ownBlocks
  | .peerSilence _ => .time :: .claims :: drawBlocks
  | .consentTimerExpiry => [.time, .draw, .valve, .port, .claims, .blend, .handler, .journal]
  | .rebuildTimerExpiry => .time :: ownBlocks
  | .leadQuietExpiry | .trimTimerExpiry => .time :: followBlocks
  | .followerFlowStop | .followerClosingLimit => [.time, .pulse, .engine, .claims, .blend, .port, .journal]
  | .finalReportRepeat => [.time, .blend, .port]
  | .finalReportLimit => [.time, .blend]
  | .blendWaitExpiry => .time :: closeBlocks
  | .stallTimerExpiry | .trailerTimerExpiry => [.time, .printer]
  | .ctsChange _ | .printerCharacterReceived _ _ => [.printer]
  | .characterShifted => [.printer, .journal]
  | .frameArrival _ => haltBlocks
  | .takeHalt | .takeStatPage1 | .takeAnswer | .takeTkt | .takeClock => [.port, .claims]
  | .takeClaim => .port :: .claims :: haltBlocks
  | .takeConsent => .port :: .claims :: ownBlocks
  | .takeRelease | .takeStatPage2 => .port :: .claims :: judgeBlocks
  | .takeProgLeadReport => .port :: .claims :: reportBlocks
  | .takeProgFollowerReport => .port :: .claims :: drawBlocks
  | .takeProgFinalPart => .port :: .claims :: closeBlocks
  | .takeStatPage0 => [.port, .claims, .claims, .blend]
  | .takeCompletionNotice => ownBlocks
  | .transmitStart | .arbitrationLost => [.port]
  | .frameSent => [.port, .journal]
  | .transmitFailure _ => .station :: haltBlocks
  | .journalWriteComplete =>
    [.station, .inputs, .pulse, .engine, .draw, .valve, .port, .claims, .blend, .handler, .journal, .printer]
  | .configWriteComplete _ => [.station, .port, .handler, .journal, .freeIndex]
  | .openDrop | .closeDrop | .fetchTicket | .ackTicket | .readTotals =>
    [.port, .claims, .handler, .pulse, .draw, .port, .handler, .journal]
  | .select => [.port, .claims, .handler, .draw, .port, .handler]
  | .start => .port :: .claims :: .handler :: startBlocks
  | .pause | .resume => .port :: .claims :: .handler :: .handler :: drawBlocks
  | .endDraw | .resumeHalt => .port :: .claims :: .handler :: haltBlocks
  | .setPreset => [.port, .claims, .handler, .engine, .draw, .port, .handler]
  | .setCompartment => [.port, .claims, .handler, .port, .claims, .handler]
  | .clearFaults => [.port, .claims, .handler, .pulse, .port, .handler]
  | .print => [.port, .claims, .handler, .port, .handler, .printer]
  | .writeConfig => [.port, .claims, .handler, .station, .port, .handler]
  | .askUnknownCode => [.port, .claims, .handler]

theorem act_only (i : Instr) (s : State) : OnlyChanges (actBlocks i) s (act i s) := by
  cases i
  case powerUp | resetPin | configImageRead | powerFail | powerFailInputInactive => exact .refl _ _
  case emergencyStopChange active => exact whileOperating_only (emergencyStopChanged_only active) s
  case haltRepeat => exact expire_only (fun s => (sendHalt_only _).comp (only_valve _)) s
  case holdToRunPress => exact whileOperating_only pressed_only s
  case holdToRunRelease | reelStowedChange => exact whileOperating_only (fun s => only_inputs _) s
  case airDetectorChange active => exact whileOperating_only (airChanged_only active) s
  case pulserTransition a b => exact whileOperating_only (transition_only a b) s
  case probeReading reading => exact expire_only (fun s => only_engine _) s
  case meteringUpdate reading => exact expire_only (metered_only reading) s
  case conversionTimer => exact expire_only conversion_only s
  case primeTimerExpiry => exact expire_only enterFlowing_only s
  case deadmanExpiry | airTimerExpiry | noFlowExpiry => exact expire_only (suspend_only _) s
  case flowStop | closingLimit => exact expire_only (finishClosing_only _) s
  case dwellTimerExpiry | runOnExpiry => exact expire_only (fun s => only_valve _) s
  case haltHeardExpiry => exact expire_only (fun s => (sourceQuiet_only _).comp (only_valve _)) s
  case statusPeriod => exact expire_only queueStat_only s
  case clockSecond => exact expire_only (fun s => only_port _) s
  case portRestart => exact expire_only portRestarted_only s
  case quietListenExpiry => exact expire_only enterRunning_only s
  case peerSilence n => exact expire_only (peerSilent_only n) s
  case consentTimerExpiry => exact expire_only (endClaiming_only _) s
  case rebuildTimerExpiry => exact expire_only rebuildOver_only s
  case leadQuietExpiry => exact expire_only leadQuiet_only s
  case trimTimerExpiry => exact expire_only (enterFClose_only _) s
  case followerFlowStop | followerClosingLimit => exact expire_only (followerFinish_only _) s
  case finalReportRepeat => exact expire_only repeatReport_only s
  case finalReportLimit => exact expire_only (discardHeld_only _) s
  case blendWaitExpiry => exact expire_only blendWaitOver_only s
  case stallTimerExpiry => exact expire_only abortJob_only s
  case trailerTimerExpiry => exact expire_only endTrailer_only s
  case ctsChange active => exact whileOperating_only (fun s => .ite (setGo_only _ s) (.refl _ _)) s
  case printerCharacterReceived c e =>
    exact whileOperating_only (fun s => .ite (.ite (setGo_only _ s) (.ite (setGo_only _ s) (.refl _ _))) (.refl _ _)) s
  case characterShifted => exact whileOperating_only characterDone_only s
  case frameArrival f => exact arrived_only f s
  case takeHalt | takeStatPage1 =>
    exact (atTake_only (bs := [.claims]) (fun _ _ s => modPeer_only _ _ s) s).mono (by decide)
  case takeAnswer | takeTkt => exact atTake_only (fun _ _ s => .refl _ s) s
  case takeClock => exact (atTake_only (bs := [.port]) (fun _ _ s => only_port _) s).mono (by decide)
  case takeClaim => exact atTake_only (fun f _ => claimTaken_only f) s
  case takeConsent => exact atTake_only (fun f _ => consentTaken_only f) s
  case takeRelease => exact atTake_only (fun f _ => releaseTaken_only f) s
  case takeStatPage2 => exact atTake_only (fun f _ => page2Taken_only f) s
  case takeProgLeadReport => exact atTake_only (fun f _ => leadReportTaken_only f) s
  case takeProgFollowerReport => exact atTake_only (fun f _ => followerReportTaken_only f) s
  case takeProgFinalPart => exact atTake_only (fun f _ => finalPartTaken_only f) s
  case takeStatPage0 => exact atTake_only page0Taken_only s
  case takeCompletionNotice => exact whileOperating_only noticeTaken_only s
  case transmitStart => exact started_only s
  case arbitrationLost => exact only_port _
  case frameSent => exact sent_only s
  case transmitFailure noAck => exact failed_only noAck s
  case journalWriteComplete => exact writeCompleted_only s
  case configWriteComplete completed => exact configWritten_only completed s
  case openDrop => exact takeAsk_only serveOpen_only _ s
  case closeDrop => exact takeAsk_only serveClose_only _ s
  case fetchTicket | ackTicket | readTotals => exact takeAsk_only askJournal_only _ s
  case select => exact takeAsk_only serveSelect_only _ s
  case start => exact takeAsk_only serveStart_only _ s
  case pause => exact takeAsk_only servePause_only _ s
  case resume => exact takeAsk_only serveResume_only _ s
  case endDraw => exact takeAsk_only serveEnd_only _ s
  case resumeHalt => exact takeAsk_only serveResumeHalt_only _ s
  case setPreset => exact takeAsk_only servePreset_only _ s
  case setCompartment => exact takeAsk_only serveCompartment_only _ s
  case clearFaults => exact takeAsk_only serveClearFaults_only _ s
  case print => exact takeAsk_only servePrint_only _ s
  case writeConfig => exact takeAsk_only serveWriteConfig_only _ s
  case askUnknownCode => exact askUnknown_only _ s

end Sys2Proof.Machine
end

