-- ==== Sys2Proof/Proofs/PrinterInvariant.lean ====
section
/-! PROOFS. Chapter 10: every step keeps the printer FIFO and the print queue in their bounds (R186, R188). The formatter
never overfills the FIFO, a job joins only where there is room, and a state other than IDLE is entered only with a job. -/

namespace Sys2Proof.Machine

set_option Elab.async false

/-! ### The formatter and the transmitter -/

section
variable {p q : Printer}

/-- The bounds read the FIFO, the queue and the port state alone. -/
theorem PrinterSound.of_same (h : PrinterSound p) (hfifo : q.fifo = p.fifo) (hqueue : q.queue = p.queue)
    (hstate : q.state = p.state) : PrinterSound q :=
  ⟨hfifo ▸ h.fifo, hqueue ▸ h.jobs, by rw [hstate, hqueue]; exact h.busy⟩

/-- A port with a job is sound in every state. -/
theorem PrinterSound.of_job (hfifo : p.fifo.length ≤ Config.fifoRoom) (hjobs : p.queue.length ≤ Config.printRoom)
    (hjob : p.queue ≠ []) : PrinterSound p := ⟨hfifo, hjobs, fun _ => hjob⟩

theorem fillFifo_length (h : p.fifo.length ≤ Config.fifoRoom) : (fillFifo p).fifo.length ≤ Config.fifoRoom := by
  simp only [fillFifo, List.length_append, List.length_take]
  omega

theorem PrinterSound.fillFifo (h : PrinterSound p) : PrinterSound (fillFifo p) := ⟨fillFifo_length h.fifo, h.jobs, h.busy⟩

theorem PrinterSound.feed (h : PrinterSound p) : PrinterSound (feed p) := by
  unfold Machine.feed
  split
  · next c cs _ hfifo =>
    have hlength := h.fifo
    rw [hfifo, List.length_cons] at hlength
    split
    · exact PrinterSound.fillFifo ⟨Nat.le_of_succ_le hlength, h.jobs, h.busy⟩
    · exact h
  · exact h

theorem startText_sound (now : Nat) (text : List Byte) (hjobs : p.queue.length ≤ Config.printRoom)
    (hjob : p.queue ≠ []) : PrinterSound (startText now text p) :=
  .feed (.fillFifo (.of_job (Nat.zero_le _) hjobs hjob))

end

/-! ### Jobs and flow control -/

section
variable {s : State} (h : PrinterSound s.printer)

include h

theorem startJob_sound : PrinterSound (startJob s).printer := by
  unfold startJob
  split
  · next j js _ hqueue =>
    split
    · exact startText_sound _ _ h.jobs (by rw [hqueue]; exact List.cons_ne_nil j js)
    · exact h
  · exact h

theorem addJob_sound (j : Job) (hroom : s.printer.queue.length < Config.printRoom) :
    PrinterSound (addJob j s).printer :=
  startJob_sound (s := { s with printer := { s.printer with queue := s.printer.queue ++ [j] } })
    (.of_job h.fifo (by simpa using hroom) (by simp))

theorem leaveJob_sound : PrinterSound (leaveJob s).printer := by
  refine startJob_sound ⟨Nat.zero_le _, ?_, fun hidle => absurd rfl hidle⟩
  simp only [List.length_drop]
  exact (Nat.sub_le _ _).trans h.jobs

theorem completeJob_sound : PrinterSound (completeJob s).printer := by
  unfold completeJob
  split
  · next j _ _ =>
    refine leaveJob_sound ?_
    have hprinter : (handWork (.printStep j.ticket) s).printer = s.printer := (handWork_only _ s).get .printer
    rw [hprinter]
    exact h.of_same rfl rfl rfl
  · exact leaveJob_sound h

theorem characterDone_sound : PrinterSound (characterDone s).printer := by
  have hshifted : PrinterSound { s.printer with shifting := none } := h.of_same rfl rfl rfl
  unfold characterDone
  split
  · exact h
  · simp only
    split
    · exact hshifted
    · split
      · exact completeJob_sound hshifted
      · exact hshifted.feed
    · split
      · exact completeJob_sound hshifted
      · exact hshifted
    · exact leaveJob_sound hshifted
    · split
      · exact leaveJob_sound hshifted
      · exact hshifted.feed

theorem setGo_sound (go : Bool) : PrinterSound (setGo go s).printer := by
  unfold setGo
  split
  · exact h
  · simp only
    split
    · next hprinting _ => exact ⟨h.fifo, h.jobs, fun _ => h.busy (by rw [hprinting]; nofun)⟩
    · next hheld _ => exact .feed ⟨h.fifo, h.jobs, fun _ => h.busy (by rw [hheld]; nofun)⟩
    · exact .feed (h.of_same rfl rfl rfl)
    · exact h.of_same rfl rfl rfl

theorem abortJob_sound : PrinterSound (abortJob s).printer := by
  unfold abortJob
  split
  · next j js hqueue =>
    exact .feed (.fillFifo (.of_job (Nat.zero_le _) h.jobs (by rw [hqueue]; exact List.cons_ne_nil j js)))
  · exact h

/-- The trailer timer runs in ABORTING alone, where a job is held (R191). -/
theorem endTrailer_sound (habort : s.printer.state ≠ .idle) : PrinterSound (endTrailer s).printer := by
  have hcleared : PrinterSound { s.printer with fifo := [], rest := [] } := ⟨Nat.zero_le _, h.jobs, h.busy⟩
  unfold endTrailer
  simp only
  split
  · exact .of_job (Nat.zero_le _) h.jobs (h.busy habort)
  · exact leaveJob_sound hcleared

theorem autoPrint_sound (c : Change) : PrinterSound (autoPrint c s).printer := by
  unfold autoPrint
  split
  · split
    · next hroom => exact addJob_sound h _ hroom.2
    · exact h
  · exact h

end

theorem printAnswer_ok_room {s : State} {n : Nat} (h : printAnswer s n = .ok) :
    s.printer.queue.length < Config.printRoom := by
  unfold printAnswer at h
  split at h
  · cases h
  · split at h
    · cases h
    · split at h
      · cases h
      · split at h
        · cases h
        · omega

theorem servePrint_sound (a : Asker) (r : Request) {s : State} (h : PrinterSound s.printer) :
    PrinterSound (servePrint a r s).printer := by
  have hanswer : ∀ x t, PrinterSound t.printer → PrinterSound (answer a x t).printer := fun x t ht => by
    rw [(answer_only a x t).get .printer]; exact ht
  unfold servePrint
  split
  · split
    · next hok => exact hanswer _ _ (addJob_sound h _ (printAnswer_ok_room hok))
    · exact hanswer _ _ h
  · exact h

/-! ### The acts, the start and the stop -/

theorem PrinterSound.of_only {bs : List Block} {s t : State} (h : PrinterSound s.printer) (honly : OnlyChanges bs s t)
    (hb : .printer ∉ bs := by decide) : PrinterSound t.printer := by
  rw [honly.get .printer hb]; exact h

theorem trailerDue_aborting {s : State} {due : Nat} (h : trailerDue s = some due) : s.printer.state ≠ .idle := by
  intro hidle; simp [trailerDue, hidle] at h

theorem continueStart_sound {s : State} (h : PrinterSound s.printer) : PrinterSound (continueStart s).printer := by
  unfold continueStart
  split
  · unfold enterListening
    simp only
    generalize hu : ({ listen s with pulse := _, engine := _, inputs := _, printer := _ } : State) = u
    have hgo : PrinterSound u.printer := by subst hu; exact h.of_same rfl rfl rfl
    split
    · exact hgo.of_only (localHalt_only _)
    · exact hgo
  · exact h.of_only (beginWrite_only s)

theorem writeCompleted_sound {s : State} (h : PrinterSound s.printer) : PrinterSound (writeCompleted s).printer := by
  unfold writeCompleted
  split
  · next w _ =>
    simp only
    split
    · exact continueStart_sound h
    · refine PrinterSound.of_only ?_ (beginIfIdle_only _)
      refine PrinterSound.of_only ?_ (takeWaiting_only _)
      exact autoPrint_sound
        (s := { s with journal := { s.journal with mem := applyWrite w s.journal.mem, inflight := none } }) h w.change
  · exact h

theorem enterConfigFault_sound (code : FaultCode) (item : Nat) {s : State} (h : PrinterSound s.printer) :
    PrinterSound (enterConfigFault code item s).printer := by
  unfold enterConfigFault
  rw [queueStat_printer]
  exact h

theorem useImage_sound (img : Image) {s : State} (h : PrinterSound s.printer) : PrinterSound (useImage img s).printer :=
  continueStart_sound h

theorem readImage_sound (read : ImageRead) {s : State} (h : PrinterSound s.printer) :
    PrinterSound (readImage read s).printer := by
  unfold readImage
  split
  · exact enterConfigFault_sound _ _ h
  · split
    · exact enterConfigFault_sound _ _ h
    · exact useImage_sound _ h
  · simp only
    split
    · exact enterConfigFault_sound _ _ h
    · exact useImage_sound _ h

theorem printerReset_sound : PrinterSound Printer.reset :=
  ⟨Nat.zero_le _, Nat.zero_le _, fun h => absurd rfl h⟩

theorem startUp_sound (straps : BitVec 4) (sealOpen : Bool) (s : State) :
    PrinterSound (startUp straps sealOpen s).printer := by
  have hreset : PrinterSound (resetBlocks s).printer := printerReset_sound
  have hstraps : PrinterSound (readStraps straps sealOpen (resetBlocks s)).printer := by
    unfold readStraps
    simp only
    split
    · exact enterConfigFault_sound _ _ hreset
    · exact hreset
  unfold startUp
  simp only
  split
  · exact printerReset_sound
  · exact hstraps

theorem act_keeps_printerSound (i : Instr) {s : State} (h : PrinterSound s.printer) : PrinterSound (act i s).printer := by
  cases i
  case stallTimerExpiry => exact expire_keeps (Q := fun s => PrinterSound s.printer) h fun _ _ => abortJob_sound h
  case trailerTimerExpiry =>
    exact expire_keeps (Q := fun s => PrinterSound s.printer) h fun _ hdue => endTrailer_sound h (trailerDue_aborting hdue)
  case ctsChange =>
    refine whileOperating_keeps (Q := fun s => PrinterSound s.printer) h fun h => ?_
    split
    · exact setGo_sound h _
    · exact h
  case printerCharacterReceived =>
    refine whileOperating_keeps (Q := fun s => PrinterSound s.printer) h fun h => ?_
    unfold characterReceived
    split
    · split
      · exact setGo_sound h _
      · split
        · exact setGo_sound h _
        · exact h
    · exact h
  case characterShifted => exact whileOperating_keeps (Q := fun s => PrinterSound s.printer) h characterDone_sound
  case journalWriteComplete => exact writeCompleted_sound h
  case print =>
    exact takeAsk_keeps (Q := fun s => PrinterSound s.printer) (fun s f a h => h.of_only (taken_only s f a))
      (fun a x s h => h.of_only (answer_only a x s)) (fun _ _ _ s h => h.of_only (sendFrame_only _ _ s))
      (fun _ _ h => h) (fun _ r _ _ _ _ _ h => servePrint_sound _ r h) h
  all_goals exact h.of_only (act_only _ s) (by simp only [actBlocks]; decide)

/-- Settles O6: an act changes the printer port only by its own operations, and a start or a power fail puts it at its
reset values. -/
theorem everyStepKeepsPrinterSound : Obligations.EveryStepKeepsPrinterSound := by
  intro s t hs hstep
  refine step_keeps (P := fun s => PrinterSound s.printer) ?here ?start ?read ?down ?act ?stat s t hs hstep
  case here => exact fun s t honly h => h.of_only honly
  case start => exact fun straps sealOpen s _ => startUp_sound straps sealOpen s
  case read => exact fun read s _ h => readImage_sound read h
  case down => exact fun _ _ => printerReset_sound
  case act => exact fun i s h => act_keeps_printerSound i h
  case stat => exact fun s h => h.of_only (queueStat_only s)

end Sys2Proof.Machine
end

