-- ==== Sys2Proof/Proofs/StatSets.lean ====
section
/-! PROOFS. Chapter 5: a changed page 0 queues a STAT set at the end of its step (R100). What one page does to the transmit
queue is said once; the pages of one set have identifiers of their own, so none disturbs another. -/

namespace Sys2Proof.Machine

set_option Elab.async false

/-! ### One page in the transmit queue -/

section
variable {f : Frame} {e : TxEntry} {tx : List TxEntry}

theorem mem_pageInto_of_other_id (he : e.frame.id ≠ f.id) : e ∈ pageInto f tx ↔ e ∈ tx := by
  have hne : e.frame ≠ f := fun h => he (by rw [h])
  unfold pageInto
  split
  · rw [List.mem_map]
    constructor
    · rintro ⟨x, hx, rfl⟩
      split at hne
      · exact absurd rfl hne
      · next hother => rwa [if_neg hother]
    · exact fun hmem => ⟨e, hmem, if_neg fun h => he h.1⟩
  · split
    · rw [mem_txInsert_iff, or_iff_right fun h => hne (congrArg TxEntry.frame h)]
    · rfl

/-- Every waiting entry of a page's identifier has taken the page's contents (R100). -/
theorem pageInto_waiting (he : e ∈ pageInto f tx) (hid : e.frame.id = f.id) (hwaits : e.onWire = false) : e.frame = f := by
  unfold pageInto at he
  split at he
  · obtain ⟨x, -, rfl⟩ := List.mem_map.1 he
    split
    · rfl
    · next hother => rw [if_neg hother] at hid hwaits; exact absurd ⟨hid, hwaits⟩ hother
  · next hnone =>
    split at he
    · obtain rfl | hmem := (mem_txInsert_iff _ _ _).1 he
      · rfl
      · exact absurd (List.any_eq_true.2 ⟨e, hmem, by simp [hid, hwaits]⟩) hnone
    · exact absurd (List.any_eq_true.2 ⟨e, he, by simp [hid, hwaits]⟩) hnone

theorem length_le_pageInto (f : Frame) (tx : List TxEntry) : tx.length ≤ (pageInto f tx).length := by
  unfold pageInto
  split
  · rw [List.length_map]
  · split
    · rw [txInsert_length]; exact Nat.le_succ _
    · exact le_rfl

/-- A page has a place in the queue, or the queue is full. -/
theorem pageInto_placed (f : Frame) (tx : List TxEntry) :
    (∃ e ∈ pageInto f tx, e.frame = f) ∨ Config.txRoom ≤ (pageInto f tx).length := by
  unfold pageInto
  split
  · next hany =>
    obtain ⟨x, hx, hmine⟩ := List.any_eq_true.1 hany
    simp only [Bool.and_eq_true, beq_iff_eq, Bool.not_eq_true'] at hmine
    exact .inl ⟨_, List.mem_map_of_mem hx, by rw [if_pos hmine]⟩
  · split
    · exact .inl ⟨_, (mem_txInsert_iff _ _ _).2 (.inl rfl), rfl⟩
    · exact .inr (Nat.le_of_not_lt ‹_›)

end

/-- A page stands in a queue: each waiting entry of its identifier has its contents, and there is an entry with them
unless the queue is full. -/
structure PageStands (f : Frame) (tx : List TxEntry) : Prop where
  waiting : ∀ e ∈ tx, e.frame.id = f.id → e.onWire = false → e.frame = f
  placed : (∃ e ∈ tx, e.frame = f) ∨ Config.txRoom ≤ tx.length

theorem pageInto_stands (f : Frame) (tx : List TxEntry) : PageStands f (pageInto f tx) :=
  ⟨fun _ => pageInto_waiting, pageInto_placed f tx⟩

/-- A page of another identifier leaves it standing. -/
theorem PageStands.pageInto {f g : Frame} {tx : List TxEntry} (h : PageStands f tx) (hid : f.id ≠ g.id) :
    PageStands f (pageInto g tx) where
  waiting e he hsame := h.waiting e ((mem_pageInto_of_other_id (by rwa [hsame])).1 he) hsame
  placed := by
    obtain ⟨e, he, rfl⟩ | hfull := h.placed
    · exact .inl ⟨e, (mem_pageInto_of_other_id hid).2 he, rfl⟩
    · exact .inr (hfull.trans (length_le_pageInto g tx))

/-! ### A STAT set (R100) -/

theorem pageFrame_with_port (s : State) (p : Port) (n : Nat) : pageFrame { s with port := p } n = pageFrame s n := by
  match n with
  | 0 | 1 | n + 2 => rfl

theorem lowTagOf_pageFrame (s : State) {n : Nat} (hn : n ≤ 2) : lowTagOf (pageFrame s n).id = n := by
  match n, hn with
  | 0, _ | 1, _ | 2, _ => simp [pageFrame, statFrame, lowTagOf]

theorem pageFrame_id_ne (s : State) {m n : Nat} (hm : m ≤ 2) (hn : n ≤ 2) (hne : m ≠ n) :
    (pageFrame s m).id ≠ (pageFrame s n).id := fun h =>
  hne (by rw [← lowTagOf_pageFrame s hm, h, lowTagOf_pageFrame s hn])

theorem queueStat_of_running {s : State} (hrun : s.station.state = .running) :
    queueStat s = { s with
      port := { s.port with
        tx := pageInto (pageFrame s 2) (pageInto (pageFrame s 1) (pageInto (pageFrame s 0) s.port.tx))
        statusDue := some (s.time + Config.statusPeriod) } } := by
  simp only [queueStat, hrun]

/-- In RUNNING a STAT set leaves all three pages standing in the queue. -/
theorem queueStat_pages_stand {s : State} (hrun : s.station.state = .running) {n : Nat} (hn : n ≤ 2) :
    PageStands (pageFrame (queueStat s) n) (queueStat s).port.tx := by
  rw [queueStat_of_running hrun, pageFrame_with_port]
  have hne := fun {m n : Nat} (hm : m ≤ 2) (hn : n ≤ 2) => pageFrame_id_ne s hm hn
  match n, hn with
  | 0, _ =>
    exact ((pageInto_stands _ _).pageInto (hne (by decide) (by decide) (by decide))).pageInto
      (hne (by decide) (by decide) (by decide))
  | 1, _ => exact (pageInto_stands _ _).pageInto (hne (by decide) (by decide) (by decide))
  | 2, _ => exact pageInto_stands _ _

/-! ### The station state after a start, a stop and an image read -/

theorem startUp_not_running (straps : BitVec 4) (sealOpen : Bool) (s : State) :
    (startUp straps sealOpen s).station.state ≠ .running := by
  have hstraps : (readStraps straps sealOpen (resetBlocks s)).station.state ≠ .running := by
    unfold readStraps enterConfigFault
    simp only
    split
    · rw [queueStat_station]; nofun
    · nofun
  unfold startUp
  simp only
  split
  · intro hrun; cases hrun
  · exact hstraps

theorem localHalt_station (s : State) : (localHalt s).station = s.station := (localHalt_only s).get .station

theorem enterListening_state (s : State) : (enterListening s).station.state = .listening := by
  unfold enterListening
  simp only
  split
  · rw [localHalt_station]; rfl
  · rfl

theorem continueStart_not_running {s : State} (hstart : s.station.state = .starting) :
    (continueStart s).station.state ≠ .running := by
  unfold continueStart
  split
  · rw [enterListening_state]; nofun
  · rw [(beginWrite_only s).get .station, hstart]; nofun

theorem enterConfigFault_not_running (code : FaultCode) (item : Nat) (s : State) :
    (enterConfigFault code item s).station.state ≠ .running := by
  rw [enterConfigFault, queueStat_station]; nofun

theorem readImage_not_running (read : ImageRead) {s : State} (hstart : s.station.state = .starting) :
    (readImage read s).station.state ≠ .running := by
  unfold readImage
  split
  · exact enterConfigFault_not_running _ _ _
  · split
    · exact enterConfigFault_not_running _ _ _
    · exact continueStart_not_running hstart
  · simp only
    split
    · exact enterConfigFault_not_running _ _ _
    · exact continueStart_not_running hstart

/-! ### The statement -/

/-- A command that leaves the station in RUNNING with another page 0 state has ended in a STAT set. -/
theorem exec_queued_stat {i : Instr} {s t : State} (hexec : exec i s = .next t) (hrun : t.station.state = .running)
    (hchanged : page0State t ≠ page0State s) : ∃ u, t = queueStat u := by
  cases hkind : startsOrStops i with
  | false =>
    rw [exec_eq_act i s hkind, Host.Outcome.next.injEq] at hexec
    subst hexec
    have hpins : page0State (setPins (pinsBrought i) s) = page0State s := rfl
    unfold afterAct at hchanged ⊢
    split at hchanged
    · exact absurd hpins hchanged
    · next hpower =>
      rw [if_neg hpower]
      by_cases hsame : page0State (act i (setPins (pinsBrought i) s)) = page0State (setPins (pinsBrought i) s)
      · rw [announce_same _ _ hsame] at hchanged
        exact absurd (hsame.trans hpins) hchanged
      · exact ⟨_, announce_changed _ _ hsame⟩
  | true =>
    cases i
    case powerUp straps sealOpen => cases hexec; exact absurd hrun (startUp_not_running _ _ _)
    case resetPin straps sealOpen => cases hexec; exact absurd hrun (startUp_not_running _ _ _)
    case configImageRead read =>
      simp only [exec, execConfigImageRead] at hexec
      split at hexec
      · next hstart => cases hexec; exact absurd hrun (readImage_not_running _ hstart.1)
      · cases hexec; exact absurd rfl hchanged
    case powerFail =>
      simp only [exec, execPowerFail] at hexec
      split at hexec
      · next hdown => cases hexec; rw [setPins_station, hdown] at hrun; cases hrun
      · cases hexec; cases hrun
    all_goals cases hkind

/-- Settles O3: such a command ended in a STAT set, whose pages all stand in the queue. -/
theorem page0ChangeQueuesStatSet : Obligations.Page0ChangeQueuesStatSet := by
  intro i s t hexec hrun hchanged
  obtain ⟨u, rfl⟩ := exec_queued_stat hexec hrun hchanged
  rw [queueStat_station] at hrun
  refine ⟨by rw [queueStat_of_running hrun], fun n hn => ?_⟩
  obtain ⟨hwaiting, hplaced⟩ := queueStat_pages_stand hrun hn
  refine ⟨hwaiting, hplaced.imp_right fun hfull => ?_⟩
  exact (Nat.eq_or_lt_of_le hfull).imp_left Eq.symm

end Sys2Proof.Machine
end

