-- ==== Sys2Proof/Proofs/PortInvariant.lean ====
section
/-! PROOFS. Chapter 5: every step keeps the queues of the line port and the station clock in their bounds (R93, R95, R106).
The queues are moved by few operations, each spoken of once; every other operation is made of these and of changes to other
blocks, so it keeps what they keep. -/

namespace Sys2Proof.Machine

set_option Elab.async false

/-! ### The transmit queue -/

/-- The order, the room and the one entry ON_WIRE of the transmit queue (R95). -/
structure TxSound (tx : List TxEntry) : Prop where
  order : tx.Pairwise (fun x y => x.frame.id.toNat ≤ y.frame.id.toNat)
  room : tx.length ≤ Config.txRoom
  onWire : (tx.filter (·.onWire)).length ≤ 1

theorem PortSound.tx {p : Port} (h : PortSound p) : TxSound p.tx := ⟨h.order, h.room, h.onWire⟩

/-- A sound port whose transmit queue is replaced by a sound one. -/
theorem PortSound.with_tx {p q : Port} (h : PortSound p) (htx : TxSound q.tx) (hrx : q.rx = p.rx)
    (hclock : q.clock = p.clock) : PortSound q :=
  ⟨htx.order, htx.room, htx.onWire, hrx ▸ h.received, hclock ▸ h.clock⟩

theorem TxSound.nil : TxSound [] := ⟨.nil, Nat.zero_le _, Nat.zero_le _⟩

theorem TxSound.sublist {xs ys : List TxEntry} (h : TxSound ys) (hsub : xs.Sublist ys) : TxSound xs :=
  ⟨h.order.sublist hsub, hsub.length_le.trans h.room, (hsub.filter _).length_le.trans h.onWire⟩

theorem txInsert_pairwise {tx : List TxEntry} (e : TxEntry)
    (h : tx.Pairwise (fun x y => x.frame.id.toNat ≤ y.frame.id.toNat)) :
    (txInsert e tx).Pairwise (fun x y => x.frame.id.toNat ≤ y.frame.id.toNat) := by
  induction tx with
  | nil => exact List.pairwise_singleton _ _
  | cons x xs ih =>
    obtain ⟨hx, hxs⟩ := List.pairwise_cons.1 h
    unfold txInsert
    split
    · next hle =>
      refine List.pairwise_cons.2 ⟨fun y hy => ?_, ih hxs⟩
      obtain rfl | hy := (mem_txInsert_iff _ _ _).1 hy
      · exact hle
      · exact hx y hy
    · next hlt =>
      have hle : e.frame.id.toNat ≤ x.frame.id.toNat := (Nat.lt_of_not_le hlt).le
      refine List.pairwise_cons.2 ⟨fun y hy => ?_, h⟩
      obtain rfl | hy := List.mem_cons.1 hy
      · exact hle
      · exact hle.trans (hx y hy)

/-- An entry that is handed waits, so it adds none that is ON_WIRE. -/
theorem txInsert_filter_onWire {e : TxEntry} (he : e.onWire = false) (tx : List TxEntry) :
    ((txInsert e tx).filter (·.onWire)) = tx.filter (·.onWire) := by
  induction tx with
  | nil => simp [txInsert, he]
  | cons x xs ih =>
    unfold txInsert
    split
    · rw [List.filter_cons, ih, List.filter_cons]
    · rw [List.filter_cons, he, if_neg Bool.false_ne_true]

theorem TxSound.insert {e : TxEntry} {tx : List TxEntry} (h : TxSound tx) (he : e.onWire = false)
    (hroom : tx.length < Config.txRoom) : TxSound (txInsert e tx) :=
  ⟨txInsert_pairwise e h.order, by rw [txInsert_length]; exact hroom, by rw [txInsert_filter_onWire he]; exact h.onWire⟩

theorem takeLast?_sublist {α : Type} (p : α → Bool) {xs ys : List α} {y : α} (h : takeLast? p xs = some (y, ys)) :
    ys.Sublist xs ∧ ys.length + 1 = xs.length ∧ p y = true ∧ xs.Perm (y :: ys) := by
  induction xs generalizing ys with
  | nil => cases h
  | cons x xs ih =>
    unfold takeLast? at h
    split at h
    · next z zs hrest =>
      cases h
      obtain ⟨hsub, hlength, hp, hperm⟩ := ih hrest
      exact ⟨hsub.cons_cons x, by simp [← hlength], hp, (hperm.cons x).trans (.swap ..)⟩
    · split at h
      · next hp => cases h; exact ⟨List.sublist_cons_self _ _, rfl, hp, .refl _⟩
      · cases h

/-- New contents in a waiting page keep its identifier and its place (R100). -/
theorem TxSound.map {tx : List TxEntry} (h : TxSound tx) (g : TxEntry → TxEntry)
    (hid : ∀ e, (g e).frame.id = e.frame.id) (hwire : ∀ e, (g e).onWire = e.onWire) : TxSound (tx.map g) where
  order := by
    rw [List.pairwise_map]
    simpa only [hid] using h.order
  room := by rw [List.length_map]; exact h.room
  onWire := by
    have hsame : (fun e : TxEntry => e.onWire) ∘ g = (fun e => e.onWire) := funext hwire
    rw [List.filter_map, hsame, List.length_map]
    exact h.onWire

theorem TxSound.pageInto {tx : List TxEntry} (h : TxSound tx) (f : Frame) : TxSound (pageInto f tx) := by
  unfold Machine.pageInto
  split
  · refine h.map _ (fun e => ?_) (fun e => ?_)
    · split
      · next hmine => exact hmine.1.symm
      · rfl
    · split <;> rfl
  · split
    · next hroom => exact h.insert rfl hroom
    · exact h

/-- With every entry waiting, none is ON_WIRE. -/
theorem TxSound.allWaiting {tx : List TxEntry} (h : TxSound tx) : TxSound (allWaiting tx) where
  order := by rw [Machine.allWaiting, List.pairwise_map]; exact h.order
  room := by rw [Machine.allWaiting, List.length_map]; exact h.room
  onWire := by
    have hnone : (Machine.allWaiting tx).filter (·.onWire) = [] := by
      simp [Machine.allWaiting, List.filter_eq_nil_iff]
    simp [hnone]

theorem startFirst_map_frame (tx : List TxEntry) : (startFirst tx).map (·.frame) = tx.map (·.frame) := by
  induction tx with
  | nil => rfl
  | cons e es ih =>
    unfold startFirst
    split
    · rw [List.map_cons, ih, List.map_cons]
    · rfl

/-- On a free wire the first waiting entry becomes the one that is ON_WIRE (R95). -/
theorem TxSound.startFirst {tx : List TxEntry} (h : TxSound tx) (hfree : tx.any (·.onWire) = false) :
    TxSound (startFirst tx) where
  order := by
    have horder := h.order
    have hmap : ∀ xs : List TxEntry, xs.Pairwise (fun x y => x.frame.id.toNat ≤ y.frame.id.toNat) ↔
        (xs.map (·.frame)).Pairwise (fun x y => x.id.toNat ≤ y.id.toNat) := fun xs => by rw [List.pairwise_map]
    rwa [hmap, startFirst_map_frame, ← hmap]
  room := by
    have hlength := congrArg List.length (startFirst_map_frame tx)
    rw [List.length_map, List.length_map] at hlength
    rw [hlength]; exact h.room
  onWire := by
    cases tx with
    | nil => exact Nat.zero_le _
    | cons e es =>
      simp only [List.any_cons, Bool.or_eq_false_iff] at hfree
      have hrest : es.filter (·.onWire) = [] := by
        simpa [List.filter_eq_nil_iff] using hfree.2
      simp [Machine.startFirst, hfree.1, hrest]

/-! ### What keeps the port sound -/

/-- From `s` to `t` the line port stays sound. -/
def PortKept (s t : State) : Prop := PortSound s.port → PortSound t.port

section
variable {s t u : State} {bs : List Block}

theorem PortKept.refl (s : State) : PortKept s s := fun h => h

theorem PortKept.trans (h₁ : PortKept s t) (h₂ : PortKept t u) : PortKept s u := fun h => h₂ (h₁ h)

theorem PortKept.of_only (h : OnlyChanges bs s t) (hb : .port ∉ bs := by decide) : PortKept s t := fun hs => by
  rw [h.get .port hb]; exact hs

theorem PortKept.ite {p : Prop} [Decidable p] (h₁ : PortKept s t) (h₂ : PortKept s u) :
    PortKept s (if p then t else u) := by split <;> assumption

/-- After a change to other blocks. -/
theorem PortKept.after (h₂ : PortKept t u) (h₁ : OnlyChanges bs s t) (hb : .port ∉ bs := by decide) : PortKept s u :=
  (PortKept.of_only h₁ hb).trans h₂

/-- Before a change to other blocks. -/
theorem PortKept.before (h₁ : PortKept s t) (h₂ : OnlyChanges bs t u) (hb : .port ∉ bs := by decide) : PortKept s u :=
  h₁.trans (.of_only h₂ hb)

theorem PortKept.of_tx (hport : t.port = { s.port with tx := t.port.tx, statusDue := t.port.statusDue })
    (htx : TxSound s.port.tx → TxSound t.port.tx) : PortKept s t := fun h =>
  h.with_tx (htx h.tx) (by rw [hport]) (by rw [hport])

end

/-! ### Frames handed, withdrawn and displaced (R95 to R98, R184) -/

theorem withoutFetch_sublist (n : Nat) (tx : List TxEntry) : (withoutFetch n tx).Sublist tx := List.filter_sublist

theorem abandonFetch_keeps (n : Nat) (s : State) : PortKept s (abandonFetch n s) := by
  unfold abandonFetch
  split
  · exact .ite (.of_tx rfl fun h => h.sublist (withoutFetch_sublist n _)) (.refl _)
  · exact .refl _

theorem displaced_keeps (e : TxEntry) (s : State) : PortKept s (displaced e s) := by
  unfold displaced
  split
  · exact abandonFetch_keeps _ s
  · exact .refl _

theorem handFrame_keeps (w : Sender) (f : Frame) (s : State) : PortKept s (handFrame w f s).1 := by
  unfold handFrame
  split
  swap; · exact .refl _
  split
  · next hroom => exact .of_tx rfl fun h => h.insert rfl hroom
  split
  swap; · exact .refl _
  split
  · next e rest htake =>
    obtain ⟨hsub, hlength, -, -⟩ := takeLast?_sublist _ htake
    refine PortKept.trans (t := { s with port := { s.port with tx := txInsert ⟨f, w, false⟩ rest } })
      (.of_tx rfl fun h => ?_) (displaced_keeps e _)
    exact (h.sublist hsub).insert rfl (by have := h.room; omega)
  · exact .refl _

theorem sendFrame_keeps (w : Sender) (f : Frame) (s : State) : PortKept s (sendFrame w f s) := handFrame_keeps w f s

theorem withdrawClaim_keeps (n : Nat) (s : State) : PortKept s (withdrawClaim n s).1 := by
  unfold withdrawClaim
  simp only
  split
  · exact .of_tx rfl fun h => h.sublist List.filter_sublist
  · exact .refl _

theorem queueStat_keeps (s : State) : PortKept s (queueStat s) := by
  unfold queueStat
  split
  · exact .of_tx rfl fun h => ((h.pageInto _).pageInto _).pageInto _
  · exact .of_tx rfl fun h => h.pageInto _
  · exact .refl _

theorem announce_keeps {f : State → State} {s : State} (h : PortKept s (f s)) : PortKept s (announce f s) := by
  unfold announce
  exact .ite h (h.trans (queueStat_keeps _))

theorem answer_keeps (a : Asker) (x : Answer) (s : State) : PortKept s (answer a x s) := sendFrame_keeps _ _ s

theorem settleDeferred_keeps (x : Answer) (s : State) : PortKept s (settleDeferred x s) := by
  unfold settleDeferred
  split
  · exact (answer_keeps _ _ _).after (only_handler _)
  · exact .refl _

theorem purgePort_keeps (s : State) : PortKept s (purgePort s) := fun h =>
  ⟨.nil, Nat.zero_le _, Nat.zero_le _, Nat.zero_le _, h.clock⟩

/-! ### The follower -/

theorem sendLeadProg_keeps (final : Bool) (s : State) : PortKept s (sendLeadProg final s) := by
  unfold sendLeadProg
  split
  · exact sendFrame_keeps _ _ s
  · exact .refl _

theorem sendFollowerProg_keeps (s : State) : PortKept s (sendFollowerProg s) := by
  unfold sendFollowerProg
  split
  · exact sendFrame_keeps _ _ s
  · exact .refl _

theorem followerChanged_keeps (s : State) : PortKept s (followerChanged s) :=
  (sendFollowerProg_keeps _).after (handWork_only _ s)

theorem enterHold_keeps (s : State) : PortKept s (enterHold s) :=
  (followerChanged_keeps _).after ((requestFollower_only _ _).comp (only_blend _) (ds := [.valve, .blend]))

theorem raiseHold_keeps (r : HoldReason) (s : State) : PortKept s (raiseHold r s) := by
  unfold raiseHold
  split
  · exact (enterHold_keeps _).after (modBinding_only _ s)
  · exact (enterHold_keeps _).after (modBinding_only _ s)
  · exact .of_only (modBinding_only _ s)
  · exact .refl _

theorem enterRun_keeps (s : State) : PortKept s (enterRun s) := (followerChanged_keeps _).after (only_blend _)

theorem leaveHold_keeps (s : State) : PortKept s (leaveHold s) := by
  unfold leaveHold
  split
  · split
    · exact .ite ((followerChanged_keeps _).after (only_blend _)) (.ite (enterRun_keeps s) (.refl _))
    · exact .refl _
  · exact .refl _

theorem dropHold_keeps (r : HoldReason) (s : State) : PortKept s (dropHold r s) := by
  unfold dropHold
  split
  · exact .ite ((leaveHold_keeps _).after (modBinding_only _ s)) (.of_only (modBinding_only _ s))
  · exact .refl _

theorem enterFClose_keeps (c : EndCode) (s : State) : PortKept s (enterFClose c s) := by
  unfold enterFClose
  exact (followerChanged_keeps _).after ((requestFollower_only _ _).comp ((only_blend _).comp (modBinding_only _ s)
    (ds := [.blend])) (ds := [.valve, .blend]))

theorem enterTrim_keeps (s : State) : PortKept s (enterTrim s) := by
  have hentered : ∀ x, OnlyChanges [.blend] s
      { modBinding (fun b => { b with holds := .empty, quietDue := none }) s with blend := x } := fun x =>
    (only_blend x).comp (modBinding_only _ s)
  unfold enterTrim
  exact (followerChanged_keeps _).after (bs := [.valve, .blend])
    (.ite ((requestFollower_only _ _).comp (hentered _)) ((hentered _).mono (by decide)))

theorem enterFPrime_keeps (s : State) : PortKept s (enterFPrime s) := by
  unfold enterFPrime
  split
  · refine PortKept.trans (t := followerChanged _) ?_ (.ite (.refl _) (raiseHold_keeps _ _))
    exact (followerChanged_keeps _).after ((only_blend _).comp ((openSession_only _ _).comp
      (clearContext_only _ _ _ _ s) (ds := [.pulse, .engine, .journal])) (ds := [.pulse, .engine, .blend, .journal]))
  · exact .refl _

theorem followReport_keeps (code : Nat) (s : State) : PortKept s (followReport code s) := by
  unfold followReport
  simp only
  generalize ht : (if s.blend.follower = .bound ∧ drawCode .priming ≤ code ∧ code ≤ drawCode .closing then
    enterFPrime s else s) = t
  have hstart : PortKept s t := ht ▸ .ite (enterFPrime_keeps s) (.refl _)
  refine hstart.trans (.ite ?_ (.ite (raiseHold_keeps _ _) (.ite (dropHold_keeps _ _) (.ite ?_ (.refl _)))))
  · split <;> first | exact enterTrim_keeps _ | exact .refl _
  · exact .ite ((dropHold_keeps _ _).trans (enterRun_keeps _)) (dropHold_keeps _ _)

theorem takeLeadReport_keeps (r : LeadReport) (s : State) : PortKept s (takeLeadReport r s) := by
  unfold takeLeadReport
  refine PortKept.before ?_ (modBinding_only _ _)
  exact ((dropHold_keeps _ _).trans (followReport_keeps _ _)).after (modBinding_only _ s)

theorem followStage_keeps (s : State) : PortKept s (followStage s) := by
  unfold followStage
  split
  · exact .ite (.refl _) (.of_only (requestFollower_only _ s))
  · exact .ite (enterFClose_keeps _ s) (.of_only (requestFollower_only _ s))
  · exact .refl _

theorem bindingEnd_keeps (id : ClaimId) (s : State) : PortKept s (bindingEnd id s) := by
  unfold bindingEnd
  split
  · refine .ite ?_ (.refl _)
    split
    · exact .of_only (only_blend _)
    · exact enterFClose_keeps _ s
    · exact enterFClose_keeps _ s
    · exact enterFClose_keeps _ s
    · exact enterFClose_keeps _ s
    · exact .refl _
  · exact .refl _

theorem sendFinalReport_keeps (l q : Nat) (r : FinalReport) (s : State) : PortKept s (sendFinalReport l q r s) :=
  (sendFrame_keeps _ _ s).trans (sendFrame_keeps _ _ _)

theorem followerFinish_keeps (v : Bool) (s : State) : PortKept s (followerFinish v s) := by
  unfold followerFinish
  split
  · refine PortKept.before ?_ (only_blend _)
    refine PortKept.before ?_ (dropPartnerRecord_only _ _)
    refine PortKept.before ?_ (handWork_only _ _)
    refine (sendFinalReport_keeps _ _ _ _).after (bs := [.pulse, .engine, .blend, .journal]) ?_
    exact .ite ((handWork_only _ _).comp ((closeSession_only _).comp (only_blend _) (ds := [.pulse, .engine, .blend])))
      ((closeSession_only _).comp (only_blend _))
  · exact .refl _

theorem followerPulseFault_keeps (s : State) : PortKept s (followerPulseFault s) := by
  unfold followerPulseFault
  split
  · next b _ =>
    have hrefuse : PortKept s (enterFClose .pulseFault (dropPartnerRecord b.claim
        (sendFrame .blend (consentFrame s.station.number b.claim .partner (some .partnerEnded)) s))) :=
      ((sendFrame_keeps _ _ s).before (dropPartnerRecord_only _ _)).trans (enterFClose_keeps _ _)
    split <;> first | exact hrefuse | exact .refl _
  · exact .refl _

theorem followerTempEvent_keeps (e : TempEvent) (s : State) : PortKept s (followerTempEvent e s) := by
  unfold followerTempEvent
  split
  · exact raiseHold_keeps _ s
  · exact dropHold_keeps _ s

/-! ### The draw -/

theorem drawChanged_keeps (s : State) : PortKept s (drawChanged s) :=
  (sendLeadProg_keeps _ _).after (handWork_only _ s)

theorem enterFlowing_keeps (s : State) : PortKept s (enterFlowing s) := by
  unfold enterFlowing
  exact (drawChanged_keeps _).after ((evaluateStage_only _).comp ((only_draw _).comp
    ((modCurrent_only _ _).comp (clearThrottle_only s) (ds := [.draw, .blend])) (ds := [.draw, .blend]))
    (ds := [.draw, .valve, .blend]))

theorem enterPriming_keeps (s : State) : PortKept s (enterPriming s) := by
  unfold enterPriming
  simp only
  refine PortKept.trans (t := sendLeadProg false _) ?_ (.ite (enterFlowing_keeps _) (.refl _))
  refine (sendLeadProg_keeps _ _).after (bs := [.pulse, .engine, .draw, .journal]) ?_
  refine (handWork_only _ _).comp (bs := [.pulse, .engine, .draw, .journal]) ?_
  exact (openSession_only _ _).comp ((modCurrent_only _ _).comp (only_draw _) (ds := [.draw]))

theorem leaveFlow_keeps (d : DrawState) (f : Current → Current) (s : State) : PortKept s (leaveFlow d f s) := by
  unfold leaveFlow
  exact (drawChanged_keeps _).after ((requestDraw_only _ _).comp ((only_draw _).comp
    ((modCurrent_only _ _).comp (clearThrottle_only s) (ds := [.draw, .blend])) (ds := [.draw, .blend]))
    (ds := [.draw, .valve, .blend]))

theorem suspend_keeps (f : Causes → Causes) (s : State) : PortKept s (suspend f s) := by
  unfold suspend
  split
  · exact leaveFlow_keeps _ _ s
  · exact leaveFlow_keeps _ _ s
  · exact .of_only (modCurrent_only _ s)
  · exact .refl _

theorem enterClosing_keeps (e : Ending) (s : State) : PortKept s (enterClosing e s) :=
  .ite ((leaveFlow_keeps _ _ s).before (only_blend _)) (.refl _)

theorem signalPoint_keeps (p : Point) (s : State) : PortKept s (signalPoint p s) := by
  unfold signalPoint
  split
  · exact PortKept.of_only (bs := [.engine, .draw, .valve]) ((evaluateStage_only _).comp (only_engine _))
  · exact .ite (enterClosing_keeps _ s) (.refl _)

theorem drawTempEvent_keeps (e : TempEvent) (s : State) : PortKept s (drawTempEvent e s) := by
  unfold drawTempEvent
  split
  · exact suspend_keeps _ s
  · exact .of_only (clearCause_only _ s)

theorem superviseOverspeed_keeps (s : State) : PortKept s (superviseOverspeed s) := by
  unfold superviseOverspeed
  split
  · exact .ite (.ite ((suspend_keeps _ _).after (modCurrent_only _ s)) (.of_only (modCurrent_only _ s)))
      (.of_only (modCurrent_only _ s))
  · exact .refl _

theorem superviseReverse_keeps (s : State) : PortKept s (superviseReverse s) := .ite (enterClosing_keeps _ s) (.refl _)

theorem raisePulseFault_keeps (s : State) : PortKept s (raisePulseFault s) := by
  unfold raisePulseFault
  refine .ite (.refl _) ?_
  simp only
  split
  · exact (enterClosing_keeps _ _).after (only_pulse _)
  · exact (followerPulseFault_keeps _).after (only_pulse _)
  · exact .of_only (only_pulse _)

/-- Reactions in whichever order keep what each keeps (log 4). -/
theorem runAnyOrder_portKept {rs : List (State → State)} (h : ∀ r ∈ rs, ∀ x, PortKept x (r x)) (s : State) :
    PortKept s (runAnyOrder rs s) := by
  have hfold : ∀ (l : List (State → State)) (x : State), (∀ r ∈ l, r ∈ rs) →
      PortKept x (l.foldl (fun t f => f t) x) := by
    intro l
    induction l with
    | nil => exact fun x _ => .refl x
    | cons r l ih =>
      exact fun x hl => (h r (hl r List.mem_cons_self) x).trans (ih _ fun q hq => hl q (List.mem_cons_of_mem _ hq))
  exact (hfold _ _ fun r hr => (anyOrder_perm _ _).mem_iff.1 hr).after (only_freeIndex _)

theorem drawUpdate_keeps (r : Results) (s : State) : PortKept s (drawUpdate r s) := by
  unfold drawUpdate
  refine PortKept.before ?_ (evaluateStage_only _)
  refine PortKept.trans (t := sendLeadProg false _) ?_ (runAnyOrder_portKept (fun f hf x => ?_) _)
  · refine (sendLeadProg_keeps _ _).after (bs := [.draw, .journal]) ?_
    exact .ite ((handWork_only _ _).comp (modCurrent_only _ _)) ((modCurrent_only _ s).mono (by decide))
  · obtain ⟨e, rfl⟩ | rfl | rfl | ⟨p, rfl⟩ := mem_drawReactions hf
    · exact drawTempEvent_keeps e x
    · exact superviseOverspeed_keeps x
    · exact superviseReverse_keeps x
    · exact signalPoint_keeps p x

theorem followerUpdate_keeps (r : Results) (s : State) : PortKept s (followerUpdate r s) := by
  unfold followerUpdate
  refine PortKept.trans (t := sendFollowerProg _) ?_ (runAnyOrder_portKept (fun f hf x => ?_) _)
  · refine (sendFollowerProg_keeps _).after (bs := [.blend, .journal]) ?_
    exact .ite ((handWork_only _ _).comp (only_blend _)) ((only_blend _).mono (by decide))
  · simp only [List.mem_append, Option.mem_toList, Option.map_eq_some_iff, List.mem_singleton] at hf
    obtain ⟨e, -, rfl⟩ | rfl := hf
    · exact followerTempEvent_keeps e x
    · exact followStage_keeps x

theorem metered_keeps (reading : ProbeReading) (s : State) : PortKept s (metered reading s) := by
  have hupdate : ∀ x, OnlyChanges [.pulse, .engine] s { (regularUpdate reading s).1 with engine := x } := fun x =>
    (only_engine x).comp (regularUpdate_only reading s)
  unfold metered
  simp only
  split
  · exact (drawUpdate_keeps _ _).after (hupdate _)
  · exact (followerUpdate_keeps _ _).after (hupdate _)
  · exact .of_only (hupdate _)

theorem transition_keeps (a b : Bool) (s : State) : PortKept s (transition a b s) := by
  refine PortKept.after (runAnyOrder_portKept (fun r hr x => ?_) _) (only_pulse _)
  obtain ⟨p, rfl⟩ | rfl := mem_pulseReactions hr
  · exact signalPoint_keeps p x
  · exact raisePulseFault_keeps x

/-! ### The claims -/

theorem releaseOwn_keeps (s : State) : PortKept s (releaseOwn s) := by
  unfold releaseOwn
  split
  · exact ((sendFrame_keeps _ _ s).before (dropRecords_only _ _)).before (only_claims _)
  · exact .refl _

theorem withdrawOwn_keeps (s : State) : PortKept s (withdrawOwn s) := by
  unfold withdrawOwn
  split
  · exact (withdrawClaim_keeps _ s).before (only_claims _)
  · exact .refl _

theorem endClaiming_keeps (x : Answer) (s : State) : PortKept s (endClaiming x s) := by
  unfold endClaiming
  split
  · refine PortKept.trans (PortKept.before ?_ (returnToReady_only _)) (settleDeferred_keeps _ _)
    exact .ite (withdrawOwn_keeps s) (releaseOwn_keeps s)
  · exact .refl _

theorem revokeOwn_keeps (s : State) : PortKept s (revokeOwn s) := (releaseOwn_keeps s).trans (enterClosing_keeps _ _)

theorem refusedOwn_keeps (n r : Nat) (s : State) : PortKept s (refusedOwn n r s) := by
  unfold refusedOwn
  split
  · split
    · exact .refl _
    · exact endClaiming_keeps _ s
    · exact revokeOwn_keeps s
  · exact .refl _

/-- The report that a claim is consented again clears causes of the draw alone (R128). -/
theorem reportConsent_only (o : OwnClaim) (s : State) : OnlyChanges [.draw] s
    (let t := if suppliesGranted o then clearCause .lineLost (clearCause .ownerSilent s) else s
      if o.resources.all (fun r => r.resource != .partner || r.status == .granted) then clearCause .partnerSilent t
      else t) := by
  have hsupplies : OnlyChanges [.draw] s
      (if suppliesGranted o then clearCause .lineLost (clearCause .ownerSilent s) else s) :=
    .ite ((clearCause_only _ _).comp (clearCause_only _ s)) (.refl _ _)
  exact .ite ((clearCause_only _ _).comp hsupplies) hsupplies

theorem settleConsent_keeps (s : State) : PortKept s (settleConsent s) := by
  unfold settleConsent
  split
  · next o _ =>
    split
    · exact .refl _
    · exact .ite (((enterPriming_keeps _).after (modOwn_only _ s)).trans (settleDeferred_keeps _ _)) (.refl _)
    · exact .ite (.of_only (reportConsent_only o s)) (.refl _)
  · exact .refl _

theorem grant_keeps (x : Subject) (r : Resource) (s : State) : PortKept s (grant x r s) := by
  have hgranted : PortKept s (ownGranted x r (sendConsent x.claim.id r none (addRecord r x.claim.id s))) :=
    ((sendFrame_keeps _ _ _).after (addRecord_only _ _ s)).before (ownGranted_only _ _ _)
  unfold grant
  simp only
  split
  · exact hgranted.before (countConsented_only _ _ _)
  · exact hgranted

theorem pumpVerdict_keeps (x : Subject) (m : Manifold) (s : State) : PortKept s (pumpVerdict x m s).1 := by
  unfold pumpVerdict
  simp only
  split
  · exact (sendFrame_keeps _ _ _).after (setPumpPending_only _ _ s)
  · exact (grant_keeps _ _ _).after (setPumpPending_only _ _ s)

theorem judgeResource_keeps (x : Subject) (r : Resource) (s : State) : PortKept s (judgeResource x r s).1 := by
  unfold judgeResource
  split
  · exact sendFrame_keeps _ _ s
  · split
    · exact grant_keeps _ _ s
    · split
      · exact pumpVerdict_keeps _ _ s
      · exact .of_only (setPumpPending_only _ _ s)
    · split
      · exact sendFrame_keeps _ _ s
      · exact (grant_keeps _ _ s).before (bind_only _ _ _ _)

theorem judgeAll_keeps (x : Subject) (rs : List Resource) (s : State) : PortKept s (judgeAll x rs s).1 := by
  induction rs generalizing s with
  | nil => exact .refl _
  | cons r rs ih => exact (judgeResource_keeps x r s).trans (ih _)

theorem concludeOwn_keeps (x : OwnRefusal) (s : State) : PortKept s (concludeOwn x s) := by
  unfold concludeOwn
  split
  · exact refusedOwn_keeps _ _ s
  · exact settleConsent_keeps s

theorem judgeOwn_keeps (s : State) : PortKept s (judgeOwn s) := by
  unfold judgeOwn
  split
  · exact ((judgeAll_keeps _ _ _).after ((modOwn_only _ _).comp (only_claims _) (ds := [.claims]))).trans
      (concludeOwn_keeps _ _)
  · exact .refl _

theorem settleOwnPump_keeps (s : State) : PortKept s (settleOwnPump s) := by
  unfold settleOwnPump
  split
  · exact .ite ((pumpVerdict_keeps _ _ s).trans (concludeOwn_keeps _ _)) (.refl _)
  · exact .refl _

theorem settlePeerPump_keeps (n : Nat) (s : State) : PortKept s (settlePeerPump n s) := by
  unfold settlePeerPump
  split
  · exact .ite (pumpVerdict_keeps _ _ s) (.refl _)
  · exact .refl _

theorem judgePeer_keeps (d : Bool) (n : Nat) (rs : List Resource) (s : State) : PortKept s (judgePeer d n rs s) := by
  unfold judgePeer
  split
  · exact judgeAll_keeps _ _ s
  · exact .refl _

theorem endPeerClaim_keeps (n : Nat) (s : State) : PortKept s (endPeerClaim n s) := by
  unfold endPeerClaim
  split
  · exact (bindingEnd_keeps _ _).after ((dropRecords_only _ _).comp (modPeer_only _ _ s) (ds := [.valve, .claims]))
  · exact .refl _

theorem enterClaim_keeps (c : Claim) (p : Bool) (s : State) : PortKept s (enterClaim c p s) := by
  unfold enterClaim
  exact (announce_keeps (endPeerClaim_keeps _ s)).before ((modPeer_only _ _ _).comp (only_claims _) (ds := [.claims]))

theorem yieldTo_keeps (c : Claim) (s : State) : PortKept s (yieldTo c s) := by
  unfold yieldTo
  split
  · exact .ite (endClaiming_keeps _ s) (.refl _)
  · exact .refl _

theorem judgePendingOf_keeps (n : Nat) (s : State) : PortKept s (judgePendingOf n s) := by
  unfold judgePendingOf
  split
  · exact .ite ((judgePeer_keeps _ _ _ _).after ((modPeer_only _ _ _).comp (only_claims _) (ds := [.claims]))) (.refl _)
  · exact .refl _

theorem foldl_portKept {α : Type} {f : State → α → State} (h : ∀ s x, PortKept s (f s x)) (xs : List α) (s : State) :
    PortKept s (xs.foldl f s) := by
  induction xs generalizing s with
  | nil => exact .refl _
  | cons x xs ih => exact (h s x).trans (ih _)

theorem judgePending_keeps (s : State) : PortKept s (judgePending s) := by
  have hpending := foldl_portKept (fun s n => judgePendingOf_keeps n s) (pendingStations s) s
  unfold judgePending
  simp only
  split
  · exact .ite (hpending.trans (judgeOwn_keeps _)) hpending
  · exact hpending

theorem enterRebuild_keeps (s : State) : PortKept s (enterRebuild s) := by
  unfold enterRebuild
  simp only
  split
  · exact .ite ((endClaiming_keeps _ _).after (only_claims _)) (.of_only (only_claims _))
  · exact .of_only (only_claims _)

/-! ### Closing, halt and the line -/

theorem tryAssemble_keeps (s : State) : PortKept s (tryAssemble s) := by
  unfold tryAssemble
  split
  · split
    · split
      · exact (releaseOwn_keeps _).after (completeItem_only _ _ _ _ s)
      · exact .refl _
    · exact .refl _
  · exact .refl _

theorem finishClosing_keeps (v : Bool) (s : State) : PortKept s (finishClosing v s) := by
  unfold finishClosing
  simp only
  generalize hu : sendLeadProg true _ = u
  have hclosed : PortKept s u := by
    subst hu
    have hsession : ∀ f g, OnlyChanges [.pulse, .engine, .draw] s (modCurrent f (closeSession (modCurrent g s)).1) :=
      fun f g => (modCurrent_only f _).comp ((closeSession_only _).comp (modCurrent_only g s)
        (ds := [.pulse, .engine, .draw]))
    refine (sendLeadProg_keeps _ _).after (bs := [.pulse, .engine, .draw, .journal]) ?_
    exact .ite ((handWork_only _ _).comp (hsession _ _)) ((hsession _ _).mono (by decide))
  refine hclosed.trans ?_
  split
  · split
    · exact (releaseOwn_keeps _).before (completeItem_only _ _ _ _ _)
    · exact (tryAssemble_keeps _).after (modCurrent_only _ _)
  · exact .refl _

theorem haltBegins_keeps (s : State) : PortKept s (haltBegins s) := by
  unfold haltBegins
  refine PortKept.trans (PortKept.ite ?_ ?_) (raiseHold_keeps _ _)
  · exact (endClaiming_keeps _ _).after (only_valve _)
  · exact (suspend_keeps _ _).after (only_valve _)

theorem haltEnds_keeps (s : State) : PortKept s (haltEnds s) := by
  unfold haltEnds
  exact (dropHold_keeps _ _).after ((clearCause_only _ _).comp (only_valve _) (ds := [.draw, .valve]))

theorem setHalt_keeps (h : HaltState) (s : State) : PortKept s (setHalt h s) := by
  unfold setHalt
  exact .ite ((haltBegins_keeps _).after (only_valve _)) (.ite ((haltEnds_keeps _).after (only_valve _))
    (.of_only (only_valve _)))

theorem sourceQuiet_keeps (s : State) : PortKept s (sourceQuiet s) := by
  unfold sourceQuiet
  refine .ite ?_ (.refl _)
  split <;> exact setHalt_keeps _ s

theorem localHalt_keeps (s : State) : PortKept s (localHalt s) := by
  unfold localHalt
  exact ((sendFrame_keeps _ _ _).after (only_inputs_valve _ _)).trans (setHalt_keeps _ _)

theorem hearHalt_keeps (s : State) : PortKept s (hearHalt s) := (setHalt_keeps _ _).after (only_valve _)

theorem bindingLost_keeps (s : State) : PortKept s (bindingLost s) := by
  unfold bindingLost
  split
  · exact bindingEnd_keeps _ s
  · exact .refl _

theorem drawLost_keeps (s : State) : PortKept s (drawLost s) :=
  .ite (.of_only (bs := [.draw, .blend, .handler]) ((abandonDeferred_only _).comp (returnToReady_only s)))
    (suspend_keeps _ s)

theorem enterLineLost_keeps (s : State) : PortKept s (enterLineLost s) := by
  unfold enterLineLost
  refine PortKept.trans (PortKept.trans ?_ (bindingLost_keeps _)) (drawLost_keeps _)
  refine PortKept.before (PortKept.before ?_ (only_valve _)) (claimsLost_only _)
  exact (purgePort_keeps _).after (only_station _)

theorem enterRunning_keeps (s : State) : PortKept s (enterRunning s) := by
  unfold enterRunning
  simp only
  generalize hv : settleConsent _ = v
  have hjudged : PortKept s v := by
    subst hv
    refine PortKept.trans (PortKept.trans ?_ (PortKept.ite (.refl _) (judgePending_keeps _))) (settleConsent_keeps _)
    exact (queueStat_keeps _).after (only_station _)
  exact hjudged.trans (.ite ((sendFrame_keeps _ _ _).after (only_valve _)) (.refl _))

/-! ### The receive queue (R93, R94) -/

theorem rxFrames_append (xs ys : List RxEntry) : rxFrames (xs ++ ys) = rxFrames xs + rxFrames ys := by
  rw [rxFrames, List.filter_append, List.length_append, rxFrames, rxFrames]

theorem rxFrames_perm {xs ys : List RxEntry} (h : xs.Perm ys) : rxFrames xs = rxFrames ys := (h.filter _).length_eq

theorem rxFrames_tail_le (rx : List RxEntry) : rxFrames rx.tail ≤ rxFrames rx :=
  ((List.tail_sublist rx).filter _).length_le

theorem isRxFrame_of_removable {e : RxEntry} (h : isRxRemovable e = true) : isRxFrame e = true := by
  cases e with
  | frame f a => rfl
  | notice f => cases h

/-- A sound port whose receive queue is replaced by one within its bound. -/
theorem PortSound.with_rx {p q : Port} (h : PortSound p) (hrx : rxFrames q.rx ≤ Config.rxRoom) (htx : q.tx = p.tx)
    (hclock : q.clock = p.clock) : PortSound q :=
  ⟨htx ▸ h.order, htx ▸ h.room, htx ▸ h.onWire, hrx, hclock ▸ h.clock⟩

theorem taken_keeps (s : State) (f : Frame) (a : Nat) : PortKept s (taken s f a) := fun h =>
  h.with_rx (q := { s.port with rx := s.port.rx.tail }) ((rxFrames_tail_le _).trans h.received) rfl rfl

theorem pushRx_keeps {f : Frame} {rx : List RxEntry} {s : State} (hroom : rxFrames rx < Config.rxRoom) :
    PortKept s (pushRx f rx s) := fun h =>
  h.with_rx (q := { s.port with rx := rx ++ [.frame f s.time] })
    (by rw [rxFrames_append]; exact hroom) rfl rfl

theorem entered_keeps (f : Frame) (s : State) : PortKept s (entered f s) := .ite (hearHalt_keeps s) (.refl _)

theorem offerFrame_keeps (f : Frame) (s : State) : PortKept s (offerFrame f s) := by
  unfold offerFrame
  split
  · next hroom => exact (pushRx_keeps hroom).trans (entered_keeps _ _)
  split
  swap; · exact .refl _
  split
  · next e rest htake =>
    obtain ⟨-, -, hremovable, hperm⟩ := takeLast?_sublist _ htake
    intro h
    have hone : rxFrames (e :: rest) = rxFrames rest + 1 := by
      simp [rxFrames, isRxFrame_of_removable hremovable]
    have hroom : rxFrames rest < Config.rxRoom := by
      have hreceived := h.received
      rw [rxFrames_perm hperm, hone] at hreceived
      exact hreceived
    exact (pushRx_keeps hroom).trans (entered_keeps _ _) h
  · exact enterRebuild_keeps s

theorem arrived_keeps (f : Frame) (s : State) : PortKept s (arrived f s) := .ite (offerFrame_keeps f s) (.refl _)

/-! ### The takes -/

theorem claimTaken_keeps (f : Frame) (s : State) : PortKept s (claimTaken f s) := by
  have hyield : ∀ c p, PortKept s (yieldTo c (enterClaim c p s)) := fun c p =>
    (enterClaim_keeps c p s).trans (yieldTo_keeps c _)
  unfold claimTaken
  simp only
  split
  · exact .ite (.refl _) (.ite ((hyield _ _).trans (announce_keeps (judgePeer_keeps _ _ _ _))) (hyield _ _))
  · exact .refl _

theorem ownVerdict_keeps (o : OwnClaim) (r : Resource) (n v w : Nat) (s : State) :
    PortKept s (ownVerdict o r n v w s) := by
  unfold ownVerdict
  refine .ite (.ite ?_ (.ite (refusedOwn_keeps _ _ s) (.refl _))) (.refl _)
  exact ((settleOwnPump_keeps _).after (modOwn_only _ s)).trans (settleConsent_keeps _)

theorem consentTaken_keeps (f : Frame) (s : State) : PortKept s (consentTaken f s) := by
  unfold consentTaken
  simp only
  split
  · exact .refl _
  · split
    · split
      · exact .ite (ownVerdict_keeps _ _ _ _ _ s) (.refl _)
      · exact .refl _
    · split
      · exact .ite ((settlePeerPump_keeps _ _).after (modPeer_only _ _ s)) (.refl _)
      · exact .refl _

theorem releaseTaken_keeps (f : Frame) (s : State) : PortKept s (releaseTaken f s) := by
  have hdiscard := fun p => PortKept.of_only (discardHeld_only p s)
  unfold releaseTaken
  simp only
  split
  · exact .ite ((hdiscard _).trans (endPeerClaim_keeps _ _)) (hdiscard _)
  · exact hdiscard _

theorem leadReportTaken_keeps (f : Frame) (s : State) : PortKept s (leadReportTaken f s) := by
  unfold leadReportTaken
  split
  · exact .ite (takeLeadReport_keeps _ s) (.refl _)
  · exact .refl _

theorem actOnLag_keeps (lag : Int) (l : Lead) (s : State) : PortKept s (actOnLag lag l s) := by
  have hmark : ∀ x, OnlyChanges [.draw, .valve, .blend] s (evaluateStage { s with blend := x }) := fun x =>
    (evaluateStage_only _).comp (only_blend x)
  unfold actOnLag
  exact .ite (.ite ((suspend_keeps _ _).after (hmark _)) (.of_only (hmark _))) (.refl _)

theorem followerReportTaken_keeps (f : Frame) (s : State) : PortKept s (followerReportTaken f s) := by
  unfold followerReportTaken
  split
  · exact .ite ((actOnLag_keeps _ _ _).after (only_blend _)) (.refl _)
  · exact .refl _

theorem finalPartTaken_keeps (f : Frame) (s : State) : PortKept s (finalPartTaken f s) := by
  have hpart : ∀ x, PortKept s (tryAssemble { s with blend := x }) := fun x =>
    (tryAssemble_keeps _).after (only_blend x)
  unfold finalPartTaken
  split
  · exact .ite (.ite (hpart _) (.ite (hpart _) (.refl _))) (.refl _)
  · exact .refl _

theorem heldPage_keeps (l : LiveClaim) (w : Awaited) (s : State) : PortKept s (heldPage l w s) := by
  have hcount : OnlyChanges [.claims] s (countPage l.claim.id.station (notAwaited l.claim w) s) := modPeer_only _ _ _
  have hanswered : ∀ t, PortKept t (answerAwaited l w t) := fun t =>
    (foldl_portKept (fun s r => sendFrame_keeps _ _ s) _ t).trans (judgePeer_keeps _ _ _ _)
  unfold heldPage
  exact .ite (((hanswered _).after hcount).trans (settlePeerPump_keeps _ _)) (.of_only hcount)

theorem reAnnounced_keeps (c : Claim) (w : Awaited) (s : State) : PortKept s (reAnnounced c w s) := by
  have hcount : ∀ p, PortKept s (countPage c.id.station (notAwaited c w) (enterClaim c p s)) := fun p =>
    (enterClaim_keeps c p s).before (modPeer_only _ _ _)
  unfold reAnnounced
  exact .ite (hcount _) ((hcount _).trans (announce_keeps (judgePeer_keeps _ _ _ _)))

theorem page2Compared_keeps (p : Peer) (c : Option (Claim × Awaited)) (s : State) :
    PortKept s (page2Compared p c s) := by
  unfold page2Compared
  split
  · exact .ite (heldPage_keeps _ _ s) (.ite (.refl _) (reAnnounced_keeps _ _ s))
  · exact .ite (.refl _) (reAnnounced_keeps _ _ s)
  · unfold nonePage
    split
    · exact .refl _
    · exact .ite (.refl _) (endPeerClaim_keeps _ s)
  · exact .refl _

theorem page2Taken_keeps (f : Frame) (s : State) : PortKept s (page2Taken f s) := by
  unfold page2Taken
  simp only
  split
  · exact (page2Compared_keeps _ _ _).after (discardHeld_only _ s)
  · exact .of_only (discardHeld_only _ s)

theorem claimCompleted_keeps (n : Nat) (s : State) : PortKept s (claimCompleted n s) := by
  unfold claimCompleted
  refine .ite ((sendFrame_keeps _ _ _).after (only_claims _)) ?_
  split
  · exact .ite ((judgeOwn_keeps _).after (modOwn_only _ s)) (.refl _)
  · exact .refl _

theorem noticeTaken_keeps (s : State) : PortKept s (noticeTaken s) := by
  unfold noticeTaken
  split
  · next f rest hrx =>
    have htail : PortKept s { s with port := { s.port with rx := rest } } := fun h =>
      h.with_rx (q := { s.port with rx := rest })
        (by have := rxFrames_tail_le s.port.rx; rw [hrx] at this; exact this.trans (hrx ▸ h.received)) rfl rfl
    exact .ite (htail.trans (claimCompleted_keeps _ _)) htail
  · exact .refl _

theorem setClock_keeps {value : Nat} (hvalue : value < 4294967296) (s : State) : PortKept s (setClock value s) := fun h =>
  ⟨h.order, h.room, h.onWire, h.received, fun c hc => by cases hc; exact hvalue⟩

theorem clockTick_keeps (s : State) : PortKept s { s with port := clockTick s.port } := fun h =>
  ⟨h.order, h.room, h.onWire, h.received, fun c hc => by
    simp only [clockTick, Option.map_eq_some_iff] at hc
    obtain ⟨b, -, rfl⟩ := hc
    exact Nat.mod_lt _ (by decide)⟩

/-! ### The transmit side -/

theorem handSegment_keeps (s : State) : PortKept s (handSegment s) := by
  unfold handSegment
  split
  · split
    · exact .ite ((handFrame_keeps _ _ s).before (only_journal _)) (abandonFetch_keeps _ s)
    · exact .refl _
  · exact .refl _

theorem segmentSent_keeps (n : Nat) (s : State) : PortKept s (segmentSent n s) := by
  unfold segmentSent
  split
  · refine .ite (.ite ((handSegment_keeps _).after (only_journal _)) (.ite ?_ (.of_only (only_journal _)))) (.refl _)
    exact PortKept.of_only (bs := [.journal]) ((only_journal _).comp (only_journal _))
  · exact .refl _

theorem started_keeps (s : State) : PortKept s (started s) := by
  unfold started
  split
  · next hfree => exact .of_tx rfl fun h => h.startFirst hfree.2
  · exact .refl _

theorem allWaiting_keeps (s : State) : PortKept s { s with port := { s.port with tx := allWaiting s.port.tx } } :=
  .of_tx rfl fun h => h.allWaiting

theorem rxFrames_noticeFor (f : Frame) (rx : List RxEntry) : rxFrames (noticeFor f rx) = rxFrames rx := by
  unfold noticeFor
  split
  · rw [rxFrames_append]; rfl
  · rfl

theorem reportSent_keeps (e : TxEntry) (s : State) : PortKept s (reportSent e s) := by
  unfold reportSent
  split
  · exact segmentSent_keeps _ s
  · exact .refl _

theorem sent_keeps (s : State) : PortKept s (sent s) := by
  unfold sent
  split
  · next e _ =>
    refine fun h => reportSent_keeps e _ ?_
    have htx := h.tx.sublist (xs := s.port.tx.filter (fun x => !x.onWire)) List.filter_sublist
    exact ⟨htx.order, htx.room, htx.onWire, (rxFrames_noticeFor _ _).trans_le h.received, h.clock⟩
  · exact .refl _

theorem busOff_keeps (s : State) : PortKept s (busOff s) := by
  unfold busOff
  split
  · exact enterLineLost_keeps s
  · exact purgePort_keeps s

theorem failed_keeps (noAck : Bool) (s : State) : PortKept s (failed noAck s) := by
  unfold failed
  refine .ite ?_ (.refl _)
  refine (allWaiting_keeps s).trans ?_
  split
  · exact fun h => ⟨h.order, h.room, h.onWire, h.received, h.clock⟩
  · exact busOff_keeps _

/-! ### Requests and the memories -/

theorem beginFetch_keeps (n : Nat) (t : Ticket) (s : State) : PortKept s (beginFetch n t s) :=
  ((handSegment_keeps _).after (only_journal _)).trans (handSegment_keeps _)

theorem serveJournal_keeps (a : Asker) (r : Request) (s : State) : PortKept s (serveJournal a r s) := by
  unfold serveJournal
  split
  · unfold serveOpenDrop
    split
    · exact answer_keeps _ _ s
    · exact (answer_keeps _ _ _).after ((only_draw _).comp ((handWork_only _ _).comp (convertUnticketed_only s)
        (ds := [.pulse, .journal])) (ds := [.pulse, .draw, .journal]))
  · unfold serveCloseDrop
    split
    · exact (answer_keeps _ _ _).after ((only_draw _).comp (handWork_only _ s) (ds := [.draw, .journal]))
    · exact answer_keeps _ _ s
  · unfold serveAckTicket
    split
    · exact answer_keeps _ _ s
    · split
      · exact answer_keeps _ _ s
      · exact answer_keeps _ _ s
      · exact (answer_keeps _ _ _).after (bs := [.journal]) (.ite (.refl _ _) (handWork_only _ s))
  · unfold serveFetchTicket
    split
    · exact answer_keeps _ _ s
    · exact .ite (answer_keeps _ _ s) ((answer_keeps _ _ s).trans (beginFetch_keeps _ _ _))
  · exact answer_keeps _ _ s
  · exact .refl _

theorem askJournal_keeps (a : Asker) (r : Request) (s : State) : PortKept s (askJournal a r s) :=
  .ite (serveJournal_keeps a r s) (.of_only (only_handler _))

theorem takeWaiting_keeps (s : State) : PortKept s (takeWaiting s) := by
  unfold takeWaiting
  split
  · exact (serveJournal_keeps _ _ _).after (only_handler _)
  · exact .refl _

theorem configWritten_keeps (completed : Bool) (s : State) : PortKept s (configWritten completed s) := by
  unfold configWritten
  split
  · simp only
    generalize ht : ({ s with station := _, handler := _, freeIndex := _ } : State) = t
    have hended : PortKept s t := by subst ht; exact fun h => h
    exact hended.trans ((PortKept.ite (.of_only (handWork_only _ t)) (.refl t)).trans (answer_keeps _ _ _))
  · exact .refl _

/-- A request command keeps the port sound where what serves the request does. -/
theorem takeAsk_portKept {code : Nat → Bool} {serve : Asker → Request → State → State}
    (hserve : ∀ a r s, PortKept s (serve a r s)) (s : State) : PortKept s (takeAsk code serve s) :=
  takeAsk_keeps (Q := fun s => PortSound s.port) (fun s f a => taken_keeps s f a) (fun a x s => answer_keeps a x s)
    (fun _ _ _ s => sendFrame_keeps _ _ s) (fun _ _ h => h) (fun _ r s _ _ _ _ => hserve _ r s)

section
variable (a : Asker) (r : Request) (s : State)

theorem serveOpen_keeps : PortKept s (serveOpen a r s) := .ite (askJournal_keeps a r s) (answer_keeps _ _ s)

theorem serveSelect_keeps : PortKept s (serveSelect a r s) := by
  have hanswer : ∀ x d, PortKept s (answer a x { s with draw := d }) := fun x d => (answer_keeps a x _).after (only_draw d)
  unfold serveSelect
  split
  · split
    · exact answer_keeps _ _ s
    · split
      · exact answer_keeps _ _ s
      · exact hanswer _ _
    · split
      · exact answer_keeps _ _ s
      · exact hanswer _ _
    · exact answer_keeps _ _ s
  · exact .refl _

theorem serveClose_keeps : PortKept s (serveClose a r s) := by
  have hask : ∀ d, PortKept s (askJournal a r { s with draw := d }) := fun d =>
    (askJournal_keeps a r _).after (only_draw d)
  unfold serveClose
  split
  · exact answer_keeps _ _ s
  · exact .ite (answer_keeps _ _ s) (hask _)
  · exact .ite (answer_keeps _ _ s) (hask _)
  · exact answer_keeps _ _ s

theorem startDraw_keeps (sel : Selection) (c : Claim) : PortKept s (startDraw a sel c s) := by
  unfold startDraw
  simp only
  generalize ht : clearContext _ _ _ _ _ = t
  have hcleared : PortKept s t := by subst ht; exact fun h => h
  refine hcleared.trans (.ite ?_ ((answer_keeps _ _ _).after (only_draw _)))
  exact fun h => handFrame_keeps _ _ _ h

theorem serveStart_keeps : PortKept s (serveStart a r s) := by
  unfold serveStart
  split
  · exact answer_keeps _ _ s
  · split
    · split
      · exact answer_keeps _ _ s
      · exact startDraw_keeps a s _ _
    · exact answer_keeps _ _ s

theorem servePause_keeps : PortKept s (servePause a r s) := by
  unfold servePause
  split
  · exact (suspend_keeps _ s).trans (answer_keeps _ _ _)
  · exact (suspend_keeps _ s).trans (answer_keeps _ _ _)
  · exact (suspend_keeps _ s).trans (answer_keeps _ _ _)
  · exact answer_keeps _ _ s

theorem serveResume_keeps : PortKept s (serveResume a r s) := by
  unfold serveResume
  split
  · split
    · exact (enterFlowing_keeps s).trans (answer_keeps _ _ _)
    · exact answer_keeps _ _ s
  · exact answer_keeps _ _ s

theorem serveEnd_keeps : PortKept s (serveEnd a r s) := by
  have hclosing := (enterClosing_keeps .endedByRequest s).trans (answer_keeps a (plain .ok) _)
  unfold serveEnd
  split
  · exact answer_keeps _ _ s
  · exact answer_keeps _ _ s
  · exact (answer_keeps _ _ _).after (only_draw _)
  · exact (endClaiming_keeps _ s).trans (answer_keeps _ _ _)
  · exact hclosing
  · exact hclosing
  · exact hclosing
  · exact answer_keeps _ _ s

theorem servePreset_keeps : PortKept s (servePreset a r s) := by
  have hselected : ∀ x l, PortKept s (answer a x (presetSelected l s)) := fun x l =>
    (answer_keeps a x _).after (only_draw _)
  have hpending : ∀ x l, PortKept s (answer a x (presetPending l (presetSelected l s))) := fun x l =>
    (answer_keeps a x _).after (bs := [.engine, .draw])
      (OnlyChanges.comp (t := presetSelected l s) (only_engine _) (only_draw _))
  unfold servePreset
  split
  · simp only
    split
    · exact answer_keeps _ _ s
    · exact answer_keeps _ _ s
    · exact .ite (answer_keeps _ _ s) (hselected _ _)
    · exact .ite (answer_keeps _ _ s) (hpending _ _)
    · exact .ite (answer_keeps _ _ s) (hpending _ _)
    · exact answer_keeps _ _ s
  · exact .refl _

theorem serveCompartment_keeps : PortKept s (serveCompartment a r s) := by
  unfold serveCompartment
  split
  · exact .ite (answer_keeps _ _ s) (.ite (answer_keeps _ _ s) ((answer_keeps _ _ _).after (only_claims _)))
  · exact .refl _

theorem serveResumeHalt_keeps : PortKept s (serveResumeHalt a r s) := by
  unfold serveResumeHalt
  split
  · exact (setHalt_keeps _ s).trans (answer_keeps _ _ _)
  · exact answer_keeps _ _ s
  · exact answer_keeps _ _ s

theorem serveClearFaults_keeps : PortKept s (serveClearFaults a r s) :=
  .ite (answer_keeps _ _ s) ((answer_keeps _ _ _).after (only_pulse _))

theorem servePrint_keeps : PortKept s (servePrint a r s) := by
  unfold servePrint
  split
  · exact .ite ((answer_keeps _ _ _).after (addJob_only _ s)) (answer_keeps _ _ s)
  · exact .refl _

theorem serveWriteConfig_keeps : PortKept s (serveWriteConfig a r s) := by
  unfold serveWriteConfig
  split
  · exact .ite (answer_keeps _ _ s) (.ite (fun h => h) (answer_keeps _ _ s))
  · exact .refl _

end

/-! ### The start, the stop and every act -/

theorem portReset_sound : PortSound Port.reset :=
  ⟨.nil, Nat.zero_le _, Nat.zero_le _, Nat.zero_le _, nofun⟩

theorem listen_keeps (s : State) : PortKept s (listen s) := fun h => ⟨h.order, h.room, h.onWire, h.received, h.clock⟩

theorem continueStart_keeps (s : State) : PortKept s (continueStart s) := by
  unfold continueStart
  refine .ite ?_ (.of_only (beginWrite_only s))
  unfold enterListening
  simp only
  generalize hu : ({ listen s with pulse := _, engine := _, inputs := _, printer := _ } : State) = u
  have hlisten : PortKept s u := by subst hu; exact listen_keeps s
  exact hlisten.trans (.ite (localHalt_keeps u) (.refl u))

theorem writeCompleted_keeps (s : State) : PortKept s (writeCompleted s) := by
  unfold writeCompleted
  split
  · refine .ite ((continueStart_keeps _).after (only_journal _)) ?_
    refine PortKept.before ?_ (beginIfIdle_only _)
    exact (takeWaiting_keeps _).after ((autoPrint_only _ _).comp (only_journal _) (ds := [.journal, .printer]))
  · exact .refl _

theorem enterConfigFault_keeps (code : FaultCode) (item : Nat) (s : State) :
    PortKept s (enterConfigFault code item s) := (queueStat_keeps _).after (only_station _)

theorem useImage_keeps (img : Image) (s : State) : PortKept s (useImage img s) := fun h => continueStart_keeps _ h

theorem readImage_keeps (read : ImageRead) (s : State) : PortKept s (readImage read s) := by
  unfold readImage
  split
  · exact enterConfigFault_keeps _ _ s
  · split
    · exact enterConfigFault_keeps _ _ s
    · exact useImage_keeps _ s
  · simp only
    split
    · exact (enterConfigFault_keeps _ _ _).after (only_station _)
    · exact (useImage_keeps _ _).after (only_station _)

theorem enterPowerDown_keeps (s : State) : PortKept s (enterPowerDown s) := fun h =>
  h.with_tx (q := offLine s.port) h.tx.allWaiting rfl rfl

theorem startUp_portSound (straps : BitVec 4) (sealOpen : Bool) (s : State) :
    PortSound (startUp straps sealOpen s).port := by
  have hstraps : PortSound (readStraps straps sealOpen (resetBlocks s)).port := by
    unfold readStraps
    simp only
    split
    · exact enterConfigFault_keeps _ _ _ portReset_sound
    · exact portReset_sound
  unfold startUp
  simp only
  split
  · exact enterPowerDown_keeps _ hstraps
  · exact hstraps

theorem peerSilent_keeps (n : Nat) (s : State) : PortKept s (peerSilent n s) := by
  have hlose : ∀ t, PortKept t (loseOwner n t) := by
    intro t
    unfold loseOwner
    split
    · refine .ite ?_ (.refl _)
      have hfirst : ∀ (p : Prop) [Decidable p] (f : OwnClaim → OwnClaim),
          PortKept t (if p then suspend (raiseCond .ownerSilent) (modOwn f t) else modOwn f t) := fun p _ f =>
        .ite ((suspend_keeps _ _).after (modOwn_only f t)) (.of_only (modOwn_only f t))
      exact .ite ((hfirst _ _).trans (suspend_keeps _ _)) (hfirst _ _)
    · exact .refl _
  unfold peerSilent
  exact ((endPeerClaim_keeps n s).before (only_claims _)).trans (hlose _)

theorem expire_portKept {timer : State → Option Nat} {f : State → State} (h : ∀ s, PortKept s (f s)) (s : State) :
    PortKept s (expire timer f s) := fun hs =>
  expire_keeps (Q := fun s => PortSound s.port) hs fun _ _ => h _ hs

theorem whileOperating_portKept {f : State → State} (h : ∀ s, PortKept s (f s)) (s : State) :
    PortKept s (whileOperating f s) := .ite (h s) (.refl s)

theorem atTake_portKept {p : Frame → Bool} {g : Frame → Nat → State → State} (h : ∀ f a s, PortKept s (g f a s))
    (s : State) : PortKept s (atTake p g s) := fun hs =>
  atTake_keeps (Q := fun s => PortSound s.port) hs fun f a _ _ hs => h f a _ (taken_keeps s f a hs)

theorem act_keeps_portSound (i : Instr) (s : State) : PortKept s (act i s) := by
  cases i
  case emergencyStopChange active =>
    refine whileOperating_portKept (fun s => ?_) s
    exact .ite (.refl _) (.ite (localHalt_keeps s) ((sourceQuiet_keeps _).after (only_inputs_valve _ _)))
  case haltRepeat => exact expire_portKept (fun s => (sendFrame_keeps _ _ _).after (only_valve _)) s
  case holdToRunPress =>
    refine whileOperating_portKept (fun s => ?_) s
    unfold pressed
    refine .ite (.refl _) ?_
    simp only
    split
    · exact PortKept.of_only (bs := [.draw, .inputs]) ((modCurrent_only _ _).comp (only_inputs _))
    · exact .ite ((enterFlowing_keeps _).after (only_inputs _)) (.of_only (only_inputs _))
    · exact .of_only (only_inputs _)
  case pulserTransition a b => exact whileOperating_portKept (transition_keeps a b) s
  case meteringUpdate reading => exact expire_portKept (metered_keeps reading) s
  case primeTimerExpiry => exact expire_portKept enterFlowing_keeps s
  case deadmanExpiry | airTimerExpiry | noFlowExpiry => exact expire_portKept (suspend_keeps _) s
  case flowStop | closingLimit => exact expire_portKept (finishClosing_keeps _) s
  case haltHeardExpiry => exact expire_portKept (fun s => (sourceQuiet_keeps _).after (only_valve _)) s
  case statusPeriod => exact expire_portKept queueStat_keeps s
  case clockSecond => exact expire_portKept clockTick_keeps s
  case portRestart =>
    refine expire_portKept (fun s => ?_) s
    unfold portRestarted
    split
    · exact listen_keeps s
    · exact fun h => queueStat_keeps _ ⟨h.order, h.room, h.onWire, h.received, h.clock⟩
    · exact .refl _
  case quietListenExpiry => exact expire_portKept enterRunning_keeps s
  case peerSilence n => exact expire_portKept (peerSilent_keeps n) s
  case consentTimerExpiry => exact expire_portKept (endClaiming_keeps _) s
  case rebuildTimerExpiry =>
    refine expire_portKept (fun s => ?_) s
    exact .ite ((judgePending_keeps _).after (only_claims _)) (.of_only (only_claims _))
  case leadQuietExpiry => exact expire_portKept (fun s => (raiseHold_keeps _ _).after (modBinding_only _ s)) s
  case trimTimerExpiry => exact expire_portKept (enterFClose_keeps _) s
  case followerFlowStop | followerClosingLimit => exact expire_portKept (followerFinish_keeps _) s
  case finalReportRepeat =>
    refine expire_portKept (fun s => ?_) s
    unfold repeatReport
    split
    · exact (sendFinalReport_keeps _ _ _ _).after (only_blend _)
    · exact .refl _
  case blendWaitExpiry => exact expire_portKept (fun s => (tryAssemble_keeps _).after (only_blend _)) s
  case frameArrival f => exact arrived_keeps f s
  case takeHalt | takeStatPage1 => exact atTake_portKept (fun _ _ s => .of_only (modPeer_only _ _ s)) s
  case takeAnswer | takeTkt => exact atTake_portKept (fun _ _ s => .refl s) s
  case takeClock => exact atTake_portKept (fun f _ s => setClock_keeps (fieldAt_lt f 0 4) s) s
  case takeClaim => exact atTake_portKept (fun f _ => claimTaken_keeps f) s
  case takeConsent => exact atTake_portKept (fun f _ => consentTaken_keeps f) s
  case takeRelease => exact atTake_portKept (fun f _ => releaseTaken_keeps f) s
  case takeStatPage0 => exact atTake_portKept (fun f a s => .of_only (page0Taken_only f a s)) s
  case takeStatPage2 => exact atTake_portKept (fun f _ => page2Taken_keeps f) s
  case takeProgLeadReport => exact atTake_portKept (fun f _ => leadReportTaken_keeps f) s
  case takeProgFollowerReport => exact atTake_portKept (fun f _ => followerReportTaken_keeps f) s
  case takeProgFinalPart => exact atTake_portKept (fun f _ => finalPartTaken_keeps f) s
  case takeCompletionNotice => exact whileOperating_portKept noticeTaken_keeps s
  case transmitStart => exact started_keeps s
  case arbitrationLost => exact allWaiting_keeps s
  case frameSent => exact sent_keeps s
  case transmitFailure noAck => exact failed_keeps noAck s
  case journalWriteComplete => exact writeCompleted_keeps s
  case configWriteComplete completed => exact configWritten_keeps completed s
  case openDrop => exact takeAsk_portKept serveOpen_keeps s
  case select => exact takeAsk_portKept serveSelect_keeps s
  case start => exact takeAsk_portKept serveStart_keeps s
  case pause => exact takeAsk_portKept servePause_keeps s
  case resume => exact takeAsk_portKept serveResume_keeps s
  case endDraw => exact takeAsk_portKept serveEnd_keeps s
  case closeDrop => exact takeAsk_portKept serveClose_keeps s
  case setPreset => exact takeAsk_portKept servePreset_keeps s
  case setCompartment => exact takeAsk_portKept serveCompartment_keeps s
  case resumeHalt => exact takeAsk_portKept serveResumeHalt_keeps s
  case clearFaults => exact takeAsk_portKept serveClearFaults_keeps s
  case fetchTicket | ackTicket | readTotals => exact takeAsk_portKept askJournal_keeps s
  case print => exact takeAsk_portKept servePrint_keeps s
  case writeConfig => exact takeAsk_portKept serveWriteConfig_keeps s
  case askUnknownCode => exact takeAsk_portKept (fun _ _ s => .refl s) s
  all_goals exact .of_only (act_only _ s) (by simp only [actBlocks]; decide)

/-- Settles O5: every act keeps the port sound, a power fail takes the entry off the wire, and a start empties the queues. -/
theorem everyStepKeepsPortSound : Obligations.EveryStepKeepsPortSound := by
  intro s t hs hstep
  refine step_keeps (P := fun s => PortSound s.port) ?here ?start ?read ?down ?act ?stat s t hs hstep
  case here => exact fun s t honly => PortKept.of_only honly
  case start => exact fun straps sealOpen s _ => startUp_portSound straps sealOpen s
  case read => exact fun read s _ => readImage_keeps read s
  case down => exact enterPowerDown_keeps
  case act => exact act_keeps_portSound
  case stat => exact queueStat_keeps

end Sys2Proof.Machine
end

