-- ==== Sys2Proof/Proofs/CommandSteps.lean ====
section
/-! PROOFS. The next state of a command, by its form (Machine/Ops.lean): an expiry that is due, a level or event of a station
that operates, and the take of the oldest frame. Each leaves what its block made of the part, but for a STAT set, and leaves
just that where no state field of page 0 changed (R100). -/

namespace Sys2Proof.Machine

set_option Elab.async false

/-! ### What page 0 shows -/

theorem page0State_congr_draw {s t : State} (hstation : t.station = s.station) (hcfg : t.cfg = s.cfg)
    (hstate : t.draw.state = s.draw.state) (hcauses : causesOf t = causesOf s) (hvalve : t.valve = s.valve)
    (hfollower : t.blend.follower = s.blend.follower) (hlatch : t.pulse.faultLatch = s.pulse.faultLatch)
    (hprobe : t.engine.probe = s.engine.probe) (hstalled : t.printer.stalled = s.printer.stalled) :
    page0State t = page0State s := by
  simp only [page0State, page0Of, stateCode, pumpField, tempFaultFlag, hstation, hcfg, hstate, hcauses, hvalve, hfollower,
    hlatch, hprobe, hstalled]

theorem page0State_congr {s t : State} (hstation : t.station = s.station) (hcfg : t.cfg = s.cfg) (hdraw : t.draw = s.draw)
    (hvalve : t.valve = s.valve) (hfollower : t.blend.follower = s.blend.follower)
    (hlatch : t.pulse.faultLatch = s.pulse.faultLatch) (hprobe : t.engine.probe = s.engine.probe)
    (hstalled : t.printer.stalled = s.printer.stalled) : page0State t = page0State s :=
  page0State_congr_draw hstation hcfg (congrArg DrawUnit.state hdraw) (by rw [causesOf, hdraw, causesOf]) hvalve hfollower
    hlatch hprobe hstalled

/-- The blocks of which page 0 shows nothing. -/
abbrev unshownBlocks : List Block := [.time, .pins, .inputs, .port, .claims, .handler, .journal, .freeIndex, .pending]

theorem page0State_of_only {s t : State} (h : OnlyChanges unshownBlocks s t) : page0State t = page0State s :=
  page0State_congr (h.get .station) (h.get .cfg) (h.get .draw) (h.get .valve)
    (congrArg Blend.follower (h.get .blend)) (congrArg Pulse.faultLatch (h.get .pulse))
    (congrArg Engine.probe (h.get .engine)) (congrArg Printer.stalled (h.get .printer))

theorem only_pulse_freeIndex {s : State} (x y) : OnlyChanges [.pulse,
  .freeIndex] s { s with pulse := x, freeIndex := y } := by
  intro b hb; cases b <;> first | exact absurd (by decide) hb | rfl

/-! ### Up to a STAT set -/

/-- `t` stands as `u`, but for a STAT set. -/
structure StatAfter (u t : State) : Prop where
  only : OnlyChanges [.port] u t
  port : StatAlone u.port t.port
  mem : ∀ e : TxEntry, kindOf e.frame.id ≠ kStat → (e ∈ t.port.tx ↔ e ∈ u.port.tx)

theorem announce_statAfter (g : State → State) (s : State) : StatAfter (g s) (announce g s) :=
  ⟨announce_only_port g s, announce_port g s, fun _ he => mem_announce_iff g s he⟩

section
variable {s u t : State} {bs : List Block}

theorem StatAfter.changes (h : StatAfter u t) (honly : OnlyChanges bs s u) : OnlyChanges (.port :: bs) s t :=
  h.only.comp honly (fun _ hb => List.mem_cons_of_mem _ hb) (by simp)

theorem StatAfter.statAlone (h : StatAfter u t) (hport : u.port = s.port) : StatAlone s.port t.port := hport ▸ h.port

theorem StatAfter.queued {f : Frame} (h : StatAfter u t) (hf : kindOf f.id ≠ kStat) (hq : Queued f u) : Queued f t := by
  obtain ⟨e, hmem, rfl⟩ := hq
  exact ⟨e, (h.mem e hf).2 hmem, rfl⟩

theorem StatAfter.rx (h : StatAfter u t) : t.port.rx = u.port.rx := by rw [h.port]

theorem StatAfter.takenAlone (h : StatAfter u t) (hport : HandedAlone { s.port with rx := s.port.rx.tail } u.port) :
    TakenAlone s.port t.port := by
  have hstat := h.port
  rw [HandedAlone] at hport
  rw [StatAlone, hport] at hstat
  rw [TakenAlone, hstat]

end

/-! ### An expiry that is due -/

section
variable {i : Instr} {s : State} {timer : State → Option Nat} {g : State → State} {due : Nat}

theorem exec_expiry (hexec : exec i s = stepAtExpiry timer g s) (hpower : s.station.state ≠ .powerDown)
    (hdue : timer s = some due) : ∃ t, exec i s = .next t ∧ StatAfter (g (passTo due s)) t :=
  ⟨_, hexec.trans (stepAtExpiry_next _ _ timer due hpower hdue), announce_statAfter (fun s => g (passTo due s)) s⟩

theorem exec_expiry_same (hexec : exec i s = stepAtExpiry timer g s) (hpower : s.station.state ≠ .powerDown)
    (hdue : timer s = some due) (hsame : page0State (g (passTo due s)) = page0State s) :
    exec i s = .next (g (passTo due s)) := by
  rw [hexec, stepAtExpiry_next _ _ timer due hpower hdue,
    announce_same (fun s => g (passTo due s)) s hsame]

theorem passTo_only (due : Nat) (s : State) : OnlyChanges [.time] s (passTo due s) := only_time _

end

/-! ### An event of a station that operates -/

section
variable {i : Instr} {s : State} {f : Pins → Pins} {g : State → State}

theorem exec_operating (hexec : exec i s = stepWhenOperating g (setPins f s)) (hop : operating s = true) :
    ∃ t, exec i s = .next t ∧ StatAfter (g (setPins f s)) t :=
  ⟨_, hexec.trans (stepWhenOperating_next _ _ hop), announce_statAfter g _⟩

theorem exec_operating_same (hexec : exec i s = stepWhenOperating g (setPins f s)) (hop : operating s = true)
    (hsame : page0State (g (setPins f s)) = page0State s) : exec i s = .next (g (setPins f s)) := by
  rw [hexec, stepWhenOperating_next g (setPins f s) hop, announce_same g (setPins f s) hsame]

end

/-! ### The take of the oldest frame -/

section
variable {i : Instr} {s : State} {p : Frame → Bool} {g : Frame → Nat → State → State} {f : Frame} {arrival : Nat}

theorem taken_changes (s : State) (f : Frame) (arrival : Nat) : OnlyChanges [.port, .claims] s (taken s f arrival) :=
  (refreshPeer_only _ _ _).comp (only_port _)

theorem exec_take (hexec : exec i s = stepAtTake p g s) (hold : OldestFrame s f arrival) (hp : p f = true) :
    ∃ t, exec i s = .next t ∧ StatAfter (g f arrival (taken s f arrival)) t := by
  obtain ⟨hop, hhead⟩ := hold
  have htake : takeThen p g s = g f arrival (taken s f arrival) := takeThen_taken _ p g f arrival hhead hp
  exact ⟨_, hexec.trans (stepWhenOperating_next _ _ hop), htake ▸ announce_statAfter (takeThen p g) s⟩

theorem exec_take_same (hexec : exec i s = stepAtTake p g s) (hold : OldestFrame s f arrival) (hp : p f = true)
    (hsame : page0State (g f arrival (taken s f arrival)) = page0State s) :
    exec i s = .next (g f arrival (taken s f arrival)) := by
  obtain ⟨hop, hhead⟩ := hold
  have htake : takeThen p g s = g f arrival (taken s f arrival) := takeThen_taken _ p g f arrival hhead hp
  rw [hexec, stepAtTake, stepWhenOperating_next _ _ hop, announce_same _ _ (htake ▸ hsame), htake]

end

end Sys2Proof.Machine
end

