-- ==== Sys2Proof/Proofs/CountingEffects.lean ====
section
/-! PROOFS. Chapters 1 and 2: the counts outside a session and their conversion (R8, R12, R16), CLEAR_FAULTS (R15), the probe
reading outside a session (R25) and the interpolated meter factor (R23). -/

namespace Sys2Proof.Machine

set_option Elab.async false

/-! ### CLEAR_FAULTS (R15, R164) -/

theorem drawActive_eq_false_iff (s : State) :
    drawActive s = false ↔ (s.draw.state = .idle ∨ s.draw.state = .dropOpen ∨ s.draw.state = .ready) ∧
      (s.blend.follower = .unbound ∨ s.blend.follower = .bound) := by
  simp only [drawActive, Bool.not_eq_false', Bool.and_eq_true, Bool.or_eq_true, beq_iff_eq, or_assoc]

theorem serveClearFaults_idle {s : State} (a : Asker) (r : Request) (h : drawActive s = false) :
    serveClearFaults a r s = answer a (plain .ok) { s with pulse := { s.pulse with faultLatch := false } } := by
  simp only [serveClearFaults, h, Bool.false_eq_true, if_false]

theorem serveClearFaults_active {s : State} (a : Asker) (r : Request) (h : drawActive s = true) :
    serveClearFaults a r s = answer a (plain .busy) s := by
  simp only [serveClearFaults, h, if_true]

/-- Settles O13: the handler clears the latch where no draw is active, and else answers BUSY on the part as it is. -/
theorem clearFaultsNeedsNoActiveDraw : Obligations.ClearFaultsNeedsNoActiveDraw := by
  intro s f arrival hs
  refine ⟨fun hidle => ?_, fun hbusy => ?_⟩
  · have hactive : drawActive (asked s f arrival) = false := (drawActive_eq_false_iff _).2 hidle
    obtain ⟨t, hexec, hrest, hanswered, htaken, hclaims, hchanges⟩ :=
      exec_answered (i := .clearFaults) rfl hs (serveClearFaults_idle _ _ hactive) (.of_port 1 rfl) (only_pulse _)
    exact ⟨t, hexec, hrest.get .pulse, hanswered, htaken, hclaims, hchanges.mono (by decide)⟩
  · have hactive : drawActive (asked s f arrival) = true := by
      rw [← Bool.not_eq_false, drawActive_eq_false_iff]; exact hbusy
    exact exec_answered_alone rfl hs (serveClearFaults_active _ _ hactive)

/-! ### The conversion timer (R16) -/

theorem beginIfIdle_busy {s : State} {w : Write} (h : s.journal.inflight = some w) : beginIfIdle s = s := by
  simp [beginIfIdle, h]

/-- The pulse counter once its conversion timer runs on. -/
def conversionPassed (s : State) : State :=
  { s with pulse := { s.pulse with conversionDue := s.pulse.conversionDue.map (· + Config.conversionPeriod) } }

theorem exec_conversionTimer (s : State) :
    exec .conversionTimer s = stepAtExpiry (fun s => s.pulse.conversionDue)
      (fun s => if s.pulse.unticketed = 0 then conversionPassed s
        else beginIfIdle (convertUnticketed (conversionPassed s))) s := by
  rw [exec, execConversionTimer]; rfl

/-- Settles O12: with a write in flight the converted counts wait in the pending sum. -/
theorem conversionTimerTurnsCountIntoVolume : Obligations.ConversionTimerTurnsCountIntoVolume := by
  intro s due w hpower hdue hcounts hflight
  have hbody : beginIfIdle (convertUnticketed (conversionPassed (passTo due s))) =
      convertUnticketed (conversionPassed (passTo due s)) := beginIfIdle_busy (w := w) hflight
  have honly : OnlyChanges [.time, .pulse, .journal] s (convertUnticketed (conversionPassed (passTo due s))) :=
    (convertUnticketed_only _).comp (OnlyChanges.comp (ds := [.time, .pulse]) (only_pulse _) (passTo_only due s))
  have hnext := exec_expiry_same (exec_conversionTimer s) hpower hdue (by
    simp only [passTo_pulse, hcounts, if_false, hbody]
    exact page0State_congr rfl rfl rfl rfl rfl rfl rfl rfl)
  simp only [passTo_pulse, hcounts, if_false, hbody] at hnext
  refine ⟨_, hnext, ⟨?_, rfl⟩, honly⟩
  simp only [convertUnticketed, joinUnticketed_pulse, conversionPassed, passTo_pulse, hdue]
  rfl

/-! ### The probe outside a session (R25) -/

theorem isGood_iff (r : ProbeReading) : isGood r = true ↔ r.status = .normal ∧ -4000 ≤ r.value ∧ r.value ≤ 7000 := by
  simp [isGood, and_assoc]

/-- Settles O17: the reading is judged at the deadline of the probe timer. -/
theorem probeReadingSetsStatus : Obligations.ProbeReadingSetsStatus := by
  intro r s due hpower hsession hdue
  obtain ⟨t, hexec, hstat⟩ := exec_expiry (i := .probeReading r) (due := due) (by rw [exec, execProbeReading]) hpower
    (by simp [hsession, hdue])
  refine ⟨t, hexec, fun hgood => ?_, fun hbad => ?_, hstat.only.get .time, hstat.statAlone rfl,
    (hstat.changes ((only_engine _).comp (passTo_only due s) (ds := [.time, .engine]))).mono (by decide)⟩
  · rw [hstat.only.get .engine, probeRead, takeReading, if_pos ((isGood_iff r).2 hgood)]
    rfl
  · rw [hstat.only.get .engine, probeRead, takeReading, if_neg (mt (isGood_iff r).1 hbad)]
    rfl

/-! ### Counts outside a session (R8, R12, R13) -/

/-- Outside a session a transition moves the levels and the two counts alone, and raises nothing. -/
theorem takeTransition_outside_session (cfg : Cfg) (now : Nat) (a b : Bool) (p : Pulse) (hsession : p.session = none)
    (htarget : p.target = none) :
    takeTransition cfg now a b p =
      (let n := countOfEdge cfg.countMode p.decoderA p.decoderB a b
       ({ p with
          filteredA := a, filteredB := b, decoderA := a, decoderB := b
          running := if n = 0 then p.running else sum64 (p.running + n)
          unticketed := p.unticketed + n
          latestCount := if n = 0 then p.latestCount else now }, ⟨none, false⟩)) := by
  simp only [takeTransition]
  split
  · next h => simp [countOfEdge_none _ h]
  · next h => simp [countOfEdge_phaseError _ h, takePhaseError, hsession]
  · by_cases hn : countOfEdge cfg.countMode p.decoderA p.decoderB a b = 0
    · simp [takeCount, takeLoneEdge, hsession, hn]
    · simp [takeCount, takeLoneEdge, hsession, hn, addCount, windowCount, matchTarget, htarget]

/-- Settles O10. -/
theorem countOutsideSessionIsUnticketed : Obligations.CountOutsideSessionIsUnticketed := by
  intro a b s hop hsession htarget
  have hmove := takeTransition_outside_session s.cfg s.time a b s.pulse hsession htarget
  have htransition : transition a b (setPins (fun p => { p with pulserA := a, pulserB := b }) s) =
      { setPins (fun p => { p with pulserA := a, pulserB := b }) s with
        pulse := (takeTransition s.cfg s.time a b s.pulse).1, freeIndex := s.freeIndex + 1 } := by
    simp [transition, hmove, pulseReactions, runAnyOrder, anyOrder, arrange]
  have hexec : exec (.pulserTransition a b) s = .next (transition a b _) :=
    exec_operating_same rfl hop (by
      rw [htransition, hmove]
      exact page0State_congr rfl rfl rfl rfl rfl rfl rfl rfl)
  refine ⟨_, hexec, ?_, ?_, ?_⟩
  · rw [htransition, hmove]
  · rw [htransition]; rfl
  · rw [htransition]
    exact (only_pulse_freeIndex _ _).comp (setPins_only _ s)

/-! ### The meter factor (R23) -/

section
variable {rate : Nat} {p q : Nat × Nat} {rest : List (Nat × Nat)}

theorem factorAt_of_le (h : rate ≤ p.1) : factorAt rate (p :: rest) = p.2 := by
  cases rest with
  | nil => rfl
  | cons q rest => simp [factorAt, h]

theorem factorAt_between (hp : p.1 < rate) (hq : rate < q.1) :
    factorAt rate (p :: q :: rest) =
      (p.2 : Int) + (((q.2 : Int) - p.2) * ((rate : Int) - p.1)).tdiv ((q.1 : Int) - p.1) := by
  simp [factorAt, truncDiv, Nat.not_le.2 hp, hq]

/-- At and above the second point the first one has no part in the factor. -/
theorem factorAt_cons (hp : p.1 < rate) (hq : q.1 ≤ rate) :
    factorAt rate (p :: q :: rest) = factorAt rate (q :: rest) := by
  simp [factorAt, Nat.not_le.2 hp, Nat.not_lt.2 hq]

end

theorem factorAt_of_last {points : List (Nat × Nat)} {rate : Nat} {p : Nat × Nat}
    (hsorted : (points.map (·.1)).Pairwise (· < ·)) (hlast : points.getLast? = some p) (hrate : p.1 ≤ rate) :
    factorAt rate points = p.2 := by
  induction points with
  | nil => simp at hlast
  | cons x rest ih =>
    cases rest with
    | nil => simp_all [factorAt]
    | cons y rest =>
      have hlast' : (y :: rest).getLast? = some p := by simpa using hlast
      obtain ⟨hx, hrest⟩ := List.pairwise_cons.1 hsorted
      have hlastmem : p ∈ y :: rest := List.mem_of_getLast? hlast'
      have hxp : x.1 < p.1 := hx _ (List.mem_map_of_mem hlastmem)
      have hyp : y.1 ≤ p.1 := by
        obtain rfl | hmem := List.mem_cons.1 hlastmem
        · rfl
        · exact (List.rel_of_pairwise_cons hrest (List.mem_map_of_mem hmem)).le
      rw [factorAt_cons (hxp.trans_le hrate) (hyp.trans hrate)]
      exact ih hrest hlast'

theorem factorAt_of_neighbours {points : List (Nat × Nat)} {rate i : Nat} {p q : Nat × Nat}
    (hsorted : (points.map (·.1)).Pairwise (· < ·)) (hp : points[i]? = some p) (hq : points[i + 1]? = some q)
    (hlow : p.1 < rate) (hhigh : rate < q.1) :
    factorAt rate points =
      (p.2 : Int) + (((q.2 : Int) - p.2) * ((rate : Int) - p.1)).tdiv ((q.1 : Int) - p.1) := by
  induction i generalizing points with
  | zero =>
    obtain _ | ⟨x, _ | ⟨y, rest⟩⟩ := points
    · simp at hp
    · simp at hq
    · simp only [List.getElem?_cons_zero, Option.some.injEq, List.getElem?_cons_succ, Nat.zero_add] at hp hq
      subst hp hq
      exact factorAt_between hlow hhigh
  | succ i ih =>
    obtain _ | ⟨x, _ | ⟨y, rest⟩⟩ := points
    · simp at hp
    · simp at hp
    · obtain ⟨hx, hrest⟩ := List.pairwise_cons.1 hsorted
      simp only [List.getElem?_cons_succ] at hp hq
      have hmem : p ∈ y :: rest := List.mem_of_getElem? hp
      have hxp : x.1 < p.1 := hx _ (List.mem_map_of_mem hmem)
      have hyp : y.1 ≤ p.1 := by
        obtain rfl | hmem := List.mem_cons.1 hmem
        · rfl
        · exact (List.rel_of_pairwise_cons hrest (List.mem_map_of_mem hmem)).le
      rw [factorAt_cons (hxp.trans hlow) (hyp.trans hlow.le)]
      exact ih hrest (by simpa using hp) (by simpa using hq)

/-- Settles O15. -/
theorem meterFactorInterpolates : Obligations.MeterFactorInterpolates := by
  intro points rate hsorted
  refine ⟨fun p hhead hrate => ?_, fun p hlast hrate => factorAt_of_last hsorted hlast hrate,
    fun i p q hp hq hlow hhigh => factorAt_of_neighbours hsorted hp hq hlow hhigh⟩
  obtain ⟨rest, rfl⟩ := List.head?_eq_some_iff.1 hhead
  exact factorAt_of_le hrate

end Sys2Proof.Machine
end

