-- ==== Sys2Proof/Proofs/FlowEntry.lean ====
section
/-! PROOFS. Chapters 3 and 4: the entry into FLOWING and the stage that it requests (R48, R57, R58), at the prime timer, at
RESUME and at a press of hold-to-run (R55, R74), the air detector (R59) and the supervisors of FLOWING (R53, R58 to R60). -/

namespace Sys2Proof.Machine

set_option Elab.async false

/-! ### The request of FLOWING (R57) -/

/-- The stage that the conditions of FLOWING give. -/
def wantedStage (s : State) (c : Current) : StageReq := if wantsFast s c then .fast else .slow

section
variable {s : State} {c : Current}

theorem evaluateStage_flowing (hstate : s.draw.state = .flowing) (hcurrent : s.draw.current = some c) :
    evaluateStage s = if wantedStage s c = c.lastRequest then s else requestDraw (wantedStage s c) s := by
  simp only [evaluateStage, hstate, hcurrent, wantedStage]
  rfl

theorem requestDraw_draw (r : StageReq) (hcurrent : s.draw.current = some c) :
    (requestDraw r s).draw = { s.draw with current := some { c with lastRequest := r } } := by
  rw [requestDraw, modCurrent_draw, (requestStage_only .draw r s).get .draw, hcurrent]
  rfl

theorem evaluateStage_draw (hstate : s.draw.state = .flowing) (hcurrent : s.draw.current = some c) :
    (evaluateStage s).draw = { s.draw with current := some { c with lastRequest := wantedStage s c } } := by
  rw [evaluateStage_flowing hstate hcurrent]
  split
  · next h => rw [h, ← hcurrent]
  · exact requestDraw_draw _ hcurrent

theorem evaluateStage_valve (hstate : s.draw.state = .flowing) (hcurrent : s.draw.current = some c)
    (hnew : wantedStage s c ≠ c.lastRequest) :
    (evaluateStage s).valve = (requestStage .draw (wantedStage s c) s).valve := by
  rw [evaluateStage_flowing hstate hcurrent, if_neg hnew]
  rfl

end

theorem throttled_clearThrottle (s : State) : throttled (clearThrottle s) = false := by
  simp only [throttled, clearThrottle_blend]
  cases s.blend.lead <;> rfl

/-! ### The entry into FLOWING (R48) -/

/-- The request that FLOWING makes on entry: FAST without a soft start, below the slowdown point and without air. -/
def flowingRequest (s : State) : StageReq :=
  if s.cfg.startSlow = 0 ∧ belowSlowdown s.engine.ctx = true ∧ s.inputs.air = false then .fast else .slow

/-- The part in FLOWING before its stage is requested. -/
def flowingEntered (s : State) : State :=
  { clearThrottle s with draw := { s.draw with state := .flowing, current := s.draw.current.map (flowingRecord s) } }

theorem enterFlowing_eq (s : State) : enterFlowing s = drawChanged (evaluateStage (flowingEntered s)) := rfl

theorem wantedStage_flowingEntered (s : State) (c : Current) :
    wantedStage (flowingEntered s) (flowingRecord s c) = flowingRequest s := by
  have hthrottle : throttled (flowingEntered s) = false := throttled_clearThrottle s
  have hengine : (flowingEntered s).engine = s.engine := rfl
  have hinputs : (flowingEntered s).inputs = s.inputs := rfl
  simp [wantedStage, wantsFast, flowingRequest, hthrottle, hengine, hinputs, flowingRecord, and_assoc]

section
variable {s : State} {c : Current}

theorem enterFlowing_draw (hcurrent : s.draw.current = some c) :
    (enterFlowing s).draw =
      { s.draw with state := .flowing, current := some { flowingRecord s c with lastRequest := flowingRequest s } } := by
  have hentered : (flowingEntered s).draw.current = some (flowingRecord s c) := by simp [flowingEntered, hcurrent]
  rw [enterFlowing_eq, (drawChanged_only _).get .draw, evaluateStage_draw rfl hentered, wantedStage_flowingEntered]
  rfl

theorem enterFlowing_valve (hcurrent : s.draw.current = some c) (hclosed : c.lastRequest = .closed) :
    (enterFlowing s).valve = (requestStage .draw (flowingRequest s) (flowingEntered s)).valve := by
  have hentered : (flowingEntered s).draw.current = some (flowingRecord s c) := by simp [flowingEntered, hcurrent]
  have hnew : wantedStage (flowingEntered s) (flowingRecord s c) ≠ (flowingRecord s c).lastRequest := by
    rw [wantedStage_flowingEntered, flowingRequest, show (flowingRecord s c).lastRequest = .closed from hclosed]
    split <;> decide
  rw [enterFlowing_eq, (drawChanged_only _).get .valve, evaluateStage_valve rfl hentered hnew, wantedStage_flowingEntered]

end

theorem enterFlowing_hands (s : State) : Hands 1 s (enterFlowing s) :=
  (drawChanged_hands _).of_left_port ((evaluateStage_only (flowingEntered s)).get .port)

/-- Without a lead's blend record no PROG is sent. -/
theorem drawChanged_port_of_solo {s : State} (hlead : s.blend.lead = none) : (drawChanged s).port = s.port := by
  have hlead' : (checkpoint s).blend.lead = none := (congrArg Blend.lead ((handWork_only _ s).get .blend)).trans hlead
  rw [drawChanged, sendLeadProg, hlead']
  exact (handWork_only _ s).get .port

theorem clearThrottle_lead_of_solo {s : State} (hlead : s.blend.lead = none) : (clearThrottle s).blend.lead = none := by
  rw [clearThrottle_blend, hlead]; rfl

theorem enterFlowing_port_of_solo {s : State} (hlead : s.blend.lead = none) : (enterFlowing s).port = s.port := by
  have hblend := (evaluateStage_only (flowingEntered s)).get .blend
  rw [enterFlowing_eq, drawChanged_port_of_solo ((congrArg Blend.lead hblend).trans (clearThrottle_lead_of_solo hlead))]
  exact (evaluateStage_only (flowingEntered s)).get .port

/-! ### RESUME (R55) -/

theorem resumeAnswer_ok {c : Causes} (h : ∀ k, condFlag c k ≠ .active) : resumeAnswer c = .ok := by
  have hhalt := h .halt
  have htemp := h .tempFault
  have hactive : anyActive c = false := by
    simpa [anyActive, and_assoc] using
      ⟨hhalt, h .air, htemp, h .ownerSilent, h .partnerSilent, h .lineLost⟩
  simp only [condFlag] at hhalt htemp
  simp [resumeAnswer, hhalt, htemp, hactive]

section
variable {s : State} {c : Current} (a : Asker) (r : Request)

theorem serveResume_ok (hstate : s.draw.state = .suspended) (hcurrent : s.draw.current = some c)
    (h : resumeAnswer c.causes = .ok) : serveResume a r s = answer a ⟨.ok, .none⟩ (enterFlowing s) := by
  simp only [serveResume, hstate, hcurrent, h]
  rfl

theorem serveResume_halted (hstate : s.draw.state = .suspended) (hcurrent : s.draw.current = some c)
    (h : c.causes.halt = .active) : serveResume a r s = answer a ⟨.halted, .none⟩ s := by
  simp only [serveResume, hstate, hcurrent, resumeAnswer, h, if_true]
  rfl

end

/-- Settles O24: the ANSWER of RESUME stands on the entry into FLOWING, or on the part as it is. -/
theorem resumeNeedsNoActiveCondition : Obligations.ResumeNeedsNoActiveCondition := by
  intro s f arrival c hs hstate hcurrent
  refine ⟨fun hclear => ?_, fun hhalt => ?_⟩
  · have hserve := serveResume_ok (s := asked s f arrival) (askerOf f) .resume hstate hcurrent (resumeAnswer_ok hclear)
    obtain ⟨t, hexec, hrest, hanswered, htaken, hclaims, hchanges⟩ :=
      exec_answered (i := .resume) rfl hs hserve (enterFlowing_hands _) (enterFlowing_only _)
    have hdraw := (hrest.get .draw).trans (enterFlowing_draw (s := asked s f arrival) hcurrent)
    exact ⟨t, _, hexec, hdraw, rfl, rfl, rfl, rfl, hanswered, htaken, hclaims, hchanges.mono (by decide)⟩
  · exact exec_answered_alone rfl hs (serveResume_halted (s := asked s f arrival) _ _ hstate hcurrent hhalt)

/-! ### The prime timer (R48) -/

/-- The draw's request to open a CLOSED valve is taken where nothing holds it back (R76, R78). -/
theorem requestStage_from_closed {s : State} {r : StageReq} (haccepted : requestAccepted .draw r s = true)
    (hhalt : s.valve.halt = .clear) (hdwell : 0 < s.cfg.dwell) (hclosed : s.valve.stage = .closed) :
    (requestStage .draw r s).valve.stage = stageTable (s.time + s.cfg.dwell) r .closed := by
  rw [requestStage_taken haccepted hhalt, ← hclosed]
  exact stageTaken_of_dwell_pos hdwell

/-- Every stage is granted to the draw of a solo part in FLOWING, with the halt CLEAR and the line in use (R77, R78). -/
theorem requestAccepted_of_flowing {s : State} (r : StageReq) (hop : operating s = true)
    (hline : s.station.state ≠ .lineLost) (hhalt : s.valve.halt = .clear) (hfollower : s.blend.follower = .unbound)
    (hstate : s.draw.state = .flowing) : requestAccepted .draw r s = true := by
  have hstation : s.station.state = .listening ∨ s.station.state = .running := by
    cases h : s.station.state <;> simp_all [operating]
  cases r <;> simp [requestAccepted, hop, stageOwner, fastAccepted, hfollower, hhalt, hstation, hstate]

/-- Settles O26. -/
theorem primeTimerOpensValve : Obligations.PrimeTimerOpensValve := by
  intro s c due hstate hcurrent hdue hclosed hop hhalt hline hstage hlead hfollower hdwell
  obtain ⟨t, hexec, hstat⟩ := exec_expiry (i := .primeTimerExpiry) (due := due) (by rw [exec, execPrimeTimerExpiry])
    (not_powerDown_of_operating s hop) (by simp [drawTimer, hstate, hcurrent, hdue])
  have hdraw := (hstat.only.get .draw).trans (enterFlowing_draw (s := passTo due s) hcurrent)
  have hvalve := (hstat.only.get .valve).trans (enterFlowing_valve (s := passTo due s) hcurrent hclosed)
  have haccepted : ∀ r, requestAccepted .draw r (flowingEntered (passTo due s)) = true := fun r =>
    requestAccepted_of_flowing r hop hline hhalt hfollower rfl
  have hopened : ∀ r, flowingRequest (passTo due s) = r →
      t.valve.stage = stageTable (later s.time due + s.cfg.dwell) r .closed := by
    rintro r rfl
    rw [hvalve]
    exact requestStage_from_closed (haccepted _) hhalt hdwell hstage
  refine ⟨t, _, hexec, hdraw, ?_, rfl, rfl, rfl, ⟨fun hfast => ?_, fun hslow => ?_⟩, ?_, ?_⟩
  · exact (hstat.only.get .time).trans ((enterFlowing_only _).get .time)
  · have hrequest : flowingRequest (passTo due s) = .fast := if_pos hfast
    exact ⟨hopened _ hrequest, hrequest⟩
  · have hrequest : flowingRequest (passTo due s) = .slow := if_neg hslow
    exact ⟨hopened _ hrequest, hrequest⟩
  · exact hstat.statAlone (enterFlowing_port_of_solo hlead)
  · exact (hstat.changes ((enterFlowing_only _).comp (passTo_only due s) (ds := .time :: drawBlocks))).mono (by decide)

/-! ### The supervisors of FLOWING (R53, R58 to R60) -/

/-- The part out of the flow before CLOSED is requested. -/
def flowLeft (d : DrawState) (f : Current → Current) (s : State) : State :=
  { clearThrottle s with
    draw := { s.draw with
      state := d, current := s.draw.current.map (fun c => f { stopSupervisors c with enteredAt := s.time }) } }

theorem leaveFlow_eq (d : DrawState) (f : Current → Current) (s : State) :
    leaveFlow d f s = drawChanged (requestDraw .closed (flowLeft d f s)) := rfl

theorem leaveFlow_port_of_solo (d : DrawState) (f : Current → Current) {s : State} (hlead : s.blend.lead = none) :
    (leaveFlow d f s).port = s.port := by
  have hblend := (requestDraw_only .closed (flowLeft d f s)).get .blend
  rw [leaveFlow_eq, drawChanged_port_of_solo ((congrArg Blend.lead hblend).trans (clearThrottle_lead_of_solo hlead))]
  exact (requestDraw_only .closed (flowLeft d f s)).get .port

/-- A timer that suspends a FLOWING draw of a solo part. -/
theorem exec_suspension {i : Instr} {s : State} {c : Current} {timer : State → Option Nat} {raise : Causes → Causes}
    {due : Nat} (hexec : exec i s = stepAtExpiry timer (suspend raise) s) (hdue : timer s = some due)
    (hstate : s.draw.state = .flowing) (hcurrent : s.draw.current = some c) (hlead : s.blend.lead = none)
    (hfollower : s.blend.follower = .unbound) (hop : operating s = true) (hhalt : s.valve.halt = .clear)
    (hdwell : 0 < s.cfg.dwell) :
    ∃ t c', exec i s = .next t ∧ t.draw = { s.draw with state := .suspended, current := some c' } ∧
      c'.causes = raise c.causes ∧ c'.deadmanDue = none ∧ c'.airDue = none ∧ c'.lastRequest = .closed ∧
      t.time = later s.time due ∧
      t.valve = { s.valve with stage := stageTable (later s.time due + s.cfg.dwell) .closed s.valve.stage } ∧
      StatAlone s.port t.port ∧ OnlyChanges [.time, .draw, .valve, .port, .blend, .journal] s t := by
  obtain ⟨t, hnext, hstat⟩ := exec_expiry hexec (not_powerDown_of_operating s hop) hdue
  rw [suspend_from_flow (s := passTo due s) raise (.inr hstate)] at hstat
  have honly := leaveFlow_only .suspended (fun c => { c with causes := raise c.causes }) (passTo due s)
  refine ⟨t, leftRecord (later s.time due) (fun c => { c with causes := raise c.causes }) c, hnext, ?_, rfl, rfl, rfl, rfl,
    ?_, ?_, ?_, ?_⟩
  · rw [hstat.only.get .draw, leaveFlow_draw, passTo_draw, hcurrent]
    rfl
  · exact (hstat.only.get .time).trans (honly.get .time)
  · exact (hstat.only.get .valve).trans (leaveFlow_valve _ _ (passTo due s) hop hfollower hhalt hdwell)
  · exact hstat.statAlone (leaveFlow_port_of_solo _ _ (s := passTo due s) hlead)
  · exact (hstat.changes (honly.comp (passTo_only due s) (ds := .time :: drawBlocks))).mono (by decide)

/-- Settles O27. -/
theorem supervisorsSuspendFlow : Obligations.SupervisorsSuspendFlow := by
  intro s c hstate hcurrent hlead hfollower hop hhalt hdwell
  have hrunning : ∀ timer : Current → Option Nat, drawTimer .flowing timer s = timer c := fun timer => by
    simp [drawTimer, hstate, hcurrent]
  refine ⟨fun due hdue => ?deadman, fun due hdue => ?air, ?noFlow⟩
  case deadman =>
    exact exec_suspension (i := .deadmanExpiry) (by rw [exec,
      execDeadmanExpiry]) ((hrunning _).trans hdue) hstate hcurrent hlead hfollower hop
      hhalt hdwell
  case air =>
    exact exec_suspension (i := .airTimerExpiry) (by rw [exec,
      execAirTimerExpiry]) ((hrunning _).trans hdue) hstate hcurrent hlead hfollower hop
      hhalt hdwell
  case noFlow =>
    exact exec_suspension (i := .noFlowExpiry) (by rw [exec, execNoFlowExpiry])
      (hrunning _) hstate hcurrent hlead hfollower hop hhalt hdwell

/-! ### The air detector (R59) -/

/-- The current draw record as a change of the air detector leaves it in FLOWING. -/
def airRecord (active : Bool) (now : Nat) (c : Current) : Current :=
  { c with
    exceptions := { c.exceptions with airSeen := c.exceptions.airSeen || active }
    airDue := if active then some (airStart now) else none }

theorem airChanged_flowing {s : State} {active : Bool} (hstate : s.draw.state = .flowing) (hair : s.inputs.air = !active) :
    airChanged active s =
      evaluateStage (modCurrent (airRecord active s.time) { s with inputs := { s.inputs with air := active } }) := by
  have hne : active ≠ s.inputs.air := by rw [hair]; cases active <;> decide
  simp only [airChanged, if_neg hne, hstate]
  rfl

/-- Settles O35: the detector's level joins the record, and the conditions of FLOWING are judged again. -/
theorem airForcesSlow : Obligations.AirForcesSlow := by
  intro active s c hop hstate hcurrent hair
  obtain ⟨t, hexec, hstat⟩ :=
    exec_operating (i := .airDetectorChange active) (by rw [exec, execAirDetectorChange]) hop
  rw [airChanged_flowing (s := setPins _ s) hstate hair] at hstat
  set u := modCurrent (airRecord active s.time)
    { setPins (fun p => { p with air := active }) s with inputs := { s.inputs with air := active } } with hu
  have hcurrent' : u.draw.current = some (airRecord active s.time c) := by rw [hu, modCurrent_draw]; simp [hcurrent]
  have hdraw := (hstat.only.get .draw).trans (evaluateStage_draw (s := u) hstate hcurrent')
  have honly : OnlyChanges [.pins, .inputs, .draw] s u :=
    (modCurrent_only _ _).comp (OnlyChanges.comp (ds := [.pins, .inputs]) (only_inputs _) (setPins_only _ s))
  refine ⟨t, _, hexec, hdraw, ?_, rfl, rfl, fun hactive => ?_, rfl, ?_, ?_⟩
  · exact (hstat.only.get .inputs).trans ((evaluateStage_only u).get .inputs)
  · have hseen : u.inputs.air = true := hactive
    simp [wantedStage, wantsFast, hseen]
  · exact hstat.statAlone ((evaluateStage_only u).get .port)
  · exact (hstat.changes ((evaluateStage_only u).comp honly (ds := [.pins, .inputs, .draw, .valve]))).mono (by decide)

end Sys2Proof.Machine
end

