-- ==== Sys2Proof/Proofs/OperatorInputs.lean ====
section
/-! PROOFS. Chapter 4: what the operator inputs do (R74): hold-to-run by the draw state, the others their own level. A press
that resumes the draw asks for a checkpoint and sends no ANSWER. -/

namespace Sys2Proof.Machine

set_option Elab.async false

/-! ### A checkpoint asked for (R175) -/

/-- A checkpoint waits, or its write is in flight. -/
def CheckpointAsked (s : State) : Prop :=
  (∃ x ∈ s.journal.works, isCheckpoint x = true) ∨
    ∃ w item a, s.journal.inflight = some w ∧ w.change = .checkpoint item a

theorem checkpoint_mem_addWork (adds : Bool) (works : List Work) :
    ∃ x ∈ addWork (.checkpoint adds) works, isCheckpoint x = true := by
  simp only [addWork]
  split
  · next h =>
    obtain ⟨x, hmem, hx⟩ := List.any_eq_true.1 h
    cases x with
    | checkpoint a => exact ⟨.checkpoint (a || adds), List.mem_map.2 ⟨_, hmem, rfl⟩, rfl⟩
    | _ => cases hx
  · exact ⟨.checkpoint adds, List.mem_append_right _ (List.mem_singleton.2 rfl), rfl⟩

theorem changeOf_checkpoint {s : State} {item : DrawItem} (h : itemInProgress s = some item) {x : Work}
    (hx : isCheckpoint x = true) : ∃ a, changeOf s x = .checkpoint item a := by
  cases x with
  | checkpoint a => exact ⟨a, by simp only [changeOf, h]⟩
  | _ => cases hx

theorem beginIfIdle_checkpointAsked {s : State} {item : DrawItem} (h : itemInProgress s = some item)
    (hwaits : ∃ x ∈ s.journal.works, isCheckpoint x = true) : CheckpointAsked (beginIfIdle s) := by
  unfold beginIfIdle
  split
  · obtain ⟨x, hmem, hx⟩ := hwaits
    unfold beginWrite
    split
    · next w ws hworks =>
      rw [hworks, List.mem_cons] at hmem
      obtain rfl | hmem := hmem
      · obtain ⟨a, ha⟩ := changeOf_checkpoint h hx
        exact .inr ⟨_, item, a, rfl, ha⟩
      · exact .inl ⟨x, hmem, hx⟩
    · next hworks => simp [hworks] at hmem
  · exact .inl hwaits

theorem checkpoint_asked {s : State} {item : DrawItem} (h : itemInProgress s = some item) :
    CheckpointAsked (checkpoint s) :=
  beginIfIdle_checkpointAsked
    (s := { s with journal := { s.journal with works := addWork (.checkpoint false) s.journal.works } }) h
    (checkpoint_mem_addWork _ _)

theorem drawChanged_checkpointAsked {s : State} {item : DrawItem} (h : itemInProgress s = some item) :
    CheckpointAsked (drawChanged s) := by
  rw [CheckpointAsked, drawChanged, (sendLeadProg_only _ _).get .journal]
  exact checkpoint_asked h

theorem itemInProgress_isSome {s : State} {sel : Selection} {c : Current} (hsel : s.draw.selection = some sel)
    (hcurrent : s.draw.current = some c) : ∃ item, itemInProgress s = some item := by
  simp only [itemInProgress, hsel, hcurrent]
  exact ⟨_, rfl⟩

theorem enterFlowing_checkpointAsked {s : State} {sel : Selection} {c : Current} (hsel : s.draw.selection = some sel)
    (hcurrent : s.draw.current = some c) : CheckpointAsked (enterFlowing s) := by
  have hcurrent' : (flowingEntered s).draw.current = some (flowingRecord s c) := by simp [flowingEntered, hcurrent]
  have hdraw := evaluateStage_draw (s := flowingEntered s) rfl hcurrent'
  obtain ⟨item, hitem⟩ := itemInProgress_isSome (s := evaluateStage (flowingEntered s)) (sel := sel)
    ((congrArg DrawUnit.selection hdraw).trans hsel) (congrArg DrawUnit.current hdraw)
  exact enterFlowing_eq s ▸ drawChanged_checkpointAsked hitem

/-! ### The frames of a change of the draw -/

theorem mem_sendFrame {e : TxEntry} {w : Sender} {f : Frame} {s : State} (hf : isUrgent f = false)
    (h : e ∈ (sendFrame w f s).port.tx) : e.frame = f ∨ e ∈ s.port.tx := by
  unfold sendFrame handFrame at h
  rw [hf] at h
  split at h
  · split at h
    · obtain rfl | h := (mem_txInsert_iff _ _ _).1 h
      · exact .inl rfl
      · exact .inr h
    · exact .inr h
  · exact .inr h

/-- A change of the draw hands at most a PROG. -/
theorem mem_drawChanged {e : TxEntry} {s : State} (hkind : kindOf e.frame.id ≠ kProg) (h : e ∈ (drawChanged s).port.tx) :
    e ∈ s.port.tx := by
  have hport : (checkpoint s).port = s.port := (handWork_only _ s).get .port
  unfold drawChanged sendLeadProg at h
  split at h
  · obtain hframe | h :=
      mem_sendFrame (by simp [isUrgent, leadProgFrame, kProg, kHalt, kClaim, kConsent, kRelease]) h
    · exact absurd (by rw [hframe]; simp [leadProgFrame, kProg]) hkind
    · rwa [hport] at h
  · rwa [hport] at h

theorem mem_enterFlowing {e : TxEntry} {s : State} (hkind : kindOf e.frame.id ≠ kProg)
    (h : e ∈ (enterFlowing s).port.tx) : e ∈ s.port.tx := by
  have hport : (evaluateStage (flowingEntered s)).port = s.port := (evaluateStage_only (flowingEntered s)).get .port
  rw [enterFlowing_eq] at h
  exact hport ▸ mem_drawChanged hkind h

/-! ### Hold-to-run (R74) -/

/-- The part with the level of hold-to-run active. -/
def holdActive (s : State) : State := { s with inputs := { s.inputs with holdToRun := true } }

theorem holdActive_only (s : State) : OnlyChanges [.inputs] s (holdActive s) := only_inputs _

section
variable {s : State} {c : Current} (hlevel : s.inputs.holdToRun = false)
include hlevel

theorem pressed_flowing (hstate : s.draw.state = .flowing) (hcurrent : s.draw.current = some c) :
    pressed s = modCurrent (fun c => { c with deadmanDue := deadmanStart s.cfg s.time }) (holdActive s) := by
  simp only [pressed, hlevel, Bool.false_eq_true, if_false, hstate, hcurrent]
  rfl

theorem pressed_resumes (hstate : s.draw.state = .suspended) (hcurrent : s.draw.current = some c)
    (hcauses : c.causes = { Causes.empty with deadman := true }) : pressed s = enterFlowing (holdActive s) := by
  have halone : deadmanAlone c.causes = true := decide_eq_true hcauses
  simp only [pressed, hlevel, Bool.false_eq_true, if_false, hstate, hcurrent, halone, if_true]
  rfl

theorem pressed_elsewhere (hflowing : s.draw.state ≠ .flowing)
    (hcauses : ∀ c, s.draw.state = .suspended → s.draw.current = some c →
      c.causes ≠ { Causes.empty with deadman := true }) : pressed s = holdActive s := by
  unfold pressed
  rw [hlevel]
  simp only [Bool.false_eq_true, if_false]
  split
  · next h _ => exact absurd h hflowing
  · next c hstate hcurrent => rw [if_neg (by simpa [deadmanAlone] using hcauses c hstate hcurrent)]; rfl
  · rfl

end

section
variable {s : State}

theorem exec_press_flowing {c : Current} (hop : operating s = true) (hlevel : s.inputs.holdToRun = false)
    (hstate : s.draw.state = .flowing) (hcurrent : s.draw.current = some c) :
    exec .holdToRunPress s = .next
      (modCurrent (fun c => { c with deadmanDue := deadmanStart s.cfg s.time })
        (holdActive (setPins (fun p => { p with holdToRun := true }) s))) := by
  have hpressed := pressed_flowing (s := setPins (fun p => { p with holdToRun := true }) s) hlevel hstate hcurrent
  rw [exec_operating_same (i := .holdToRunPress) (by rw [exec, execHoldToRunPress]) hop, hpressed]
  · rfl
  · rw [hpressed]
    refine page0State_congr_draw rfl rfl rfl ?_ rfl rfl rfl rfl rfl
    simp [causesOf, holdActive, hcurrent]

theorem exec_press_elsewhere (hop : operating s = true) (hlevel : s.inputs.holdToRun = false)
    (hflowing : s.draw.state ≠ .flowing)
    (hcauses : ∀ c, s.draw.state = .suspended → s.draw.current = some c →
      c.causes ≠ { Causes.empty with deadman := true }) :
    exec .holdToRunPress s = .next (holdActive (setPins (fun p => { p with holdToRun := true }) s)) := by
  have hpressed :=
    pressed_elsewhere (s := setPins (fun p => { p with holdToRun := true }) s) hlevel hflowing hcauses
  rw [exec_operating_same (i := .holdToRunPress) (by rw [exec, execHoldToRunPress]) hop, hpressed]
  rw [hpressed]
  rfl

theorem exec_press_held (hop : operating s = true) (hlevel : s.inputs.holdToRun = true) :
    exec .holdToRunPress s = .next (setPins (fun p => { p with holdToRun := true }) s) := by
  have hpressed : pressed (setPins (fun p => { p with holdToRun := true }) s) =
      setPins (fun p => { p with holdToRun := true }) s := if_pos hlevel
  rw [exec_operating_same (i := .holdToRunPress) (by rw [exec, execHoldToRunPress]) hop, hpressed]
  rw [hpressed]
  rfl

end

/-- Settles O34: a press is followed through the four forms of the draw; every other input is a change of its level. -/
theorem operatorInputsMoveTheirLevel : Obligations.OperatorInputsMoveTheirLevel := by
  refine ⟨fun s hop hlevel => ⟨fun c hstate hcurrent => ?flowing, fun c hstate hcurrent hsel hcauses => ?resumes,
    fun hflowing hcauses => ?elsewhere⟩, fun s hop hlevel => ?held, fun s hop => ⟨?release, fun level => ?reel, ?power⟩⟩
  case flowing =>
    refine ⟨_, exec_press_flowing hop hlevel hstate hcurrent, ?_, rfl, rfl, ?_⟩
    · simp [holdActive, hcurrent, deadmanStart]
    · exact (modCurrent_only _ _).comp ((holdActive_only _).comp (setPins_only _ s) (ds := [.pins, .inputs]))
  case resumes =>
    obtain ⟨t, hexec, hstat⟩ := exec_operating (i := .holdToRunPress) (by rw [exec, execHoldToRunPress]) hop
    set u := setPins (fun p => { p with holdToRun := true }) s
    rw [pressed_resumes (s := u) hlevel hstate hcurrent hcauses] at hstat
    obtain ⟨sel, hsel⟩ := Option.isSome_iff_exists.1 hsel
    have honly := enterFlowing_only (holdActive u)
    refine ⟨t, _, hexec, (hstat.only.get .draw).trans (enterFlowing_draw (s := holdActive u) hcurrent), rfl, rfl, rfl, rfl,
      ?_, fun e hmem hkind => ?_, (hstat.only.get .inputs).trans (honly.get .inputs),
      (hstat.only.get .pins).trans (honly.get .pins), ?_⟩
    · have hasked := enterFlowing_checkpointAsked (s := holdActive u) hsel hcurrent
      rwa [CheckpointAsked, ← hstat.only.get .journal] at hasked
    · exact mem_enterFlowing (s := holdActive u) (by rw [hkind]; decide)
        ((hstat.mem e (by rw [hkind]; decide)).1 hmem)
    · exact (hstat.changes (honly.comp ((holdActive_only u).comp (setPins_only _ s) (ds := [.pins, .inputs]))
        (ds := .pins :: .inputs :: drawBlocks))).mono (by decide)
  case elsewhere =>
    exact ⟨_, exec_press_elsewhere hop hlevel hflowing hcauses, rfl, rfl, (holdActive_only _).comp (setPins_only _ s)⟩
  case held => exact ⟨_, exec_press_held hop hlevel, rfl, setPins_only _ s⟩
  case release =>
    exact ⟨_, exec_operating_same (i := .holdToRunRelease) (by rw [exec, execHoldToRunRelease]) hop rfl, rfl, rfl,
      OnlyChanges.comp (t := setPins _ s) (only_inputs _) (setPins_only _ s)⟩
  case reel =>
    exact ⟨_, exec_operating_same (i := .reelStowedChange level) (by rw [exec, execReelStowedChange]) hop rfl, rfl, rfl,
      OnlyChanges.comp (t := setPins _ s) (only_inputs _) (setPins_only _ s)⟩
  case power => exact ⟨_, rfl, rfl, setPins_only _ s⟩

end Sys2Proof.Machine
end

