-- ==== Sys2Proof/Proofs/DropRequests.lean ====
section
/-! PROOFS. Chapter 3: the requests on the drop and the selection (R41 to R43, R51), taken by an idle journal. -/

namespace Sys2Proof.Machine

set_option Elab.async false

/-! ### Work handed to the journal (R175) -/

theorem addWork_nil (w : Work) : addWork w [] = [w] := by cases w <;> rfl

/-- Work for an idle journal is written at once. -/
theorem handWork_idle {s : State} (w : Work) (hidle : s.journal.inflight = none) (hworks : s.journal.works = []) :
    handWork w s = { s with journal := { s.journal with
      inflight := some ⟨changeOf s w, s.journal.unticketedSum⟩, works := [], unticketedSum := 0 } } := by
  have hnext : addWork w s.journal.works = [w] := by rw [hworks, addWork_nil]
  rw [handWork, hnext]
  refine (beginIfIdle_of_work (s := { s with journal := { s.journal with works := [w] } }) hidle rfl).trans ?_
  rw [changeOf_with_journal]

/-- Work for a journal that writes waits. -/
theorem handWork_busy {s : State} {flying : Write} (w : Work) (hflight : s.journal.inflight = some flying) :
    handWork w s = { s with journal := { s.journal with works := addWork w s.journal.works } } :=
  beginIfIdle_busy (w := flying) hflight

/-! ### SELECT (R42) -/

theorem productOf_isNone_iff (cfg : Cfg) (code : Nat) :
    (productOf cfg code).isNone = true ↔ ∀ p ∈ cfg.products, p.code ≠ code := by
  simp [productOf]

section
variable {s : State} {d : Drop} {sel : Selection} {clamped : Bool} (a : Asker)

theorem serveSelect_judged (hstate : s.draw.state = .dropOpen ∨ s.draw.state = .ready) :
    serveSelect a (.select sel clamped) s =
      match selectionRefused s sel with
      | some refusal => answer a (plain refusal) s
      | none =>
        answer a (plain (okOrClamped clamped))
          { s with draw := { s.draw with state := .ready, selection := some sel } } := by
  obtain h | h := hstate <;> simp only [serveSelect, h] <;> rfl

theorem selectionRefused_solo (hdrop : s.draw.drop = some d) (hblend : sel.blend = none) :
    selectionRefused s sel =
      if 4 ≤ d.items then some .dropFull
      else if (∀ p ∈ s.cfg.products, p.code ≠ sel.product) ∨ sel.comps = 0 then some .invalid
      else none := by
  simp only [selectionRefused, hdrop, hblend, Option.map_some, Option.getD_some, productOf_isNone_iff]

end

/-- Settles O20: the checks in their order give the refusal or none. -/
theorem selectChecksInOrder : Obligations.SelectChecksInOrder := by
  intro s f arrival d sel clamped hs hstate hdrop hblend
  have hserve := serveSelect_judged (s := asked s f arrival) (sel := sel) (clamped := clamped) (askerOf f) hstate
  rw [selectionRefused_solo (s := asked s f arrival) hdrop hblend] at hserve
  have hrefused : ∀ refusal, serveSelect (askerOf f) (.select sel clamped) (asked s f arrival) =
      answer (askerOf f) (plain refusal) (asked s f arrival) →
      ∃ t, exec .select s = .next t ∧ Answered f ⟨refusal, .none⟩ s t ∧ TakenAlone s.port t.port ∧
        t.claims = heard s f arrival ∧ OnlyChanges [.draw, .port, .claims, .handler] s t ∧ t.draw = s.draw := by
    intro refusal hrefusal
    obtain ⟨t, hexec, hanswered, htaken, hclaims, honly⟩ := exec_answered_alone (i := .select) rfl hs hrefusal
    exact ⟨t, hexec, hanswered, htaken, hclaims, honly.mono (by decide), honly.get .draw⟩
  by_cases hfull : 4 ≤ d.items
  · obtain ⟨t, hexec, hanswered, htaken, hclaims, honly, hdraw⟩ := hrefused .dropFull (by rw [hserve, if_pos hfull])
    exact ⟨t, .dropFull, hexec, hanswered, htaken, hclaims, honly, by rw [if_pos hfull]; exact ⟨rfl, hdraw⟩⟩
  rw [if_neg hfull] at hserve
  simp only [if_neg hfull]
  by_cases hinvalid : (∀ p ∈ s.cfg.products, p.code ≠ sel.product) ∨ sel.comps = 0
  · obtain ⟨t, hexec, hanswered, htaken, hclaims, honly, hdraw⟩ :=
      hrefused .invalid (by rw [hserve, asked_cfg, if_pos hinvalid])
    exact ⟨t, .invalid, hexec, hanswered, htaken, hclaims, honly, by rw [if_pos hinvalid]; exact ⟨rfl, hdraw⟩⟩
  · rw [asked_cfg, if_neg hinvalid] at hserve
    obtain ⟨t, hexec, hrest, hanswered, htaken, hclaims, hchanges⟩ :=
      exec_answered (i := .select) rfl hs hserve (.of_port 1 rfl) (only_draw _)
    exact ⟨t, _, hexec, hanswered, htaken, hclaims, hchanges.mono (by decide),
      by rw [if_neg hinvalid]; exact ⟨rfl, hrest.get .draw⟩⟩

/-! ### SET_PRESET (R51) -/

section
variable {s : State} {sel : Selection} (a : Asker) (litres : Option Nat) (clamped : Bool)
  (hsel : s.draw.selection = some sel) (hblend : sel.blend = none)
include hsel hblend

theorem servePreset_ready (hstate : s.draw.state = .ready) :
    servePreset a (.setPreset litres clamped) s = answer a (plain (okOrClamped clamped)) (presetSelected litres s) := by
  simp [servePreset, hstate, hsel, hblend]

theorem servePreset_in_draw (hstate : s.draw.state = .flowing ∨ s.draw.state = .suspended) :
    servePreset a (.setPreset litres clamped) s =
      answer a (plain (okOrClamped clamped)) (presetPending litres (presetSelected litres s)) := by
  obtain h | h := hstate <;> simp [servePreset, h, hsel, hblend]

end

/-- Settles O21. -/
theorem setPresetChangesSelectionAndContext : Obligations.SetPresetChangesSelectionAndContext := by
  intro s f arrival sel litres clamped hs hsel hblend hstate
  by_cases hready : s.draw.state = .ready
  · have hserve := servePreset_ready (s := asked s f arrival) (askerOf f) litres clamped hsel hblend hready
    obtain ⟨t, hexec, hrest, hanswered, htaken, hclaims, hchanges⟩ :=
      exec_answered (i := .setPreset) rfl hs hserve (.of_port 1 rfl) (only_draw _)
    refine ⟨t, hexec, ?_, fun _ => hrest.get .engine, fun h => absurd hready h, hanswered, htaken, hclaims,
      hchanges.mono (by decide)⟩
    rw [hrest.get .draw]
    simp [presetSelected, hsel]
  · have hdraw : s.draw.state = .flowing ∨ s.draw.state = .suspended := by tauto
    have hserve := servePreset_in_draw (s := asked s f arrival) (askerOf f) litres clamped hsel hblend hdraw
    obtain ⟨t, hexec, hrest, hanswered, htaken, hclaims, hchanges⟩ :=
      exec_answered (i := .setPreset) rfl hs hserve (.of_port 1 rfl)
        (OnlyChanges.comp (t := presetSelected litres (asked s f arrival)) (ds := [.draw, .engine]) (only_engine _)
          (only_draw _))
    refine ⟨t, hexec, ?_, fun h => absurd h hready, fun _ => hrest.get .engine, hanswered, htaken, hclaims,
      hchanges.mono (by decide)⟩
    rw [hrest.get .draw]
    simp [presetPending, presetSelected, hsel]

/-! ### CLOSE_DROP (R43, R179) -/

/-- The part once the drop's record is on its way to CLOSED. -/
def dropClosed (number : Nat) (s : State) : State :=
  { handWork (.closeRecord number) s with draw := ⟨.idle, none, none, none⟩ }

theorem dropClosed_only (number : Nat) (s : State) : OnlyChanges [.draw, .journal] s (dropClosed number s) :=
  (only_draw _).comp (handWork_only _ s)

section
variable {s : State} {d : Drop} (a : Asker) (hstate : s.draw.state = .dropOpen ∨ s.draw.state = .ready)
  (hdrop : s.draw.drop = some d)
include hstate hdrop

theorem serveClose_without_item (hitems : d.items = 0) : serveClose a .closeDrop s = answer a (plain .invalid) s := by
  obtain h | h := hstate <;> simp [serveClose, h, hdrop, hitems]

theorem serveClose_idle (hitems : d.items ≠ 0) (hidle : s.journal.inflight = none) :
    serveClose a .closeDrop s =
      answer a (plain .ok)
        (dropClosed d.ticket { s with draw := { s.draw with state := .dropOpen, selection := none } }) := by
  obtain h | h := hstate <;>
    simp [serveClose, h, hdrop, hitems, askJournal, hidle, serveJournal, serveCloseDrop, dropClosed]

end

/-- Settles O19. -/
theorem closeDropNeedsAnItem : Obligations.CloseDropNeedsAnItem := by
  intro s f arrival d hs hstate hdrop
  refine ⟨fun hitems hidle hworks => ?_, fun hitems => ?_⟩
  · have hserve := serveClose_idle (s := asked s f arrival) (askerOf f) hstate hdrop hitems hidle
    obtain ⟨t, hexec, hrest, hanswered, htaken, hclaims, hchanges⟩ :=
      exec_answered (i := .closeDrop) rfl hs hserve (.of_port 1 ((dropClosed_only _ _).get .port))
        ((dropClosed_only _ _).comp (only_draw _) (ds := [.draw, .journal]))
    refine ⟨t, hexec, hrest.get .draw, ?_, hanswered, htaken, hclaims, hchanges.mono (by decide)⟩
    have hhanded := handWork_idle
      (s := { asked s f arrival with draw := { s.draw with state := .dropOpen, selection := none } })
      (.closeRecord d.ticket) hidle hworks
    refine (hrest.get .journal).trans ((congrArg State.journal hhanded).trans ?_)
    rw [← hworks]
    rfl
  · exact exec_answered_alone rfl hs (serveClose_without_item (s := asked s f arrival) _ hstate hdrop hitems)

/-! ### OPEN_DROP (R41, R174) -/

theorem chooseNumber_free {ts : List Ticket} {n : Nat} (fuel : Nat) (h : ∀ k ∈ ts, k.number ≠ n) :
    chooseNumber ts (fuel + 1) n = n := by
  have hfree : ts.any (·.number == n) = false := by simpa using h
  simp [chooseNumber, hfree]

theorem nextTicket_of_lt {n : Nat} (h : n < 99999999) : nextTicket n = n + 1 := if_neg (by simpa using h)

theorem chooseRemoval_of_room {s : State} (h : s.journal.mem.tickets.length < 200) : chooseRemoval s = some none :=
  if_pos h

/-- The part once the record of a new drop is on its way into the memory. -/
def dropOpened (account tank opener n : Nat) (removed : Option Nat) (s : State) : State :=
  { handWork (.openRecord n account tank opener removed) (convertUnticketed s) with
    draw := ⟨.dropOpen, some ⟨account, tank, opener, n, 0⟩, none, none⟩ }

theorem dropOpened_only (account tank opener n : Nat) (removed : Option Nat) (s : State) :
    OnlyChanges [.pulse, .draw, .journal] s (dropOpened account tank opener n removed s) :=
  (only_draw _).comp ((handWork_only _ _).comp (convertUnticketed_only s) (ds := [.pulse, .journal]))

theorem serveOpen_of_room {s : State} {r : StationRecord} (a : Asker) (account tank : Nat) (hstate : s.draw.state = .idle)
    (hidle : s.journal.inflight = none) (hstation : s.journal.mem.station = some r)
    (hroom : s.journal.mem.tickets.length < 200) (hlast : r.sequence < 99999999)
    (hfree : ∀ k ∈ s.journal.mem.tickets, k.number ≠ r.sequence + 1) :
    serveOpen a (.openDrop account tank) s =
      answer a ⟨.ok, .ticket (r.sequence + 1)⟩ (dropOpened account tank a.station (r.sequence + 1) none s) := by
  have hnumber : chooseNumber s.journal.mem.tickets (s.journal.mem.tickets.length + 1)
      (nextTicket (stationRecord (convertUnticketed s)).sequence) = r.sequence + 1 := by
    have hrecord : stationRecord (convertUnticketed s) = r := by
      rw [stationRecord, show (convertUnticketed s).journal.mem = s.journal.mem from rfl, hstation]; rfl
    rw [hrecord, nextTicket_of_lt hlast, chooseNumber_free _ hfree]
  simp only [serveOpen, hstate, if_true, askJournal, hidle, Option.isNone_none, serveJournal, serveOpenDrop,
    chooseRemoval_of_room hroom]
  rw [show (convertUnticketed s).journal.mem = s.journal.mem from rfl, hnumber]
  rfl

/-- Settles O18. -/
theorem openDropOpensRecord : Obligations.OpenDropOpensRecord := by
  intro s f arrival account tank r hs hstate hidle hworks hstation hroom hlast hfree
  have hserve := serveOpen_of_room (s := asked s f arrival) (askerOf f) account tank hstate hidle hstation hroom hlast hfree
  obtain ⟨t, hexec, hrest, hanswered, htaken, hclaims, hchanges⟩ :=
    exec_answered (i := .openDrop) rfl hs hserve (.of_port 1 ((dropOpened_only _ _ _ _ _ _).get .port))
      (dropOpened_only _ _ _ _ _ _)
  have hhanded := handWork_idle (s := convertUnticketed (asked s f arrival))
    (.openRecord (r.sequence + 1) account tank (askerOf f).station none) hidle hworks
  have hjournal : t.journal = (handWork (.openRecord (r.sequence + 1) account tank (askerOf f).station none)
      (convertUnticketed (asked s f arrival))).journal := hrest.get .journal
  rw [hhanded] at hjournal
  refine ⟨t, _, hexec, hrest.get .draw, congrArg Journal.inflight hjournal, rfl, ?_, by rw [hjournal]; rfl,
    hanswered, htaken, hclaims, hchanges.mono (by decide)⟩
  have hpulse : t.pulse = (convertUnticketed (asked s f arrival)).pulse :=
    (hrest.get .pulse).trans ((handWork_only _ _).get .pulse)
  rw [hpulse]
  rfl

end Sys2Proof.Machine
end

