-- ==== Sys2Proof/Proofs/TerminalRequests.lean ====
section
/-! PROOFS. Chapter 8: requests on compartments, totals, tickets and the configuration, and the codes that the manual does
not list (R160, R165 to R168, R201, R202). -/

namespace Sys2Proof.Machine

set_option Elab.async false

/-! ### Answers on what a block made of the part (R161) -/

section
variable {s u v t : State} {f : Frame} {arrival code : Nat} {r : Request} {i : Instr} {ans : Answer}
  {serve : Asker → Request → State → State}

/-- What serves a request is what the step leaves, but for a STAT set. -/
theorem exec_served_by (hexec : exec i s = stepOf (takeRequest code serve) s) (hs : RequestServed s f arrival code r) :
    ∃ t, exec i s = .next t ∧ StatAfter (serve (askerOf f) r (asked s f arrival)) t := by
  have hstat := announce_statAfter (takeRequest code serve) s
  rw [takeRequest_served hs] at hstat
  exact ⟨_, exec_served hexec hs, hstat⟩

/-- A request whose answer stands in `u`, which `v` became by the ANSWER and what the block did beside it. -/
theorem answered_of_statAfter (hrun : s.station.state = .running) (hstat : StatAfter u t) (hstation : v.station = s.station)
    (hport : v.port = (asked s f arrival).port) (hhandler : v.handler = (asked s f arrival).handler)
    (hsettled : u.handler = (answer (askerOf f) ans v).handler)
    (hqueued : RoomFor 2 s → Queued (answerFrame s.station.number (askerOf f) ans) (answer (askerOf f) ans v) →
      Queued (answerFrame s.station.number (askerOf f) ans) u) : Answered f ans s t := by
  refine ⟨?_, fun hroom => ?_⟩
  · rw [hstat.only.get .handler, hsettled, answer_handler, hhandler, asked_handler, settle_replaceEntry]
    rfl
  · refine hstat.queued (kindOf_answerFrame_ne_stat _ _ _) (hqueued hroom ?_)
    rw [← hstation]
    refine queued_answer _ _ (by rw [hstation, hrun]) ?_
    rw [hport]
    exact lt_of_lt_of_le (Nat.lt_add_of_pos_right (by decide)) hroom

end

/-! ### SET_COMPARTMENT (R165) -/

theorem outputFor_isNone_iff (s : State) (comp : Nat) :
    (outputFor s comp).isNone = true ↔ ∀ o ∈ s.cfg.outputs, o.comp ≠ comp := by
  simp [outputFor]

theorem recordHolds_iff (s : State) (r : Resource) : recordHolds s r = true ↔ ∃ x ∈ s.claims.records, x.1 = r := by
  simp [recordHolds]

theorem productAt_setProduct (comp product : Nat) (s : State) : productAt (setProduct comp product s) comp = product := by
  have hnone : (s.claims.products.filter (fun x => x.1 != comp)).find? (·.1 == comp) = none := by
    simp
  rw [productAt, setProduct_claims]
  simp only [List.find?_append, hnone, Option.none_or]
  split
  · next h => simp [h]
  · simp

theorem setProduct_changes (comp product : Nat) (s : State) : OnlyChanges [.claims] s (setProduct comp product s) :=
  only_claims _

theorem serveCompartment_eq (a : Asker) (comp product : Nat) (s : State) :
    serveCompartment a (.setCompartment comp product) s =
      if ∀ o ∈ s.cfg.outputs, o.comp ≠ comp then answer a (plain .invalid) s
      else if ∃ x ∈ s.claims.records, x.1 = .comp comp then answer a (plain .busy) s
      else answer a (plain .ok) (setProduct comp product s) := by
  simp only [serveCompartment, outputFor_isNone_iff, recordHolds_iff]

/-! ### A code that the manual does not list (R160) -/

theorem decodeAsk_unlisted {f : Frame} (h : 16 < askCodeOf f.id) : decodeAsk f = none := by
  obtain ⟨n, hn⟩ : ∃ n, askCodeOf f.id = n + 17 := ⟨askCodeOf f.id - 17, by omega⟩
  simp only [decodeAsk, hn]

/-- An ASK of such a code is answered INVALID by whatever takes it. -/
theorem takeAsk_unlisted {s : State} {f : Frame} {arrival : Nat} (codes : Nat → Bool)
    (serve : Asker → Request → State → State) (hrun : s.station.state = .running) (hidle : s.handler.serving = none)
    (hhead : s.port.rx.head? = some (.frame f arrival)) (hkind : kindOf f.id = kAsk) (hcode : 16 < askCodeOf f.id)
    (hcodes : codes (askCodeOf f.id) = true) (hdest : destOf f.id ≠ 0)
    (hnew : (entryOfStation s.handler.table (sourceOf f.id)).map (·.asker) ≠ some (askerOf f)) :
    takeAsk codes serve s = answer (askerOf f) (plain .invalid) (asked s f arrival) := by
  have htakes : handlerTakes s = true := by simp [handlerTakes, hrun, hidle]
  have hask : isAsk codes f = true := by simp [isAsk, hkind, hcodes]
  have hfault : (asked s f arrival).station.state ≠ .configFault := by simp [hrun]
  calc takeAsk codes serve s
      = handleAsk f serve (taken s f arrival) := by
        rw [takeAsk, if_pos htakes, takeThen_taken _ _ _ _ _ hhead hask]; rfl
    _ = judgeAsk f serve (asked s f arrival) := handleAsk_of_new _ hnew
    _ = answer (askerOf f) (plain .invalid) (asked s f arrival) := by
        simp only [judgeAsk, hdest, false_and, if_false, hfault, decodeAsk_unlisted hcode]

/-! ### READ_TOTALS (R166) -/

theorem askJournal_readTotals {s : State} {r : StationRecord} (a : Asker) (item : TotalsItem) (product : Nat)
    (hidle : s.journal.inflight = none) (hstation : s.journal.mem.station = some r) :
    askJournal a (.readTotals item product) s = answer a ⟨.ok, .value (totalsValue r item product)⟩ s := by
  simp only [askJournal, hidle, Option.isNone_none, if_true, serveJournal, serveReadTotals, stationRecord, hstation,
    Option.getD_some]

/-- Settles O51. -/
theorem compartmentsAndTotalsAreAnswered : Obligations.CompartmentsAndTotalsAreAnswered := by
  intro s f arrival
  refine ⟨fun comp product hs => ?compartment, fun item product r hs hidle hstation => ?totals,
    fun hrun hidle hhead hkind hcode hdest hnew => ?unlisted⟩
  case compartment =>
    have hserve := serveCompartment_eq (askerOf f) comp product (asked s f arrival)
    have hrefused : ∀ refusal, serveCompartment (askerOf f) (.setCompartment comp product) (asked s f arrival) =
        answer (askerOf f) (plain refusal) (asked s f arrival) → ∃ t, exec .setCompartment s = .next t ∧
          Answered f ⟨refusal, .none⟩ s t ∧ TakenAlone s.port t.port ∧ t.claims = heard s f arrival ∧
          OnlyChanges [.port, .claims, .handler] s t :=
      fun refusal hrefusal => exec_answered_alone (i := .setCompartment) rfl hs hrefusal
    by_cases houtput : ∀ o ∈ s.cfg.outputs, o.comp ≠ comp
    · obtain ⟨t, hexec, hanswered, htaken, hclaims, honly⟩ := hrefused .invalid (by rw [hserve, asked_cfg, if_pos houtput])
      exact ⟨t, .invalid, hexec, hanswered, htaken, by rw [if_pos houtput]; exact ⟨rfl, hclaims⟩, honly⟩
    rw [asked_cfg, if_neg houtput] at hserve
    simp only [if_neg houtput]
    by_cases hheld : ∃ x ∈ s.claims.records, x.1 = .comp comp
    · obtain ⟨t, hexec, hanswered, htaken, hclaims, honly⟩ := hrefused .busy (hserve.trans (if_pos hheld))
      exact ⟨t, .busy, hexec, hanswered, htaken, by rw [if_pos hheld]; exact ⟨rfl, hclaims⟩, honly⟩
    · have hset : serveCompartment (askerOf f) (.setCompartment comp product) (asked s f arrival) =
          answer (askerOf f) (plain .ok) (setProduct comp product (asked s f arrival)) := hserve.trans (if_neg hheld)
      obtain ⟨t, hexec, hstat⟩ := exec_served_by (i := .setCompartment) (serve := serveCompartment) rfl hs
      rw [hset] at hstat
      have hclaims : t.claims = (setProduct comp product (asked s f arrival)).claims :=
        (hstat.only.get .claims).trans ((answer_only _ _ _).get .claims)
      refine ⟨t, .ok, hexec,
        answered_of_statAfter (v := setProduct comp product
          (asked s f arrival)) hs.running hstat rfl rfl rfl rfl fun _ h => h,
        hstat.takenAlone (answer_hands _ _ _).port, ?_, ?_⟩
      · rw [if_neg hheld]
        refine ⟨rfl, hclaims, ?_⟩
        rw [productAt, hclaims]
        exact productAt_setProduct comp product (asked s f arrival)
      · exact (hstat.changes ((answer_only _ _ _).comp ((setProduct_changes _ _ _).comp (asked_only s f arrival)
          (ds := [.port, .claims, .handler])) (ds := [.port, .claims, .handler]))).mono (by decide)
  case totals =>
    have hserve := askJournal_readTotals (s := asked s f arrival) (askerOf f) item product hidle hstation
    obtain ⟨t, hexec, hanswered, hrest⟩ := exec_answered_alone (i := .readTotals) rfl hs hserve
    refine ⟨t, hexec, ?_, hrest⟩
    cases item <;> exact hanswered
  case unlisted =>
    have hbody := takeAsk_unlisted (arrival := arrival) (fun code => code == 0 || decide (16 < code)) (fun _ _ s => s) hrun
      hidle hhead hkind hcode (by simp [hcode]) hdest hnew
    have hstat := announce_statAfter (takeAsk (fun code => code == 0 || decide (16 < code)) (fun _ _ s => s)) s
    rw [hbody] at hstat
    refine ⟨_, stepOf_next _ _ (by rw [hrun]; decide), answered_of_statAfter
      (v := asked s f arrival) hrun hstat rfl rfl rfl rfl fun _ h => h,
      hstat.takenAlone (answer_hands _ _ _).port, ?_, ?_⟩
    · exact (hstat.only.get .claims).trans ((answer_only _ _ _).get .claims)
    · exact (hstat.changes ((answer_only _ _ _).comp (asked_only s f arrival)
        (ds := [.port, .claims, .handler]))).mono (by decide)

end Sys2Proof.Machine
end

