-- ==== Sys2Proof/Proofs/TicketRequests.lean ====
section
/-! PROOFS. Chapters 8 and 9: the requests on a ticket (R167, R179, R183, R186), taken by an idle journal. -/

namespace Sys2Proof.Machine

set_option Elab.async false

section
variable {s : State} {n : Nat} {k : Ticket} (a : Asker)

/-! ### ACK_TICKET (R167, R179) -/

theorem askJournal_ackTicket_closed (hticket : ticketOf s.journal.mem n = some k) (hclosed : k.state = .closed)
    (hidle : s.journal.inflight = none) (hworks : s.journal.works = []) :
    askJournal a (.ackTicket n) s = answer a (plain .ok) (handWork (.collect n) s) := by
  have hpending : collectPending s n = false := by simp [collectPending, hworks, hidle]
  simp [askJournal, hidle, serveJournal, serveAckTicket, hticket, hclosed, hpending]

theorem askJournal_ackTicket_unknown (hticket : ticketOf s.journal.mem n = none) (hidle : s.journal.inflight = none) :
    askJournal a (.ackTicket n) s = answer a (plain .unknownTicket) s := by
  simp [askJournal, hidle, serveJournal, serveAckTicket, hticket]

/-! ### PRINT (R186) -/

theorem printAnswer_ok (hticket : ticketOf s.journal.mem n = some k) (hclosed : k.state = .closed)
    (hroom : s.printer.queue.length < 4) (hnew : ∀ j ∈ s.printer.queue, j.ticket ≠ n) : printAnswer s n = .ok := by
  have hqueued : s.printer.queue.any (fun j => j.ticket == n) = false := by simpa using hnew
  simp [printAnswer, hticket, hclosed, hqueued, Nat.not_le.2 hroom]

/-- With no print-count write under way the memory's count decides on the mark of a copy (R186). -/
theorem copyFlag_idle (hticket : ticketOf s.journal.mem n = some k) (hidle : s.journal.inflight = none)
    (hworks : s.journal.works = []) : copyFlag s n = decide (1 ≤ k.printCount) := by
  simp [copyFlag, hticket, printCountOf, hworks, hidle]

theorem startText_queue (now : Nat) (text : List Byte) (p : Printer) : (startText now text p).queue = p.queue := by
  unfold startText feed
  split
  · split <;> rfl
  · rfl

theorem startJob_queue (s : State) : (startJob s).printer.queue = s.printer.queue := by
  unfold startJob
  split
  · split
    · exact startText_queue _ _ _
    · rfl
  · rfl

theorem addJob_queue (j : Job) (s : State) : (addJob j s).printer.queue = s.printer.queue ++ [j] := startJob_queue _

theorem servePrint_ok (h : printAnswer s n = .ok) :
    servePrint a (.print n) s = answer a (plain .ok) (addJob ⟨n, copyFlag s n⟩ s) := by
  simp only [servePrint, h, if_true]

theorem servePrint_unknown (hticket : ticketOf s.journal.mem n = none) :
    servePrint a (.print n) s = answer a (plain .unknownTicket) s := by
  simp [servePrint, printAnswer, hticket]

/-! ### FETCH_TICKET (R167, R183) -/

theorem askJournal_fetchTicket (hticket : ticketOf s.journal.mem n = some k) (hidle : s.journal.inflight = none)
    (hfetch : s.journal.fetch = none) :
    askJournal a (.fetchTicket n) s = beginFetch a.station k (answer a (plain .ok) s) := by
  simp [askJournal, hidle, serveJournal, serveFetchTicket, hticket, hfetch]

theorem askJournal_fetchTicket_unknown (hticket : ticketOf s.journal.mem n = none) (hidle : s.journal.inflight = none) :
    askJournal a (.fetchTicket n) s = answer a (plain .unknownTicket) s := by
  simp [askJournal, hidle, serveJournal, serveFetchTicket, hticket]

end

/-- A segment of a fetch as the transmit queue holds it. -/
def segmentEntry (s : State) (station : Nat) (k : Ticket) (i : Nat) (segment : List Byte) : TxEntry :=
  ⟨tktFrame s.station.number station i (decide (i + 1 = (ticketSegments k).length)) segment,
    .journal s.journal.nextFetch, false⟩

/-- A fetch begins with its first two segments where the queue has room for both. -/
theorem beginFetch_of_room {s : State} {k : Ticket} {first second : List Byte} (station : Nat)
    (hrun : s.station.state = .running) (hfirst : (ticketSegments k)[0]? = some first)
    (hsecond : (ticketSegments k)[1]? = some second) (hroom : RoomFor 2 s) :
    beginFetch station k s = { s with
      port := { s.port with
        tx := txInsert (segmentEntry s station k 1 second) (txInsert (segmentEntry s station k 0 first) s.port.tx) }
      journal := { s.journal with
        fetch := some ⟨s.journal.nextFetch, station, k.number, ticketSegments k, 2, 2⟩
        nextFetch := s.journal.nextFetch + 1 } } := by
  have hbegun := handSegment_of_room
    (s := { s with journal := { s.journal with
      fetch := some ⟨s.journal.nextFetch, station, k.number, ticketSegments k, 0, 0⟩
      nextFetch := s.journal.nextFetch + 1 } }) hrun rfl hfirst (Nat.le_of_succ_le hroom)
  refine (congrArg handSegment hbegun).trans (handSegment_of_room
    (f := ⟨s.journal.nextFetch, station, k.number, ticketSegments k, 1, 1⟩) hrun rfl hsecond ?_)
  simp only [RoomFor, txInsert_length] at hroom ⊢
  omega

/-- FETCH_TICKET: the answer is handed, and after it the first two segments. -/
theorem exec_fetchTicket {s : State} {f : Frame} {arrival n : Nat} {k : Ticket}
    (hs : RequestServed s f arrival 12 (.fetchTicket n)) (hticket : ticketOf s.journal.mem n = some k)
    (hidle : s.journal.inflight = none) (hfetch : s.journal.fetch = none) (hroom : RoomFor 3 s)
    (hlength : 2 < (ticketSegments k).length) :
    ∃ t, exec .fetchTicket s = .next t ∧
      t.journal = { s.journal with
        fetch := some ⟨s.journal.nextFetch, sourceOf f.id, k.number, ticketSegments k, 2, 2⟩
        nextFetch := s.journal.nextFetch + 1 } ∧
      (∀ i segment, i < 2 → (ticketSegments k)[i]? = some segment →
        Queued (tktFrame s.station.number (sourceOf f.id) i false segment) t) ∧
      Answered f ⟨.ok, .none⟩ s t ∧ TakenAlone s.port t.port ∧ t.claims = heard s f arrival ∧
      OnlyChanges [.port, .claims, .handler, .journal] s t := by
  obtain ⟨t, hexec, hstat⟩ := exec_served_by (i := .fetchTicket) (serve := askJournal) rfl hs
  rw [askJournal_fetchTicket (s := asked s f arrival) (askerOf f) hticket hidle hfetch] at hstat
  set v := answer (askerOf f) (plain .ok) (asked s f arrival) with hv
  have hvonly : OnlyChanges [.port, .handler] (asked s f arrival) v := answer_only _ _ _
  have hvjournal : v.journal = s.journal := hvonly.get .journal
  have hvstation : v.station = s.station := hvonly.get .station
  have hvroom : RoomFor 2 v := by
    have hlen : v.port.tx.length ≤ s.port.tx.length + 1 := (answer_hands _ _ (asked s f arrival)).length
    simp only [RoomFor] at hroom ⊢
    omega
  obtain ⟨first, hfirst⟩ : ∃ x, (ticketSegments k)[0]? = some x := ⟨_, List.getElem?_eq_getElem (by omega)⟩
  obtain ⟨second, hsecond⟩ : ∃ x, (ticketSegments k)[1]? = some x := ⟨_, List.getElem?_eq_getElem (by omega)⟩
  have hbegun := beginFetch_of_room (askerOf f).station (by rw [hvstation, hs.running]) hfirst hsecond hvroom
  have hmem : ∀ e, e ∈ (beginFetch (askerOf f).station k v).port.tx ↔ e = segmentEntry v (askerOf f).station k 1 second ∨
      e = segmentEntry v (askerOf f).station k 0 first ∨ e ∈ v.port.tx := fun e => by
    rw [hbegun]; simp only [mem_txInsert_iff]
  have honly := beginFetch_only (askerOf f).station k v
  refine ⟨t, hexec, ?journal, fun i segment hi hsegment => ?segments, ?answered, ?port, ?claims, ?only⟩
  case journal => rw [hstat.only.get .journal, hbegun, hvjournal]; rfl
  case segments =>
    refine hstat.queued (by simp [tktFrame, kTkt, kStat]) ⟨segmentEntry v (askerOf f).station k i segment, ?_, ?_⟩
    · rw [hmem]
      obtain rfl | rfl : i = 0 ∨ i = 1 := by omega
      · exact .inr (.inl (by rw [Option.some.inj (hsegment.symm.trans hfirst)]))
      · exact .inl (by rw [Option.some.inj (hsegment.symm.trans hsecond)])
    · have hlast : decide (i + 1 = (ticketSegments k).length) = false := decide_eq_false (by omega)
      rw [segmentEntry, hvstation, hlast]
      rfl
  case answered =>
    refine answered_of_statAfter (v := asked s f arrival) hs.running hstat rfl rfl rfl (honly.get .handler) fun _ hq => ?_
    obtain ⟨e, he, hframe⟩ := hq
    exact ⟨e, (hmem e).2 (.inr (.inr he)), hframe⟩
  case port =>
    refine hstat.takenAlone ?_
    have hanswer := (answer_hands (askerOf f) (plain .ok) (asked s f arrival)).port
    rw [HandedAlone, asked_port] at hanswer
    rw [HandedAlone, hbegun, hv, hanswer]
  case claims => exact (hstat.only.get .claims).trans ((honly.get .claims).trans (hvonly.get .claims))
  case only =>
    exact (hstat.changes (honly.comp (hvonly.comp (asked_only s f arrival) (ds := [.port, .claims, .handler]))
      (ds := [.port, .claims, .handler, .journal]))).mono (by decide)

/-- Settles O52: each request goes to its block, which finds the record or answers UNKNOWN_TICKET. -/
theorem ticketRequestsReachClosedRecord : Obligations.TicketRequestsReachClosedRecord := by
  intro s f arrival n
  refine ⟨fun k hticket hclosed hidle hworks => ⟨fun hs => ?ack, fun hs hroom hnew => ?print,
    fun hs hfetch hroom hlength => exec_fetchTicket hs hticket hidle hfetch hroom hlength⟩, fun hticket hidle =>
    ⟨fun hs => ?ackUnknown, fun hs => ?printUnknown, fun hs => ?fetchUnknown⟩⟩
  case ack =>
    have hserve := askJournal_ackTicket_closed (s := asked s f arrival) (askerOf f) hticket hclosed hidle hworks
    obtain ⟨t, hexec, hrest, hanswered, htaken, hclaims, hchanges⟩ :=
      exec_answered (i := .ackTicket) rfl hs hserve (.of_port 1 ((handWork_only _ _).get .port)) (handWork_only _ _)
    refine ⟨t, hexec, ?_, hanswered, htaken, hclaims, hchanges.mono (by decide)⟩
    rw [hrest.get .journal, handWork_idle (s := asked s f arrival) _ hidle hworks, ← hworks]
    rfl
  case print =>
    have hserve := servePrint_ok (s := asked s f arrival) (askerOf f)
      (printAnswer_ok (s := asked s f arrival) hticket hclosed hroom hnew)
    obtain ⟨t, hexec, hrest, hanswered, htaken, hclaims, hchanges⟩ :=
      exec_answered (i := .print) rfl hs hserve (.of_port 1 ((addJob_only _ _).get .port)) (addJob_only _ _)
    refine ⟨t, hexec, ?_, hanswered, htaken, hclaims, hchanges.mono (by decide)⟩
    rw [hrest.get .printer, addJob_queue, copyFlag_idle (s := asked s f arrival) hticket hidle hworks]
    rfl
  case ackUnknown =>
    exact exec_answered_alone rfl hs (askJournal_ackTicket_unknown (s := asked s f arrival) _ hticket hidle)
  case printUnknown => exact exec_answered_alone rfl hs (servePrint_unknown (s := asked s f arrival) _ hticket)
  case fetchUnknown =>
    exact exec_answered_alone rfl hs (askJournal_fetchTicket_unknown (s := asked s f arrival) _ hticket hidle)

end Sys2Proof.Machine
end

