-- ==== Sys2Proof/Proofs/ConfigWrites.lean ====
section
/-! PROOFS. Chapter 11: WRITE_CONFIG and the completion of its write sequence (R168, R201, R202), which changes the image and
not the configuration in use. -/

namespace Sys2Proof.Machine

set_option Elab.async false

/-! ### Items of an image (11.2) -/

section
variable {img : Image} {m n v : Nat}

theorem itemOf_withItem_same (hlow : 1 ≤ n) (hhigh : n ≤ img.items.length) : itemOf (withItem img n v) n = v := by
  have hn : n - 1 < img.items.length := by omega
  simp [itemOf, withItem, List.getD_eq_getElem?_getD, hn]

theorem itemOf_withItem_other (hm : 1 ≤ m) (hn : 1 ≤ n) (hne : m ≠ n) : itemOf (withItem img n v) m = itemOf img m := by
  have hplace : n - 1 ≠ m - 1 := by omega
  simp [itemOf, withItem, List.getD_eq_getElem?_getD, List.getElem?_set_ne hplace]

/-- The written image holds the value and the edit count one higher, and every other item as it was (R202). -/
theorem itemOf_writtenImage (hlength : img.items.length = 95) (hlow : 1 ≤ n) (hhigh : n ≤ 94) :
    itemOf (writtenImage img n v) n = v ∧
      itemOf (writtenImage img n v) 95 = (itemOf img 95 + 1) % 4294967296 ∧
      ∀ m, 1 ≤ m → m ≤ 94 → m ≠ n → itemOf (writtenImage img n v) m = itemOf img m := by
  have hedit : itemOf (writtenImage img n v) 95 = steppedEdit img :=
    itemOf_withItem_same (by decide) (by simp [withItem, hlength])
  have hother : ∀ m, 1 ≤ m → m ≤ 94 → itemOf (writtenImage img n v) m = itemOf (withItem img n v) m := fun m hm hm' =>
    itemOf_withItem_other hm (by decide) (by omega)
  refine ⟨?_, hedit, fun m hm hm' hne => ?_⟩
  · rw [hother n hlow hhigh, itemOf_withItem_same hlow (by omega)]
  · rw [hother m hm hm', itemOf_withItem_other hm hlow hne]

end

/-! ### WRITE_CONFIG (R168, R201) -/

section
variable {s : State} {item value : Nat} (a : Asker)

theorem serveWriteConfig_sealed (hsealed : s.station.calibration = false) :
    serveWriteConfig a (.writeConfig item value) s = answer a (plain .sealed) s := by
  simp only [serveWriteConfig, hsealed, if_true]

theorem serveWriteConfig_invalid (hopen : s.station.calibration = true)
    (hinvalid : writable s.station.image item value = false) :
    serveWriteConfig a (.writeConfig item value) s = answer a (plain .invalid) s := by
  simp [serveWriteConfig, hopen, hinvalid]

theorem serveWriteConfig_begins (hopen : s.station.calibration = true)
    (hvalid : writable s.station.image item value = true) :
    serveWriteConfig a (.writeConfig item value) s = { s with
      station := { s.station with cfgWrite := some (item, value) }
      handler := { s.handler with serving := some ⟨a, .writeConfig item value⟩ } } := by
  simp [serveWriteConfig, hopen, hvalid]

end

theorem only_station_handler {s : State} (x y) : OnlyChanges [.station,
  .handler] s { s with station := x, handler := y } := by
  intro b hb; cases b <;> first | exact absurd (by decide) hb | rfl

theorem exec_writeConfig_begins {s : State} {f : Frame} {arrival item value : Nat}
    (hs : RequestServed s f arrival 16 (.writeConfig item value)) (hopen : s.station.calibration = true)
    (hvalid : writable s.station.image item value = true) :
    ∃ t, exec .writeConfig s = .next t ∧ t.station = { s.station with cfgWrite := some (item, value) } ∧
      t.handler.serving = some ⟨askerOf f, .writeConfig item value⟩ ∧ Entered f s t ∧
      t.claims = heard s f arrival ∧ t.port = { s.port with rx := s.port.rx.tail } ∧
      OnlyChanges [.station, .port, .claims, .handler] s t := by
  have hbody : takeRequest 16 serveWriteConfig s = _ :=
    (takeRequest_served hs).trans (serveWriteConfig_begins (s := asked s f arrival) (askerOf f) hopen hvalid)
  have hexec : exec .writeConfig s = .next (takeRequest 16 serveWriteConfig s) := by
    rw [exec_served (i := .writeConfig) rfl hs, announce_same _ _ (by rw [hbody]; rfl)]
  refine ⟨_, hexec, ?_⟩
  rw [hbody]
  exact ⟨rfl, rfl, rfl, rfl, rfl, (only_station_handler _ _).comp (asked_only s f arrival)⟩

/-! ### The completion of the write sequence (R201, R202) -/

/-- The part once the memory has ended the write sequence, before the answer. -/
def sequenceEnded (completed : Bool) (img : Image) (s : State) : State :=
  { s with
    station := { s.station with image := img, cfgWrite := none }
    handler := { s.handler with serving := none }
    freeIndex := if completed then s.freeIndex else s.freeIndex + 1 }

theorem sequenceEnded_only (img : Image) (s : State) :
    OnlyChanges [.station, .handler] s (sequenceEnded true img s) := only_station_handler _ _

theorem sequenceEnded_only_freeIndex (completed : Bool) (img : Image) (s : State) :
    OnlyChanges [.station, .handler, .freeIndex] s (sequenceEnded completed img s) := by
  intro b hb; cases b <;> first | exact absurd (by decide) hb | rfl

section
variable {s : State} {item value : Nat} {sv : Serving} (hwrite : s.station.cfgWrite = some (item, value))
  (hserving : s.handler.serving = some sv)
include hwrite hserving

theorem configWritten_completed_operating (hop : operating s = true) :
    configWritten true s = answer sv.asker (plain .ok)
      (handWork .calibration (sequenceEnded true (writtenImage s.station.image item value) s)) := by
  have hop' : operating (sequenceEnded true (writtenImage s.station.image item value) s) = true := hop
  simp only [configWritten, hwrite, hserving, if_true]
  exact congrArg _ (if_pos ⟨trivial, hop'⟩)

theorem configWritten_completed_fault (hop : operating s = false) :
    configWritten true s = answer sv.asker (plain .ok)
      (sequenceEnded true (writtenImage s.station.image item value) s) := by
  have hop' : operating (sequenceEnded true (writtenImage s.station.image item value) s) = false := hop
  simp only [configWritten, hwrite, hserving, if_true]
  exact congrArg _ (if_neg fun h => Bool.false_ne_true (hop'.symm.trans h.2))

theorem configWritten_cut : configWritten false s = answer sv.asker (plain .busy)
    (sequenceEnded false (cutImage (Config.cutWriteReach s.freeIndex) s.station.image item value) s) := by
  simp [configWritten, hwrite, hserving, sequenceEnded]

end

theorem settled_of_deferred {a : Asker} (ans : Answer) {s : State} (h : ⟨a, .deferred⟩ ∈ s.handler.table) :
    ⟨a, .settled (some ans)⟩ ∈ (answer a ans s).handler.table := by
  rw [answer_handler]
  exact List.mem_map.2 ⟨_, h, if_pos rfl⟩

/-- In CONFIG_FAULT too the line port takes an ANSWER (R108). -/
theorem queued_answer_of_portTakes {s : State} (a : Asker) (ans : Answer)
    (htakes : portTakes s (answerFrame s.station.number a ans) = true) (hroom : RoomFor 1 s) :
    Queued (answerFrame s.station.number a ans) (answer a ans s) := by
  refine ⟨⟨answerFrame s.station.number a ans, .handler, false⟩, ?_, rfl⟩
  have hlength : s.port.tx.length < Config.txRoom := hroom
  rw [answer_port, sendFrame, handFrame, if_pos htakes, if_pos hlength]
  exact (mem_txInsert_iff _ _ _).2 (.inl rfl)

/-- Page 0 shows nothing of the image or of what the handler serves. -/
theorem page0State_answer_sequenceEnded (a : Asker) (ans : Answer) (completed : Bool) (img : Image) (s u : State)
    (honly : OnlyChanges [.journal] (sequenceEnded completed img s) u) : page0State (answer a ans u) = page0State s :=
  (page0State_of_only ((answer_only a ans u).comp honly)).trans rfl

/-- Settles O53: a sequence is begun with the request in SERVING, and its completion answers what the image then holds. -/
theorem writeConfigChangesImageAlone : Obligations.WriteConfigChangesImageAlone := by
  refine ⟨fun s f arrival item value hs => ⟨fun hrefused => ?refused, fun hopen hvalid => ?begins⟩,
    fun s item value sv w hop hwrite hserving hlow hhigh hlength hflight => ?completed,
    fun s item value sv hfault hwrite hserving hlow hhigh hlength hroom => ?fault,
    fun s item value sv hrun hwrite hserving hroom => ?cut⟩
  case refused =>
    by_cases hsealed : s.station.calibration = false
    · rw [if_pos hsealed]
      exact exec_answered_alone rfl hs (serveWriteConfig_sealed (s := asked s f arrival) _ hsealed)
    · rw [if_neg hsealed]
      exact exec_answered_alone rfl hs (serveWriteConfig_invalid (s := asked s f arrival) _ (by simpa using hsealed)
        (hrefused.resolve_left hsealed))
  case begins => exact exec_writeConfig_begins hs hopen hvalid
  case completed =>
    have hbody := configWritten_completed_operating hwrite hserving hop
    set img := writtenImage s.station.image item value with himg
    have hexec : exec (.configWriteComplete true) s = .next (configWritten true s) := by
      rw [exec, execConfigWriteComplete, stepOf_next _ _ (not_powerDown_of_operating s hop), announce_same]
      rw [hbody]
      exact page0State_answer_sequenceEnded _ _ true img s _ (handWork_only _ _)
    obtain ⟨hvalue, hedit, hothers⟩ := itemOf_writtenImage (v := value) hlength hlow hhigh
    set u := handWork .calibration (sequenceEnded true img s) with hu
    have huonly : OnlyChanges [.station, .handler, .journal] s u :=
      (handWork_only _ _).comp (sequenceEnded_only img s)
    have honly := answer_only sv.asker (plain .ok) u
    have hstation : (answer sv.asker (plain .ok) u).station = (sequenceEnded true img s).station :=
      (honly.get .station).trans ((handWork_only _ _).get .station)
    have huport : u.port = s.port := huonly.get .port
    have hhandler : u.handler = (sequenceEnded true img s).handler := (handWork_only _ _).get .handler
    refine ⟨_, hexec, ?_⟩
    rw [hbody]
    refine ⟨by rw [hstation]; rfl, by rw [hstation]; exact hvalue, by rw [hstation]; exact hedit,
      fun n hn hn' hne => by rw [hstation]; exact hothers n hn hn' hne, by rw [hstation]; rfl, ?works, ?serving,
      fun hdeferred => settled_of_deferred _ (by rw [hhandler]; exact hdeferred), fun hroom hrun => ?queued, ?handed,
      honly.comp huonly⟩
    case works => rw [honly.get .journal, hu, handWork_busy (s := sequenceEnded true img s) _ hflight]; rfl
    case serving => rw [answer_handler, hhandler]; rfl
    case queued =>
      have hnumber : u.station = (sequenceEnded true img s).station := (handWork_only _ _).get .station
      have hq := queued_answer (s := u) sv.asker (plain .ok) (by rw [hnumber]; exact hrun) (by rw [huport]; exact hroom)
      rw [hnumber] at hq
      exact hq
    case handed => exact huport ▸ (answer_hands sv.asker (plain .ok) u).port
  case fault =>
    have hop : operating s = false := by simp [operating, hfault]
    have hbody := configWritten_completed_fault hwrite hserving hop
    set img := writtenImage s.station.image item value with himg
    have hexec : exec (.configWriteComplete true) s = .next (configWritten true s) := by
      rw [exec, execConfigWriteComplete, stepOf_next _ _ (by rw [hfault]; decide), announce_same]
      rw [hbody]
      exact page0State_answer_sequenceEnded _ _ true img s _ (.refl _ _)
    obtain ⟨hvalue, -, -⟩ := itemOf_writtenImage (v := value) hlength hlow hhigh
    have honly := answer_only sv.asker (plain .ok) (sequenceEnded true img s)
    have hstation := honly.get .station
    refine ⟨_, hexec, ?_⟩
    rw [hbody]
    refine ⟨by rw [hstation]; exact hvalue, by rw [hstation]; rfl, by rw [hstation]; rfl, by rw [answer_handler]; rfl, ?_,
      honly.comp (sequenceEnded_only img s)⟩
    exact queued_answer_of_portTakes (s := sequenceEnded true img s) _ _
      (by simp [portTakes, sequenceEnded, hfault, kindOf_answerFrame]) hroom
  case cut =>
    have hbody := configWritten_cut hwrite hserving
    set img := cutImage (Config.cutWriteReach s.freeIndex) s.station.image item value with himg
    have hexec : exec (.configWriteComplete false) s = .next (configWritten false s) := by
      rw [exec, execConfigWriteComplete, stepOf_next _ _ (by rw [hrun]; decide), announce_same]
      rw [hbody]
      exact page0State_answer_sequenceEnded _ _ false img s _ (.refl _ _)
    have honly := answer_only sv.asker (plain .busy) (sequenceEnded false img s)
    have hstation := honly.get .station
    refine ⟨_, hexec, ?_⟩
    rw [hbody]
    exact ⟨by rw [hstation]; rfl, by rw [hstation]; rfl, by rw [answer_handler]; rfl,
      queued_answer (s := sequenceEnded false img s) _ _ hrun hroom,
      honly.comp (sequenceEnded_only_freeIndex false img s)⟩

end Sys2Proof.Machine
end

