-- ==== Sys2Proof/Proofs/HaltEffects.lean ====
section
/-! PROOFS. Chapter 4: the dwell and the pump (R77, R81), the emergency stop (R79, R82, R84), the end of a halt's last source
(R83, R85) and RESUME_HALT (R86), on a part that follows no lead. -/

namespace Sys2Proof.Machine

set_option Elab.async false

/-! ### The dwell and the pump (R77, R81) -/

theorem fastAccepted_owner_iff (s : State) :
    fastAccepted (stageOwner s) s = true ↔
      s.valve.halt = .clear ∧ (s.station.state = .listening ∨ s.station.state = .running) ∧
        (if s.blend.follower = .unbound then s.draw.state = .flowing
         else s.blend.follower = .fRun ∨ s.blend.follower = .fTrim) := by
  unfold stageOwner
  split <;> simp [fastAccepted, and_assoc]

/-- The valve once its dwell is over. -/
def dwellPassed (s : State) : State :=
  { s with valve := { s.valve with stage := dwellOver (fastAccepted (stageOwner s) s) s.valve.stage } }

/-- Settles O30: both expiries and the pump's command act on the valve record alone, as their tables give. -/
theorem dwellAndPumpTables : Obligations.DwellAndPumpTables := by
  refine ⟨fun s due hpower hdue => ?dwell, fun needed s hne => ⟨?pump, setPumpNeeded_only _ _⟩,
    fun s due hpower hdue => ?runOn⟩
  case dwell =>
    obtain ⟨t, hexec, hstat⟩ := exec_expiry (i := .dwellTimerExpiry) (by rw [exec, execDwellTimerExpiry]) hpower hdue
    change StatAfter (dwellPassed (passTo due s)) t at hstat
    have hvalve : t.valve = (dwellPassed (passTo due s)).valve := hstat.only.get .valve
    have hstage : t.valve.stage = dwellOver (fastAccepted (stageOwner (passTo due s)) (passTo due s)) s.valve.stage := by
      rw [hvalve]; rfl
    have hfast := fastAccepted_owner_iff (passTo due s)
    refine ⟨t, hexec, ⟨fun h => by rw [hstage, h]; rfl, fun h => by rw [hstage, h]; rfl, fun h =>
      ⟨fun hyes => ?_, fun hno => ?_⟩⟩, by rw [hvalve]; rfl, hstat.only.get .time, hstat.statAlone rfl,
      (hstat.changes (OnlyChanges.comp (t := passTo due s) (ds := [.time, .valve]) (only_valve _)
        (passTo_only due s))).mono (by decide)⟩
    · rw [hstage, hfast.2 hyes]
      obtain h | h := h <;> rw [h] <;> rfl
    · rw [hstage, Bool.eq_false_iff.2 (mt hfast.1 hno)]
      obtain h | h := h <;> rw [h] <;> rfl
  case pump =>
    rw [setPumpNeeded, if_neg hne.symm]
    cases hpump : s.valve.pump <;> cases needed <;> rfl
  case runOn =>
    obtain ⟨t, hexec, hstat⟩ :=
      exec_expiry (i := .runOnExpiry) (by rw [exec, execRunOnExpiry]) hpower (by rw [hdue]; rfl)
    exact ⟨t, hexec, hstat.only.get .valve, hstat.only.get .time, hstat.statAlone rfl,
      (hstat.changes (OnlyChanges.comp (t := passTo due s) (ds := [.time, .valve]) (only_valve _)
        (passTo_only due s))).mono (by decide)⟩

/-! ### A halt begins and ends (R82 to R86) -/

section
variable {s : State}

theorem raiseHold_unbound (r : HoldReason) (h : s.blend.follower = .unbound) : raiseHold r s = s := by
  simp only [raiseHold, h]

theorem dropHold_unbound (r : HoldReason) (h : s.blend.follower = .unbound) : dropHold r s = s := by
  simp only [dropHold, h]

theorem clearCause_elsewhere (k : Cond) (h : s.draw.state ≠ .suspended) : clearCause k s = s := by
  unfold clearCause
  split
  · contradiction
  · rfl

theorem clearCause_suspended (k : Cond) (h : s.draw.state = .suspended) :
    clearCause k s = modCurrent (fun c => { c with causes := clearCond k c.causes }) s := by
  simp only [clearCause, h]

/-- The part with the halt state set and nothing else. -/
def haltMarked (h : HaltState) (s : State) : State := { s with valve := { s.valve with halt := h } }

theorem setHalt_begins {h : HaltState} (hclear : s.valve.halt = .clear) (hne : h ≠ .clear) :
    setHalt h s = haltBegins (haltMarked h s) := if_pos ⟨hclear, hne⟩

theorem setHalt_ends (hset : s.valve.halt ≠ .clear) : setHalt .clear s = haltEnds (haltMarked .clear s) := by
  rw [setHalt, if_neg (fun h => hset h.1), if_pos ⟨hset, rfl⟩]
  rfl

theorem setHalt_still {h : HaltState} (hset : s.valve.halt ≠ .clear) (hne : h ≠ .clear) :
    setHalt h s = haltMarked h s := by
  rw [setHalt, if_neg (fun h => hset h.1), if_neg (fun h => hne h.2)]
  rfl

/-- The part with the outputs given back. -/
def outputsRestored (s : State) : State := { s with valve := restoreOutputs s.valve }

theorem haltEnds_unbound (hfollower : s.blend.follower = .unbound) :
    haltEnds s = clearCause .halt (outputsRestored s) := by
  have hblend : (clearCause .halt (outputsRestored s)).blend = s.blend := (clearCause_only _ _).get .blend
  exact dropHold_unbound .halt ((congrArg Blend.follower hblend).trans hfollower)

end

/-! ### The emergency stop (R79, R82, R84) -/

theorem leaveFlow_blend (d : DrawState) (f : Current → Current) (s : State) :
    (leaveFlow d f s).blend = (clearThrottle s).blend := by
  rw [leaveFlow_eq, (drawChanged_only _).get .blend, (requestDraw_only _ _).get .blend]
  rfl

/-- While a halt is in force no stage is requested (R76). -/
theorem leaveFlow_valve_halted (d : DrawState) (f : Current → Current) {s : State} (hhalt : s.valve.halt ≠ .clear) :
    (leaveFlow d f s).valve = s.valve := by
  rw [leaveFlow_eq, (drawChanged_only _).get .valve, requestDraw, modCurrent_valve,
    requestStage_not_taken (s := flowLeft d f s) (.inr hhalt)]
  rfl

/-- The part with the stop seen and HALT handed. -/
def stopSeen (s : State) : State :=
  sendHalt
    { s with
      inputs := { s.inputs with emergencyStop := true }
      valve := { s.valve with haltRepeatDue := some (s.time + Config.statusPeriod) } }

theorem stopSeen_only (s : State) : OnlyChanges [.inputs, .valve, .port, .journal] s (stopSeen s) :=
  (sendHalt_only _).comp (only_inputs_valve _ _)

theorem stopSeen_valve (s : State) :
    (stopSeen s).valve = { s.valve with haltRepeatDue := some (s.time + Config.statusPeriod) } :=
  (sendHalt_only _).get .valve

/-- The outputs off at once, in force before anything else of the halt (R79). -/
def haltInForce (s : State) : State := { s with valve := haltOutputs { s.valve with halt := .halted } }

theorem localHalt_flowing {s : State} (hhalt : s.valve.halt = .clear) (hstate : s.draw.state = .flowing)
    (hfollower : s.blend.follower = .unbound) :
    localHalt s =
      leaveFlow .suspended (fun c => { c with causes := raiseCond .halt c.causes }) (haltInForce (stopSeen s)) := by
  have hseen := stopSeen_only s
  have hstate' : (haltInForce (stopSeen s)).draw.state = .flowing :=
    (congrArg DrawUnit.state (hseen.get .draw)).trans hstate
  have hfollower' : (haltInForce (stopSeen s)).blend.follower = .unbound :=
    (congrArg Blend.follower (hseen.get .blend)).trans hfollower
  have hsuspended := suspend_from_flow (raiseCond .halt) (.inr hstate')
  have hclear : (stopSeen s).valve.halt = .clear := by rw [stopSeen_valve]; exact hhalt
  calc localHalt s
      = haltBegins (haltMarked .halted (stopSeen s)) := setHalt_begins hclear (by decide)
    _ = raiseHold .halt (suspend (raiseCond .halt) (haltInForce (stopSeen s))) := by
        have hnot : ¬(haltInForce (stopSeen s)).draw.state = .claiming := by rw [hstate']; decide
        exact congrArg (raiseHold .halt) (if_neg hnot)
    _ = suspend (raiseCond .halt) (haltInForce (stopSeen s)) := raiseHold_unbound _ (by
        rw [hsuspended, leaveFlow_blend, clearThrottle_blend]; exact hfollower')
    _ = _ := hsuspended

theorem queued_sendFrame {s : State} (w : Sender) (f : Frame) (hrun : s.station.state = .running) (hroom : RoomFor 1 s) :
    Queued f (sendFrame w f s) := by
  rw [sendFrame_of_room w f hrun hroom]
  exact ⟨_, (mem_txInsert_iff _ _ _).2 (.inl rfl), rfl⟩

theorem compDriven_of_halt {s : State} (n : Nat) (h : s.valve.halt ≠ .clear) : compDriven s n = false := by
  simp [compDriven, h]

/-- Settles O31. -/
theorem emergencyStopHaltsAtOnce : Obligations.EmergencyStopHaltsAtOnce := by
  intro s c hop hinactive hhalt hstate hcurrent hfollower hlead
  obtain ⟨t, hexec, hstat⟩ :=
    exec_operating (i := .emergencyStopChange true) (by rw [exec, execEmergencyStopChange]) hop
  set u := setPins (fun p => { p with emergencyStop := true }) s with hu
  have hchanged : emergencyStopChanged true u = localHalt u := by
    have hne : true ≠ u.inputs.emergencyStop := by rw [show u.inputs = s.inputs from rfl, hinactive]; decide
    rw [emergencyStopChanged, if_neg hne, if_pos rfl]
  rw [hchanged, localHalt_flowing (s := u) hhalt hstate hfollower] at hstat
  set v := haltInForce (stopSeen u) with hv
  have hvonly : OnlyChanges [.pins, .inputs, .valve, .port, .journal] s v :=
    (OnlyChanges.comp (t := stopSeen u) (ds := [.inputs, .valve, .port, .journal]) (only_valve _) (stopSeen_only u)).comp
      (setPins_only _ s)
  have hleft := leaveFlow_only .suspended (fun c => { c with causes := raiseCond .halt c.causes }) v
  have hvvalve : v.valve = { s.valve with
      halt := .halted, stage := .closed, pump := .off, haltRepeatDue := some (s.time + 250) } := by
    simp only [hv, haltInForce, stopSeen_valve]
    rfl
  have hvhalt : v.valve.halt ≠ .clear := by rw [hvvalve]; simp
  have hvinputs : v.inputs = { s.inputs with emergencyStop := true } := (sendHalt_only _).get .inputs
  have htvalve : t.valve = v.valve := (hstat.only.get .valve).trans (leaveFlow_valve_halted _ _ hvhalt)
  refine ⟨t, leftRecord v.time (fun c => { c with causes := raiseCond .halt c.causes }) c, hexec,
    (hstat.only.get .inputs).trans ((hleft.get .inputs).trans hvinputs),
    (hstat.only.get .pins).trans ((hleft.get .pins).trans ((sendHalt_only _).get .pins)), htvalve.trans hvvalve, ?draw, rfl,
    fun hrun hroom => ?queued, fun n => compDriven_of_halt n (htvalve ▸ hvhalt), ?only⟩
  case draw =>
    rw [hstat.only.get .draw, leaveFlow_draw, hvonly.get .draw, hcurrent]
    rfl
  case queued =>
    have hvlead : v.blend.lead = none := (congrArg Blend.lead (hvonly.get .blend)).trans hlead
    refine hstat.queued (by simp [haltFrame, kHalt, kStat]) ?_
    rw [Queued, leaveFlow_port_of_solo _ _ hvlead]
    exact queued_sendFrame (s := { u with
      inputs := { u.inputs with emergencyStop := true }
      valve := { u.valve with haltRepeatDue := some (u.time + Config.statusPeriod) } }) .valve _ hrun hroom
  case only =>
    exact (hstat.changes (hleft.comp hvonly (ds := [.pins, .inputs, .draw, .valve, .port, .blend, .journal]))).mono
      (by decide)

/-! ### The last source of a halt (R83, R85) -/

theorem sourceQuiet_last {s : State} (hhalt : s.valve.halt = .halted) (hstop : s.inputs.emergencyStop = false)
    (hheard : s.valve.heardDue = none) (hfollower : s.blend.follower = .unbound) (hstate : s.draw.state ≠ .suspended) :
    sourceQuiet s = match s.cfg.haltRecovery with
      | .selfClearing => outputsRestored (haltMarked .clear s)
      | .latched => haltMarked .latched s := by
  have hset : s.valve.halt ≠ .clear := by rw [hhalt]; decide
  rw [sourceQuiet, if_pos ⟨hhalt, hstop, hheard⟩]
  cases s.cfg.haltRecovery with
  | selfClearing =>
    change setHalt .clear s = outputsRestored (haltMarked .clear s)
    rw [setHalt_ends hset, haltEnds_unbound (s := haltMarked .clear s) hfollower,
      clearCause_elsewhere (s := outputsRestored (haltMarked .clear s)) _ hstate]
  | latched => exact setHalt_still hset (by decide)

/-- The part with its halt-heard timer gone by. -/
def heardOver (s : State) : State := { s with valve := { s.valve with heardDue := none } }

/-- Settles O32. -/
theorem haltHeardExpiryRecovers : Obligations.HaltHeardExpiryRecovers := by
  intro s due hpower hdue hhalt hstop hfollower hstate
  obtain ⟨t, hexec, hstat⟩ := exec_expiry (i := .haltHeardExpiry) (by rw [exec, execHaltHeardExpiry]) hpower hdue
  change StatAfter (sourceQuiet (heardOver (passTo due s))) t at hstat
  rw [sourceQuiet_last (s := heardOver (passTo due s)) hhalt hstop rfl hfollower hstate] at hstat
  have honly : ∀ v, OnlyChanges [.time, .valve] s { heardOver (passTo due s) with valve := v } := fun v =>
    OnlyChanges.comp (t := passTo due s) (ds := [.time, .valve]) (only_valve v) (passTo_only due s)
  cases hrecovery : s.cfg.haltRecovery
  all_goals
    simp only [show (heardOver (passTo due s)).cfg = s.cfg from rfl, hrecovery] at hstat
    exact ⟨t, hexec, hstat.only.get .valve, hstat.only.get .time, hstat.statAlone rfl,
      (hstat.changes (honly _)).mono (by decide)⟩

/-! ### RESUME_HALT (R86) -/

theorem clearCond_active {c : Causes} (h : c.halt = .active) : clearCond .halt c = { c with halt := .cleared } := by
  simp [clearCond, condFlag, h, setCond]

theorem serveResumeHalt_latched {s : State} (a : Asker) (r : Request) (hhalt : s.valve.halt = .latched)
    (hfollower : s.blend.follower = .unbound) :
    serveResumeHalt a r s = answer a ⟨.ok, .none⟩ (clearCause .halt (outputsRestored (haltMarked .clear s))) := by
  have hset : s.valve.halt ≠ .clear := by rw [hhalt]; decide
  simp only [serveResumeHalt, hhalt]
  rw [setHalt_ends hset, haltEnds_unbound (s := haltMarked .clear s) hfollower]
  rfl

/-- Settles O33: the answer stands on the end of the halt, or on the part as it is. -/
theorem resumeHaltClearsLatchedHalt : Obligations.ResumeHaltClearsLatchedHalt := by
  intro s f arrival hs hfollower
  cases hhalt : s.valve.halt with
  | latched =>
    have hserve := serveResumeHalt_latched (s := asked s f arrival) (askerOf f) .resumeHalt hhalt hfollower
    have honly : OnlyChanges [.draw, .valve] (asked s f arrival)
        (clearCause .halt (outputsRestored (haltMarked .clear (asked s f arrival)))) :=
      (clearCause_only _ _).comp (OnlyChanges.comp (t := haltMarked .clear (asked s f arrival)) (ds := [.valve])
        (only_valve _) (only_valve _))
    obtain ⟨t, hexec, hrest, hanswered, htaken, hclaims, hchanges⟩ :=
      exec_answered (i := .resumeHalt) rfl hs hserve (.of_port 1 (honly.get .port)) honly
    refine ⟨t, hexec, ⟨?_, hanswered, fun c hstate hcurrent hactive => ?_⟩, htaken, hclaims, hchanges.mono (by decide)⟩
    · exact (hrest.get .valve).trans ((clearCause_only _ _).get .valve)
    · rw [hrest.get .draw, clearCause_suspended (s := outputsRestored (haltMarked .clear (asked s f arrival))) _ hstate,
        modCurrent_draw]
      simp [outputsRestored, haltMarked, hcurrent, clearCond_active hactive]
  | halted =>
    obtain ⟨t, hexec, hanswered, htaken, hclaims, honly⟩ :=
      exec_answered_alone (i := .resumeHalt) (ans := ⟨.halted, .none⟩) rfl hs (by
        simp only [serveResumeHalt, asked_valve, hhalt]; rfl)
    exact ⟨t, hexec, ⟨honly.get .valve, hanswered, honly.get .draw⟩, htaken, hclaims, honly.mono (by decide)⟩
  | clear =>
    obtain ⟨t, hexec, hanswered, htaken, hclaims, honly⟩ :=
      exec_answered_alone (i := .resumeHalt) (ans := ⟨.ok, .none⟩) rfl hs (by
        simp only [serveResumeHalt, asked_valve, hhalt]; rfl)
    exact ⟨t, hexec, ⟨honly.get .valve, hanswered, honly.get .draw⟩, htaken, hclaims, honly.mono (by decide)⟩

end Sys2Proof.Machine
end

