-- ==== Sys2Proof/Proofs/PrinterEffects.lean ====
section
/-! PROOFS. Chapter 10: the flow permission and the shifter (R188 to R190), the abort of a stalled job and the end of its
trailer (R191). -/

namespace Sys2Proof.Machine

set_option Elab.async false

/-! ### The flow permission (R190) -/

/-- A printing port that loses its permission is held. -/
theorem setGo_holds {s : State} (hstate : s.printer.state = .printing) (hgo : s.printer.go = true) :
    setGo false s =
      { s with printer := { s.printer with go := false, state := .held (s.time + Config.stallTime) } } := by
  rw [setGo, if_neg (by rw [hgo]; decide)]
  simp only [hstate]

theorem page0State_of_printer {s : State} {p : Printer} (h : p.stalled = s.printer.stalled) :
    page0State { s with printer := p } = page0State s :=
  page0State_congr rfl rfl rfl rfl rfl rfl rfl h

/-! ### The shifter and the FIFO (R188, R189) -/

theorem characterDone_printing {s : State} {x c : Byte} {cs : List Byte} (hstate : s.printer.state = .printing)
    (hshifting : s.printer.shifting = some x) (hfifo : s.printer.fifo = c :: cs) :
    characterDone s = { s with printer := { s.printer with
      shifting := some c
      fifo := cs ++ s.printer.rest.take (64 - cs.length)
      rest := s.printer.rest.drop (64 - cs.length) } } := by
  simp [characterDone, hshifting, hstate, textDone, feed, hfifo, mayBegin, fillFifo]

/-- What a change of clear-to-send does once its level is read. -/
def ctsTaken (active : Bool) (s : State) : State := if s.cfg.flowControl = .cts then setGo active s else s

/-- Settles O56. -/
theorem printerSendsWhilePermitted : Obligations.PrinterSendsWhilePermitted := by
  refine ⟨fun s hop hflow hstate hgo => ?xoff, fun s hop hflow hstate hgo => ?cts,
    fun s x c cs hop hstate hshifting hfifo hroom => ?shifted⟩
  case xoff =>
    have hbody : characterReceived 19 false s =
        { s with printer := { s.printer with go := false, state := .held (s.time + 20000) } } := by
      rw [characterReceived, if_pos ⟨hflow, rfl⟩, if_pos rfl]
      exact setGo_holds hstate hgo
    refine ⟨_, ?_, rfl, only_printer _⟩
    rw [exec, execPrinterCharacterReceived, stepWhenOperating_next _ _ hop,
      announce_same _ _ (by rw [hbody]; exact page0State_of_printer rfl), hbody]
  case cts =>
    set u := setPins (fun p => { p with cts := false }) s with hu
    have hbody : ctsTaken false u =
        { u with printer := { u.printer with go := false, state := .held (u.time + 20000) } } :=
      (if_pos hflow).trans (setGo_holds (s := u) hstate hgo)
    have hexec := exec_operating_same (i := .ctsChange false) (s := s) (g := ctsTaken false) rfl hop
      ((congrArg page0State hbody).trans (page0State_of_printer rfl))
    refine ⟨_, hexec.trans (congrArg _ hbody), rfl, rfl, ?_⟩
    exact OnlyChanges.comp (t := u) (only_printer _) (setPins_only _ s)
  case shifted =>
    have hbody := characterDone_printing hstate hshifting hfifo
    refine ⟨_, ?_, rfl, only_printer _⟩
    rw [exec, execCharacterShifted, stepWhenOperating_next _ _ hop,
      announce_same _ _ (by rw [hbody]; exact page0State_of_printer rfl), hbody]

/-! ### A stalled job (R191) -/

/-- Without permission an aborting port does not begin a character. -/
theorem feed_of_no_permission {p : Printer} {due : Option Nat} (hstate : p.state = .aborting due) (hgo : p.go = false) :
    feed p = p := by
  have hmay : mayBegin p = false := by simp [mayBegin, hstate, hgo]
  unfold feed
  split
  · rw [hmay]; rfl
  · rfl

/-- The printer as an abort leaves it, before the trailer enters the FIFO. -/
def aborted (now : Nat) (j : Job) (p : Printer) : Printer :=
  { p with state := .aborting (some (now + Config.stallTime)), fifo := [], rest := trailerText j.ticket, stalled := true }

theorem abortJob_of_no_permission {s : State} {j : Job} {js : List Job} (hqueue : s.printer.queue = j :: js)
    (hgo : s.printer.go = false) :
    abortJob s = { s with printer := fillFifo (aborted s.time j s.printer) } := by
  have hfeed : feed (fillFifo (aborted s.time j s.printer)) = fillFifo (aborted s.time j s.printer) :=
    feed_of_no_permission rfl hgo
  rw [← hfeed]
  unfold abortJob
  split
  · next hqueue' =>
    obtain ⟨rfl, -⟩ := List.cons.inj (hqueue'.symm.trans hqueue)
    rfl
  · next hqueue' => simp [hqueue] at hqueue'

theorem endTrailer_last {s : State} {j : Job} (hqueue : s.printer.queue = [j]) (hshifting : s.printer.shifting = none) :
    endTrailer s = { s with printer := { s.printer with state := .idle, queue := [], fifo := [], rest := [] } } := by
  simp [endTrailer, hshifting, leaveJob, startJob, hqueue]

/-- Settles O57. -/
theorem stalledJobIsAborted : Obligations.StalledJobIsAborted := by
  refine ⟨fun s due j js hpower hstate hqueue hgo => ?stall, fun s due j hpower hstate hqueue hshifting => ?trailer⟩
  case stall =>
    obtain ⟨t, hexec, hstat⟩ := exec_expiry (i := .stallTimerExpiry) (due := due) (by rw [exec,
      execStallTimerExpiry]) hpower
      (by simp [stallDue, hstate])
    rw [abortJob_of_no_permission (s := passTo due s) hqueue hgo] at hstat
    have hprinter := hstat.only.get .printer
    simp only [sameBlock] at hprinter
    refine ⟨t, hexec, hstat.only.get .time, by rw [hprinter]; rfl, by rw [hprinter]; rfl, ?_, by rw [hprinter]; rfl,
      by rw [hprinter]; rfl, hstat.statAlone rfl, ?_⟩
    · rw [hprinter]
      simp [fillFifo, aborted, List.take_append_drop]
    · exact (hstat.changes (OnlyChanges.comp (t := passTo due s) (ds := [.time, .printer]) (only_printer _)
        (passTo_only due s))).mono (by decide)
  case trailer =>
    have hbody := endTrailer_last (s := passTo due s) hqueue hshifting
    have hexec := exec_expiry_same (i := .trailerTimerExpiry) (s := s) (due := due) (by rw [exec, execTrailerTimerExpiry])
      hpower (by simp [trailerDue, hstate]) ((congrArg page0State hbody).trans
        (page0State_congr rfl rfl rfl rfl rfl rfl rfl rfl))
    refine ⟨_, hexec.trans (congrArg _ hbody), rfl, rfl, ?_⟩
    exact OnlyChanges.comp (t := passTo due s) (only_printer _) (passTo_only due s)

end Sys2Proof.Machine
end

