-- ==== Sys2Proof/Proofs/StartAndStop.lean ====
section
/-! PROOFS. Chapters 4, 9 and 11: the reset of every block at a start (R195, R200), the read of the image (R196 to R198) and
the power-fail input (R87, R175, R180). -/

namespace Sys2Proof.Machine

set_option Elab.async false

/-! ### A start (R195, R200) -/

/-- The part in STARTING with its straps and its seal read. -/
def strapsRead (straps : BitVec 4) (sealOpen : Bool) (s : State) : State :=
  { s with station := { s.station with state := .starting, number := straps.toNat, calibration := sealOpen } }

/-- What a start makes of the part: the blocks at their reset values, with what the two memories hold. -/
structure Restarted (straps : BitVec 4) (sealOpen : Bool) (s t : State) : Prop where
  time : t.time = 0
  draw : t.draw = DrawUnit.reset
  pulse : t.pulse = Pulse.reset
  engine : t.engine = Engine.reset
  valve : t.valve = Valve.reset
  claims : t.claims = ClaimUnit.reset
  blend : t.blend = Blend.reset
  handler : t.handler = Handler.reset
  printer : t.printer = Printer.reset
  inputs : t.inputs = Inputs.reset
  journal : t.journal = { Journal.reset with mem := s.journal.mem }
  image : t.station.image = s.station.image
  number : t.station.number = straps.toNat
  calibration : t.station.calibration = sealOpen

theorem strapsRead_restarted {straps : BitVec 4} {sealOpen : Bool} {s : State} (hflight : s.journal.inflight = none)
    (hwrite : s.station.cfgWrite = none) :
    Restarted straps sealOpen s (strapsRead straps sealOpen (resetBlocks s)) where
  time := rfl
  draw := rfl
  pulse := rfl
  engine := rfl
  valve := rfl
  claims := rfl
  blend := rfl
  handler := rfl
  printer := rfl
  inputs := rfl
  journal := by simp only [strapsRead, resetBlocks, foundMemory, hflight]
  image := by simp only [strapsRead, resetBlocks, foundImage, hwrite]
  number := rfl
  calibration := rfl

theorem Restarted.configFault {straps : BitVec 4} {sealOpen : Bool} {s t : State} (code : FaultCode) (item : Nat)
    (h : Restarted straps sealOpen s t) : Restarted straps sealOpen s (enterConfigFault code item t) := by
  constructor <;> simp only [enterConfigFault, queueStat_time, queueStat_draw, queueStat_pulse, queueStat_engine,
    queueStat_valve, queueStat_claims, queueStat_blend, queueStat_handler, queueStat_printer, queueStat_inputs,
    queueStat_journal, queueStat_station, h.time, h.draw, h.pulse, h.engine, h.valve, h.claims, h.blend, h.handler,
    h.printer, h.inputs, h.journal, h.image, h.number, h.calibration]

theorem enterConfigFault_pins (code : FaultCode) (item : Nat) (s : State) :
    (enterConfigFault code item s).pins = s.pins := queueStat_pins _

theorem startUp_powered (straps : BitVec 4) (sealOpen : Bool) {s : State} (hpower : s.pins.powerFail = false) :
    startUp straps sealOpen s =
      if straps = 0 then enterConfigFault .strapsZero 0 (strapsRead straps sealOpen (resetBlocks s))
      else strapsRead straps sealOpen (resetBlocks s) := by
  have hpins : (readStraps straps sealOpen (resetBlocks s)).pins = s.pins := by
    unfold readStraps
    split
    · exact enterConfigFault_pins _ _ _
    · rfl
  rw [startUp, if_neg (by rw [hpins, hpower]; decide)]
  rfl

/-- Settles O58: both commands start the part up with the power-fail input inactive. -/
theorem startResetsEveryBlock : Obligations.StartResetsEveryBlock := by
  intro i straps sealOpen s hstart hflight hwrite
  obtain ⟨u, hexec, hpower, hflight, hwrite, hmem, himage⟩ : ∃ u, exec i s = .next (startUp straps sealOpen u) ∧
      u.pins.powerFail = false ∧ u.journal.inflight = none ∧ u.station.cfgWrite = none ∧
      u.journal.mem = s.journal.mem ∧ u.station.image = s.station.image := by
    obtain rfl | ⟨rfl, hpower⟩ := hstart
    · exact ⟨_, rfl, rfl, hflight, hwrite, rfl, rfl⟩
    · exact ⟨s, rfl, hpower, hflight, hwrite, rfl, rfl⟩
  have hread := strapsRead_restarted (straps := straps) (sealOpen := sealOpen) hflight hwrite
  have hrestarted : Restarted straps sealOpen u (startUp straps sealOpen u) := by
    rw [startUp_powered _ _ hpower]
    split
    · exact hread.configFault _ _
    · exact hread
  refine ⟨_, hexec, hrestarted.time, hrestarted.draw, hrestarted.pulse, hrestarted.engine, hrestarted.valve,
    hrestarted.claims, hrestarted.blend, hrestarted.handler, hrestarted.printer, hrestarted.inputs,
    by rw [hrestarted.journal]; exact hmem, by rw [hrestarted.journal]; rfl, by rw [hrestarted.journal]; rfl,
    hrestarted.image.trans himage, hrestarted.number, hrestarted.calibration, fun hne => ?_, fun hzero => ?_⟩
  · rw [startUp_powered _ _ hpower, if_neg hne]
    exact ⟨rfl, rfl, rfl⟩
  · rw [startUp_powered _ _ hpower, if_pos hzero, enterConfigFault, queueStat_station]
    exact ⟨rfl, rfl⟩

/-! ### The read of the image (R196 to R198) -/

theorem exec_configImageRead {s : State} (read : ImageRead) (hstate : s.station.state = .starting)
    (hflight : s.journal.inflight = none) : exec (.configImageRead read) s = .next (readImage read s) :=
  if_pos ⟨hstate, hflight⟩

theorem enterConfigFault_only (code : FaultCode) (item : Nat) (s : State) :
    OnlyChanges [.station, .port] s (enterConfigFault code item s) :=
  (queueStat_only _).comp (only_station _)

theorem enterConfigFault_station (code : FaultCode) (item : Nat) (s : State) :
    (enterConfigFault code item s).station =
      { s.station with state := .configFault, faultCode := some code, faultItem := item } := queueStat_station _

/-- The part in LISTENING, where no emergency stop stands. -/
def countingBegun (s : State) : State :=
  let t := listen s
  { t with
    pulse := { t.pulse with
      filteredA := t.pins.pulserA
      filteredB := t.pins.pulserB
      decoderA := t.pins.pulserA
      decoderB := t.pins.pulserB
      conversionDue := some (t.time + Config.conversionPeriod) }
    engine := { t.engine with ctx := startContext t, probeDue := some (t.time + Config.updatePeriod) }
    inputs := ⟨false, t.pins.holdToRun, t.pins.air, t.pins.reelStowed⟩
    printer := { t.printer with go := startGo t } }

/-- The part with an image in use and the works of a start listed. -/
def imageUsed (img : Image) (s : State) : State :=
  { s with
    cfg := imageCfg img
    station := { s.station with image := img }
    journal := { s.journal with
      works := startWorks { s with station := { s.station with image := img }, cfg := imageCfg img } } }

theorem readImage_good {img : Image} {s : State} (hgood : imageFault img = none)
    (hworks : startWorks { s with station := { s.station with image := img }, cfg := imageCfg img } = [])
    (hstop : s.pins.emergencyStop = false) :
    readImage (.programmed img) s = countingBegun (imageUsed img s) := by
  have hread : readImage (.programmed img) s = continueStart (imageUsed img s) := by simp only [readImage, hgood]; rfl
  have hnone : ¬(countingBegun (imageUsed img s)).pins.emergencyStop = true := by
    rw [show (countingBegun (imageUsed img s)).pins = s.pins from rfl, hstop]; decide
  rw [hread, continueStart, if_pos (show (imageUsed img s).journal.works = [] from hworks)]
  exact if_neg hnone

theorem countingBegun_imageUsed_only (img : Image) (s : State) :
    OnlyChanges [.cfg, .station, .inputs, .pulse, .engine, .port, .journal, .printer] s
      (countingBegun (imageUsed img s)) := by
  intro b hb; cases b <;> first | exact absurd (by decide) hb | rfl

/-- Settles O59. -/
theorem imageReadStartsStation : Obligations.ImageReadStartsStation := by
  intro s hstate hflight
  refine ⟨⟨_, exec_configImageRead _ hstate hflight, ?silent⟩, fun img code item hfault =>
    ⟨_, exec_configImageRead _ hstate hflight, ?fault⟩, fun img hgood hworks hstop =>
    ⟨_, exec_configImageRead _ hstate hflight, ?good⟩⟩
  case silent =>
    rw [readImage, enterConfigFault_station]
    exact ⟨rfl, rfl, rfl, enterConfigFault_only _ _ s⟩
  case fault =>
    have hread : readImage (.programmed img) s =
        enterConfigFault code item { s with station := { s.station with image := img } } := by
      simp only [readImage, hfault]
    have honly := enterConfigFault_only code item { s with station := { s.station with image := img } }
    rw [hread, enterConfigFault_station]
    exact ⟨rfl, rfl, rfl, rfl, honly.get .cfg, honly.comp (only_station _)⟩
  case good =>
    rw [readImage_good hgood hworks hstop]
    exact ⟨rfl, rfl, rfl, rfl, rfl, rfl, rfl, rfl, rfl, countingBegun_imageUsed_only img s⟩

/-! ### The power-fail input (R87, R175, R180) -/

theorem itemRunning_iff (s : State) :
    itemRunning s = true ↔ s.draw.state = .priming ∨ s.draw.state = .flowing ∨ s.draw.state = .suspended ∨
      s.draw.state = .closing := by
  unfold itemRunning
  cases s.draw.state <;> simp [drawOpen]

theorem followedOpen_iff (f : FollowerState) : followedOpen f = true ↔ f ≠ .unbound ∧ f ≠ .bound := by
  cases f <;> simp [followedOpen]

theorem finalWorks_eq (s : State) :
    finalWorks s =
      (let drawing := s.draw.state = .priming ∨ s.draw.state = .flowing ∨ s.draw.state = .suspended ∨
         s.draw.state = .closing
       let works := if drawing then addWork (.checkpoint false) s.journal.works else s.journal.works
       if s.blend.follower ≠ .unbound ∧ s.blend.follower ≠ .bound then addWork .followerCheckpoint works else works) := by
  simp only [finalWorks, itemRunning_iff, followedOpen_iff]

theorem enterPowerDown_only (s : State) :
    OnlyChanges [.station, .engine, .draw, .valve, .port, .claims, .blend, .journal, .printer, .freeIndex] s
      (enterPowerDown s) := by
  intro b hb; cases b <;> first | exact absurd (by decide) hb | rfl

/-- Settles O60: POWER_DOWN is entered in one step, whose memory is the fold of the works that are left. -/
theorem powerFailClosesAndWrites : Obligations.PowerFailClosesAndWrites := by
  intro s hop hwrite
  set u := setPins (fun p => { p with powerFail := true }) s with hu
  have hexec : exec .powerFail s = .next (enterPowerDown u) := if_neg (not_powerDown_of_operating s hop)
  have himage : (enterPowerDown u).station.image = s.station.image := by
    simp only [enterPowerDown, foundImage, show u.station = s.station from rfl, hwrite]
  have hmem : (enterPowerDown u).journal.mem = finalMemory u := rfl
  refine ⟨_, hexec, rfl, rfl, rfl, rfl, rfl, fun n => rfl, rfl, rfl, rfl, ?_, rfl, rfl, rfl, rfl, rfl, rfl, himage,
    (enterPowerDown_only u).comp (setPins_only _ s)⟩
  rw [hmem, finalMemory, if_pos (show operating u = true from hop), finalWorks_eq]
  rfl

end Sys2Proof.Machine
end

