-- ==== Sys2Proof/Proofs/LinePeriods.lean ====
section
/-! PROOFS. Chapter 5: what the line sends again at its periods (R100, R84, R151), the return to the line (R105, R108, R198)
and the station clock (R106). -/

namespace Sys2Proof.Machine

set_option Elab.async false

/-! ### Pages that wait in the transmit queue (R100) -/

/-- A frame waits in a transmit queue. -/
def Waits (f : Frame) (tx : List TxEntry) : Prop := ∃ e ∈ tx, e.frame = f ∧ e.onWire = false

section
variable {f g : Frame} {tx : List TxEntry}

theorem Waits.pageInto_other (h : Waits f tx) (hid : f.id ≠ g.id) : Waits f (pageInto g tx) := by
  obtain ⟨e, he, rfl, hwaits⟩ := h
  exact ⟨e, (mem_pageInto_of_other_id hid).2 he, rfl, hwaits⟩

/-- A page waits once it is queued, where it waited before or the queue had room. -/
theorem waits_pageInto (h : Waits f tx ∨ tx.length < Config.txRoom) : Waits f (pageInto f tx) := by
  unfold pageInto
  split
  · next hany =>
    obtain ⟨x, hx, hmine⟩ := List.any_eq_true.1 hany
    simp only [Bool.and_eq_true, beq_iff_eq, Bool.not_eq_true'] at hmine
    exact ⟨_, List.mem_map_of_mem hx, by rw [if_pos hmine], by rw [if_pos hmine]; exact hmine.2⟩
  · next hnone =>
    obtain ⟨e, he, rfl, hwaits⟩ | hroom := h
    · exact absurd (List.any_eq_true.2 ⟨e, he, by simp [hwaits]⟩) hnone
    · rw [if_pos hroom]
      exact ⟨_, (mem_txInsert_iff _ _ _).2 (.inl rfl), rfl, rfl⟩

theorem pageInto_length_le (f : Frame) (tx : List TxEntry) : (pageInto f tx).length ≤ tx.length + 1 := by
  unfold pageInto
  split
  · rw [List.length_map]; exact Nat.le_succ _
  · split
    · rw [txInsert_length]
    · exact Nat.le_succ _

end

/-- All three pages of a part wait in its transmit queue. -/
def PagesWait (s : State) : Prop := ∀ n, n ≤ 2 → Waits (pageFrame s n) s.port.tx

theorem PagesWait.queued {s : State} (h : PagesWait s) {n : Nat} (hn : n ≤ 2) : Queued (pageFrame s n) s := by
  obtain ⟨e, he, hframe, -⟩ := h n hn
  exact ⟨e, he, hframe⟩

/-- In RUNNING a STAT set makes all three pages wait, where they waited before or the queue had room for them. -/
theorem queueStat_pagesWait {s : State} (hrun : s.station.state = .running) (h : PagesWait s ∨ RoomFor 3 s) :
    PagesWait (queueStat s) := by
  have hsource : ∀ n, n ≤ 2 → Waits (pageFrame s n) s.port.tx ∨ s.port.tx.length + 3 ≤ Config.txRoom := fun n hn =>
    h.imp (fun hwait => hwait n hn) id
  have hlen₀ := pageInto_length_le (pageFrame s 0) s.port.tx
  have hlen₁ := pageInto_length_le (pageFrame s 1) (pageInto (pageFrame s 0) s.port.tx)
  have hne := fun {m n : Nat} (hm : m ≤ 2) (hn : n ≤ 2) => pageFrame_id_ne s hm hn
  intro n hn
  rw [queueStat_of_running hrun, pageFrame_with_port]
  match n, hn with
  | 0, hn =>
    refine Waits.pageInto_other (Waits.pageInto_other (waits_pageInto ?_) (hne hn (by decide) (by decide)))
      (hne hn (by decide) (by decide))
    exact (hsource 0 hn).imp_right fun hroom => by omega
  | 1, hn =>
    refine Waits.pageInto_other (waits_pageInto ?_) (hne hn (by decide) (by decide))
    exact (hsource 1 hn).imp (fun hwait => hwait.pageInto_other (hne hn (by decide) (by decide))) fun hroom => by omega
  | 2, hn =>
    refine waits_pageInto ?_
    exact (hsource 2 hn).imp (fun hwait => (hwait.pageInto_other (hne hn (by decide) (by decide))).pageInto_other
      (hne hn (by decide) (by decide))) fun hroom => by omega

theorem queueStat_statAlone (s : State) : StatAlone s.port (queueStat s).port := by
  unfold queueStat
  split <;> rfl

theorem queueStat_statusDue {s : State} (hrun : s.station.state = .running) :
    (queueStat s).port.statusDue = some (s.time + Config.statusPeriod) := by
  rw [queueStat_of_running hrun]

theorem queueStat_same_page0 (s : State) : page0State (queueStat s) = page0State s :=
  page0State_of_only ((queueStat_only s).mono (by decide))

/-! ### The periods -/

/-- The part with its HALT period moved on. -/
def haltMovedOn (s : State) : State :=
  { s with valve := { s.valve with haltRepeatDue := s.valve.haltRepeatDue.map (· + Config.statusPeriod) } }

theorem sendFinalReport_of_room {s : State} (l q : Nat) (r : FinalReport) (hrun : s.station.state = .running)
    (hroom : RoomFor 2 s) :
    sendFinalReport l q r s = { s with
      port := { s.port with
        tx := txInsert ⟨finalPart2Frame s.station.number l q r, .blend, false⟩
          (txInsert ⟨finalPart1Frame s.station.number l q r, .blend, false⟩ s.port.tx) } } := by
  have hroom₁ : RoomFor 1 s := by simp only [RoomFor] at *; omega
  have hroom₂ : RoomFor 1 { s with
      port := { s.port with tx := txInsert ⟨finalPart1Frame s.station.number l q r, .blend, false⟩ s.port.tx } } := by
    simp only [RoomFor, txInsert_length] at *; omega
  rw [sendFinalReport, sendFrame_of_room _ _ hrun hroom₁]
  exact sendFrame_of_room _ _ hrun hroom₂

theorem queued_of_txInsert {f : Frame} {w : Sender} {b : Bool} {tx : List TxEntry} {s : State}
    (h : s.port.tx = txInsert ⟨f, w, b⟩ tx) : Queued f s := ⟨⟨f, w, b⟩, h ▸ (mem_txInsert_iff _ _ _).2 (.inl rfl), rfl⟩

theorem queued_under_txInsert {f : Frame} {e x : TxEntry} {tx : List TxEntry} {s : State}
    (h : s.port.tx = txInsert x (txInsert e tx)) (hf : e.frame = f) : Queued f s :=
  ⟨e, h ▸ (mem_txInsert_iff _ _ _).2 (.inr ((mem_txInsert_iff _ _ _).2 (.inl rfl))), hf⟩

/-- Settles O36. -/
theorem periodsSendAgain : Obligations.PeriodsSendAgain := by
  refine ⟨fun s due hrun hdue hroom => ?status, fun s due hrun hdue hroom => ?halt,
    fun s h due hrun hheld hdue hroom => ?report⟩
  case status =>
    have hexec := exec_expiry_same (i := .statusPeriod) (by rw [exec, execStatusPeriod]) (by rw [hrun]; decide) hdue
      (queueStat_same_page0 (passTo due s))
    refine ⟨_, hexec, (queueStat_only _).get .time,
      queueStat_statusDue (s := passTo due s) hrun,
      fun n hn => (queueStat_pagesWait (s := passTo due s) hrun (.inr hroom)).queued hn, queueStat_statAlone (passTo due s),
      (queueStat_only _).comp (passTo_only due s)⟩
  case halt =>
    have hsent := sendFrame_of_room (s := haltMovedOn (passTo due s)) .valve (haltFrame s.station.number) hrun hroom
    have hexec := exec_expiry_same (i := .haltRepeat) (g := fun s => sendHalt (haltMovedOn s)) (due := due)
      (by rw [exec, execHaltRepeat]; rfl) (by rw [hrun]; decide) hdue
      ((congrArg page0State hsent).trans rfl)
    refine ⟨_, hexec.trans (congrArg _ hsent), rfl, ?_, queued_of_txInsert rfl, rfl, ?_⟩
    · show { s.valve with haltRepeatDue := s.valve.haltRepeatDue.map (· + Config.statusPeriod) } = _
      rw [hdue]
      rfl
    · exact (OnlyChanges.comp (ds := [.time, .valve, .port]) (only_port _)
        ((only_valve _).comp (passTo_only due s) (ds := [.time, .valve])))
  case report =>
    have hmoved : repeatReport (passTo due s) = sendFinalReport h.lead h.claim.sequence h.report
        { passTo due s with blend := { s.blend with held := some { h with repeatDue := some (due + 250) } } } := by
      simp only [repeatReport, passTo_blend, hheld, hdue, Option.map_some]
    have hsent := hmoved.trans (sendFinalReport_of_room _ _ _ hrun hroom)
    have hexec := exec_expiry_same (i := .finalReportRepeat) (by rw [exec, execFinalReportRepeat]) (by rw [hrun]; decide)
      (by rw [hheld]; exact hdue) ((congrArg page0State hsent).trans rfl)
    exact ⟨_, hexec.trans (congrArg _ hsent), rfl, rfl, queued_under_txInsert rfl rfl, queued_of_txInsert rfl, rfl,
      OnlyChanges.comp (ds := [.time, .blend, .port]) (only_port _)
        ((only_blend _).comp (passTo_only due s) (ds := [.time, .blend]))⟩

/-! ### The return to the line -/

section
variable {s : State}

theorem judgePending_of_no_claims (hown : s.claims.own = none) (hview : ∀ p ∈ s.claims.view, p.live = none) :
    judgePending s = s := by
  have hnone : pendingStations s = [] := by
    have hempty : s.claims.view.filterMap
        (fun p => p.live.bind fun l => if l.pending then some (l.rank, p.station) else none) = [] :=
      List.filterMap_eq_nil_iff.2 fun p hp => by rw [hview p hp]; rfl
    rw [pendingStations, hempty]
    rfl
  simp only [judgePending, hnone, List.foldl_nil, hown]

theorem settleConsent_of_no_claim (hown : s.claims.own = none) : settleConsent s = s := by
  rw [settleConsent, hown]

/-- The part once its station runs. -/
def runs (s : State) : State := { s with station := { s.station with state := .running, quietDue := none } }

/-- With no claim to judge and no stop active, the entry into RUNNING queues its STAT set and nothing else (R108). -/
theorem enterRunning_alone (hown : s.claims.own = none) (hview : ∀ p ∈ s.claims.view, p.live = none)
    (hstop : s.inputs.emergencyStop = false) : enterRunning s = queueStat (runs s) := by
  have hclaims : (queueStat (runs s)).claims = s.claims := queueStat_claims _
  have hjudge : judgePending (queueStat (runs s)) = queueStat (runs s) :=
    judgePending_of_no_claims (by rw [hclaims, hown]) (by rw [hclaims]; exact hview)
  have hrest : (if (queueStat (runs s)).claims.rebuildDue.isSome then queueStat (runs s)
      else judgePending (queueStat (runs s))) = queueStat (runs s) := by rw [hjudge, ite_self]
  have hquiet : (queueStat (runs s)).inputs.emergencyStop = false := by rw [queueStat_inputs]; exact hstop
  unfold enterRunning
  change (let v := settleConsent (if (queueStat (runs s)).claims.rebuildDue.isSome then queueStat (runs s)
      else judgePending (queueStat (runs s))); if v.inputs.emergencyStop then _ else v) = _
  rw [hrest, settleConsent_of_no_claim (by rw [hclaims, hown])]
  exact if_neg (by rw [hquiet]; decide)

end

/-- The part with its port started again. -/
def portBack (s : State) : State := { s with port := { s.port with errors := 0, restartDue := none } }

/-- Settles O37. -/
theorem stationReturnsToLine : Obligations.StationReturnsToLine := by
  refine ⟨fun s due hlost hdue => ?lineLost, fun s due hfault hdue hroom => ?configFault,
    fun s due hlisten hdue hown hview hstop hroom => ?quiet⟩
  case lineLost =>
    have hback : portRestarted (passTo due s) = listen (passTo due s) := by simp only [portRestarted, passTo_station, hlost]
    have hsame : queueStat (listen (passTo due s)) = listen (passTo due s) := rfl
    have hnext : announce (fun s => portRestarted (passTo due s)) s = listen (passTo due s) := by
      simp only [announce, hback, hsame, ite_self]
    have hexec' : exec .portRestart s = .next (listen (passTo due s)) := by
      rw [exec, execPortRestart, stepAtExpiry_next _ s _ due (by rw [hlost]; decide) hdue, hnext]
    exact ⟨_, hexec', rfl, rfl, rfl, OnlyChanges.comp (ds := [.time, .station, .port]) (listen_only _) (passTo_only due s)⟩
  case configFault =>
    have hback : portRestarted (passTo due s) = queueStat (portBack (passTo due s)) := by
      simp only [portRestarted, passTo_station, hfault]
      rfl
    have hstat : queueStat (portBack (passTo due s)) = { portBack (passTo due s) with
        port := { s.port with
          errors := 0
          restartDue := none
          tx := pageInto (pageFrame s 0) s.port.tx
          statusDue := some (later s.time due + 250) } } := by
      simp only [queueStat, show (portBack (passTo due s)).station.state = .configFault from hfault]
      rfl
    have hexec := exec_expiry_same (s := s) (i := .portRestart) (by rw [exec,
      execPortRestart]) (by rw [hfault]; decide) hdue
      ((congrArg page0State (hback.trans hstat)).trans rfl)
    rw [hback, hstat] at hexec
    refine ⟨_, hexec, rfl, rfl, rfl, ?_, OnlyChanges.comp (ds := [.time, .port]) (only_port _)
      (OnlyChanges.comp (ds := [.time, .port]) (only_port _) (passTo_only due s))⟩
    obtain ⟨e, he, hframe, -⟩ := waits_pageInto (f := pageFrame s 0) (tx := s.port.tx) (.inr hroom)
    exact ⟨e, he, hframe⟩
  case quiet =>
    set u := runs (passTo due s) with hu
    have hentered : enterRunning (passTo due s) = queueStat u := enterRunning_alone hown hview hstop
    have hchanged : page0State (queueStat u) ≠ page0State s := fun h => by
      have hstate := congrArg Prod.fst h
      rw [queueStat_same_page0] at hstate
      change StationState.running = s.station.state at hstate
      rw [hlisten] at hstate
      cases hstate
    have hexec : exec .quietListenExpiry s = .next (queueStat (queueStat u)) := by
      rw [exec, execQuietListenExpiry, stepAtExpiry_next _ s _ due (by rw [hlisten]; decide) ((if_pos hlisten).trans hdue),
        announce_changed (fun s => enterRunning (passTo due s)) s (by rw [hentered]; exact hchanged), hentered]
    have hrun : (queueStat u).station.state = .running := by rw [queueStat_station]; rfl
    have hwait := queueStat_pagesWait hrun (.inl (queueStat_pagesWait (s := u) rfl (.inr hroom)))
    have hstation : (queueStat (queueStat u)).station = u.station := by rw [queueStat_station, queueStat_station]
    refine ⟨_, hexec, hstation, by rw [queueStat_time, queueStat_time]; rfl, ?_, fun n hn => hwait.queued hn, ?_, ?_⟩
    · exact (queueStat_statusDue hrun).trans (by rw [queueStat_time]; rfl)
    · have h₁ : (queueStat (queueStat u)).port = _ := queueStat_statAlone (queueStat u)
      have h₂ : (queueStat u).port = _ := queueStat_statAlone u
      rw [h₂] at h₁
      rw [StatAlone, h₁]
      rfl
    · exact OnlyChanges.comp (ds := [.time, .station, .port]) (queueStat_only _)
        (OnlyChanges.comp (ds := [.time, .station, .port]) (queueStat_only _)
          (OnlyChanges.comp (ds := [.time, .station]) (only_station _) (passTo_only due s)))

/-! ### The station clock (R106) -/

/-- Settles O38. -/
theorem clockIsSetAndSteps : Obligations.ClockIsSetAndSteps := by
  refine ⟨fun s f arrival hold hkind => ?set, fun s due c hpower hdue hclock hrange => ?second⟩
  case set =>
    have hexec := exec_take_same (i := .takeClock) (by rw [exec, execTakeClock]) hold (by rw [ofKind, hkind]; rfl) rfl
    exact ⟨_, hexec, rfl, rfl, (only_port _).comp (taken_changes s f arrival)⟩
  case second =>
    have hexec := exec_expiry_same (i := .clockSecond) (by rw [exec, execClockSecond]) hpower hdue rfl
    refine ⟨_, hexec, rfl, ?_, OnlyChanges.comp (ds := [.time, .port]) (only_port _) (passTo_only due s)⟩
    change clockTick s.port = _
    rw [clockTick, hclock, hdue]
    have hnext : (c + 1) % 4294967296 = if c = 4294967295 then 0 else c + 1 := by split <;> omega
    simp only [Option.map_some, hnext]

end Sys2Proof.Machine
end

