-- ==== Sys2Proof/Proofs/PeerViewTakes.lean ====
section
/-! PROOFS. Chapter 5: what the takes of HALT, STAT, ANSWER and TKT leave in the peer view (R102, R103). -/

namespace Sys2Proof.Machine

set_option Elab.async false

section
variable {s : State} {f : Frame} {arrival : Nat}

theorem peerOf_isSome_iff (n : Nat) : (peerOf s n).isSome = true ↔ ∃ p ∈ s.claims.view, p.station = n := by
  simp [peerOf]

/-- A refresh keeps the stations of the view (R102). -/
theorem peerOf_taken_isSome_iff (n : Nat) :
    (peerOf (taken s f arrival) n).isSome = true ↔ ∃ p ∈ s.claims.view, p.station = n := by
  have hkeep : ∀ p : Peer, (if p.station = sourceOf f.id then { p with lastHeard := later p.lastHeard arrival }
      else p).station = p.station := fun p => by split <;> rfl
  rw [peerOf_isSome_iff]
  change (∃ p ∈ s.claims.view.map fun p => if p.station = sourceOf f.id then
    { p with lastHeard := later p.lastHeard arrival } else p, p.station = n) ↔ _
  simp only [List.mem_map, exists_exists_and_eq_and, hkeep]

theorem forgetLead_of_none (source code : Nat) (hnone : s.blend.lastEnded = none) : forgetLead source code s = s := by
  unfold forgetLead
  split
  · change { s with blend := { s.blend with lastEnded := none } } = s
    rw [← hnone]
  · rfl

/-- The peer view once a page 0 has been taken (R103). -/
def viewAfterPage0 (s : State) (f : Frame) (arrival : Nat) : List Peer :=
  if ∃ p ∈ s.claims.view, p.station = sourceOf f.id then
    (heard s f arrival).view.map (fun p => if p.station = sourceOf f.id then withPage0 (decodePage0 f) p else p)
  else (heard s f arrival).view ++ [newPeer (sourceOf f.id) arrival (decodePage0 f)]

theorem page0Taken_taken (hnone : s.blend.lastEnded = none) :
    page0Taken f arrival (taken s f arrival) =
      { taken s f arrival with claims := { s.claims with view := viewAfterPage0 s f arrival } } := by
  unfold page0Taken viewAfterPage0
  simp only
  cases hpeer : peerOf (taken s f arrival) (sourceOf f.id) with
  | some p =>
    rw [if_pos ((peerOf_taken_isSome_iff _).1 (by rw [hpeer]; rfl)),
      forgetLead_of_none (s := modPeer (sourceOf f.id) (withPage0 (decodePage0 f)) (taken s f arrival)) _ _ hnone]
    rfl
  | none =>
    have hnew : ¬∃ p ∈ s.claims.view, p.station = sourceOf f.id := fun h => by
      have := (peerOf_taken_isSome_iff (f := f) (arrival := arrival) _).2 h
      rw [hpeer] at this
      cases this
    rw [if_neg hnew]
    exact forgetLead_of_none (s := { taken s f arrival with claims := _ }) _ _ hnone

end

/-- Settles O42. -/
theorem takesUpdatePeerView : Obligations.TakesUpdatePeerView := by
  intro s f arrival hold
  have hpage : ∀ {n}, kindOf f.id = kStat → lowTagOf f.id = n → isPage n f = true := fun hk hn => by simp [isPage, hk, hn]
  have honly := taken_changes s f arrival
  refine ⟨fun hk => ?halt, fun hk => ?answer, fun hk => ?tkt, fun hk hn => ?page1, fun hk hn hnone => ?page0⟩
  case halt =>
    exact ⟨_, exec_take_same (by rw [exec, execTakeHalt]) hold (by rw [ofKind, hk]; rfl) rfl, rfl, rfl,
      (modPeer_only _ _ _).comp honly (ds := [.port, .claims])⟩
  case answer =>
    exact ⟨_, exec_take_same (by rw [exec, execTakeAnswer]) hold (by rw [ofKind, hk]; rfl) rfl, rfl, rfl, honly⟩
  case tkt =>
    exact ⟨_, exec_take_same (by rw [exec, execTakeTkt]) hold (by rw [ofKind, hk]; rfl) rfl, rfl, rfl, honly⟩
  case page1 =>
    exact ⟨_, exec_take_same (by rw [exec, execTakeStatPage1]) hold (hpage hk hn) rfl, rfl, rfl,
      (modPeer_only _ _ _).comp honly (ds := [.port, .claims])⟩
  case page0 =>
    have hexec := exec_take_same (i := .takeStatPage0) (by rw [exec, execTakeStatPage0]) hold (hpage hk hn)
      (by rw [page0Taken_taken hnone]; rfl)
    rw [page0Taken_taken hnone] at hexec
    refine ⟨_, hexec, rfl, congrArg (fun v => { s.claims with view := v }) ?_,
      (only_claims _).comp honly (ds := [.port, .claims])⟩
    have hflag : ((decodePage0 f).halt != 0) = decide ((decodePage0 f).halt ≠ 0) :=
      Bool.eq_iff_iff.2 (by simp)
    unfold viewAfterPage0 withPage0 newPeer
    rw [hflag]

end Sys2Proof.Machine
end

