-- ==== Sys2Proof/Proofs/SoundShape.lean ====
section
/-! PROOFS. What the agreement of the draw, its claim, the pairing and the valve reads of the part: its shape. Most
operations leave the shape as it was, or move one part of it; for each part there is one lemma that says when the moved shape
still agrees. -/

namespace Sys2Proof.Machine

set_option Elab.async false

/-! ### The shape of the part -/

/-- What `Sound` reads of the state. -/
structure Shape where
  station : StationState
  draw : DrawState
  drop : Bool
  selection : Bool
  current : Bool
  halt : HaltState
  stage : ValveRec
  pump : PumpState
  own : Option Phase
  follower : FollowerState
  bound : Bool
  serving : Option Serving

def shapeOf (s : State) : Shape where
  station := s.station.state
  draw := s.draw.state
  drop := s.draw.drop.isSome
  selection := s.draw.selection.isSome
  current := s.draw.current.isSome
  halt := s.valve.halt
  stage := s.valve.stage
  pump := s.valve.pump
  own := s.claims.own.map (·.phase)
  follower := s.blend.follower
  bound := s.blend.binding.isSome
  serving := s.handler.serving

/-- The drop context, the selection and the current draw record of a draw state (R40). -/
def partsOf : DrawState → Bool × Bool × Bool
  | .idle => (false, false, false)
  | .dropOpen => (true, false, false)
  | .ready => (true, true, false)
  | _ => (true, true, true)

/-- The draw states that go with a claim in a phase, or with none (R45, R113). -/
def claimAgrees (own : Option Phase) (d : DrawState) : Prop :=
  match own with
  | some .consented => drawOpen d = true
  | some _ => d = .claiming
  | none => d ≠ .claiming

/-- The draw state that a request waiting for the journal finds (R41, R43). -/
def waitAgrees (serving : Option Serving) (d : DrawState) : Prop :=
  match serving with
  | some ⟨_, .openDrop _ _⟩ => d = .idle
  | some ⟨_, .closeDrop⟩ => d = .dropOpen
  | _ => True

/-- Where the meter valve may be at FAST (R78). -/
def FastAllowed (x : Shape) : Prop :=
  x.halt = .clear ∧ (x.station = .listening ∨ x.station = .running) ∧
    ((x.draw = .flowing ∧ x.follower = .unbound) ∨ x.follower = .fRun ∨ x.follower = .fTrim)

/-- `Sound` on the shape. -/
structure Agrees (x : Shape) : Prop where
  parts : (x.drop, x.selection, x.current) = partsOf x.draw
  claim : claimAgrees x.own x.draw
  bound : x.follower = .unbound ↔ x.bound = false
  single : x.follower ≠ .unbound → x.current = false
  wait : waitAgrees x.serving x.draw
  halt : x.halt ≠ .clear → x.stage = .closed ∧ x.pump = .off
  fast : x.stage = .fast → FastAllowed x

theorem drawShape_iff (d : DrawUnit) :
    DrawShape d ↔ (d.drop.isSome, d.selection.isSome, d.current.isSome) = partsOf d.state := by
  obtain ⟨state, drop, selection, current⟩ := d
  cases state <;> simp [DrawShape, partsOf]

theorem claimShape_iff (s : State) : ClaimShape s ↔ claimAgrees (s.claims.own.map (·.phase)) s.draw.state := by
  unfold ClaimShape
  cases s.claims.own with
  | none => rfl
  | some o => cases hphase : o.phase <;> simp [claimAgrees, hphase]

theorem waitShape_iff (s : State) : WaitShape s ↔ waitAgrees s.handler.serving s.draw.state := by
  unfold WaitShape waitAgrees
  cases s.handler.serving with
  | none => rfl
  | some v =>
    obtain ⟨a, r⟩ := v
    cases r <;> rfl

theorem sound_iff (s : State) : Sound s ↔ Agrees (shapeOf s) := by
  constructor
  · intro h
    exact ⟨(drawShape_iff _).1 h.draw, (claimShape_iff s).1 h.claim, by simpa [shapeOf] using h.pair.1,
      fun hf => by simpa [shapeOf] using h.pair.2 hf, (waitShape_iff s).1 h.wait, h.halt, h.fast⟩
  · intro h
    exact ⟨(drawShape_iff _).2 h.parts, (claimShape_iff s).2 h.claim,
      ⟨by simpa [shapeOf] using h.bound, fun hf => by simpa [shapeOf] using h.single hf⟩, (waitShape_iff s).2 h.wait,
      h.halt, h.fast⟩

theorem Sound.agrees {s : State} (h : Sound s) : Agrees (shapeOf s) := (sound_iff s).1 h

/-! ### One part of the shape moved -/

section
variable {x : Shape}

theorem waitAgrees_of_working {serving : Option Serving} {d : DrawState} (h : waitAgrees serving d)
    (hidle : d ≠ .idle) (hopen : d ≠ .dropOpen) (e : DrawState) : waitAgrees serving e := by
  unfold waitAgrees at h ⊢
  split
  · exact absurd h hidle
  · exact absurd h hopen
  · trivial

theorem partsOf_open {d : DrawState} (h : drawOpen d = true) : partsOf d = (true, true, true) := by
  cases d <;> first | rfl | cases h

theorem Agrees.current_of_open (h : Agrees x) (hopen : drawOpen x.draw = true) : x.current = true := by
  have hparts := h.parts
  rw [partsOf_open hopen, Prod.mk.injEq, Prod.mk.injEq] at hparts
  exact hparts.2.2

theorem Agrees.current_of_claiming (h : Agrees x) (hclaiming : x.draw = .claiming) : x.current = true := by
  have hparts := h.parts
  rw [hclaiming, partsOf, Prod.mk.injEq, Prod.mk.injEq] at hparts
  · exact hparts.2.2
  all_goals nofun

/-- A station with a draw of its own follows none (R90). -/
theorem Agrees.unbound_of_current (h : Agrees x) (hcurrent : x.current = true) : x.follower = .unbound := by
  by_contra hfollower
  rw [h.single hfollower] at hcurrent
  cases hcurrent

/-- With a draw of its own that is not FLOWING the valve is not at FAST (R78). -/
theorem Agrees.not_fast_of_current (h : Agrees x) (hcurrent : x.current = true) (hflow : x.draw ≠ .flowing) :
    x.stage ≠ .fast := by
  intro hfast
  have hunbound := h.unbound_of_current hcurrent
  obtain ⟨-, -, ⟨hflowing, -⟩ | hrun | htrim⟩ := h.fast hfast
  · exact hflow hflowing
  · rw [hunbound] at hrun; cases hrun
  · rw [hunbound] at htrim; cases htrim

/-- A claim that is not consented is held in CLAIMING alone. -/
theorem Agrees.claiming_of_own (h : Agrees x) {p : Phase} (hown : x.own = some p) (hp : p ≠ .consented) :
    x.draw = .claiming := by
  have hclaim := h.claim
  rw [hown] at hclaim
  cases p with
  | consented => exact absurd rfl hp
  | queued => exact hclaim
  | inForce => exact hclaim

theorem claimAgrees_open {own : Option Phase} {d e : DrawState} (h : claimAgrees own d) (hd : drawOpen d = true)
    (he : drawOpen e = true) : claimAgrees own e := by
  cases own with
  | none => exact fun hclaiming => by rw [hclaiming] at he; cases he
  | some p =>
    cases p with
    | consented => exact he
    | queued => rw [show d = .claiming from h] at hd; cases hd
    | inForce => rw [show d = .claiming from h] at hd; cases hd

theorem Agrees.with_stage (h : Agrees x) {v : ValveRec} (hhalt : x.halt ≠ .clear → v = .closed)
    (hfast : v = .fast → FastAllowed x) : Agrees { x with stage := v } :=
  ⟨h.parts, h.claim, h.bound, h.single, h.wait, fun hx => ⟨hhalt hx, (h.halt hx).2⟩, hfast⟩

theorem Agrees.with_pump (h : Agrees x) {p : PumpState} (hhalt : x.halt ≠ .clear → p = .off) :
    Agrees { x with pump := p } :=
  ⟨h.parts, h.claim, h.bound, h.single, h.wait, fun hx => ⟨(h.halt hx).1, hhalt hx⟩, h.fast⟩

/-- Between draw states with an open session nothing but FAST is at stake. -/
theorem Agrees.with_open_draw (h : Agrees x) {d : DrawState} (hx : drawOpen x.draw = true) (hd : drawOpen d = true)
    (hfast : x.stage ≠ .fast ∨ d = .flowing) : Agrees { x with draw := d } := by
  have hunbound := h.unbound_of_current (h.current_of_open hx)
  refine ⟨?_, claimAgrees_open h.claim hx hd, h.bound, h.single, ?_, h.halt, fun hstage => ?_⟩
  · rw [h.parts, partsOf_open hx, partsOf_open hd]
  · exact waitAgrees_of_working h.wait (by rintro hi; rw [hi] at hx; cases hx) (by rintro hi; rw [hi] at hx; cases hx) d
  · obtain hnot | rfl := hfast
    · exact absurd hstage hnot
    · obtain ⟨hclear, hstation, -⟩ := h.fast hstage
      exact ⟨hclear, hstation, .inl ⟨rfl, hunbound⟩⟩

/-- Between states of a bound follower nothing but FAST is at stake. -/
theorem Agrees.with_follower (h : Agrees x) {g : FollowerState} (hx : x.follower ≠ .unbound) (hg : g ≠ .unbound)
    (hfast : x.stage ≠ .fast ∨ g = .fRun ∨ g = .fTrim) : Agrees { x with follower := g } := by
  refine ⟨h.parts, h.claim, ⟨fun hu => absurd hu hg, fun hb => absurd (h.bound.2 hb) hx⟩, fun _ => h.single hx, h.wait,
    h.halt, fun hstage => ?_⟩
  obtain hnot | hg := hfast
  · exact absurd hstage hnot
  · obtain ⟨hclear, hstation, -⟩ := h.fast hstage
    exact ⟨hclear, hstation, .inr hg⟩

end

/-! ### Operations that leave the shape -/

section
variable {s t : State} {bs : List Block}

/-- The blocks that no part of the shape is read from. -/
theorem shapeOf_of_only (h : OnlyChanges bs s t)
    (hb : .station ∉ bs ∧ .draw ∉ bs ∧ .valve ∉ bs ∧ .claims ∉ bs ∧ .blend ∉ bs ∧ .handler ∉ bs := by decide) :
    shapeOf t = shapeOf s := by
  obtain ⟨hstation, hdraw, hvalve, hclaims, hblend, hhandler⟩ := hb
  have hstation : t.station = s.station := h.get .station hstation
  have hdraw : t.draw = s.draw := h.get .draw hdraw
  have hvalve : t.valve = s.valve := h.get .valve hvalve
  have hclaims : t.claims = s.claims := h.get .claims hclaims
  have hblend : t.blend = s.blend := h.get .blend hblend
  have hhandler : t.handler = s.handler := h.get .handler hhandler
  simp only [shapeOf, hstation, hdraw, hvalve, hclaims, hblend, hhandler]

@[simp] theorem shapeOf_sendFrame (w : Sender) (f : Frame) (s : State) : shapeOf (sendFrame w f s) = shapeOf s :=
  shapeOf_of_only (sendFrame_only w f s)

@[simp] theorem shapeOf_handWork (w : Work) (s : State) : shapeOf (handWork w s) = shapeOf s :=
  shapeOf_of_only (handWork_only w s)

@[simp] theorem shapeOf_queueStat (s : State) : shapeOf (queueStat s) = shapeOf s := shapeOf_of_only (queueStat_only s)

theorem shapeOf_announce (f : State → State) (s : State) : shapeOf (announce f s) = shapeOf (f s) :=
  shapeOf_of_only (announce_only_port f s)

@[simp] theorem shapeOf_passTo (due : Nat) (s : State) : shapeOf (passTo due s) = shapeOf s := rfl

@[simp] theorem shapeOf_sendLeadProg (b : Bool) (s : State) : shapeOf (sendLeadProg b s) = shapeOf s :=
  shapeOf_of_only (sendLeadProg_only b s)

@[simp] theorem shapeOf_drawChanged (s : State) : shapeOf (drawChanged s) = shapeOf s :=
  shapeOf_of_only (drawChanged_only s)

@[simp] theorem shapeOf_followerChanged (s : State) : shapeOf (followerChanged s) = shapeOf s :=
  shapeOf_of_only (followerChanged_only s)

@[simp] theorem shapeOf_openSession (o : Owner) (s : State) : shapeOf (openSession o s) = shapeOf s :=
  shapeOf_of_only (openSession_only o s)

@[simp] theorem shapeOf_closeSession (s : State) : shapeOf (closeSession s).1 = shapeOf s :=
  shapeOf_of_only (closeSession_only s)

@[simp] theorem shapeOf_clearContext (o : Owner) (p : Option ProductEntry) (v : Option Int) (sh : Option Nat) (s : State) :
    shapeOf (clearContext o p v sh s) = shapeOf s := rfl

@[simp] theorem shapeOf_modCurrent (f : Current → Current) (s : State) : shapeOf (modCurrent f s) = shapeOf s := by
  simp [shapeOf, modCurrent]

@[simp] theorem shapeOf_modBinding (f : Binding → Binding) (s : State) : shapeOf (modBinding f s) = shapeOf s := by
  simp [shapeOf, modBinding]

@[simp] theorem shapeOf_clearThrottle (s : State) : shapeOf (clearThrottle s) = shapeOf s := rfl

@[simp] theorem shapeOf_modPeer (n : Nat) (f : Peer → Peer) (s : State) : shapeOf (modPeer n f s) = shapeOf s := rfl

/-- A change of the own claim that keeps its phase. -/
theorem shapeOf_modOwn {f : OwnClaim → OwnClaim} (hf : ∀ o, (f o).phase = o.phase) (s : State) :
    shapeOf (modOwn f s) = shapeOf s := by
  have hphase : (fun o : OwnClaim => o.phase) ∘ f = (·.phase) := funext hf
  simp [shapeOf, modOwn, hphase]

@[simp] theorem shapeOf_settleEntry (a : Asker) (x : Option Answer) (s : State) :
    shapeOf (settleEntry a x s) = shapeOf s := rfl

@[simp] theorem shapeOf_answer (a : Asker) (x : Answer) (s : State) : shapeOf (answer a x s) = shapeOf s :=
  shapeOf_sendFrame _ _ s

@[simp] theorem shapeOf_settleDeferred (x : Answer) (s : State) : shapeOf (settleDeferred x s) = shapeOf s := by
  unfold settleDeferred
  split
  · exact shapeOf_answer _ _ _
  · rfl

@[simp] theorem shapeOf_abandonDeferred (s : State) : shapeOf (abandonDeferred s) = shapeOf s := by
  unfold abandonDeferred
  split <;> rfl

@[simp] theorem shapeOf_clearCause (k : Cond) (s : State) : shapeOf (clearCause k s) = shapeOf s := by
  unfold clearCause
  split
  · exact shapeOf_modCurrent _ s
  · rfl

@[simp] theorem shapeOf_sendConsent (id : ClaimId) (r : Resource) (x : Option Reason) (s : State) :
    shapeOf (sendConsent id r x s) = shapeOf s := shapeOf_sendFrame _ _ s

@[simp] theorem shapeOf_countConsented (x : Subject) (n : Nat) (s : State) :
    shapeOf (countConsented x n s) = shapeOf s := by
  unfold countConsented
  split <;> rfl

@[simp] theorem shapeOf_setPumpPending (x : Subject) (on : Bool) (s : State) :
    shapeOf (setPumpPending x on s) = shapeOf s := by
  unfold setPumpPending
  split
  · exact shapeOf_modOwn (f := fun o => { o with pumpPending := on }) (fun _ => rfl) s
  · rfl

@[simp] theorem shapeOf_ownGranted (x : Subject) (r : Resource) (s : State) : shapeOf (ownGranted x r s) = shapeOf s := by
  unfold ownGranted
  split
  · exact shapeOf_modOwn (f := grantStatus r) (fun _ => rfl) s
  · rfl

@[simp] theorem shapeOf_discardHeld (p : HeldReport → Bool) (s : State) : shapeOf (discardHeld p s) = shapeOf s := by
  unfold discardHeld
  split
  · split <;> rfl
  · rfl

@[simp] theorem shapeOf_dropPartnerRecord (id : ClaimId) (s : State) : shapeOf (dropPartnerRecord id s) = shapeOf s := rfl

end

/-! ### Operations that keep the part sound -/

/-- From `s` to `t` the part stays sound. -/
def SoundKept (s t : State) : Prop := Sound s → Sound t

section
variable {s t u : State} {bs : List Block}

theorem SoundKept.refl (s : State) : SoundKept s s := fun h => h

theorem SoundKept.trans (h₁ : SoundKept s t) (h₂ : SoundKept t u) : SoundKept s u := fun h => h₂ (h₁ h)

theorem SoundKept.ite {p : Prop} [Decidable p] (h₁ : SoundKept s t) (h₂ : SoundKept s u) :
    SoundKept s (if p then t else u) := by split <;> assumption

theorem SoundKept.of_shape (h : shapeOf t = shapeOf s) : SoundKept s t := fun hs => by
  rw [sound_iff, h]; exact hs.agrees

/-- After a move that leaves the shape. -/
theorem SoundKept.after (h₂ : SoundKept t u) (h₁ : shapeOf t = shapeOf s) : SoundKept s u :=
  (SoundKept.of_shape h₁).trans h₂

/-- Before a move that leaves the shape. -/
theorem SoundKept.before (h₁ : SoundKept s t) (h₂ : shapeOf u = shapeOf t) : SoundKept s u := h₁.trans (.of_shape h₂)

theorem SoundKept.agrees (h : SoundKept s t) (hs : Sound s) : Agrees (shapeOf t) := (h hs).agrees

end

/-! ### Stage requests (R76, R78) -/

section
variable {who : Owner} {r : StageReq} {s : State}

theorem shapeOf_requestStage (who : Owner) (r : StageReq) (s : State) :
    shapeOf (requestStage who r s) = { shapeOf s with stage := (requestStage who r s).valve.stage } := by
  obtain h | h := requestStage_taken_or_same who r s <;> rw [h] <;> rfl

theorem requestStage_halted (h : s.valve.halt ≠ .clear) : requestStage who r s = s := requestStage_not_taken (.inr h)

/-- Only a request for FAST brings the valve to FAST (R76). -/
theorem stageTaken_fast (h : stageTaken who r s = .fast) : r = .fast := by
  unfold stageTaken withDwell at h
  cases r with
  | fast => rfl
  | closed =>
    split at h <;> cases hstage : s.valve.stage <;> rw [hstage] at h <;> cases h
  | slow =>
    split at h <;> cases hstage : s.valve.stage <;> rw [hstage] at h <;> cases h

/-- A FAST that is accepted is allowed (R78). -/
theorem fastAllowed_of_accepted (h : fastAccepted who s = true) (howner : who = stageOwner s) : FastAllowed
  (shapeOf s) := by
  simp only [fastAccepted, Bool.and_eq_true, Bool.or_eq_true, beq_iff_eq] at h
  obtain ⟨⟨hhalt, hstation⟩, hwho⟩ := h
  refine ⟨hhalt, hstation, ?_⟩
  cases who with
  | draw =>
    have hflowing : s.draw.state = .flowing := by simpa using hwho
    have hunbound : s.blend.follower = .unbound := by
      by_contra hfollower
      rw [stageOwner, if_neg hfollower] at howner
      cases howner
    exact .inl ⟨hflowing, hunbound⟩
  | blend =>
    have hrunning : s.blend.follower = .fRun ∨ s.blend.follower = .fTrim := by simpa using hwho
    exact .inr hrunning

theorem owner_of_accepted (h : requestAccepted who r s = true) : who = stageOwner s := by
  simp only [requestAccepted, Bool.and_eq_true, beq_iff_eq] at h
  exact h.1.2

/-- After a request the valve is at FAST only where it stood there or where FAST is allowed (R78). -/
theorem requestStage_fast (h : (requestStage who r s).valve.stage = .fast) :
    requestStage who r s = s ∧ s.valve.stage = .fast ∨ r = .fast ∧ FastAllowed (shapeOf s) := by
  by_cases htaken : requestAccepted who r s = true ∧ s.valve.halt = .clear
  · rw [requestStage_taken htaken.1 htaken.2] at h
    obtain rfl := stageTaken_fast h
    exact .inr ⟨rfl, fastAllowed_of_accepted (fastAccepted_of_requestAccepted htaken.1) (owner_of_accepted htaken.1)⟩
  · have hsame := requestStage_not_taken (who := who) (r := r) (s := s) (by rwa [not_and_or, Bool.not_eq_true] at htaken)
    rw [hsame] at h
    exact .inl ⟨hsame, h⟩

theorem requestStage_kept (who : Owner) (r : StageReq) (s : State) : SoundKept s (requestStage who r s) := fun hs => by
  rw [sound_iff, shapeOf_requestStage]
  refine hs.agrees.with_stage (fun hhalt => ?_) fun hfast => ?_
  · rw [requestStage_halted hhalt]; exact (hs.halt hhalt).1
  · obtain ⟨-, hstood⟩ | ⟨-, hallowed⟩ := requestStage_fast hfast
    · exact hs.agrees.fast hstood
    · exact hallowed

theorem operating_of_fastStation (h : s.station.state = .listening ∨ s.station.state = .running) : operating s = true := by
  obtain h | h := h <;> simp [operating, h]

/-- A request for CLOSED by the owner of the stage takes the valve out of FAST (R76). -/
theorem requestStage_closed_not_fast
    (h : s.valve.stage = .fast → s.valve.halt = .clear ∧ operating s = true ∧ who = stageOwner s) :
    (requestStage who .closed s).valve.stage ≠ .fast := by
  intro hfast
  obtain ⟨hsame, hstood⟩ | ⟨hr, -⟩ := requestStage_fast hfast
  · obtain ⟨hhalt, hop, howner⟩ := h hstood
    have haccepted : requestAccepted who .closed s = true := by simp [requestAccepted, hop, howner]
    rw [requestStage_taken haccepted hhalt] at hfast
    cases stageTaken_fast hfast
  · cases hr

theorem shapeOf_requestDraw (r : StageReq) (s : State) :
    shapeOf (requestDraw r s) = { shapeOf s with stage := (requestStage .draw r s).valve.stage } := by
  rw [requestDraw, shapeOf_modCurrent, shapeOf_requestStage]

theorem shapeOf_requestFollower (r : StageReq) (s : State) :
    shapeOf (requestFollower r s) = { shapeOf s with stage := (requestStage .blend r s).valve.stage } := by
  rw [← shapeOf_requestStage]
  unfold requestFollower
  simp only
  split <;> rfl

theorem requestDraw_kept (r : StageReq) (s : State) : SoundKept s (requestDraw r s) :=
  (requestStage_kept .draw r s).before (by rw [shapeOf_requestDraw, shapeOf_requestStage])

theorem requestFollower_kept (r : StageReq) (s : State) : SoundKept s (requestFollower r s) :=
  (requestStage_kept .blend r s).before (by rw [shapeOf_requestFollower, shapeOf_requestStage])

theorem evaluateStage_kept (s : State) : SoundKept s (evaluateStage s) := by
  unfold evaluateStage
  split
  · exact .ite (.refl s) (requestDraw_kept _ s)
  · exact .refl s

end

/-! ### The pump -/

/-- From `s` to `t` the pump alone moved, and it did not leave OFF in a halt (R81, R82). -/
def PumpMoved (s t : State) : Prop :=
  ∃ p, shapeOf t = { shapeOf s with pump := p } ∧ (s.valve.halt ≠ .clear → s.valve.pump = .off → p = .off)

section
variable {s t u : State}

theorem PumpMoved.of_shape (h : shapeOf t = shapeOf s) : PumpMoved s t := ⟨s.valve.pump, h, fun _ hoff => hoff⟩

theorem PumpMoved.trans (h₁ : PumpMoved s t) (h₂ : PumpMoved t u) : PumpMoved s u := by
  obtain ⟨p, ht, hp⟩ := h₁
  obtain ⟨q, hu, hq⟩ := h₂
  have hhalt : t.valve.halt = s.valve.halt := congrArg Shape.halt ht
  have hpump : t.valve.pump = p := congrArg Shape.pump ht
  refine ⟨q, by rw [hu, ht], fun hne hoff => hq (by rwa [hhalt]) (by rw [hpump]; exact hp hne hoff)⟩

theorem PumpMoved.kept (h : PumpMoved s t) : SoundKept s t := fun hs => by
  obtain ⟨p, ht, hp⟩ := h
  rw [sound_iff, ht]
  exact hs.agrees.with_pump fun hhalt => hp hhalt (hs.halt hhalt).2

theorem setPumpNeeded_moved (b : Bool) (s : State) : PumpMoved s (setPumpNeeded b s) := by
  unfold setPumpNeeded
  split
  · exact .of_shape rfl
  · refine ⟨_, rfl, fun hhalt hoff => ?_⟩
    rw [hoff]
    cases b <;> simp [pumpCommand, hhalt]

theorem setCommands_moved (s : State) : PumpMoved s (setCommands s) :=
  PumpMoved.trans (t := { s with valve := { s.valve with compCommands := neededComps s } }) (.of_shape rfl)
    (setPumpNeeded_moved _ _)

theorem dropRecords_moved (id : ClaimId) (s : State) : PumpMoved s (dropRecords id s) :=
  PumpMoved.trans (t := { s with claims := { s.claims with records := s.claims.records.filter (fun x => x.2 != id) } })
    (.of_shape rfl) (setCommands_moved _)

theorem addRecord_moved (r : Resource) (id : ClaimId) (s : State) : PumpMoved s (addRecord r id s) := by
  unfold addRecord
  exact PumpMoved.trans (.of_shape rfl) (setCommands_moved _)

theorem grant_moved (x : Subject) (r : Resource) (s : State) : PumpMoved s (grant x r s) := by
  refine (addRecord_moved r x.claim.id s).trans (.of_shape ?_)
  unfold grant
  simp only
  split <;> simp

theorem pumpVerdict_moved (x : Subject) (m : Manifold) (s : State) : PumpMoved s (pumpVerdict x m s).1 := by
  unfold pumpVerdict
  simp only
  split
  · exact .of_shape (by simp)
  · exact PumpMoved.trans (.of_shape (shapeOf_setPumpPending _ _ _)) (grant_moved _ _ _)

end

end Sys2Proof.Machine
end

