-- ==== Sys2Proof/Proofs/SoundMoves.lean ====
section
/-! PROOFS. The moves of the shape that the operations of the draw, the claim, the follower and the halt make, and where each
keeps the agreement. -/

namespace Sys2Proof.Machine

set_option Elab.async false

section
variable {x : Shape}

/-! ### What an agreeing shape rules out -/

theorem Agrees.quiet_of_no_current (h : Agrees x) (hcurrent : x.current = false) :
    x.draw = .idle ∨ x.draw = .dropOpen ∨ x.draw = .ready := by
  have hparts := h.parts
  cases hdraw : x.draw <;> simp [hdraw, partsOf, hcurrent] at hparts ⊢

/-- With no current draw record no claim is held (R45, R113). -/
theorem Agrees.no_claim_of_quiet (h : Agrees x) (hcurrent : x.current = false) : x.own = none := by
  have hclaim := h.claim
  cases hown : x.own with
  | none => rfl
  | some p =>
    rw [hown] at hclaim
    obtain hdraw | hdraw | hdraw := h.quiet_of_no_current hcurrent <;> rw [hdraw] at hclaim <;> cases p <;> cases hclaim

theorem Agrees.not_fast_of_follower (h : Agrees x) (hbound : x.follower ≠ .unbound) (hrun : x.follower ≠ .fRun)
    (htrim : x.follower ≠ .fTrim) : x.stage ≠ .fast := by
  intro hfast
  obtain ⟨-, -, ⟨-, hunbound⟩ | hx | hx⟩ := h.fast hfast
  · exact hbound hunbound
  · exact hrun hx
  · exact htrim hx

theorem Agrees.not_fast_of_station (h : Agrees x) (hlisten : x.station ≠ .listening) (hrun : x.station ≠ .running) :
    x.stage ≠ .fast := fun hfast => (h.fast hfast).2.1.elim hlisten hrun

theorem Agrees.not_fast_of_halt (h : Agrees x) (hhalt : x.halt ≠ .clear) : x.stage ≠ .fast := fun hfast =>
  hhalt (h.fast hfast).1

theorem Agrees.not_claiming_of_consented (h : Agrees x) (hown : x.own = some .consented) : drawOpen x.draw = true := by
  have hclaim := h.claim
  rw [hown] at hclaim
  exact hclaim

/-! ### The draw and its claim -/

/-- Between draw states without a draw record the drop context and the selection follow the state (R40). -/
theorem Agrees.with_parts (h : Agrees x) (hcurrent : x.current = false) (hserving : x.serving = none) {d : DrawState}
    {drop sel : Bool} (hparts : (drop, sel, false) = partsOf d) :
    Agrees { x with draw := d, drop := drop, selection := sel } := by
  refine ⟨by rw [hcurrent]; exact hparts, ?_, h.bound, h.single, by rw [hserving]; trivial, h.halt, fun hfast => ?_⟩
  · rw [h.no_claim_of_quiet hcurrent]
    intro (hclaiming : d = .claiming)
    rw [hclaiming] at hparts
    cases hparts
  · obtain ⟨hclear, hstation, ⟨hflowing, -⟩ | hfollower⟩ := h.fast hfast
    · obtain hdraw | hdraw | hdraw := h.quiet_of_no_current hcurrent <;> rw [hdraw] at hflowing <;> cases hflowing
    · exact ⟨hclear, hstation, .inr hfollower⟩

/-- READY to CLAIMING with a claim QUEUED (R45). -/
theorem Agrees.claim_queued (h : Agrees x) (hready : x.draw = .ready) (hunbound : x.follower = .unbound)
    (hserving : x.serving = none) : Agrees { x with draw := .claiming, current := true, own := some .queued } := by
  have hparts := h.parts
  rw [hready, partsOf, Prod.mk.injEq, Prod.mk.injEq] at hparts
  refine ⟨by rw [hparts.1, hparts.2.1, partsOf]; all_goals nofun, rfl, h.bound, fun hne => absurd hunbound hne,
    by rw [hserving]; trivial, h.halt, fun hfast => ?_⟩
  obtain ⟨-, -, ⟨hflowing, -⟩ | hrun | htrim⟩ := h.fast hfast
  · rw [hready] at hflowing; cases hflowing
  · rw [hunbound] at hrun; cases hrun
  · rw [hunbound] at htrim; cases htrim

/-- A claim that ends in CLAIMING leaves the draw in READY (R46). -/
theorem Agrees.claim_ended (h : Agrees x) (hclaiming : x.draw = .claiming) :
    Agrees { x with draw := .ready, current := false, own := none } := by
  have hcurrent := h.current_of_claiming hclaiming
  have hunbound := h.unbound_of_current hcurrent
  have hfast := h.not_fast_of_current hcurrent (by rw [hclaiming]; decide)
  have hparts := h.parts
  rw [hclaiming, partsOf, Prod.mk.injEq, Prod.mk.injEq] at hparts
  · refine ⟨by rw [hparts.1, hparts.2.1]; rfl, by rintro ⟨⟩, h.bound, fun hne => absurd hunbound hne, ?_, h.halt,
      fun hx => absurd hx hfast⟩
    exact waitAgrees_of_working h.wait (by rw [hclaiming]; decide) (by rw [hclaiming]; decide) _
  all_goals nofun

/-- A claim consented in CLAIMING brings the draw into PRIMING (R45, R113). -/
theorem Agrees.claim_consented (h : Agrees x) (hclaiming : x.draw = .claiming) :
    Agrees { x with draw := .priming, own := some .consented } := by
  have hfast := h.not_fast_of_current (h.current_of_claiming hclaiming) (by rw [hclaiming]; decide)
  have hparts := h.parts
  rw [hclaiming] at hparts
  exact ⟨hparts.trans rfl, rfl, h.bound, h.single,
    waitAgrees_of_working h.wait (by rw [hclaiming]; decide) (by rw [hclaiming]; decide) _, h.halt,
    fun hx => absurd hx hfast⟩

/-- A claim that is not consented may be in either phase. -/
theorem Agrees.claim_pending (h : Agrees x) {p q : Phase} (hown : x.own = some p) (hp : p ≠ .consented)
    (hq : q ≠ .consented) : Agrees { x with own := some q } := by
  refine ⟨h.parts, ?_, h.bound, h.single, h.wait, h.halt, h.fast⟩
  have hclaiming := h.claiming_of_own hown hp
  cases q with
  | consented => exact absurd rfl hq
  | queued => exact hclaiming
  | inForce => exact hclaiming

/-- Outside CLAIMING a claim may be given up. -/
theorem Agrees.claim_gone (h : Agrees x) (hdraw : x.draw ≠ .claiming) : Agrees { x with own := none } :=
  ⟨h.parts, hdraw, h.bound, h.single, h.wait, h.halt, h.fast⟩

/-- The end of CLOSING, with the claim released, leaves the drop in DROP_OPEN (R67, R71). -/
theorem Agrees.draw_ended (h : Agrees x) (hclosing : x.draw = .closing) :
    Agrees { x with draw := .dropOpen, selection := false, current := false, own := none } := by
  have hopen : drawOpen x.draw = true := by rw [hclosing]; rfl
  have hcurrent := h.current_of_open hopen
  have hfast := h.not_fast_of_current hcurrent (by rw [hclosing]; decide)
  have hparts := h.parts
  rw [partsOf_open hopen, Prod.mk.injEq, Prod.mk.injEq] at hparts
  refine ⟨by rw [hparts.1]; rfl, by rintro ⟨⟩, h.bound, fun hne => absurd (h.unbound_of_current hcurrent) hne, ?_, h.halt,
    fun hx => absurd hx hfast⟩
  exact waitAgrees_of_working h.wait (by rw [hclosing]; decide) (by rw [hclosing]; decide) _

/-! ### The pairing -/

/-- A station with no draw of its own may be bound (R136). -/
theorem Agrees.bound_now (h : Agrees x) (hunbound : x.follower = .unbound) (hcurrent : x.current = false) :
    Agrees { x with follower := .bound, bound := true } := by
  refine ⟨h.parts, h.claim, ⟨nofun, nofun⟩, fun _ => hcurrent, h.wait, h.halt, fun hfast => ?_⟩
  obtain ⟨-, -, ⟨hflowing, -⟩ | hrun | htrim⟩ := h.fast hfast
  · have hparts := h.parts
    rw [hflowing, hcurrent, partsOf, Prod.mk.injEq, Prod.mk.injEq] at hparts
    · cases hparts.2.2
    all_goals nofun
  · rw [hunbound] at hrun; cases hrun
  · rw [hunbound] at htrim; cases htrim

/-- A follower in BOUND or F_CLOSE may be set free (R139, R151). -/
theorem Agrees.unbound_now (h : Agrees x) (hfollower : x.follower = .bound ∨ x.follower = .fClose) :
    Agrees { x with follower := .unbound, bound := false } := by
  have hfast : x.stage ≠ .fast := by
    obtain hf | hf := hfollower <;>
      exact h.not_fast_of_follower (by rw [hf]; decide) (by rw [hf]; decide) (by rw [hf]; decide)
  exact ⟨h.parts, h.claim, ⟨fun _ => rfl, fun _ => rfl⟩, fun hne => absurd rfl hne, h.wait, h.halt,
    fun hx => absurd hx hfast⟩

/-! ### The halt, the station and the waiting request -/

theorem Agrees.halt_begun (h : Agrees x) (r : HaltState) : Agrees { x with halt := r, stage := .closed, pump := .off } :=
  ⟨h.parts, h.claim, h.bound, h.single, h.wait, fun _ => ⟨rfl, rfl⟩, nofun⟩

theorem Agrees.halt_ended (h : Agrees x) (hset : x.halt ≠ .clear) (p : PumpState) :
    Agrees { x with halt := .clear, pump := p } :=
  ⟨h.parts, h.claim, h.bound, h.single, h.wait, fun hx => absurd rfl hx, fun hx => absurd hx (h.not_fast_of_halt hset)⟩

theorem Agrees.halt_still (h : Agrees x) (hset : x.halt ≠ .clear) (r : HaltState) : Agrees { x with halt := r } :=
  ⟨h.parts, h.claim, h.bound, h.single, h.wait, fun _ => h.halt hset, fun hx => absurd hx (h.not_fast_of_halt hset)⟩

theorem Agrees.with_station (h : Agrees x) {st : StationState}
    (hfast : x.stage ≠ .fast ∨ st = .listening ∨ st = .running) : Agrees { x with station := st } := by
  refine ⟨h.parts, h.claim, h.bound, h.single, h.wait, h.halt, fun hx => ?_⟩
  obtain hnot | hst := hfast
  · exact absurd hx hnot
  · obtain ⟨hclear, -, howner⟩ := h.fast hx
    exact ⟨hclear, hst, howner⟩

theorem Agrees.with_serving (h : Agrees x) {sv : Option Serving} (hwait : waitAgrees sv x.draw) :
    Agrees { x with serving := sv } := ⟨h.parts, h.claim, h.bound, h.single, hwait, h.halt, h.fast⟩

end

end Sys2Proof.Machine
end

