-- ==== Sys2Proof/Proofs/SoundOperations.lean ====
section
/-! PROOFS. The operations of the draw, the follower, the claim and the halt each keep the part sound. -/

namespace Sys2Proof.Machine

set_option Elab.async false

/-! ### The draw (R55 to R67) -/

section
variable {s t : State}

/-- A request for CLOSED that goes with a move of the draw between states with an open session takes the valve out of
FAST. -/
theorem requestDraw_closed_moved {d : DrawState} (ht : shapeOf t = { shapeOf s with draw := d })
    (hs : drawOpen s.draw.state = true) (hd : drawOpen d = true) : SoundKept s (requestDraw .closed t) := fun h => by
  have hx := h.agrees
  have hunbound : s.blend.follower = .unbound := hx.unbound_of_current (hx.current_of_open hs)
  have hstation : t.station.state = s.station.state := congrArg Shape.station ht
  have hstage : t.valve.stage = s.valve.stage := congrArg Shape.stage ht
  have hhalt : t.valve.halt = s.valve.halt := congrArg Shape.halt ht
  have hfollower : t.blend.follower = .unbound := (congrArg Shape.follower ht).trans hunbound
  have hnot : (requestStage .draw .closed t).valve.stage ≠ .fast := requestStage_closed_not_fast fun hfast => by
    obtain ⟨hclear, hline, -⟩ := hx.fast (hstage.symm.trans hfast)
    refine ⟨hhalt.trans hclear, operating_of_fastStation ?_, by rw [stageOwner, if_pos hfollower]⟩
    rw [hstation]
    exact hline
  rw [sound_iff, shapeOf_requestDraw, ht]
  refine (hx.with_stage (v := (requestStage .draw .closed t).valve.stage) (fun hset => ?_)
    fun hfast => absurd hfast hnot).with_open_draw hs hd (.inl hnot)
  have hset' : t.valve.halt ≠ .clear := hhalt ▸ hset
  rw [requestStage_halted hset', hstage]
  exact (hx.halt hset).1

theorem leaveFlow_kept {d : DrawState} (f : Current → Current) (hs : drawOpen s.draw.state = true)
    (hd : drawOpen d = true) : SoundKept s (leaveFlow d f s) := by
  rw [leaveFlow_eq]
  refine (requestDraw_closed_moved (t := flowLeft d f s) ?_ hs hd).before (shapeOf_drawChanged _)
  simp [shapeOf, flowLeft, clearThrottle]

theorem suspend_kept (raise : Causes → Causes) (s : State) : SoundKept s (suspend raise s) := by
  unfold suspend
  split
  · next h => exact leaveFlow_kept _ (by rw [h]; rfl) rfl
  · next h => exact leaveFlow_kept _ (by rw [h]; rfl) rfl
  · exact .of_shape (shapeOf_modCurrent _ s)
  · exact .refl s

theorem shapeOf_with_lead (l : Option Lead) (s : State) :
    shapeOf { s with blend := { s.blend with lead := l } } = shapeOf s := rfl

theorem enterClosing_kept (ending : Ending) (s : State) : SoundKept s (enterClosing ending s) := by
  unfold enterClosing
  split
  · next h =>
    refine (leaveFlow_kept _ ?_ rfl).before (shapeOf_with_lead _ _)
    obtain h | h | h := h <;> rw [h] <;> rfl
  · exact .refl s

/-- The part with its draw in FLOWING and the record of FLOWING begun. -/
def flowBegun (s : State) : State :=
  let t := modCurrent (flowingRecord s) (clearThrottle s)
  { t with draw := { t.draw with state := .flowing } }

theorem enterFlowing_kept (hs : drawOpen s.draw.state = true) : SoundKept s (enterFlowing s) := by
  have hbegun : SoundKept s (flowBegun s) := fun h => by
    have hshape : shapeOf (flowBegun s) = { shapeOf s with draw := .flowing } := by
      simp [shapeOf, flowBegun, clearThrottle, modCurrent]
    rw [sound_iff, hshape]
    exact h.agrees.with_open_draw hs rfl (.inr rfl)
  exact (hbegun.trans (evaluateStage_kept _)).before (shapeOf_drawChanged _)

theorem signalPoint_kept (p : Point) (s : State) : SoundKept s (signalPoint p s) := by
  cases p with
  | slowdown => exact (evaluateStage_kept _).after rfl
  | close => exact .ite (enterClosing_kept _ s) (.refl s)

theorem superviseOverspeed_kept (s : State) : SoundKept s (superviseOverspeed s) := by
  unfold superviseOverspeed
  split
  · refine .ite ?_ (.of_shape (shapeOf_modCurrent _ s))
    exact .ite ((suspend_kept _ _).after (shapeOf_modCurrent _ s)) (.of_shape (shapeOf_modCurrent _ s))
  · exact .refl s

theorem superviseReverse_kept (s : State) : SoundKept s (superviseReverse s) := .ite (enterClosing_kept _ s) (.refl s)

theorem drawTempEvent_kept (e : TempEvent) (s : State) : SoundKept s (drawTempEvent e s) := by
  cases e with
  | expiry => exact suspend_kept _ s
  | restoration => exact .of_shape (shapeOf_clearCause _ s)

end

/-! ### The follower (R139 to R151) -/

section
variable {s t : State}

/-- A request for CLOSED that goes with a move of a bound follower takes the valve out of FAST. -/
theorem requestFollower_closed_moved {g : FollowerState} (ht : shapeOf t = { shapeOf s with follower := g })
    (hs : s.blend.follower ≠ .unbound) (hg : g ≠ .unbound) : SoundKept s (requestFollower .closed t) := fun h => by
  have hx := h.agrees
  have hstation : t.station.state = s.station.state := congrArg Shape.station ht
  have hstage : t.valve.stage = s.valve.stage := congrArg Shape.stage ht
  have hhalt : t.valve.halt = s.valve.halt := congrArg Shape.halt ht
  have hfollower : t.blend.follower = g := congrArg Shape.follower ht
  have hnot : (requestStage .blend .closed t).valve.stage ≠ .fast := requestStage_closed_not_fast fun hfast => by
    obtain ⟨hclear, hline, -⟩ := hx.fast (hstage.symm.trans hfast)
    refine ⟨hhalt.trans hclear, operating_of_fastStation ?_, by rw [stageOwner, hfollower, if_neg hg]⟩
    rw [hstation]
    exact hline
  rw [sound_iff, shapeOf_requestFollower, ht]
  refine (hx.with_stage (v := (requestStage .blend .closed t).valve.stage) (fun hset => ?_)
    fun hfast => absurd hfast hnot).with_follower hs hg (.inl hnot)
  have hset' : t.valve.halt ≠ .clear := hhalt ▸ hset
  rw [requestStage_halted hset', hstage]
  exact (hx.halt hset).1

theorem enterHold_kept (hs : s.blend.follower ≠ .unbound) : SoundKept s (enterHold s) :=
  (requestFollower_closed_moved (s := s) (g := .fHold) (t := { s with blend := { s.blend with follower := .fHold } }) rfl hs (by decide)).before
    (shapeOf_followerChanged _)

theorem raiseHold_kept (r : HoldReason) (s : State) : SoundKept s (raiseHold r s) := by
  have hmod := shapeOf_modBinding (fun b => { b with holds := setHold r true b.holds }) s
  have hfollower : (modBinding (fun b => { b with holds := setHold r true b.holds }) s).blend.follower = s.blend.follower := rfl
  unfold raiseHold
  split
  · next h => exact (enterHold_kept (by rw [hfollower, h]; decide)).after hmod
  · next h => exact (enterHold_kept (by rw [hfollower, h]; decide)).after hmod
  · exact .of_shape hmod
  · exact .refl s

/-- The follower moved to another state, with the stage as it stands. -/
theorem follower_moved {g : FollowerState} (ht : shapeOf t = { shapeOf s with follower := g })
    (hs : s.blend.follower ≠ .unbound) (hg : g ≠ .unbound)
    (hfast : (s.blend.follower ≠ .fRun ∧ s.blend.follower ≠ .fTrim) ∨ g = .fRun ∨ g = .fTrim) : SoundKept s t := fun h => by
  rw [sound_iff, ht]
  exact h.agrees.with_follower hs hg (hfast.imp_left fun hf => h.agrees.not_fast_of_follower hs hf.1 hf.2)

theorem enterRun_kept (hs : s.blend.follower ≠ .unbound) : SoundKept s (enterRun s) :=
  (follower_moved (s := s) (g := .fRun) (t := { s with blend := { s.blend with follower := .fRun, lastRequest := .closed } }) rfl hs (by decide)
    (.inr (.inl rfl))).before (shapeOf_followerChanged _)

theorem leaveHold_kept (hs : s.blend.follower = .fHold) : SoundKept s (leaveHold s) := by
  have hbound : s.blend.follower ≠ .unbound := by rw [hs]; decide
  unfold leaveHold
  split
  · split
    · refine .ite ?_ (.ite (enterRun_kept hbound) (.refl s))
      exact (follower_moved (s := s) (g := .fPrime) (t := { s with blend := { s.blend with follower := .fPrime } }) rfl hbound (by decide)
        (.inl (by rw [hs]; decide))).before (shapeOf_followerChanged _)
    · exact .refl s
  · exact .refl s

theorem dropHold_kept (r : HoldReason) (s : State) : SoundKept s (dropHold r s) := by
  have hmod := shapeOf_modBinding (fun b => { b with holds := setHold r false b.holds }) s
  unfold dropHold
  split
  · next h _ =>
    exact .ite ((leaveHold_kept (s := modBinding (fun b => { b with holds := setHold r false b.holds }) s) h).after hmod)
      (.of_shape hmod)
  · exact .refl s

/-- The part whose follower closes, before its stage request. -/
def closeBegun (code : EndCode) (s : State) : State :=
  let t := modBinding (fun b => { b with holds := .empty, quietDue := none }) s
  { t with
    blend := { t.blend with
      follower := .fClose
      trimDue := none
      closeEnteredAt := t.time
      endCode := some code
      valveNotClosed := false } }

theorem enterFClose_kept (code : EndCode) (hs : s.blend.follower ≠ .unbound) : SoundKept s (enterFClose code s) := by
  have hshape : shapeOf (closeBegun code s) = { shapeOf s with follower := .fClose } := by
    simp [shapeOf, closeBegun, modBinding]
  exact (requestFollower_closed_moved hshape hs (by decide)).before (shapeOf_followerChanged _)

/-- The part whose follower trims, before its stage request. -/
def trimBegun (s : State) : State :=
  let t := modBinding (fun b => { b with holds := .empty, quietDue := none }) s
  { t with blend := { t.blend with follower := .fTrim, trimDue := some (t.time + Config.trimTime) } }

theorem enterTrim_kept (hs : s.blend.follower ≠ .unbound) : SoundKept s (enterTrim s) := by
  have hshape : shapeOf (trimBegun s) = { shapeOf s with follower := .fTrim } := by simp [shapeOf, trimBegun, modBinding]
  have hbegun : SoundKept s (trimBegun s) := follower_moved hshape hs (by decide) (.inr (.inr rfl))
  exact (SoundKept.ite (hbegun.trans (requestFollower_kept _ _)) hbegun).before (shapeOf_followerChanged _)

/-- The part whose follower primes, its session open. -/
def primeBegun (b : Binding) (s : State) : State :=
  let t := openSession .blend (clearContext .blend (some b.product) none none s)
  { t with blend := { t.blend with follower := .fPrime, lag := 0, lastRequest := .closed } }

theorem enterFPrime_kept (hs : s.blend.follower = .bound) : SoundKept s (enterFPrime s) := by
  unfold enterFPrime
  split
  · next b _ =>
    have hopened := shapeOf_openSession .blend (clearContext .blend (some b.product) none none s)
    have hshape : shapeOf (primeBegun b s) = { shapeOf s with follower := .fPrime } := by
      rw [← shapeOf_clearContext .blend (some b.product) none none s, ← hopened]
      rfl
    have hbegun : SoundKept s (followerChanged (primeBegun b s)) :=
      (follower_moved hshape (by rw [hs]; decide) (by decide) (.inl (by rw [hs]; decide))).before (shapeOf_followerChanged _)
    exact .ite hbegun (hbegun.trans (raiseHold_kept _ _))
  · exact .refl s

theorem followReport_kept (code : Nat) (s : State) : SoundKept s (followReport code s) := by
  have hprimed : SoundKept s (if s.blend.follower = .bound ∧ drawCode .priming ≤ code ∧ code ≤ drawCode .closing then
      enterFPrime s else s) := by
    split
    · next h => exact enterFPrime_kept h.1
    · exact .refl s
  refine hprimed.trans ?_
  unfold followReport
  simp only
  generalize (if s.blend.follower = .bound ∧ drawCode .priming ≤ code ∧ code ≤ drawCode .closing then enterFPrime s
    else s) = t
  split
  · split
    · next h => exact enterTrim_kept (by rw [h]; decide)
    · next h => exact enterTrim_kept (by rw [h]; decide)
    · next h => exact enterTrim_kept (by rw [h]; decide)
    · exact .refl t
  · have hrun : ∀ u : State, SoundKept u (if u.blend.follower = .fPrime then enterRun u else u) := fun u => by
      split
      · next h => exact enterRun_kept (by rw [h]; decide)
      · exact .refl u
    exact .ite (raiseHold_kept _ t)
      (.ite (dropHold_kept _ t) (.ite ((dropHold_kept .leadHeld t).trans (hrun _)) (.refl t)))

theorem takeLeadReport_kept (r : LeadReport) (s : State) : SoundKept s (takeLeadReport r s) := by
  refine ((((SoundKept.of_shape (shapeOf_modBinding (fun b => { b with report := some r }) s)).trans
    (dropHold_kept .leadQuiet _)).trans (followReport_kept (reportedCode r) _)).before ?_)
  exact shapeOf_modBinding _ _

theorem followStage_kept (s : State) : SoundKept s (followStage s) := by
  unfold followStage
  split
  · exact .ite (.refl s) (requestFollower_kept _ s)
  · next h => exact .ite (enterFClose_kept _ (by rw [h]; decide)) (requestFollower_kept _ s)
  · exact .refl s

theorem followerTempEvent_kept (e : TempEvent) (s : State) : SoundKept s (followerTempEvent e s) := by
  cases e with
  | expiry => exact raiseHold_kept _ s
  | restoration => exact dropHold_kept _ s

theorem bind_kept (claim : ClaimId) (p : ProductEntry) (share : Nat) (hunbound : s.blend.follower = .unbound)
    (hcurrent : s.draw.current = none) : SoundKept s (bind claim p share s) := fun h => by
  rw [sound_iff]
  exact h.agrees.bound_now hunbound (by simp [shapeOf, hcurrent])

theorem bindingEnd_kept (id : ClaimId) (s : State) : SoundKept s (bindingEnd id s) := by
  unfold bindingEnd
  split
  · split
    · split
      · next h =>
        intro hs
        rw [sound_iff]
        exact hs.agrees.unbound_now (.inl h)
      · next h => exact enterFClose_kept _ (by rw [h]; decide)
      · next h => exact enterFClose_kept _ (by rw [h]; decide)
      · next h => exact enterFClose_kept _ (by rw [h]; decide)
      · next h => exact enterFClose_kept _ (by rw [h]; decide)
      · exact .refl s
    · exact .refl s
  · exact .refl s

theorem followerPulseFault_kept (s : State) : SoundKept s (followerPulseFault s) := by
  unfold followerPulseFault
  split
  · next b _ =>
    have hrefuse : ∀ (n : Nat), s.blend.follower ≠ .unbound → SoundKept s (enterFClose .pulseFault (dropPartnerRecord b.claim
        (sendFrame .blend (consentFrame n b.claim .partner (some .partnerEnded)) s))) := fun n hbound => by
      have hshape := (shapeOf_dropPartnerRecord b.claim _).trans
        (shapeOf_sendFrame .blend (consentFrame n b.claim .partner (some .partnerEnded)) s)
      exact (enterFClose_kept _ fun hu => hbound ((congrArg Shape.follower hshape).symm.trans hu)).after hshape
    simp only
    split
    · next h => exact hrefuse _ (by rw [h]; decide)
    · next h => exact hrefuse _ (by rw [h]; decide)
    · next h => exact hrefuse _ (by rw [h]; decide)
    · next h => exact hrefuse _ (by rw [h]; decide)
    · exact .refl s
  · exact .refl s

theorem raisePulseFault_kept (s : State) : SoundKept s (raisePulseFault s) := by
  unfold raisePulseFault
  refine .ite (.refl s) ?_
  simp only
  split
  · exact (enterClosing_kept _ _).after rfl
  · exact (followerPulseFault_kept _).after rfl
  · exact .of_shape rfl

@[simp] theorem shapeOf_followerCheckpoint (s : State) : shapeOf (followerCheckpoint s) = shapeOf s := shapeOf_handWork _ s

theorem shapeOf_sendFollowerProg (s : State) : shapeOf (sendFollowerProg s) = shapeOf s :=
  shapeOf_of_only (sendFollowerProg_only s)

theorem shapeOf_sendFinalReport (l q : Nat) (r : FinalReport) (s : State) :
    shapeOf (sendFinalReport l q r s) = shapeOf s := shapeOf_of_only (sendFinalReport_only l q r s)

theorem followerFinish_kept (b : Bool) (hs : s.blend.follower = .fClose) : SoundKept s (followerFinish b s) := by
  unfold followerFinish
  split
  · next w _ =>
    have hclosed := shapeOf_closeSession { s with blend := { s.blend with valveNotClosed := b } }
    intro h
    simp only
    rw [sound_iff]
    have hmoved : ∀ t : State, shapeOf t = shapeOf s → ∀ v,
        Agrees (shapeOf { t with blend := { t.blend with follower := .unbound, binding := none, lastEnded := some w.claim, held := v } }) :=
      fun t ht v => by
        have hx := h.agrees.unbound_now (.inr hs)
        rw [← ht] at hx
        exact hx
    refine hmoved _ ?_ _
    rw [shapeOf_dropPartnerRecord, shapeOf_handWork, shapeOf_sendFinalReport]
    split
    · rw [shapeOf_followerCheckpoint]; exact hclosed
    · exact hclosed
  · exact .refl s

end

end Sys2Proof.Machine
end

