-- ==== Sys2Proof/Proofs/SoundClaims.lean ====
section
/-! PROOFS. The line claims, the end of a draw and the halt keep the part sound: a claim that ends in CLAIMING takes the draw
back to READY, one that is consented brings it into PRIMING, and a consented one ends with its draw. -/

namespace Sys2Proof.Machine

set_option Elab.async false

/-! ### The own claim ends (R46, R67, R114) -/

section
variable {s t u : State}

/-- The part with its own claim given up. -/
def claimGone (s : State) : State := { s with claims := { s.claims with own := none } }

theorem releaseOwn_moved (s : State) : PumpMoved (claimGone s) (releaseOwn s) := by
  unfold releaseOwn
  split
  · next o _ =>
    obtain ⟨p, hp, hoff⟩ := (PumpMoved.of_shape (shapeOf_sendFrame .claimUnit (releaseFrame o.claim.id) s)).trans
      (dropRecords_moved o.claim.id _)
    exact ⟨p, congrArg (fun x : Shape => { x with own := none }) hp, hoff⟩
  · next hnone =>
    refine .of_shape ?_
    simp [shapeOf, claimGone, hnone]

theorem withdrawOwn_shape (h : s.claims.own.isSome = true) : shapeOf (withdrawOwn s) = shapeOf (claimGone s) := by
  obtain ⟨o, ho⟩ := Option.isSome_iff_exists.1 h
  have hwithdrawn : shapeOf (withdrawClaim o.claim.id.sequence s).1 = shapeOf s :=
    shapeOf_of_only (withdrawClaim_only _ s)
  simp only [withdrawOwn, ho]
  exact congrArg (fun x : Shape => { x with own := none }) hwithdrawn

theorem PumpMoved.returnToReady (h : PumpMoved s t) : PumpMoved (returnToReady s) (returnToReady t) := by
  obtain ⟨p, hp, hoff⟩ := h
  exact ⟨p, congrArg (fun x : Shape => { x with draw := .ready, current := false }) hp, hoff⟩

theorem claimGone_kept (h : s.draw.state ≠ .claiming) : SoundKept s (claimGone s) := fun hs => by
  rw [sound_iff]
  exact hs.agrees.claim_gone h

theorem releaseOwn_kept (h : s.draw.state ≠ .claiming) : SoundKept s (releaseOwn s) :=
  (claimGone_kept h).trans (releaseOwn_moved s).kept

/-- In CLAIMING the claim and the draw record go together. -/
theorem claimEnded_kept (h : s.draw.state = .claiming) : SoundKept s (returnToReady (claimGone s)) := fun hs => by
  rw [sound_iff]
  exact hs.agrees.claim_ended h

theorem endClaiming_kept (ans : Answer) (h : s.draw.state = .claiming) : SoundKept s (endClaiming ans s) := by
  unfold endClaiming
  split
  · next o ho =>
    refine ((claimEnded_kept h).trans ?_).before (shapeOf_settleDeferred _ _)
    split
    · have hshape := withdrawOwn_shape (s := s) (by rw [ho]; rfl)
      exact (PumpMoved.of_shape hshape).returnToReady.kept
    · exact (releaseOwn_moved s).returnToReady.kept
  · exact .refl s

theorem revokeOwn_kept (h : s.draw.state ≠ .claiming) : SoundKept s (revokeOwn s) :=
  (releaseOwn_kept h).trans (enterClosing_kept _ _)

/-- A claim that is not consented stands in CLAIMING (R45). -/
theorem claiming_of_pending {o : OwnClaim} (hs : Sound s) (ho : s.claims.own = some o) (hp : o.phase ≠ .consented) :
    s.draw.state = .claiming := hs.agrees.claiming_of_own (p := o.phase) (by simp [shapeOf, ho]) hp

theorem open_of_consented {o : OwnClaim} (hs : Sound s) (ho : s.claims.own = some o) (hp : o.phase = .consented) :
    drawOpen s.draw.state = true := hs.agrees.not_claiming_of_consented (by simp [shapeOf, ho, hp])

theorem not_claiming_of_open (h : drawOpen s.draw.state = true) : s.draw.state ≠ .claiming := by
  intro hclaiming; rw [hclaiming] at h; cases h

theorem refusedOwn_kept (n r : Nat) (s : State) : SoundKept s (refusedOwn n r s) := by
  unfold refusedOwn
  split
  · next o ho =>
    intro hs
    split
    · exact hs
    · next hphase => exact endClaiming_kept _ (claiming_of_pending hs ho (by rw [hphase]; decide)) hs
    · next hphase => exact revokeOwn_kept (not_claiming_of_open (open_of_consented hs ho hphase)) hs
  · exact .refl s

/-! ### The own claim is consented (R113) -/

/-- The part whose claim has just been consented. -/
def consentedNow (s : State) : State := modOwn (fun o => { o with phase := .consented, consentDue := none }) s

/-- The part that enters PRIMING, before its session opens. -/
def primingBegun (s : State) : State :=
  modCurrent (fun c => { c with enteredAt := s.time, primeDue := some (s.time + s.cfg.primeTime) })
    { s with draw := { s.draw with state := .priming } }

theorem shapeOf_primingBegun (s : State) : shapeOf (primingBegun s) = { shapeOf s with draw := .priming } := by
  rw [primingBegun, shapeOf_modCurrent]
  rfl

/-- The session of PRIMING, its report and its checkpoint leave the shape. -/
theorem enterPriming_kept (ht : SoundKept s (primingBegun t)) : SoundKept s (enterPriming t) := by
  have hopened : shapeOf (sendLeadProg false (handWork (.checkpoint true) (openSession .draw (primingBegun t)))) =
      shapeOf (primingBegun t) := by simp
  have hu := ht.before hopened
  have hpriming : (sendLeadProg false (handWork (.checkpoint true) (openSession .draw (primingBegun t)))).draw.state =
      .priming := (congrArg Shape.draw hopened).trans (congrArg Shape.draw (shapeOf_primingBegun t))
  exact .ite (hu.trans (enterFlowing_kept (by rw [hpriming]; rfl))) hu

theorem settleConsent_kept (s : State) : SoundKept s (settleConsent s) := by
  unfold settleConsent
  split
  · next o ho =>
    split
    · exact .refl s
    · next hphase =>
      refine .ite (.before (t := enterPriming (consentedNow s)) ?_ (shapeOf_settleDeferred _ _)) (.refl s)
      refine enterPriming_kept fun hs => ?_
      have hshape : shapeOf (primingBegun (consentedNow s)) = { shapeOf s with draw := .priming, own := some .consented } := by
        rw [shapeOf_primingBegun]
        simp [shapeOf, consentedNow, modOwn, ho]
      rw [sound_iff, hshape]
      exact hs.agrees.claim_consented (claiming_of_pending hs ho (by rw [hphase]; decide))
    · refine .ite (.of_shape ?_) (.refl s)
      simp only
      split <;> split <;> simp
  · exact .refl s

/-! ### Claims are judged (R115 to R119) -/

theorem bindingVerdict_free {c : Claim} {p : ProductEntry} (h : bindingVerdict s c = .ok p) :
    s.blend.follower = .unbound ∧ s.draw.current = none := by
  unfold bindingVerdict at h
  split at h
  · cases h
  · split at h
    · cases h
    · split at h
      · cases h
      · split at h
        · cases h
        · next hfree =>
          rw [not_or, not_or] at hfree
          exact ⟨not_not.1 hfree.1, Option.not_isSome_iff_eq_none.1 hfree.2.1⟩

theorem grant_follower (x : Subject) (r : Resource) (s : State) : (grant x r s).blend.follower = s.blend.follower := by
  obtain ⟨p, hp, -⟩ := grant_moved x r s
  exact congrArg Shape.follower hp

theorem grant_current (x : Subject) (r : Resource) (h : s.draw.current = none) : (grant x r s).draw.current = none := by
  obtain ⟨p, hp, -⟩ := grant_moved x r s
  have hsame : (grant x r s).draw.current.isSome = s.draw.current.isSome := congrArg Shape.current hp
  rw [h] at hsame
  exact Option.isNone_iff_eq_none.1 (Option.isSome_eq_false_iff.1 hsame)

theorem judgeResource_kept (x : Subject) (r : Resource) (s : State) : SoundKept s (judgeResource x r s).1 := by
  unfold judgeResource
  split
  · exact .of_shape (shapeOf_sendConsent _ _ _ s)
  · cases r with
    | comp n => exact (grant_moved x (.comp n) s).kept
    | pump m =>
      dsimp only
      split
      · exact (pumpVerdict_moved _ _ s).kept
      · exact .of_shape (shapeOf_setPumpPending _ _ s)
    | partner =>
      dsimp only
      split
      · exact .of_shape (shapeOf_sendConsent _ _ _ s)
      · next hverdict =>
        obtain ⟨hunbound, hcurrent⟩ := bindingVerdict_free hverdict
        exact (grant_moved _ _ s).kept.trans
          (bind_kept _ _ _ ((grant_follower _ _ s).trans hunbound) (grant_current _ _ hcurrent))

theorem judgeAll_kept (x : Subject) (rs : List Resource) (s : State) : SoundKept s (judgeAll x rs s).1 := by
  induction rs generalizing s with
  | nil => exact .refl s
  | cons r rs ih => exact (judgeResource_kept x r s).trans (ih _)

theorem concludeOwn_kept (x : OwnRefusal) (s : State) : SoundKept s (concludeOwn x s) := by
  unfold concludeOwn
  split
  · exact refusedOwn_kept _ _ s
  · exact settleConsent_kept s

theorem judgeOwn_kept (s : State) : SoundKept s (judgeOwn s) := by
  unfold judgeOwn
  split
  · next o _ =>
    refine SoundKept.trans (t := modOwn (fun o => { o with rank := some s.claims.nextRank, unjudged := false })
      { s with claims := { s.claims with nextRank := s.claims.nextRank + 1 } }) (.of_shape ?_)
      ((judgeAll_kept _ _ _).trans (concludeOwn_kept _ _))
    exact shapeOf_modOwn (f := fun o => { o with rank := some s.claims.nextRank, unjudged := false }) (fun _ => rfl) _
  · exact .refl s

theorem settleOwnPump_kept (s : State) : SoundKept s (settleOwnPump s) := by
  unfold settleOwnPump
  split
  · exact .ite ((pumpVerdict_moved _ _ s).kept.trans (concludeOwn_kept _ _)) (.refl s)
  · exact .refl s

theorem settlePeerPump_kept (n : Nat) (s : State) : SoundKept s (settlePeerPump n s) := by
  unfold settlePeerPump
  split
  · exact .ite (pumpVerdict_moved _ _ s).kept (.refl s)
  · exact .refl s

theorem judgePeer_kept (d : Bool) (n : Nat) (rs : List Resource) (s : State) : SoundKept s (judgePeer d n rs s) := by
  unfold judgePeer
  split
  · exact judgeAll_kept _ _ s
  · exact .refl s

theorem endPeerClaim_kept (n : Nat) (s : State) : SoundKept s (endPeerClaim n s) := by
  unfold endPeerClaim
  split
  · exact ((dropRecords_moved _ _).kept.after (shapeOf_modPeer _ _ s)).trans (bindingEnd_kept _ _)
  · exact .refl s

theorem announce_kept {f : State → State} (h : SoundKept s (f s)) : SoundKept s (announce f s) :=
  h.before (shapeOf_announce f s)

theorem enterClaim_kept (c : Claim) (p : Bool) (s : State) : SoundKept s (enterClaim c p s) :=
  (announce_kept (f := endPeerClaim c.id.station) (endPeerClaim_kept _ s)).before rfl

theorem yieldTo_kept (c : Claim) (s : State) : SoundKept s (yieldTo c s) := by
  unfold yieldTo
  split
  · next o ho =>
    split
    · next h => exact fun hs => endClaiming_kept _ (claiming_of_pending hs ho (by rw [h.1]; decide)) hs
    · exact .refl s
  · exact .refl s

theorem judgePendingOf_kept (n : Nat) (s : State) : SoundKept s (judgePendingOf n s) := by
  unfold judgePendingOf
  split
  · exact .ite ((judgePeer_kept _ _ _ _).after rfl) (.refl s)
  · exact .refl s

theorem SoundKept.foldl {α : Type} {f : State → α → State} (h : ∀ s x, SoundKept s (f s x)) (xs : List α) (s : State) :
    SoundKept s (xs.foldl f s) := by
  induction xs generalizing s with
  | nil => exact .refl s
  | cons x xs ih => exact (h s x).trans (ih _)

theorem judgePending_kept (s : State) : SoundKept s (judgePending s) := by
  have hfold : SoundKept s ((pendingStations s).foldl (fun s n => judgePendingOf n s) s) :=
    .foldl (fun s n => judgePendingOf_kept n s) _ _
  unfold judgePending
  simp only
  split
  · exact .ite (hfold.trans (judgeOwn_kept _)) hfold
  · exact hfold

/-- The part with the view rebuild begun. -/
def rebuildBegun (s : State) : State :=
  { s with claims := { s.claims with rebuildDue := some (s.time + Config.rebuildTime) } }

theorem enterRebuild_kept (s : State) : SoundKept s (enterRebuild s) := by
  unfold enterRebuild
  simp only
  split
  · next o ho =>
    split
    · next hphase =>
      intro hs
      have hbegun : Sound (rebuildBegun s) := SoundKept.of_shape (s := s) rfl hs
      exact endClaiming_kept _ (claiming_of_pending hbegun ho (by rw [hphase]; decide)) hbegun
    · exact .of_shape rfl
  · exact .of_shape rfl

theorem claimCompleted_kept (n : Nat) (s : State) : SoundKept s (claimCompleted n s) := by
  unfold claimCompleted
  split
  · exact .of_shape (shapeOf_sendFrame _ _ _)
  · split
    · next o ho =>
      split
      · next h =>
        refine SoundKept.trans (fun hs => ?_) (judgeOwn_kept _)
        have hshape : shapeOf (modOwn (fun o => { o with phase := .inForce }) s) = { shapeOf s with own := some .inForce } := by
          simp [shapeOf, modOwn, ho]
        rw [sound_iff, hshape]
        exact hs.agrees.claim_pending (p := .queued) (by simp [shapeOf, ho, h.1]) (by decide) (by decide)
      · exact .refl s
    · exact .refl s

/-! ### The end of CLOSING (R67 to R71) -/

/-- What the hand-over of an item does to the shape. -/
def itemEnded (x : Shape) : Shape := { x with draw := .dropOpen, selection := false, current := false }

theorem shapeOf_completeItem (sel : Selection) (c : Current) (f : FinalValues) (p : Option BlendPart) (s : State) :
    shapeOf (completeItem sel c f p s) = itemEnded (shapeOf s) := by
  have hwork := shapeOf_handWork
    (.handOver (completedItem s sel c f p) (hoseAfter f.gross c.hoseFilled c.hoseAtStart (deliveredOf sel)) (learned s c f)) s
  rw [← hwork]
  simp [shapeOf, completeItem, itemEnded]

theorem drawEnded_kept (ht : shapeOf t = itemEnded (shapeOf (claimGone s))) (h : s.draw.state = .closing) :
    SoundKept s t := fun hs => by
  rw [sound_iff, ht]
  exact hs.agrees.draw_ended h

theorem releaseOwn_completeItem_kept (sel : Selection) (c : Current) (f : FinalValues) (p : Option BlendPart)
    (h : s.draw.state = .closing) : SoundKept s (releaseOwn (completeItem sel c f p s)) :=
  (drawEnded_kept (t := claimGone (completeItem sel c f p s))
    (congrArg (fun x : Shape => { x with own := none }) (shapeOf_completeItem sel c f p s)) h).trans
      (releaseOwn_moved _).kept

theorem completeItem_releaseOwn_kept (sel : Selection) (c : Current) (f : FinalValues) (p : Option BlendPart)
    (h : s.draw.state = .closing) : SoundKept s (completeItem sel c f p (releaseOwn s)) := by
  obtain ⟨q, hq, hoff⟩ := releaseOwn_moved s
  have hended : SoundKept s (completeItem sel c f p (claimGone s)) := drawEnded_kept (shapeOf_completeItem _ _ _ _ _) h
  refine hended.trans (PumpMoved.kept ⟨q, ?_, fun hhalt hpump => hoff ?_ ?_⟩)
  · rw [shapeOf_completeItem, hq, shapeOf_completeItem]
    rfl
  · exact (congrArg Shape.halt (shapeOf_completeItem sel c f p (claimGone s))).symm.trans_ne hhalt
  · exact (congrArg Shape.pump (shapeOf_completeItem sel c f p (claimGone s))).symm.trans hpump

theorem tryAssemble_kept (s : State) : SoundKept s (tryAssemble s) := by
  unfold tryAssemble
  split
  · next hclosing _ _ =>
    split
    · split
      · exact releaseOwn_completeItem_kept _ _ _ _ hclosing
      · exact .refl s
    · exact .refl s
  · exact .refl s

theorem finishClosing_kept (b : Bool) (h : s.draw.state = .closing) : SoundKept s (finishClosing b s) := by
  set w := modCurrent (fun c => { c with
    exceptions := { c.exceptions with valveNotClosed := c.exceptions.valveNotClosed || b } }) s with hw
  set t := modCurrent (updateMarks (closeSession w).1) (closeSession w).1 with ht
  set u := sendLeadProg true (if (closeSession w).2 then checkpoint t else t) with hu
  have hshape : shapeOf u = shapeOf s := by
    have htshape : shapeOf t = shapeOf s := by rw [ht, shapeOf_modCurrent, shapeOf_closeSession, hw, shapeOf_modCurrent]
    rw [hu, shapeOf_sendLeadProg]
    split
    · rw [checkpoint, shapeOf_handWork, htshape]
    · exact htshape
  have hclosing : u.draw.state = .closing := (congrArg Shape.draw hshape).trans h
  have hkept : SoundKept u (match u.draw.selection, u.draw.current with
      | some sel, some c =>
        match sel.blend with
        | none => completeItem sel c (finalValues u.engine.ctx) none (releaseOwn u)
        | some _ => tryAssemble (modCurrent (fun c => { c with final := some (finalValues u.engine.ctx) }) u)
      | _, _ => u) := by
    split
    · split
      · exact completeItem_releaseOwn_kept _ _ _ _ hclosing
      · exact (tryAssemble_kept _).after (shapeOf_modCurrent _ u)
    · exact .refl u
  exact hkept.after hshape

end

/-! ### The halt (R79 to R86) -/

section
variable {s : State}

/-- The part once a halt's outputs are off. -/
theorem halted_kept (r : HaltState) (s : State) :
    SoundKept s { s with valve := haltOutputs { s.valve with halt := r } } := fun hs => by
  rw [sound_iff]
  exact hs.agrees.halt_begun r

theorem haltBegins_kept (r : HaltState) (s : State) : SoundKept s (haltBegins (haltMarked r s)) := by
  have hoff := halted_kept r s
  refine SoundKept.trans ?_ (raiseHold_kept _ _)
  split
  · next h => exact hoff.trans (endClaiming_kept _ h)
  · exact hoff.trans (suspend_kept _ _)

theorem haltEnds_kept (h : s.valve.halt ≠ .clear) : SoundKept s (haltEnds (haltMarked .clear s)) := by
  have hclear : SoundKept s (outputsRestored (haltMarked .clear s)) := fun hs => by
    rw [sound_iff]
    exact hs.agrees.halt_ended h _
  exact (hclear.before (shapeOf_clearCause _ _)).trans (dropHold_kept _ _)

theorem setHalt_kept (r : HaltState) (s : State) : SoundKept s (setHalt r s) := by
  by_cases hset : s.valve.halt = .clear
  · by_cases hr : r = .clear
    · subst hr
      have hsame : setHalt .clear s = { s with valve := { s.valve with halt := s.valve.halt } } := by
        rw [setHalt, if_neg (fun h => h.2 rfl), if_neg (fun h => h.1 hset), hset]
      rw [hsame]
      exact .of_shape rfl
    · rw [setHalt_begins hset hr]
      exact haltBegins_kept r s
  · by_cases hr : r = .clear
    · subst hr
      rw [setHalt_ends hset]
      exact haltEnds_kept hset
    · rw [setHalt_still hset hr]
      intro hs
      rw [sound_iff]
      exact hs.agrees.halt_still hset r

theorem sourceQuiet_kept (s : State) : SoundKept s (sourceQuiet s) := by
  unfold sourceQuiet
  split
  · split
    · exact setHalt_kept _ s
    · exact setHalt_kept _ s
  · exact .refl s

theorem localHalt_kept (s : State) : SoundKept s (localHalt s) :=
  (setHalt_kept _ _).after ((shapeOf_sendFrame _ _ _).trans rfl)

theorem hearHalt_kept (s : State) : SoundKept s (hearHalt s) := (setHalt_kept _ _).after rfl

end

end Sys2Proof.Machine
end

