-- ==== Sys2Proof/Proofs/SoundSteps.lean ====
section
/-! PROOFS. Every command keeps the part sound: the starts and stops, the line's loss and return, the reactions to counts and
updates, the takes and the requests. -/

namespace Sys2Proof.Machine

set_option Elab.async false

section
variable {s t : State} {bs : List Block}

theorem SoundKept.of_only (h : OnlyChanges bs s t)
    (hb : .station ∉ bs ∧ .draw ∉ bs ∧ .valve ∉ bs ∧ .claims ∉ bs ∧ .blend ∉ bs ∧ .handler ∉ bs := by decide) :
    SoundKept s t := .of_shape (shapeOf_of_only h hb)

/-! ### The line is lost and comes back (R105, R107, R108) -/

theorem lineLostStage_not_fast (due : Nat) (v : ValveRec) : lineLostStage due v ≠ .fast := by
  cases v with
  | stepDown r d => cases r <;> nofun
  | _ => nofun

theorem withDwell_refused_not_fast (dwell : Nat) {v : ValveRec} (h : v ≠ .fast) : withDwell dwell false v ≠ .fast := by
  unfold withDwell
  split
  · cases v with
    | fast => exact absurd rfl h
    | stepDown r d => cases r <;> nofun
    | _ => nofun
  · exact h

/-- The part off the line, before its claims are lost. -/
def wentOffLine (s : State) : State :=
  let t := purgePort { s with station := { s.station with state := .lineLost } }
  { t with
    valve := { t.valve with stage := withDwell t.cfg.dwell false (lineLostStage (t.time + t.cfg.dwell) t.valve.stage) } }

theorem wentOffLine_not_fast (s : State) : (wentOffLine s).valve.stage ≠ .fast :=
  withDwell_refused_not_fast _ (lineLostStage_not_fast _ _)

theorem wentOffLine_kept (s : State) : SoundKept s (wentOffLine s) := fun hs => by
  have hx := hs.agrees.with_stage (v := (wentOffLine s).valve.stage) (fun hset => ?_)
    fun hfast => absurd hfast (wentOffLine_not_fast s)
  · rw [sound_iff]
    exact hx.with_station (st := .lineLost) (.inl (wentOffLine_not_fast s))
  · have hclosed : s.valve.stage = .closed := (hs.halt hset).1
    change withDwell s.cfg.dwell false (lineLostStage (s.time + s.cfg.dwell) s.valve.stage) = .closed
    rw [hclosed]
    exact ite_self _

/-- The part with the claims it cannot keep off the line given up. -/
def ownLost (s : State) : State := { s with claims := { s.claims with own := s.claims.own.bind lostClaim } }

theorem claimsLost_moved (s : State) : PumpMoved (ownLost s) (claimsLost s) :=
  PumpMoved.trans (t := { s with claims := { s.claims with
      view := [], records := [], rebuildDue := none, abandoned := [], own := s.claims.own.bind lostClaim } })
    (.of_shape rfl) (setCommands_moved _)

theorem ownLost_claiming (hs : Sound s) (h : s.draw.state = .claiming) : ownLost s = claimGone s := by
  have hnone : s.claims.own.bind lostClaim = none := by
    cases hown : s.claims.own with
    | none => rfl
    | some o =>
      have hphase : o.phase ≠ .consented := fun hp => not_claiming_of_open (open_of_consented hs hown hp) h
      exact if_neg hphase
  rw [ownLost, hnone]
  rfl

theorem shapeOf_ownLost (hs : Sound s) (h : s.draw.state ≠ .claiming) : shapeOf (ownLost s) = shapeOf s := by
  cases hown : s.claims.own with
  | none => simp [shapeOf, ownLost, hown]
  | some o =>
    have hphase : o.phase = .consented := by
      by_contra hp
      exact h (claiming_of_pending hs hown hp)
    simp [shapeOf, ownLost, hown, lostClaim, hphase]

theorem bindingLost_kept (s : State) : SoundKept s (bindingLost s) := by
  unfold bindingLost
  split
  · exact bindingEnd_kept _ s
  · exact .refl s

theorem drawLost_not_claiming (h : s.draw.state ≠ .claiming) : SoundKept s (drawLost s) := by
  rw [drawLost, if_neg h]
  exact suspend_kept _ s

theorem lost_kept (s : State) : SoundKept s (drawLost (bindingLost (claimsLost s))) := fun hs => by
  have hdraw : (bindingLost (claimsLost s)).draw = s.draw :=
    ((bindingLost_only (claimsLost s)).get .draw).trans ((claimsLost_only s).get .draw)
  by_cases h : s.draw.state = .claiming
  · have hfree : s.blend.binding = none := by
      have hunbound := hs.agrees.unbound_of_current (hs.agrees.current_of_claiming h)
      exact hs.pair.1.1 hunbound
    have hbind : bindingLost (claimsLost s) = claimsLost s := by
      have hblend : (claimsLost s).blend = s.blend := (claimsLost_only s).get .blend
      simp only [bindingLost, hblend, hfree]
    have hmoved := claimsLost_moved s
    rw [ownLost_claiming hs h] at hmoved
    rw [hbind] at hdraw ⊢
    rw [drawLost, if_pos (by rw [hdraw]; exact h)]
    exact ((claimEnded_kept h).trans (hmoved.returnToReady.kept)).before (shapeOf_abandonDeferred _) hs
  · have hkept : SoundKept s (claimsLost s) := (claimsLost_moved s).kept.after (shapeOf_ownLost hs h)
    exact ((hkept.trans (bindingLost_kept _)).trans (drawLost_not_claiming (by rw [hdraw]; exact h))) hs

theorem enterLineLost_kept (s : State) : SoundKept s (enterLineLost s) := (wentOffLine_kept s).trans (lost_kept _)

theorem failed_kept (noAck : Bool) (s : State) : SoundKept s (failed noAck s) := by
  unfold failed
  refine .ite ?_ (.refl s)
  simp only
  split
  · exact .of_shape rfl
  · unfold busOff
    split
    · exact (enterLineLost_kept _).after rfl
    · exact .of_shape rfl

theorem listen_kept (s : State) : SoundKept s (listen s) := fun hs => by
  rw [sound_iff]
  exact hs.agrees.with_station (.inr (.inl rfl))

theorem portRestarted_kept (s : State) : SoundKept s (portRestarted s) := by
  unfold portRestarted
  split
  · exact listen_kept s
  · exact .of_shape (shapeOf_queueStat _)
  · exact .refl s

theorem runs_kept (s : State) : SoundKept s (runs s) := fun hs => by
  rw [sound_iff]
  exact hs.agrees.with_station (.inr (.inr rfl))

theorem enterRunning_kept (s : State) : SoundKept s (enterRunning s) := by
  have hrun : SoundKept s (queueStat (runs s)) := (runs_kept s).before (shapeOf_queueStat _)
  have hjudged : ∀ t : State, SoundKept t (if t.claims.rebuildDue.isSome then t else judgePending t) := fun t =>
    .ite (.refl t) (judgePending_kept t)
  have hsettled := (hrun.trans (hjudged _)).trans (settleConsent_kept _)
  exact .ite (hsettled.before ((shapeOf_sendFrame _ _ _).trans rfl)) hsettled

/-! ### Starts and stops (R195 to R200) -/

theorem enterListening_kept (s : State) : SoundKept s (enterListening s) := by
  unfold enterListening
  refine .ite (SoundKept.trans ?_ (localHalt_kept _)) ?_
  · exact (listen_kept s).before rfl
  · exact (listen_kept s).before rfl

theorem continueStart_kept (s : State) : SoundKept s (continueStart s) :=
  .ite (enterListening_kept s) (.of_only (beginWrite_only s))

theorem enterConfigFault_kept (code : FaultCode) (item : Nat) (h : s.valve.stage ≠ .fast) :
    SoundKept s (enterConfigFault code item s) := by
  refine SoundKept.before (t := { s with
    station := { s.station with state := .configFault, faultCode := some code, faultItem := item } }) (fun hs => ?_)
    (shapeOf_queueStat _)
  rw [sound_iff]
  exact hs.agrees.with_station (.inl h)

theorem useImage_kept (img : Image) (s : State) : SoundKept s (useImage img s) := (continueStart_kept _).after rfl

theorem readImage_kept (read : ImageRead) (hstart : s.station.state = .starting) : SoundKept s (readImage read s) :=
  fun hs => by
  have hnot : s.valve.stage ≠ .fast := hs.agrees.not_fast_of_station (by
    rintro (h : s.station.state = .listening); rw [hstart] at h; cases h) (by
    rintro (h : s.station.state = .running); rw [hstart] at h; cases h)
  cases read with
  | silent => exact enterConfigFault_kept _ _ hnot hs
  | asHeld =>
    simp only [readImage]
    split
    · exact enterConfigFault_kept _ _ hnot hs
    · exact useImage_kept _ s hs
  | programmed img =>
    simp only [readImage]
    split
    · exact ((enterConfigFault_kept (s := { s with station := { s.station with image := img } }) _ _ hnot).after
        (s := s) rfl) hs
    · have hnew : Sound { s with station := { s.station with image := img } } := SoundKept.of_shape (s := s) rfl hs
      exact useImage_kept img _ hnew

theorem enterPowerDown_kept (s : State) : SoundKept s (enterPowerDown s) := fun hs => by
  have hshape : shapeOf (enterPowerDown s) =
      { shapeOf s with station := .powerDown, halt := s.valve.halt, stage := .closed, pump := .off } := by
    simp [shapeOf, enterPowerDown, holdDraw, holdBlend, Function.comp_def]
  rw [sound_iff, hshape]
  exact (hs.agrees.halt_begun s.valve.halt).with_station (st := .powerDown) (.inl nofun)

theorem sound_startUp (straps : BitVec 4) (sealOpen : Bool) (s : State) : Sound (startUp straps sealOpen s) := by
  have hreset : SoundKept State.reset (resetBlocks s) := .of_shape rfl
  have hstraps : SoundKept (resetBlocks s) (readStraps straps sealOpen (resetBlocks s)) := by
    have hstarted : SoundKept (resetBlocks s) { resetBlocks s with
        station := { (resetBlocks s).station with state := .starting, number := straps.toNat, calibration := sealOpen } } :=
      fun hs => by
        rw [sound_iff]
        exact hs.agrees.with_station (.inl nofun)
    exact .ite (hstarted.trans (enterConfigFault_kept _ _ nofun)) hstarted
  have hsound := hstraps (hreset resetIsSound.1)
  unfold startUp
  simp only
  split
  · exact enterPowerDown_kept _ hsound
  · exact hsound

/-! ### Reactions in any order (R19, R33) -/

theorem runAnyOrder_kept {rs : List (State → State)} (h : ∀ r ∈ rs, ∀ x, SoundKept x (r x)) (s : State) :
    SoundKept s (runAnyOrder rs s) := by
  have hfold : ∀ (l : List (State → State)) (x : State), (∀ r ∈ l, r ∈ rs) → SoundKept x (l.foldl (fun t f => f t) x) := by
    intro l
    induction l with
    | nil => exact fun x _ => .refl x
    | cons r l ih =>
      exact fun x hl => (h r (hl r List.mem_cons_self) x).trans (ih (r x) fun q hq => hl q (List.mem_cons_of_mem _ hq))
  exact (hfold _ _ fun r hr => (anyOrder_perm _ _).mem_iff.1 hr).after rfl

theorem transition_kept (a b : Bool) (s : State) : SoundKept s (transition a b s) := by
  refine (runAnyOrder_kept (fun r hr x => ?_) _).after (s := s) rfl
  obtain ⟨p, rfl⟩ | rfl := mem_pulseReactions hr
  · exact signalPoint_kept p x
  · exact raisePulseFault_kept x

theorem drawReaction_kept {r : Results} {f : State → State} (h : f ∈ drawReactions r s) (x : State) :
    SoundKept x (f x) := by
  rcases mem_drawReactions h with ⟨e, rfl⟩ | rfl | rfl | ⟨p, rfl⟩
  · exact drawTempEvent_kept e x
  · exact superviseOverspeed_kept x
  · exact superviseReverse_kept x
  · exact signalPoint_kept p x

theorem drawUpdate_kept (r : Results) (s : State) : SoundKept s (drawUpdate r s) := by
  have hmarked : shapeOf (modCurrent (updateMarks s) s) = shapeOf s := shapeOf_modCurrent _ s
  have hsent : shapeOf (sendLeadProg false (if r.crossing then checkpoint (modCurrent (updateMarks s) s)
      else modCurrent (updateMarks s) s)) = shapeOf s := by
    rw [shapeOf_sendLeadProg]
    split
    · exact (shapeOf_handWork _ _).trans hmarked
    · exact hmarked
  exact ((runAnyOrder_kept (fun _ hf => drawReaction_kept hf) _).trans (evaluateStage_kept _)).after hsent

theorem followerUpdate_kept (r : Results) (s : State) : SoundKept s (followerUpdate r s) := by
  unfold followerUpdate
  refine (runAnyOrder_kept (fun f hf x => ?_) _).after ((shapeOf_sendFollowerProg _).trans ?_)
  · rcases List.mem_append.1 hf with htemp | hstage
    · obtain ⟨e, -, rfl⟩ : ∃ e, r.temp = some e ∧ followerTempEvent e = f := by simpa using htemp
      exact followerTempEvent_kept e x
    · rw [List.mem_singleton.1 hstage]
      exact followStage_kept x
  · split
    · exact (shapeOf_followerCheckpoint _).trans rfl
    · rfl

theorem metered_kept (reading : ProbeReading) (s : State) : SoundKept s (metered reading s) := by
  have hupdate : ∀ x, shapeOf { (regularUpdate reading s).1 with engine := x } = shapeOf s := fun x =>
    (show _ = shapeOf (regularUpdate reading s).1 from rfl).trans (shapeOf_of_only (regularUpdate_only reading s))
  unfold metered
  simp only
  split
  · exact (drawUpdate_kept _ _).after (hupdate _)
  · exact (followerUpdate_kept _ _).after (hupdate _)
  · exact .of_shape (hupdate _)

/-! ### Local lines -/

theorem emergencyStopChanged_kept (active : Bool) (s : State) : SoundKept s (emergencyStopChanged active s) :=
  .ite (.refl s) (.ite (localHalt_kept s) ((sourceQuiet_kept _).after rfl))

theorem pressed_kept (s : State) : SoundKept s (pressed s) := by
  unfold pressed
  refine .ite (.refl s) ?_
  simp only
  split
  · exact .of_shape ((shapeOf_modCurrent _ _).trans rfl)
  · next hsuspended _ =>
    refine .ite ((enterFlowing_kept ?_).after (s := s) rfl) (.of_shape rfl)
    exact congrArg drawOpen hsuspended
  · exact .of_shape rfl

theorem airChanged_kept (active : Bool) (s : State) : SoundKept s (airChanged active s) := by
  unfold airChanged
  refine .ite (.refl s) ?_
  simp only
  split
  · exact (evaluateStage_kept _).after ((shapeOf_modCurrent _ _).trans rfl)
  · exact .ite (.of_shape ((shapeOf_modCurrent _ _).trans rfl)) (.of_shape ((shapeOf_clearCause _ _).trans rfl))
  · exact .of_shape rfl

theorem dwellPassed_kept (s : State) : SoundKept s (dwellPassed s) := fun hs => by
  have hx := hs.agrees.with_stage (v := (dwellPassed s).valve.stage) (fun hset => ?_) fun hfast => ?_
  · rw [sound_iff]; exact hx
  · have hclosed : s.valve.stage = .closed := (hs.halt hset).1
    change dwellOver (fastAccepted (stageOwner s) s) s.valve.stage = .closed
    rw [hclosed]
    rfl
  · change dwellOver (fastAccepted (stageOwner s) s) s.valve.stage = .fast at hfast
    cases hok : fastAccepted (stageOwner s) s with
    | true => exact fastAllowed_of_accepted hok rfl
    | false =>
      rw [hok] at hfast
      by_cases hstood : s.valve.stage = .fast
      · exact hs.agrees.fast hstood
      · have hnot := withDwell_refused_not_fast 0 hstood
        rw [withDwell, if_pos rfl] at hnot
        exact absurd hfast hnot

theorem runOnOver_kept (s : State) : SoundKept s { s with valve := { s.valve with pump := .off } } := fun hs => by
  rw [sound_iff]
  exact hs.agrees.with_pump fun _ => rfl

/-! ### The line -/

theorem loseOwner_kept (n : Nat) (s : State) : SoundKept s (loseOwner n s) := by
  unfold loseOwner
  split
  · next o _ =>
    refine .ite ?_ (.refl s)
    have hlost := shapeOf_modOwn (f := fun o => { o with
      resources := o.resources.map (fun r => if r.owner = n then { r with status := .lost } else r) }) (fun _ => rfl) s
    have hsupply : ∀ (b : Prop) [Decidable b] (t : State), SoundKept t (if b then suspend
      (raiseCond .ownerSilent) t else t) :=
      fun b _ t => .ite (suspend_kept _ t) (.refl t)
    have hpartner : ∀ (b : Prop) [Decidable b] (t : State),
        SoundKept t (if b then suspend (raiseCond .partnerSilent) t else t) := fun b _ t => .ite (suspend_kept _ t)
          (.refl t)
    exact ((hsupply _ _).after hlost).trans (hpartner _ _)
  · exact .refl s

theorem peerSilent_kept (n : Nat) (s : State) : SoundKept s (peerSilent n s) := by
  refine SoundKept.trans ?_ (loseOwner_kept n _)
  exact (endPeerClaim_kept n s).before rfl

theorem rebuildOver_kept (s : State) : SoundKept s (rebuildOver s) := by
  unfold rebuildOver
  exact .ite ((judgePending_kept _).after rfl) (.of_shape rfl)

theorem consentTimer_kept (h : (consentDueOf s).isSome = true) (due : Nat) :
    SoundKept s (endClaiming (plain .consentTimeout) (passTo due s)) := fun hs => by
  have hclaiming : s.draw.state = .claiming := by
    unfold consentDueOf at h
    split at h
    · next o ho =>
      split at h
      · cases h
      · next hphase => exact claiming_of_pending hs ho hphase
    · cases h
  exact ((endClaiming_kept (s := passTo due s) _ hclaiming).after (s := s) rfl) hs

theorem arrived_kept (f : Frame) (s : State) : SoundKept s (arrived f s) := by
  have hentered : ∀ t : State, SoundKept t (entered f t) := fun t => .ite (hearHalt_kept t) (.refl t)
  refine .ite ?_ (.refl s)
  unfold offerFrame
  refine .ite ((hentered _).after rfl) (.ite ?_ (.refl s))
  split
  · exact (hentered _).after rfl
  · exact enterRebuild_kept s

theorem claimTaken_kept (f : Frame) (s : State) : SoundKept s (claimTaken f s) := by
  unfold claimTaken
  simp only
  split
  · refine .ite (.refl s) ?_
    have hjudged : ∀ t : State, SoundKept t (if givesVerdicts t then
        announce (judgePeer false (decodeClaim f).id.station (ownedOf t (decodeClaim f))) t else t) := fun t =>
      .ite (announce_kept (judgePeer_kept _ _ _ t)) (.refl t)
    exact ((enterClaim_kept _ _ s).trans (yieldTo_kept _ _)).trans (hjudged _)
  · exact .refl s

theorem ownVerdict_kept (o : OwnClaim) (r : Resource) (n v w : Nat) (s : State) : SoundKept s (ownVerdict o r n v w s) := by
  refine .ite (.ite ?_ (.ite (refusedOwn_kept _ _ s) (.refl s))) (.refl s)
  exact ((settleOwnPump_kept _).after (shapeOf_modOwn (f := grantStatus r) (fun _ => rfl) s)).trans (settleConsent_kept _)

theorem peerVerdict_kept (id : ClaimId) (n : Nat) (s : State) : SoundKept s (peerVerdict id n s) :=
  (settlePeerPump_kept _ _).after (shapeOf_modPeer _ _ s)

theorem consentTaken_kept (f : Frame) (s : State) : SoundKept s (consentTaken f s) := by
  unfold consentTaken
  simp only
  split
  · exact .refl s
  · split
    · split
      · exact .ite (ownVerdict_kept _ _ _ _ _ s) (.refl s)
      · exact .refl s
    · split
      · exact .ite (peerVerdict_kept _ _ s) (.refl s)
      · exact .refl s

theorem releaseTaken_kept (f : Frame) (s : State) : SoundKept s (releaseTaken f s) := by
  unfold releaseTaken
  simp only
  have hdiscard := shapeOf_discardHeld (fun h => h.claim == ⟨sourceOf f.id, sequenceOf f.id⟩) s
  split
  · exact .ite ((endPeerClaim_kept _ _).after hdiscard) (.of_shape hdiscard)
  · exact .of_shape hdiscard

theorem leadReportTaken_kept (f : Frame) (s : State) : SoundKept s (leadReportTaken f s) := by
  unfold leadReportTaken
  split
  · exact .ite (takeLeadReport_kept _ s) (.refl s)
  · exact .refl s

/-- The part with the throttle mark of a lag. -/
def throttleMarked (lag : Int) (s : State) : State :=
  { s with
    blend := { s.blend with
      lead := s.blend.lead.map (fun l => { l with throttle := throttleAfter s.cfg lag l.throttle, lastLag := some lag }) } }

theorem actOnLag_kept (lag : Int) (l : Lead) (s : State) : SoundKept s (actOnLag lag l s) := by
  have hmarked : SoundKept s (evaluateStage (throttleMarked lag s)) := (evaluateStage_kept _).after rfl
  exact .ite (.ite (hmarked.trans (suspend_kept _ _)) hmarked) (.refl s)

theorem followerReportTaken_kept (f : Frame) (s : State) : SoundKept s (followerReportTaken f s) := by
  unfold followerReportTaken
  split
  · exact .ite ((actOnLag_kept _ _ _).after rfl) (.refl s)
  · exact .refl s

theorem finalPartTaken_kept (f : Frame) (s : State) : SoundKept s (finalPartTaken f s) := by
  unfold finalPartTaken
  split
  · exact .ite (.ite ((tryAssemble_kept _).after rfl) (.ite ((tryAssemble_kept _).after rfl) (.refl s))) (.refl s)
  · exact .refl s

theorem page0Taken_kept (f : Frame) (a : Nat) (s : State) : SoundKept s (page0Taken f a s) := by
  have hforget : ∀ (n c : Nat) (t : State), SoundKept t (forgetLead n c t) := fun n c t => .ite (.of_shape rfl) (.refl t)
  refine SoundKept.trans (t := match peerOf s (sourceOf f.id) with
    | some _ => modPeer (sourceOf f.id) (withPage0 (decodePage0 f)) s
    | none => { s with claims := { s.claims with view := s.claims.view ++ [newPeer (sourceOf f.id) a (decodePage0 f)] } })
    ?_ (hforget _ _ _)
  split
  · exact .of_shape rfl
  · exact .of_shape rfl

theorem answerAwaited_kept (l : LiveClaim) (w : Awaited) (s : State) : SoundKept s (answerAwaited l w s) :=
  (SoundKept.foldl (fun t r => .of_shape (shapeOf_sendConsent _ r none t)) _ s).trans (judgePeer_kept _ _ _ _)

theorem heldPage_kept (l : LiveClaim) (w : Awaited) (s : State) : SoundKept s (heldPage l w s) := by
  have hcounted : shapeOf (countPage l.claim.id.station (notAwaited l.claim w) s) = shapeOf s := shapeOf_modPeer _ _ s
  exact .ite (((answerAwaited_kept l w _).after hcounted).trans (settlePeerPump_kept _ _)) (.of_shape hcounted)

theorem reAnnounced_kept (c : Claim) (w : Awaited) (s : State) : SoundKept s (reAnnounced c w s) := by
  unfold reAnnounced
  simp only
  have hcounted := (enterClaim_kept c (!givesVerdicts s || s.claims.rebuildDue.isSome) s).before
    (shapeOf_modPeer c.id.station (fun p => { p with live := p.live.map (fun l =>
      { l with consented := l.consented ||| notAwaited c w }) }) _)
  exact .ite hcounted (hcounted.trans (announce_kept (judgePeer_kept _ _ _ _)))

theorem page2Compared_kept (p : Peer) (c : Option (Claim × Awaited)) (s : State) : SoundKept s (page2Compared p c s) := by
  unfold page2Compared
  split
  · exact .ite (heldPage_kept _ _ s) (.ite (.refl s) (reAnnounced_kept _ _ s))
  · exact .ite (.refl s) (reAnnounced_kept _ _ s)
  · unfold nonePage
    split
    · exact .refl s
    · exact .ite (.refl s) (endPeerClaim_kept _ s)
  · exact .refl s

theorem page2Taken_kept (f : Frame) (s : State) : SoundKept s (page2Taken f s) := by
  unfold page2Taken
  simp only
  have hdiscard := shapeOf_discardHeld
    (fun h => h.lead == sourceOf f.id && (decodePage2 f).map (·.1.id) != some h.claim) s
  split
  · exact (page2Compared_kept _ _ _).after hdiscard
  · exact .of_shape hdiscard

theorem noticeTaken_kept (s : State) : SoundKept s (noticeTaken s) := by
  unfold noticeTaken
  split
  · exact .ite ((claimCompleted_kept _ _).after rfl) (.of_shape rfl)
  · exact .refl s

/-! ### Requests that wait for the journal (R41, R43, R157) -/

theorem shapeOf_convertUnticketed (s : State) : shapeOf (convertUnticketed s) = shapeOf s :=
  shapeOf_of_only (convertUnticketed_only s)

theorem parts_of_dropOpen (hs : Sound s) (h : s.draw.state = .dropOpen) :
    s.draw.drop.isSome = true ∧ s.draw.current = none := by
  have hdraw := hs.draw
  rw [DrawShape, h] at hdraw
  exact ⟨hdraw.1, hdraw.2.2⟩

theorem parts_of_ready (hs : Sound s) (h : s.draw.state = .ready) :
    s.draw.drop.isSome = true ∧ s.draw.current = none := by
  have hdraw := hs.draw
  rw [DrawShape, h] at hdraw
  exact ⟨hdraw.1, hdraw.2.2⟩

theorem current_of_idle (hs : Sound s) (h : s.draw.state = .idle) : s.draw.current = none := by
  have hdraw := hs.draw
  rw [DrawShape, h] at hdraw
  exact hdraw.2.2

theorem serveOpenDrop_kept (a : Asker) (n m : Nat) (hserving : s.handler.serving = none) (h : s.draw.state = .idle) :
    SoundKept s (serveOpenDrop a n m s) := fun hs => by
  have hcurrent : (shapeOf s).current = false := by simp [shapeOf, current_of_idle hs h]
  have hopened : ∀ (t : State) (d : Drop), shapeOf t = shapeOf s →
      Sound { t with draw := ⟨.dropOpen, some d, none, none⟩ } := fun t d ht => by
    have hx := hs.agrees.with_parts hcurrent hserving (d := .dropOpen) (drop := true) (sel := false) rfl
    rw [sound_iff]
    rw [← ht] at hx hcurrent
    simpa [shapeOf, ← hcurrent] using hx
  unfold serveOpenDrop
  split
  · exact SoundKept.of_shape (shapeOf_answer _ _ s) hs
  · refine SoundKept.of_shape (shapeOf_answer _ _ _) (hopened _ _ ?_)
    rw [shapeOf_handWork, shapeOf_convertUnticketed]

theorem serveCloseDrop_kept (a : Asker) (hserving : s.handler.serving = none) (h : s.draw.state = .dropOpen) :
    SoundKept s (serveCloseDrop a s) := fun hs => by
  have hcurrent : (shapeOf s).current = false := by simp [shapeOf, (parts_of_dropOpen hs h).2]
  have hclosed : ∀ t : State, shapeOf t = shapeOf s → Sound { t with draw := ⟨.idle, none, none, none⟩ } := fun t ht => by
    have hx := hs.agrees.with_parts hcurrent hserving (d := .idle) (drop := false) (sel := false) rfl
    rw [sound_iff]
    rw [← ht] at hx hcurrent
    simpa [shapeOf, ← hcurrent] using hx
  unfold serveCloseDrop
  split
  · exact SoundKept.of_shape (shapeOf_answer _ _ _) (hclosed _ (shapeOf_handWork _ s))
  · exact SoundKept.of_shape (shapeOf_answer _ _ s) hs

theorem serveAckTicket_kept (a : Asker) (n : Nat) (s : State) : SoundKept s (serveAckTicket a n s) := by
  unfold serveAckTicket
  split
  · exact .of_shape (shapeOf_answer _ _ s)
  · split
    · exact .of_shape (shapeOf_answer _ _ s)
    · exact .of_shape (shapeOf_answer _ _ s)
    · refine .of_shape ((shapeOf_answer _ _ _).trans ?_)
      split
      · rfl
      · exact shapeOf_handWork _ s

theorem serveFetchTicket_kept (a : Asker) (n : Nat) (s : State) : SoundKept s (serveFetchTicket a n s) := by
  unfold serveFetchTicket
  split
  · exact .of_shape (shapeOf_answer _ _ s)
  · exact .ite (.of_shape (shapeOf_answer _ _ s))
      (.of_shape ((shapeOf_of_only (beginFetch_only _ _ _)).trans (shapeOf_answer _ _ s)))

theorem serveJournal_kept (a : Asker) (r : Request) (hserving : s.handler.serving = none)
    (hwait : waitAgrees (some ⟨a, r⟩) s.draw.state) : SoundKept s (serveJournal a r s) := by
  cases r with
  | openDrop n m => exact serveOpenDrop_kept a n m hserving hwait
  | closeDrop => exact serveCloseDrop_kept a hserving hwait
  | ackTicket n => exact serveAckTicket_kept a n s
  | fetchTicket n => exact serveFetchTicket_kept a n s
  | readTotals item p => exact .of_shape (shapeOf_answer _ _ s)
  | _ => exact .refl s

theorem askJournal_kept (a : Asker) (r : Request) (hserving : s.handler.serving = none)
    (hwait : waitAgrees (some ⟨a, r⟩) s.draw.state) : SoundKept s (askJournal a r s) := by
  refine .ite (serveJournal_kept a r hserving hwait) fun hs => ?_
  rw [sound_iff]
  exact hs.agrees.with_serving hwait

theorem takeWaiting_kept (s : State) : SoundKept s (takeWaiting s) := by
  unfold takeWaiting
  split
  · next sv hwaiting =>
    intro hs
    have hserving : s.handler.serving = some sv := by
      unfold waitingRequest at hwaiting
      split at hwaiting
      · next h =>
        split at hwaiting
        · cases hwaiting
        · cases hwaiting; exact h
      · cases hwaiting
    have hwait : waitAgrees (some sv) s.draw.state := by
      have h := hs.agrees.wait
      rwa [show (shapeOf s).serving = some sv from hserving] at h
    have hfreed : Sound { s with handler := { s.handler with serving := none } } := by
      rw [sound_iff]
      exact hs.agrees.with_serving trivial
    exact serveJournal_kept (s := { s with handler := { s.handler with serving := none } }) sv.asker sv.request rfl hwait
      hfreed
  · exact .refl s

/-- The part with a write in the journal memory. -/
def memoryWritten (w : Write) (s : State) : State :=
  { s with journal := { s.journal with mem := applyWrite w s.journal.mem, inflight := none } }

theorem writeCompleted_kept (s : State) : SoundKept s (writeCompleted s) := by
  unfold writeCompleted
  split
  · next w _ =>
    have hwritten : shapeOf (memoryWritten w s) = shapeOf s := rfl
    have hprinted := (shapeOf_of_only (autoPrint_only w.change (memoryWritten w s))).trans hwritten
    exact .ite ((continueStart_kept (memoryWritten w s)).after hwritten)
      (((takeWaiting_kept _).after hprinted).before (shapeOf_of_only (beginIfIdle_only _)))
  · exact .refl s

theorem configWritten_kept (completed : Bool) (s : State) : SoundKept s (configWritten completed s) := by
  unfold configWritten
  split
  · next w sv _ _ =>
    intro hs
    have hfreed : ∀ (x : Station) (k : Nat), x.state = s.station.state →
        Sound { s with station := x, handler := { s.handler with serving := none }, freeIndex := k } := fun x k hx => by
      rw [sound_iff]
      have h := hs.agrees.with_serving (sv := none) trivial
      simpa [shapeOf, hx] using h
    have hworked : ∀ (p : Prop) [Decidable p] (t : State), Sound t → Sound (if p then handWork .calibration t else t) :=
      fun p _ t ht => SoundKept.ite (.of_shape (shapeOf_handWork _ t)) (.refl t) ht
    exact SoundKept.of_shape (shapeOf_answer _ _ _) (hworked _ _ (hfreed _ _ rfl))
  · exact .refl s

end

end Sys2Proof.Machine
end

