-- ==== Sys2Proof/Proofs/SoundCommands.lean ====
section
/-! PROOFS. The requests keep the part sound, and with them every act and every step (O4). -/

namespace Sys2Proof.Machine

set_option Elab.async false

/-! ### Requests -/

/-- The code of a request (8.1). -/
def requestCode : Request → Nat
  | .openDrop _ _ => 1
  | .select _ _ => 2
  | .start => 3
  | .pause => 4
  | .resume => 5
  | .endDraw => 6
  | .closeDrop => 7
  | .setPreset _ _ => 8
  | .setCompartment _ _ => 9
  | .resumeHalt => 10
  | .clearFaults => 11
  | .fetchTicket _ => 12
  | .ackTicket _ => 13
  | .print _ => 14
  | .readTotals _ _ => 15
  | .writeConfig _ _ => 16

theorem requestCode_decodeSelect {f : Frame} {r : Request} (h : decodeSelect f = some r) : requestCode r = 2 := by
  simp only [decodeSelect] at h
  split at h
  · cases h
  · split at h
    · cases h; rfl
    · split at h
      · cases h
      · cases h; rfl

/-- What is decoded from an ASK is a request of the ASK's code (8.4). -/
theorem requestCode_decodeAsk {f : Frame} {r : Request} (h : decodeAsk f = some r) : requestCode r = askCodeOf f.id := by
  simp only [decodeAsk] at h
  split at h
  case h_2 hcode =>
    split at h
    · rw [hcode]; exact requestCode_decodeSelect h
    · cases h
  case h_15 hcode =>
    rw [hcode]
    split at h
    · split at h
      · split at h <;> cases h; rfl
      · split at h <;> cases h; rfl
      · cases h; rfl
      · cases h
    · cases h
  case h_17 => cases h
  all_goals
    next hcode =>
      split at h <;> cases h
      exact hcode.symm

/-- A request that is neither OPEN_DROP nor CLOSE_DROP may wait in any draw state. -/
theorem waitAgrees_of_code {a : Asker} {r : Request} (d : DrawState) (hopen : requestCode r ≠ 1) (hclose : requestCode r ≠ 7) :
    waitAgrees (some ⟨a, r⟩) d := by
  cases r with
  | openDrop n m => exact absurd rfl hopen
  | closeDrop => exact absurd rfl hclose
  | _ => trivial

section
variable {s : State} (a : Asker) (r : Request)

theorem serveOpen_kept (hserving : s.handler.serving = none) (hcode : requestCode r = 1) : SoundKept s (serveOpen a r s) := by
  unfold serveOpen
  split
  · next hidle =>
    refine askJournal_kept a r hserving ?_
    cases r <;> first | exact hidle | cases hcode
  · exact .of_shape (shapeOf_answer _ _ s)

/-- A draw that stands in DROP_OPEN or READY may be given another of the two states, with a selection or without. -/
theorem redrawn_kept (hserving : s.handler.serving = none) (h : s.draw.state = .dropOpen ∨ s.draw.state = .ready)
    {d : DrawState} {sel : Option Selection} (hparts : (true, sel.isSome, false) = partsOf d) :
    SoundKept s { s with draw := { s.draw with state := d, selection := sel } } := fun hs => by
  obtain ⟨hdrop, hcurrent⟩ := h.elim (parts_of_dropOpen hs) (parts_of_ready hs)
  have hx := hs.agrees.with_parts (by simp [shapeOf, hcurrent]) hserving hparts
  rw [sound_iff]
  simpa [shapeOf, hdrop] using hx

theorem serveSelect_kept (hserving : s.handler.serving = none) : SoundKept s (serveSelect a r s) := by
  unfold serveSelect
  split
  · next sel clamped =>
    have hjudged : s.draw.state = .dropOpen ∨ s.draw.state = .ready → SoundKept s (match selectionRefused s sel with
        | some refusal => answer a (plain refusal) s
        | none => answer a (plain (okOrClamped clamped))
            { s with draw := { s.draw with state := .ready, selection := some sel } }) := fun h => by
      split
      · exact .of_shape (shapeOf_answer _ _ s)
      · exact (redrawn_kept hserving h rfl).before (shapeOf_answer _ _ _)
    split
    · exact .of_shape (shapeOf_answer _ _ s)
    · next h => exact hjudged (.inl h)
    · next h => exact hjudged (.inr h)
    · exact .of_shape (shapeOf_answer _ _ s)
  · exact .refl s

theorem serveClose_kept (hserving : s.handler.serving = none) (hcode : requestCode r = 7) :
    SoundKept s (serveClose a r s) := by
  have hasked : s.draw.state = .dropOpen ∨ s.draw.state = .ready → SoundKept s
      (askJournal a r { s with draw := { s.draw with state := .dropOpen, selection := none } }) := fun h => by
    refine (redrawn_kept (sel := none) hserving h rfl).trans (askJournal_kept a r hserving ?_)
    cases r <;> first | rfl | cases hcode
  unfold serveClose
  split
  · exact .of_shape (shapeOf_answer _ _ s)
  · next h => exact .ite (.of_shape (shapeOf_answer _ _ s)) (hasked (.inl h))
  · next h => exact .ite (.of_shape (shapeOf_answer _ _ s)) (hasked (.inr h))
  · exact .of_shape (shapeOf_answer _ _ s)

theorem startRefused_none (h : startRefused s = none) : s.draw.state = .ready ∧ s.blend.follower = .unbound := by
  unfold startRefused at h
  split at h
  · cases h
  · split at h
    · cases h
    · split at h
      · cases h
      · split at h
        · cases h
        · next hready => rwa [not_or, not_not, not_not] at hready

theorem shapeOf_handFrame (w : Sender) (f : Frame) (s : State) : shapeOf (handFrame w f s).1 = shapeOf s :=
  shapeOf_of_only (handFrame_only w f s)

/-- The part in which START has set its context and the record of its draw, before the CLAIM is handed. -/
def drawReadied (sel : Selection) (s : State) : State :=
  clearContext .draw ((productOf s.cfg sel.product).map entryFor) (presetMl sel) (sel.blend.map (·.share))
    { s with
      draw := { s.draw with current := some (newDraw s sel) }
      claims := { s.claims with nextSequence := nextSequence s.claims.nextSequence } }

theorem startDraw_eq (sel : Selection) (c : Claim) (s : State) :
    startDraw a sel c s =
      if (handFrame .claimUnit (claimFrame c) (drawReadied sel s)).2 then
        { (handFrame .claimUnit (claimFrame c) (drawReadied sel s)).1 with
          draw := { (handFrame .claimUnit (claimFrame c) (drawReadied sel s)).1.draw with state := .claiming }
          claims := { (handFrame .claimUnit (claimFrame c) (drawReadied sel s)).1.claims with own := some (queuedClaim s c) }
          blend := { (handFrame .claimUnit (claimFrame c) (drawReadied sel s)).1.blend with lead := newLead c }
          handler := { (handFrame .claimUnit (claimFrame c) (drawReadied sel s)).1.handler with deferred := some a } }
      else answer a (plain .busy) { drawReadied sel s with draw := { (drawReadied sel s).draw with current := none } } := rfl

theorem startDraw_kept (sel : Selection) (c : Claim) (hserving : s.handler.serving = none) (hready : s.draw.state = .ready)
    (hunbound : s.blend.follower = .unbound) : SoundKept s (startDraw a sel c s) := fun hs => by
  have hreadied : shapeOf (drawReadied sel s) = { shapeOf s with current := true } := rfl
  have hhanded := (shapeOf_handFrame .claimUnit (claimFrame c) (drawReadied sel s)).trans hreadied
  have hclaimed : ∀ t : State, shapeOf t = { shapeOf s with current := true } → ∀ h : Handler, h.serving = none →
      Sound { t with
        draw := { t.draw with state := .claiming }
        claims := { t.claims with own := some (queuedClaim s c) }
        blend := { t.blend with lead := newLead c }
        handler := h } := fun t ht h hh => by
    have hx := hs.agrees.claim_queued hready hunbound hserving
    have hstation : t.station.state = s.station.state := congrArg Shape.station ht
    have hdrop : t.draw.drop.isSome = s.draw.drop.isSome := congrArg Shape.drop ht
    have hselection : t.draw.selection.isSome = s.draw.selection.isSome := congrArg Shape.selection ht
    have hcurrent : t.draw.current.isSome = true := congrArg Shape.current ht
    have hhalt : t.valve.halt = s.valve.halt := congrArg Shape.halt ht
    have hstage : t.valve.stage = s.valve.stage := congrArg Shape.stage ht
    have hpump : t.valve.pump = s.valve.pump := congrArg Shape.pump ht
    have hfollower : t.blend.follower = s.blend.follower := congrArg Shape.follower ht
    have hbound : t.blend.binding.isSome = s.blend.binding.isSome := congrArg Shape.bound ht
    rw [sound_iff]
    simpa [shapeOf, hstation, hdrop, hselection, hcurrent, hhalt, hstage, hpump, hfollower, hbound, hh, hserving,
      queuedClaim] using hx
  rw [startDraw_eq]
  split
  · refine hclaimed _ hhanded _ ?_
    exact (congrArg Shape.serving hhanded).trans hserving
  · refine SoundKept.of_shape (s := s) ((shapeOf_answer _ _ _).trans ?_) hs
    have hnone : s.draw.current = none := (parts_of_ready hs hready).2
    simp [shapeOf, drawReadied, clearContext, hnone]

theorem serveStart_kept (hserving : s.handler.serving = none) : SoundKept s (serveStart a r s) := by
  unfold serveStart
  split
  · exact .of_shape (shapeOf_answer _ _ s)
  · next hpermitted =>
    obtain ⟨hready, hunbound⟩ := startRefused_none hpermitted
    split
    · split
      · exact .of_shape (shapeOf_answer _ _ s)
      · exact startDraw_kept a _ _ hserving hready hunbound
    · exact .of_shape (shapeOf_answer _ _ s)

theorem servePause_kept (s : State) : SoundKept s (servePause a r s) := by
  unfold servePause
  split
  · exact (suspend_kept _ s).before (shapeOf_answer _ _ _)
  · exact (suspend_kept _ s).before (shapeOf_answer _ _ _)
  · exact (suspend_kept _ s).before (shapeOf_answer _ _ _)
  · exact .of_shape (shapeOf_answer _ _ s)

theorem serveResume_kept (s : State) : SoundKept s (serveResume a r s) := by
  unfold serveResume
  split
  · next h _ =>
    split
    · exact (enterFlowing_kept (by rw [h]; rfl)).before (shapeOf_answer _ _ _)
    · exact .of_shape (shapeOf_answer _ _ s)
  · exact .of_shape (shapeOf_answer _ _ s)

theorem serveEnd_kept (hserving : s.handler.serving = none) : SoundKept s (serveEnd a r s) := by
  unfold serveEnd
  split
  · exact .of_shape (shapeOf_answer _ _ s)
  · exact .of_shape (shapeOf_answer _ _ s)
  · next h => exact (redrawn_kept (sel := none) hserving (.inr h) rfl).before (shapeOf_answer _ _ _)
  · next h => exact (endClaiming_kept _ h).before (shapeOf_answer _ _ _)
  · exact (enterClosing_kept _ s).before (shapeOf_answer _ _ _)
  · exact (enterClosing_kept _ s).before (shapeOf_answer _ _ _)
  · exact (enterClosing_kept _ s).before (shapeOf_answer _ _ _)
  · exact .of_shape (shapeOf_answer _ _ s)

theorem shapeOf_presetSelected (litres : Option Nat) (s : State) : shapeOf (presetSelected litres s) = shapeOf s := by
  simp [shapeOf, presetSelected]

theorem servePreset_kept (s : State) : SoundKept s (servePreset a r s) := by
  have hpending : ∀ l, shapeOf (presetPending l (presetSelected l s)) = shapeOf s := fun l => shapeOf_presetSelected l s
  unfold servePreset
  split
  · simp only
    split
    · exact .of_shape (shapeOf_answer _ _ s)
    · exact .of_shape (shapeOf_answer _ _ s)
    · exact .ite (.of_shape (shapeOf_answer _ _ s)) (.of_shape ((shapeOf_answer _ _ _).trans (shapeOf_presetSelected _ s)))
    · exact .ite (.of_shape (shapeOf_answer _ _ s)) (.of_shape ((shapeOf_answer _ _ _).trans (hpending _)))
    · exact .ite (.of_shape (shapeOf_answer _ _ s)) (.of_shape ((shapeOf_answer _ _ _).trans (hpending _)))
    · exact .of_shape (shapeOf_answer _ _ s)
  · exact .refl s

theorem serveCompartment_kept (s : State) : SoundKept s (serveCompartment a r s) := by
  unfold serveCompartment
  split
  · exact .ite (.of_shape (shapeOf_answer _ _ s)) (.ite (.of_shape (shapeOf_answer _ _ s))
      (.of_shape (shapeOf_answer _ _ (setProduct _ _ s))))
  · exact .refl s

theorem serveResumeHalt_kept (s : State) : SoundKept s (serveResumeHalt a r s) := by
  unfold serveResumeHalt
  split
  · exact (setHalt_kept _ s).before (shapeOf_answer _ _ _)
  · exact .of_shape (shapeOf_answer _ _ s)
  · exact .of_shape (shapeOf_answer _ _ s)

theorem serveClearFaults_kept (s : State) : SoundKept s (serveClearFaults a r s) :=
  .ite (.of_shape (shapeOf_answer _ _ s))
    (.of_shape (shapeOf_answer _ _ { s with pulse := { s.pulse with faultLatch := false } }))

theorem servePrint_kept (s : State) : SoundKept s (servePrint a r s) := by
  unfold servePrint
  split
  · exact .ite (.of_shape ((shapeOf_answer _ _ _).trans (shapeOf_of_only (addJob_only _ s))))
      (.of_shape (shapeOf_answer _ _ s))
  · exact .refl s

theorem serveWriteConfig_kept (s : State) : SoundKept s (serveWriteConfig a r s) := by
  unfold serveWriteConfig
  split
  · next item value =>
    refine .ite (.of_shape (shapeOf_answer _ _ s)) (.ite (fun hs => ?_) (.of_shape (shapeOf_answer _ _ s)))
    rw [sound_iff]
    exact hs.agrees.with_serving (sv := some ⟨a, .writeConfig item value⟩) trivial
  · exact .refl s

end

/-- What serves the requests of its codes from an idle handler keeps the part sound, so does its command. -/
theorem takeAsk_kept {code : Nat → Bool} {serve : Asker → Request → State → State}
    (h : ∀ a r s, code (requestCode r) = true → s.handler.serving = none → SoundKept s (serve a r s)) (s : State) :
    SoundKept s (takeAsk code serve s) :=
  takeAsk_keeps (Q := Sound) (fun s f a => SoundKept.of_shape (s := s) rfl)
    (fun a x s => SoundKept.of_shape (shapeOf_answer a x s)) (fun _ _ _ s => SoundKept.of_shape (shapeOf_sendFrame _ _ s))
    (fun s _ => SoundKept.of_shape (s := s) rfl)
    (fun f r s _ hcode hdecode hserving => h (askerOf f) r s (by rw [requestCode_decodeAsk hdecode]; exact hcode) hserving)

/-! ### Every act -/

theorem expire_kept {timer : State → Option Nat} {f : State → State} (s : State)
    (h : ∀ due, timer s = some due → SoundKept (passTo due s) (f (passTo due s))) : SoundKept s (expire timer f s) :=
  fun hs => expire_keeps hs fun due hdue => h due hdue (SoundKept.of_shape (s := s) (t := passTo due s) rfl hs)

theorem whileOperating_kept {f : State → State} (s : State) (h : SoundKept s (f s)) : SoundKept s (whileOperating f s) :=
  fun hs => whileOperating_keeps hs h

theorem atTake_kept {p : Frame → Bool} {g : Frame → Nat → State → State} (s : State)
    (h : ∀ f a t, SoundKept t (g f a t)) : SoundKept s (atTake p g s) :=
  fun hs => atTake_keeps hs fun f a _ _ hs => h f a _ (SoundKept.of_shape (s := s) (t := taken s f a) rfl hs)

theorem state_of_drawTimer {d : DrawState} {timer : Current → Option Nat} {s : State} {due : Nat}
    (h : drawTimer d timer s = some due) : s.draw.state = d := by
  unfold drawTimer at h
  split at h
  · assumption
  · cases h

theorem closing_of_closingOpen {s : State} (h : closingOpen s = true) : s.draw.state = .closing := by
  simp only [closingOpen, Bool.and_eq_true, beq_iff_eq] at h
  exact h.1

theorem leadQuiet_kept (s : State) : SoundKept s (leadQuiet s) :=
  (raiseHold_kept _ _).after (shapeOf_modBinding (fun b => { b with quietDue := none }) s)

theorem act_kept (i : Instr) (s : State) : SoundKept s (act i s) := by
  cases i
  case emergencyStopChange active => exact whileOperating_kept s (emergencyStopChanged_kept active s)
  case haltRepeat =>
    rw [act]
    exact expire_kept s fun _ _ => .of_shape ((shapeOf_sendFrame _ _ _).trans rfl)
  case holdToRunPress => exact whileOperating_kept s (pressed_kept s)
  case airDetectorChange active => exact whileOperating_kept s (airChanged_kept active s)
  case pulserTransition a b => exact whileOperating_kept s (transition_kept a b s)
  case meteringUpdate reading =>
    rw [act]
    exact expire_kept s fun _ _ => metered_kept reading _
  case primeTimerExpiry =>
    exact expire_kept s fun due hdue =>
      enterFlowing_kept (s := passTo due s) (by rw [passTo_draw, state_of_drawTimer hdue]; rfl)
  case deadmanExpiry | airTimerExpiry | noFlowExpiry => exact expire_kept s fun _ _ => suspend_kept _ _
  case flowStop =>
    refine expire_kept s fun due hdue => finishClosing_kept _ ?_
    unfold flowStopDue at hdue
    split at hdue
    · next hopen => exact closing_of_closingOpen hopen
    · cases hdue
  case closingLimit =>
    refine expire_kept s fun due hdue => finishClosing_kept _ ?_
    unfold closingLimitDue at hdue
    split at hdue
    · next hopen => exact closing_of_closingOpen hopen
    · cases hdue
  case dwellTimerExpiry =>
    rw [act]
    exact expire_kept s fun _ _ => dwellPassed_kept _
  case runOnExpiry =>
    rw [act]
    exact expire_kept s fun _ _ => runOnOver_kept _
  case haltHeardExpiry =>
    rw [act]
    exact expire_kept s fun due _ => (sourceQuiet_kept _).after (s := passTo due s) rfl
  case portRestart =>
    rw [act]
    exact expire_kept s fun _ _ => portRestarted_kept _
  case quietListenExpiry =>
    rw [act]
    exact expire_kept s fun _ _ => enterRunning_kept _
  case peerSilence n => exact expire_kept s fun _ _ => peerSilent_kept n _
  case consentTimerExpiry =>
    exact expire_kept s fun due hdue => (consentTimer_kept (by rw [hdue]; rfl) due).after (s := passTo due s) rfl
  case rebuildTimerExpiry =>
    rw [act]
    exact expire_kept s fun _ _ => rebuildOver_kept _
  case leadQuietExpiry =>
    rw [act]
    exact expire_kept s fun due _ => leadQuiet_kept (passTo due s)
  case trimTimerExpiry =>
    rw [act]
    refine expire_kept s fun due hdue => enterFClose_kept _ fun hunbound => ?_
    have hunbound' : s.blend.follower = .unbound := hunbound
    rw [if_neg (by rw [hunbound']; decide)] at hdue
    cases hdue
  case followerFlowStop =>
    refine expire_kept s fun due hdue => followerFinish_kept _ ?_
    unfold followerStopDue at hdue
    split at hdue
    · assumption
    · cases hdue
  case followerClosingLimit =>
    refine expire_kept s fun due hdue => followerFinish_kept _ ?_
    unfold followerLimitDue at hdue
    split at hdue
    · assumption
    · cases hdue
  case finalReportRepeat =>
    rw [act]
    refine expire_kept s fun due _ => .of_shape ?_
    unfold repeatReport
    split
    · exact (shapeOf_sendFinalReport _ _ _ _).trans rfl
    · rfl
  case finalReportLimit =>
    rw [act]
    exact expire_kept s fun _ _ => .of_shape (shapeOf_discardHeld _ _)
  case blendWaitExpiry =>
    rw [act]
    exact expire_kept s fun due _ => (tryAssemble_kept _).after (s := passTo due s) rfl
  case frameArrival f => exact arrived_kept f s
  case takeHalt | takeStatPage1 => exact atTake_kept s fun _ _ t => .of_shape (shapeOf_modPeer _ _ t)
  case takeAnswer | takeTkt => exact atTake_kept s fun _ _ t => .refl t
  case takeClock => exact atTake_kept s fun _ _ _ => .of_shape rfl
  case takeClaim => exact atTake_kept s fun f _ t => claimTaken_kept f t
  case takeConsent => exact atTake_kept s fun f _ t => consentTaken_kept f t
  case takeRelease => exact atTake_kept s fun f _ t => releaseTaken_kept f t
  case takeStatPage2 => exact atTake_kept s fun f _ t => page2Taken_kept f t
  case takeProgLeadReport => exact atTake_kept s fun f _ t => leadReportTaken_kept f t
  case takeProgFollowerReport => exact atTake_kept s fun f _ t => followerReportTaken_kept f t
  case takeProgFinalPart => exact atTake_kept s fun f _ t => finalPartTaken_kept f t
  case takeStatPage0 => exact atTake_kept s fun f a t => page0Taken_kept f a t
  case takeCompletionNotice => exact whileOperating_kept s (noticeTaken_kept s)
  case transmitFailure noAck => exact failed_kept noAck s
  case journalWriteComplete => exact writeCompleted_kept s
  case configWriteComplete completed => exact configWritten_kept completed s
  case openDrop => exact takeAsk_kept (fun a r s hcode h => serveOpen_kept a r h (by simpa using hcode)) s
  case closeDrop => exact takeAsk_kept (fun a r s hcode h => serveClose_kept a r h (by simpa using hcode)) s
  case fetchTicket | ackTicket | readTotals =>
    refine takeAsk_kept (fun a r s hcode h => askJournal_kept a r h ?_) s
    have hcode' := beq_iff_eq.1 hcode
    exact waitAgrees_of_code _ (by rw [hcode']; decide) (by rw [hcode']; decide)
  case select => exact takeAsk_kept (fun a r s _ h => serveSelect_kept a r h) s
  case start => exact takeAsk_kept (fun a r s _ h => serveStart_kept a r h) s
  case pause => exact takeAsk_kept (fun a r s _ _ => servePause_kept a r s) s
  case resume => exact takeAsk_kept (fun a r s _ _ => serveResume_kept a r s) s
  case endDraw => exact takeAsk_kept (fun a r s _ h => serveEnd_kept a r h) s
  case resumeHalt => exact takeAsk_kept (fun a r s _ _ => serveResumeHalt_kept a r s) s
  case setPreset => exact takeAsk_kept (fun a r s _ _ => servePreset_kept a r s) s
  case setCompartment => exact takeAsk_kept (fun a r s _ _ => serveCompartment_kept a r s) s
  case clearFaults => exact takeAsk_kept (fun a r s _ _ => serveClearFaults_kept a r s) s
  case print => exact takeAsk_kept (fun a r s _ _ => servePrint_kept a r s) s
  case writeConfig => exact takeAsk_kept (fun a r s _ _ => serveWriteConfig_kept a r s) s
  case askUnknownCode => exact takeAsk_kept (fun a r s _ _ => .refl s) s
  all_goals exact .of_only (act_only _ s) (by simp only [actBlocks]; decide)

/-- Settles O4: what a start, the image read, a power fail, every act and a STAT set keep, every step keeps. -/
theorem everyStepKeepsSound : Obligations.EveryStepKeepsSound := by
  intro s t hs hstep
  refine step_keeps (P := Sound) ?here ?start ?read ?down ?act ?stat s t hs hstep
  case here => exact fun s t honly h => SoundKept.of_only honly (by decide) h
  case start => exact fun straps sealOpen s _ => sound_startUp straps sealOpen s
  case read => exact fun read s hstart h => readImage_kept read hstart h
  case down => exact fun s h => enterPowerDown_kept s h
  case act => exact fun i s h => act_kept i s h
  case stat => exact fun s h => SoundKept.of_shape (shapeOf_queueStat s) h

end Sys2Proof.Machine
end

