-- ==== Sys2Proof/Proofs/TransmitPath.lean ====
section
/-! PROOFS. Chapter 5: how the transmit queue moves (R95, R98, R99), what a failed transmission costs and what bus-off leaves
(R99, R104, R129). -/

namespace Sys2Proof.Machine

set_option Elab.async false

/-! ### The transmit queue (R95, R98, R99) -/

section
variable {i : Instr} {s : State} {f : State → State}

/-- The next state of an event of the line that page 0 shows nothing of. -/
theorem exec_stepOf_same (hexec : exec i s = stepOf f s) (hpower : s.station.state ≠ .powerDown)
    (hsame : page0State (f s) = page0State s) : exec i s = .next (f s) := by
  rw [hexec, stepOf_next _ _ hpower, announce_same f s hsame]

theorem maySend_of_running (hrun : s.station.state = .running) : maySend s = true := by
  simp only [maySend, hrun]

theorem not_any_onWire {tx : List TxEntry} (h : ∀ e ∈ tx, e.onWire = false) : tx.any (·.onWire) = false :=
  List.any_eq_false.2 fun e he => by rw [h e he]; decide

theorem filter_waiting_of_none {tx : List TxEntry} (h : ∀ e ∈ tx, e.onWire = false) :
    tx.filter (fun e => !e.onWire) = tx := List.filter_eq_self.2 fun e he => by rw [h e he]; rfl

/-- The part once the frame ON_WIRE, at the head of its queue, is sent. -/
def headSent (e : TxEntry) (es : List TxEntry) (s : State) : State :=
  { s with port := { s.port with tx := es, rx := noticeFor e.frame s.port.rx, errors := s.port.errors - 1 } }

theorem sent_head {e : TxEntry} {es : List TxEntry} (htx : s.port.tx = e :: es) (hwire : e.onWire = true)
    (hrest : ∀ x ∈ es, x.onWire = false) (hsender : ∀ n, e.sender ≠ .journal n) : sent s = headSent e es s := by
  have hfind : s.port.tx.find? (·.onWire) = some e := by rw [htx]; exact List.find?_cons_of_pos hwire
  have hleft : s.port.tx.filter (fun x => !x.onWire) = es := by
    rw [htx, List.filter_cons_of_neg (by rw [hwire]; decide), filter_waiting_of_none hrest]
  rw [sent, hfind, hleft]
  change reportSent e (headSent e es s) = headSent e es s
  unfold reportSent
  split
  · next n hn => exact absurd hn (hsender n)
  · rfl

end

/-- Settles O40. -/
theorem transmitQueueMovesOn : Obligations.TransmitQueueMovesOn := by
  refine ⟨fun s e es hrun htx hfree => ?start, fun s hpower => ?lost, fun s e es hpower htx hwire hrest hsender => ?sent⟩
  case start =>
    have hstarted : started s = { s with port := { s.port with tx := { e with onWire := true } :: es } } := by
      rw [started, if_pos ⟨maySend_of_running hrun, not_any_onWire (htx ▸ hfree)⟩, htx, startFirst,
        if_neg (by rw [hfree e List.mem_cons_self]; decide)]
    have hexec := exec_stepOf_same (i := .transmitStart) (by rw [exec, execTransmitStart]) (by rw [hrun]; decide)
      ((congrArg page0State hstarted).trans rfl)
    rw [hstarted] at hexec
    exact ⟨_, hexec, rfl, only_port _⟩
  case lost =>
    exact ⟨_, exec_stepOf_same (i := .arbitrationLost) (by rw [exec, execArbitrationLost]) hpower rfl, rfl, only_port _⟩
  case sent =>
    have hsent := sent_head htx hwire hrest hsender
    have hexec := exec_stepOf_same (i := .frameSent) (by rw [exec, execFrameSent]) hpower
      ((congrArg page0State hsent).trans rfl)
    rw [hsent] at hexec
    exact ⟨_, hexec, rfl, only_port _⟩

/-! ### Off the line nothing is sent (R104) -/

/-- What the operations of a station in LINE_LOST keep of the port, the journal and the outputs. -/
structure KeptOffLine (s t : State) : Prop where
  station : t.station = s.station
  port : t.port = s.port
  fetch : t.journal.fetch = s.journal.fetch
  mem : t.journal.mem = s.journal.mem
  comps : t.valve.compCommands = s.valve.compCommands
  pump : t.valve.pumpNeeded = s.valve.pumpNeeded
  stage : s.valve.stage ≠ .fast → t.valve.stage ≠ .fast

section
variable {s t u : State} {bs : List Block}

theorem KeptOffLine.trans (h₁ : KeptOffLine s t) (h₂ : KeptOffLine t u) : KeptOffLine s u :=
  ⟨h₂.station.trans h₁.station, h₂.port.trans h₁.port, h₂.fetch.trans h₁.fetch, h₂.mem.trans h₁.mem,
    h₂.comps.trans h₁.comps, h₂.pump.trans h₁.pump, fun h => h₂.stage (h₁.stage h)⟩

theorem KeptOffLine.of_only (h : OnlyChanges bs s t)
    (hb : .station ∉ bs ∧ .port ∉ bs ∧ .journal ∉ bs ∧ .valve ∉ bs := by decide) : KeptOffLine s t := by
  obtain ⟨hstation, hport, hjournal, hvalve⟩ := hb
  have hvalve' : t.valve = s.valve := h.get .valve hvalve
  have hjournal' : t.journal = s.journal := h.get .journal hjournal
  exact ⟨h.get .station hstation, h.get .port hport, by rw [hjournal'], by rw [hjournal'], by rw [hvalve'], by rw [hvalve'],
    fun hne => by rwa [hvalve']⟩

theorem KeptOffLine.refl (s : State) : KeptOffLine s s := .of_only (OnlyChanges.refl [] s)

theorem KeptOffLine.lost (h : KeptOffLine s t) (hlost : s.station.state = .lineLost) : t.station.state = .lineLost := by
  rw [h.station, hlost]

theorem sendFrame_offLine (w : Sender) (f : Frame) (hlost : s.station.state = .lineLost) : sendFrame w f s = s := by
  simp [sendFrame, handFrame, portTakes, hlost]

theorem handWork_fetch (w : Work) (s : State) : (handWork w s).journal.fetch = s.journal.fetch := by
  unfold handWork beginIfIdle beginWrite
  split
  · split
    · rfl
    · split <;> rfl
  · rfl

theorem handWork_offLine (w : Work) (s : State) : KeptOffLine s (handWork w s) := by
  have h := handWork_only w s
  have hvalve : (handWork w s).valve = s.valve := h.get .valve
  exact ⟨h.get .station, h.get .port, handWork_fetch w s, handWork_mem w s, by rw [hvalve], by rw [hvalve],
    fun hne => by rwa [hvalve]⟩

theorem requestStage_closed_offLine (who : Owner) (s : State) : KeptOffLine s (requestStage who .closed s) := by
  have h := requestStage_only who .closed s
  have hjournal : (requestStage who .closed s).journal = s.journal := h.get .journal
  have hvalve : (requestStage who .closed s).valve.compCommands = s.valve.compCommands ∧
      (requestStage who .closed s).valve.pumpNeeded = s.valve.pumpNeeded := by
    obtain heq | heq := requestStage_taken_or_same who .closed s <;> rw [heq] <;> exact ⟨rfl, rfl⟩
  refine ⟨h.get .station, h.get .port, by rw [hjournal], by rw [hjournal], hvalve.1, hvalve.2, fun hne hfast => ?_⟩
  obtain ⟨-, hstood⟩ | ⟨hr, -⟩ := requestStage_fast hfast
  · exact hne hstood
  · cases hr

theorem sendLeadProg_offLine (b : Bool) (hlost : s.station.state = .lineLost) : sendLeadProg b s = s := by
  unfold sendLeadProg
  split
  · exact sendFrame_offLine _ _ hlost
  · rfl

theorem sendFollowerProg_offLine (hlost : s.station.state = .lineLost) : sendFollowerProg s = s := by
  unfold sendFollowerProg
  split
  · exact sendFrame_offLine _ _ hlost
  · rfl

theorem flowLeft_offLine (d : DrawState) (f : Current → Current) (s : State) : KeptOffLine s (flowLeft d f s) :=
  ⟨rfl, rfl, rfl, rfl, rfl, rfl, id⟩

theorem closeBegun_offLine (code : EndCode) (s : State) : KeptOffLine s (closeBegun code s) :=
  ⟨rfl, rfl, rfl, rfl, rfl, rfl, id⟩

theorem leaveFlow_offLine (d : DrawState) (f : Current → Current) (hlost : s.station.state = .lineLost) :
    KeptOffLine s (leaveFlow d f s) := by
  have hleft : KeptOffLine s (requestDraw .closed (flowLeft d f s)) :=
    (flowLeft_offLine d f s).trans ((requestStage_closed_offLine .draw _).trans (.of_only (modCurrent_only _ _)))
  have hworked := hleft.trans (handWork_offLine (.checkpoint false) _)
  rw [leaveFlow_eq, drawChanged, checkpoint, sendLeadProg_offLine _ (hworked.lost hlost)]
  exact hworked

theorem suspend_offLine (raise : Causes → Causes) (hlost : s.station.state = .lineLost) :
    KeptOffLine s (suspend raise s) := by
  unfold suspend
  split
  · exact leaveFlow_offLine _ _ hlost
  · exact leaveFlow_offLine _ _ hlost
  · exact .of_only (modCurrent_only _ s)
  · exact .refl s

theorem requestFollower_closed_offLine (s : State) : KeptOffLine s (requestFollower .closed s) := by
  have h := requestStage_closed_offLine .blend s
  unfold requestFollower
  simp only
  split
  · exact h.trans (.of_only (only_blend _))
  · exact h

theorem enterFClose_offLine (code : EndCode) (hlost : s.station.state = .lineLost) :
    KeptOffLine s (enterFClose code s) := by
  have hworked : KeptOffLine s (followerCheckpoint (requestFollower .closed (closeBegun code s))) :=
    ((closeBegun_offLine code s).trans (requestFollower_closed_offLine _)).trans
      (handWork_offLine .followerCheckpoint _)
  have hsame : enterFClose code s = followerCheckpoint (requestFollower .closed (closeBegun code s)) :=
    sendFollowerProg_offLine (hworked.lost hlost)
  rw [hsame]
  exact hworked

theorem bindingEnd_offLine (id : ClaimId) (hlost : s.station.state = .lineLost) : KeptOffLine s (bindingEnd id s) := by
  unfold bindingEnd
  split
  · split
    · split
      · exact .of_only (only_blend _)
      · exact enterFClose_offLine _ hlost
      · exact enterFClose_offLine _ hlost
      · exact enterFClose_offLine _ hlost
      · exact enterFClose_offLine _ hlost
      · exact .refl s
    · exact .refl s
  · exact .refl s

theorem bindingLost_offLine (hlost : s.station.state = .lineLost) : KeptOffLine s (bindingLost s) := by
  unfold bindingLost
  split
  · exact bindingEnd_offLine _ hlost
  · exact .refl s

theorem drawLost_offLine (hlost : s.station.state = .lineLost) : KeptOffLine s (drawLost s) := by
  unfold drawLost
  split
  · exact (KeptOffLine.of_only (returnToReady_only s)).trans (.of_only (abandonDeferred_only _))
  · exact suspend_offLine _ hlost

/-! ### Bus-off (R104, R129) -/

theorem setPumpNeeded_pumpNeeded (b : Bool) (s : State) : (setPumpNeeded b s).valve.pumpNeeded = b := by
  unfold setPumpNeeded
  split
  · next h => exact h.symm
  · rfl

theorem setPumpNeeded_compCommands (b : Bool) (s : State) :
    (setPumpNeeded b s).valve.compCommands = s.valve.compCommands := by
  unfold setPumpNeeded
  split <;> rfl

theorem setPumpNeeded_stage (b : Bool) (s : State) : (setPumpNeeded b s).valve.stage = s.valve.stage := by
  unfold setPumpNeeded
  split <;> rfl

theorem neededComps_of_no_records (h : s.claims.records = []) : neededComps s = 0 := by
  have hnone : ∀ r, recordHolds s r = false := fun r => by rw [recordHolds, h]; rfl
  have hfold : ∀ l : List OwnedOutput, l.foldl (fun acc o =>
      if recordHolds s (.comp o.comp) then acc ||| oneComp o.comp else acc) (0 : CompSet) = 0 := by
    intro l
    induction l with
    | nil => rfl
    | cons o l ih => rw [List.foldl_cons, hnone, if_neg Bool.false_ne_true]; exact ih
  exact hfold _

theorem pumpWanted_of_no_records (h : s.claims.records = []) : pumpWanted s = false := by
  unfold pumpWanted recordHolds
  rw [h]
  split <;> rfl

/-- With the records emptied every output command goes off (R129). -/
theorem claimsLost_outputs (s : State) :
    (claimsLost s).valve.compCommands = 0 ∧ (claimsLost s).valve.pumpNeeded = false ∧
      (claimsLost s).valve.stage = s.valve.stage := by
  refine ⟨?_, ?_, ?_⟩
  · rw [claimsLost, setCommands, setPumpNeeded_compCommands]
    exact neededComps_of_no_records rfl
  · rw [claimsLost, setCommands, setPumpNeeded_pumpNeeded]
    exact pumpWanted_of_no_records rfl
  · rw [claimsLost, setCommands, setPumpNeeded_stage]

/-- The part with no entry ON_WIRE. -/
def allWait (s : State) : State := { s with port := { s.port with tx := allWaiting s.port.tx } }

section
variable {noAck : Bool} (hwire : s.port.tx.any (·.onWire) = true)
include hwire

theorem failed_counted {n : Nat} (h : errorsAfter noAck s.port.errors = some n) :
    failed noAck s = { s with port := { s.port with tx := allWaiting s.port.tx, errors := n } } := by
  simp only [failed, if_pos hwire, h]

theorem failed_busOff (h : errorsAfter noAck s.port.errors = none) (hrun : s.station.state = .running) :
    failed noAck s = enterLineLost (allWait s) := by
  have hbus : busOff (allWait s) = enterLineLost (allWait s) := by
    simp only [busOff, show (allWait s).station.state = .running from hrun]
  simp only [failed, if_pos hwire, h]
  exact hbus

end

theorem announce_offLine {f : State → State} (hlost : (f s).station.state = .lineLost) : announce f s = f s := by
  have hstat : queueStat (f s) = f s := by simp only [queueStat, hlost]
  simp only [announce, hstat, ite_self]

end

/-- Settles O41. -/
theorem transmitFailureCountsToBusOff : Obligations.TransmitFailureCountsToBusOff := by
  intro noAck s hrun hwire
  have hpower : s.station.state ≠ .powerDown := by rw [hrun]; decide
  have hany : s.port.tx.any (·.onWire) = true := by
    obtain ⟨e, he, hon⟩ := hwire
    exact List.any_eq_true.2 ⟨e, he, hon⟩
  have hcounted : ∀ n, errorsAfter noAck s.port.errors = some n → exec (.transmitFailure noAck) s =
      .next { s with port := { s.port with tx := allWaiting s.port.tx, errors := n } } := fun n hn => by
    have hnext := failed_counted hany hn
    have hexec := exec_stepOf_same (i := .transmitFailure noAck) (by rw [exec, execTransmitFailure]) hpower
      ((congrArg page0State hnext).trans rfl)
    rwa [hnext] at hexec
  refine ⟨fun h => ?unacknowledged, fun h hroom => ?counted, fun h hover => ?busOff⟩
  case unacknowledged =>
    exact ⟨_, hcounted s.port.errors (if_pos h), rfl, only_port _⟩
  case counted =>
    refine ⟨_, hcounted (s.port.errors + 8) ?_, rfl, only_port _⟩
    rw [errorsAfter, if_neg h, if_neg (Nat.not_lt.2 hroom)]
  case busOff =>
    have hnone : errorsAfter noAck s.port.errors = none := by rw [errorsAfter, if_neg h, if_pos hover]
    have hnext := failed_busOff hany hnone hrun
    set v := allWait s with hv
    set w := wentOffLine v with hw
    have hclaims := claimsLost_only w
    have hwlost : (claimsLost w).station.state = .lineLost := congrArg Station.state (hclaims.get .station)
    have hbind := bindingLost_offLine hwlost
    have hkept : KeptOffLine (claimsLost w) (enterLineLost v) := hbind.trans (drawLost_offLine (hbind.lost hwlost))
    have hlost := hkept.lost hwlost
    have hexec : exec (.transmitFailure noAck) s = .next (enterLineLost v) := by
      rw [exec, execTransmitFailure, stepOf_next _ _ hpower, announce_offLine (hnext ▸ hlost), hnext]
    have hwclaims : (enterLineLost v).claims = (claimsLost w).claims :=
      ((drawLost_only _).get .claims).trans ((bindingLost_only _).get .claims)
    have hrecords : (claimsLost w).claims = { w.claims with
        view := [], records := [], rebuildDue := none, abandoned := [], own := w.claims.own.bind lostClaim } :=
      (setCommands_only _).get .claims
    obtain ⟨hcomps, hneeded, hstage⟩ := claimsLost_outputs w
    have hjournal : (claimsLost w).journal = w.journal := hclaims.get .journal
    have honly := enterLineLost_only v
    refine ⟨_, hexec, hkept.station.trans (hclaims.get .station), hkept.port.trans (hclaims.get .port),
      by rw [hwclaims, hrecords], by rw [hwclaims, hrecords], by rw [hwclaims, hrecords], hkept.comps.trans hcomps,
      hkept.pump.trans hneeded, hkept.stage (by rw [hstage]; exact wentOffLine_not_fast v),
      hkept.fetch.trans (by rw [hjournal]; rfl), hkept.mem.trans (by rw [hjournal]; rfl), honly.get .pulse,
        honly.get .engine⟩

end Sys2Proof.Machine
end

