-- ==== Sys2Proof/Proofs/Arrivals.lean ====
section
/-! PROOFS. Chapter 5: the acceptance filter, the receive queue and a HALT at its arrival (R82, R85, R92, R93). -/

namespace Sys2Proof.Machine

set_option Elab.async false

/-! ### What a halt's reactions keep while it is in force (R79) -/

/-- The receive queue, the halt and its timer stand, and the outputs stay off. -/
structure HaltStands (s t : State) : Prop where
  rx : t.port.rx = s.port.rx
  halt : t.valve.halt = s.valve.halt
  heard : t.valve.heardDue = s.valve.heardDue
  stage : t.valve.stage = s.valve.stage
  off : s.valve.halt ≠ .clear → s.valve.pump = .off → t.valve.pump = .off

section
variable {s t u : State} {bs : List Block}

theorem HaltStands.trans (h₁ : HaltStands s t) (h₂ : HaltStands t u) : HaltStands s u :=
  ⟨h₂.rx.trans h₁.rx, h₂.halt.trans h₁.halt, h₂.heard.trans h₁.heard, h₂.stage.trans h₁.stage,
    fun hset hoff => h₂.off (h₁.halt ▸ hset) (h₁.off hset hoff)⟩

theorem HaltStands.of_valve (hrx : t.port.rx = s.port.rx) (hvalve : t.valve = s.valve) : HaltStands s t :=
  ⟨hrx, by rw [hvalve], by rw [hvalve], by rw [hvalve], fun _ hoff => by rw [hvalve]; exact hoff⟩

theorem HaltStands.refl (s : State) : HaltStands s s := .of_valve rfl rfl

theorem HaltStands.of_only (h : OnlyChanges bs s t) (hb : .port ∉ bs ∧ .valve ∉ bs := by decide) : HaltStands s t :=
  .of_valve (by rw [h.get .port hb.1]) (h.get .valve hb.2)

theorem HaltStands.of_hands {n : Nat} (h : Hands n s t) (hvalve : t.valve = s.valve) : HaltStands s t :=
  .of_valve (by rw [h.port]) hvalve

theorem abandonFetch_rx (n : Nat) (s : State) : (abandonFetch n s).port.rx = s.port.rx := by
  unfold abandonFetch
  split
  · split <;> rfl
  · rfl

theorem displaced_rx (e : TxEntry) (s : State) : (displaced e s).port.rx = s.port.rx := by
  unfold displaced
  split
  · exact abandonFetch_rx _ _
  · rfl

theorem sendFrame_rx (w : Sender) (f : Frame) (s : State) : (sendFrame w f s).port.rx = s.port.rx := by
  unfold sendFrame handFrame
  split
  · split
    · rfl
    · split
      · split
        · exact displaced_rx _ _
        · rfl
      · rfl
  · rfl

theorem sendFrame_haltStands (w : Sender) (f : Frame) (s : State) : HaltStands s (sendFrame w f s) :=
  .of_valve (sendFrame_rx w f s) ((sendFrame_only w f s).get .valve)

theorem setPumpNeeded_haltStands (b : Bool) (s : State) : HaltStands s (setPumpNeeded b s) := by
  unfold setPumpNeeded
  split
  · exact .refl s
  · refine ⟨rfl, rfl, rfl, rfl, fun hset hoff => ?_⟩
    change pumpCommand _ _ _ _ s.valve.pump = .off
    rw [hoff]
    cases b with
    | true => exact if_neg hset
    | false => rfl

theorem setCommands_haltStands (s : State) : HaltStands s (setCommands s) :=
  HaltStands.trans (t := { s with valve := { s.valve with compCommands := neededComps s } })
    ⟨rfl, rfl, rfl, rfl, fun _ hoff => hoff⟩ (setPumpNeeded_haltStands _ _)

theorem releaseOwn_haltStands (s : State) : HaltStands s (releaseOwn s) := by
  unfold releaseOwn
  split
  · next o _ =>
    have hdropped : HaltStands s (dropRecords o.claim.id (sendFrame .claimUnit (releaseFrame o.claim.id) s)) :=
      (sendFrame_haltStands _ _ s).trans
        (HaltStands.trans (.of_only (only_claims _)) (setCommands_haltStands _))
    exact hdropped.trans (.of_only (only_claims _))
  · exact .refl s

theorem withdrawOwn_haltStands (s : State) : HaltStands s (withdrawOwn s) := by
  unfold withdrawOwn withdrawClaim
  split
  · simp only
    split <;> exact .of_valve rfl rfl
  · exact .refl s

theorem settleDeferred_haltStands (ans : Answer) (s : State) : HaltStands s (settleDeferred ans s) := by
  unfold settleDeferred
  split
  · next a _ =>
    exact HaltStands.trans (.of_only (only_handler _))
      (.of_hands (answer_hands a ans _) ((answer_only _ _ _).get .valve))
  · exact .refl s

theorem endClaiming_haltStands (ans : Answer) (s : State) : HaltStands s (endClaiming ans s) := by
  unfold endClaiming
  split
  · refine HaltStands.trans (HaltStands.trans ?_ (.of_only (returnToReady_only _))) (settleDeferred_haltStands _ _)
    split
    · exact withdrawOwn_haltStands s
    · exact releaseOwn_haltStands s
  · exact .refl s

/-- While a halt is in force the draw requests no stage (R76). -/
theorem suspend_haltStands (raise : Causes → Causes) (hset : s.valve.halt ≠ .clear) : HaltStands s (suspend raise s) := by
  unfold suspend
  split
  · exact .of_hands (leaveFlow_hands _ _ s) (leaveFlow_valve_halted _ _ hset)
  · exact .of_hands (leaveFlow_hands _ _ s) (leaveFlow_valve_halted _ _ hset)
  · exact .of_only (modCurrent_only _ s)
  · exact .refl s

theorem sendFollowerProg_haltStands (s : State) : HaltStands s (sendFollowerProg s) := by
  unfold sendFollowerProg
  split
  · exact sendFrame_haltStands _ _ s
  · exact .refl s

theorem followerChanged_haltStands (s : State) : HaltStands s (followerChanged s) :=
  HaltStands.trans (.of_only (handWork_only _ s)) (sendFollowerProg_haltStands _)

theorem requestFollower_haltStands (r : StageReq) (hset : s.valve.halt ≠ .clear) : HaltStands s (requestFollower r s) := by
  have hsame : requestStage .blend r s = s := requestStage_halted hset
  unfold requestFollower
  rw [hsame]
  simp only
  split
  · exact .of_only (only_blend _)
  · exact .refl s

/-- The part with its follower in F_HOLD, before its stage request. -/
def inHold (s : State) : State := { s with blend := { s.blend with follower := .fHold } }

theorem enterHold_haltStands (hset : s.valve.halt ≠ .clear) : HaltStands s (enterHold s) :=
  HaltStands.trans (t := inHold s) (.of_only (only_blend _))
    ((requestFollower_haltStands (s := inHold s) .closed hset).trans (followerChanged_haltStands _))

theorem raiseHold_haltStands (r : HoldReason) (hset : s.valve.halt ≠ .clear) : HaltStands s (raiseHold r s) := by
  have hmod : HaltStands s (modBinding (fun b => { b with holds := setHold r true b.holds }) s) := .of_only (only_blend _)
  unfold raiseHold
  split
  · exact hmod.trans (enterHold_haltStands hset)
  · exact hmod.trans (enterHold_haltStands hset)
  · exact hmod
  · exact .refl s

/-- From the outputs off at once, the draw's and the follower's reactions leave them off (R79). -/
theorem haltBegins_haltStands (hset : s.valve.halt ≠ .clear) :
    HaltStands { s with valve := haltOutputs s.valve } (haltBegins s) := by
  have hreact : HaltStands { s with valve := haltOutputs s.valve } (if s.draw.state = .claiming then
      endClaiming (plain .halted) { s with valve := haltOutputs s.valve }
      else suspend (raiseCond .halt) { s with valve := haltOutputs s.valve }) := by
    split
    · exact endClaiming_haltStands _ _
    · exact suspend_haltStands _ hset
  exact hreact.trans (raiseHold_haltStands .halt (hreact.halt.trans_ne hset))

end

/-! ### A HALT that is heard (R82, R85) -/

section
variable (s : State)

/-- The part with the halt-heard timer started. -/
def heardHalt (s : State) : State :=
  { s with valve := { s.valve with heardDue := some (s.time + Config.haltHeardTime) } }

theorem hearHalt_stands :
    (hearHalt s).port.rx = s.port.rx ∧ (hearHalt s).valve.halt = .halted ∧
      (hearHalt s).valve.heardDue = some (s.time + 1000) ∧
      (s.valve.halt = .clear → (hearHalt s).valve.stage = .closed ∧ (hearHalt s).valve.pump = .off) := by
  change (setHalt .halted (heardHalt s)).port.rx = _ ∧ (setHalt .halted (heardHalt s)).valve.halt = _ ∧
    (setHalt .halted (heardHalt s)).valve.heardDue = _ ∧ (_ → (setHalt .halted (heardHalt s)).valve.stage = _ ∧
      (setHalt .halted (heardHalt s)).valve.pump = _)
  by_cases hclear : s.valve.halt = .clear
  · rw [setHalt_begins (s := heardHalt s) hclear (by decide)]
    obtain ⟨hrx, hhalt, hheard, hstage, hoff⟩ := haltBegins_haltStands (s := haltMarked .halted (heardHalt s)) nofun
    exact ⟨hrx, hhalt, hheard, fun _ => ⟨hstage, hoff nofun rfl⟩⟩
  · rw [setHalt_still (s := heardHalt s) hclear (by decide)]
    exact ⟨rfl, rfl, rfl, fun h => absurd h hclear⟩

end

/-! ### The filter (R92, R93) -/

theorem passesFilter_iff {s : State} (f : Frame) (hrun : s.station.state = .running) :
    passesFilter s f = true ↔
      1 ≤ kindOf f.id ∧ kindOf f.id ≤ 10 ∧ (destOf f.id = 0 ∨ destOf f.id = s.station.number) ∧
        sourceOf f.id ≠ 0 ∧ sourceOf f.id ≠ s.station.number ∧ lengthOk f = true := by
  have htakes : stateTakes s f = true := by simp only [stateTakes, hrun]
  simp [passesFilter, htakes, and_assoc]

/-- Settles O39. -/
theorem arrivalIsFilteredAndQueued : Obligations.ArrivalIsFilteredAndQueued := by
  intro f s hrun hfree hroom
  have hpower : s.station.state ≠ .powerDown := by rw [hrun]; decide
  have hown : ownOnWire s = false := not_any_onWire hfree
  have hform : exec (.frameArrival f) s = stepOf (arrived f) s := by rw [exec, execFrameArrival]
  have henter : passesFilter s f = true → arrived f s = entered f (pushRx f s.port.rx s) := fun hpass => by
    rw [arrived, if_pos ⟨hown, hpass⟩, offerFrame, if_pos hroom]
  refine ⟨fun hpass hkind => ?enters, fun hpass hkind => ?halts, fun hfail => ?dropped⟩
  case enters =>
    have harrived : arrived f s = pushRx f s.port.rx s := by
      rw [henter ((passesFilter_iff f hrun).2 hpass), entered, if_neg hkind]
    have hexec := exec_stepOf_same hform hpower ((congrArg page0State harrived).trans rfl)
    rw [harrived] at hexec
    exact ⟨_, hexec, rfl, only_port _⟩
  case halts =>
    have harrived : arrived f s = hearHalt (pushRx f s.port.rx s) := by
      rw [henter ((passesFilter_iff f hrun).2 hpass), entered, if_pos hkind]
    obtain ⟨hrx, hhalt, hheard, hoff⟩ := hearHalt_stands (pushRx f s.port.rx s)
    have hstat := announce_statAfter (arrived f) s
    have hexec : exec (.frameArrival f) s = .next (announce (arrived f) s) := by rw [hform, stepOf_next _ _ hpower]
    rw [← harrived] at hrx hhalt hheard hoff
    have hvalve : (announce (arrived f) s).valve = (arrived f s).valve := hstat.only.get .valve
    refine ⟨_, hexec, hstat.rx.trans hrx, by rw [hvalve]; exact hhalt, by rw [hvalve]; exact hheard,
      fun n => compDriven_of_halt n (by rw [hvalve, hhalt]; decide), fun hclear => by rw [hvalve]; exact hoff hclear, ?_⟩
    exact (hstat.changes (arrived_only f s)).mono (by decide)
  case dropped =>
    have hsame : arrived f s = s := if_neg fun h => hfail ((passesFilter_iff f hrun).1 h.2)
    have hexec := exec_stepOf_same hform hpower (congrArg page0State hsame)
    rw [hsame] at hexec
    exact ⟨s, hexec, .refl _ _⟩

end Sys2Proof.Machine
end

