-- ==== Sys2Proof/Proofs/ClaimEnds.lean ====
section
/-! PROOFS. Chapter 6: the notice of an own CLAIM (R113, R116), the consent timer and the rebuild timer (R114, R130), and the
three ways in which a peer's claim ends (R120, R124, R127). -/

namespace Sys2Proof.Machine

set_option Elab.async false

/-! ### Frames that wait stay while an answer is handed (R97) -/

section
variable {s : State} {f : Frame}

theorem Queued.sendFrame {w : Sender} {g : Frame} (hg : isUrgent g = false) (h : Queued f s) :
    Queued f (sendFrame w g s) := by
  obtain ⟨e, he, rfl⟩ := h
  unfold Machine.sendFrame handFrame
  rw [hg]
  split
  · split
    · exact ⟨e, (mem_txInsert_iff _ _ _).2 (.inr he), rfl⟩
    · exact ⟨e, he, rfl⟩
  · exact ⟨e, he, rfl⟩

theorem Queued.answer (a : Asker) (ans : Answer) (h : Queued f s) : Queued f (answer a ans s) :=
  Queued.sendFrame (w := .handler) (isUrgent_answerFrame s.station.number a ans) h

theorem NoWaitingClaim.answer {n : Nat} (a : Asker) (ans : Answer) (h : NoWaitingClaim n s) :
    NoWaitingClaim n (answer a ans s) := by
  intro e he hwaits hkind
  obtain hframe | hmem := mem_sendFrame (isUrgent_answerFrame _ _ _) he
  · rw [hframe, kindOf_answerFrame] at hkind
    cases hkind
  · exact h e hmem hwaits hkind

theorem NoWaitingClaim.statAfter {n : Nat} {t : State} (hstat : StatAfter s t) (h : NoWaitingClaim n s) :
    NoWaitingClaim n t := by
  intro e he hwaits hkind
  exact h e ((hstat.mem e (by rw [hkind]; decide)).1 he) hwaits hkind

end

/-! ### The notice of an own CLAIM (R113, R116) -/

section
variable {s : State}

theorem exec_whileOperating_same {i : Instr} {g : State → State} (hexec : exec i s = stepWhenOperating g s)
    (hop : operating s = true) (hsame : page0State (g s) = page0State s) : exec i s = .next (g s) := by
  rw [hexec, stepWhenOperating_next g s hop, announce_same g s hsame]

/-- The claim once its CLAIM has completed, with the next rank (R113). -/
def inForceClaim (s : State) (o : OwnClaim) : OwnClaim :=
  { o with phase := .inForce, rank := some s.claims.nextRank, unjudged := false }

/-- A claim in force with nothing of its own station to judge and others awaited stands as it is. -/
theorem claimCompleted_inForce {o : OwnClaim} {n : Nat} (hown : s.claims.own = some o) (hphase : o.phase = .queued)
    (hsequence : o.claim.id.sequence = n) (habandoned : n ∉ s.claims.abandoned) (howned : ownedOf s o.claim = [])
    (hopen : allGranted o = false) :
    claimCompleted n s = { s with
      claims := { s.claims with own := some (inForceClaim s o), nextRank := s.claims.nextRank + 1 } } := by
  have hnot : ¬(s.claims.abandoned.contains n = true) := by simpa using habandoned
  have hforce : modOwn (fun o => { o with phase := .inForce }) s =
      { s with claims := { s.claims with own := some { o with phase := .inForce } } } := by simp [modOwn, hown]
  have hsettled : settleConsent { s with
      claims := { s.claims with own := some (inForceClaim s o), nextRank := s.claims.nextRank + 1 } } =
      { s with claims := { s.claims with own := some (inForceClaim s o), nextRank := s.claims.nextRank + 1 } } :=
    if_neg (by rw [show allGranted (inForceClaim s o) = allGranted o from rfl, hopen]; decide)
  rw [claimCompleted, if_neg hnot, hown]
  simp only
  rw [if_pos ⟨hphase, hsequence⟩, hforce]
  have howned' : ownedOf { s with claims := { s.claims with own := some { o with phase := .inForce } } } o.claim = [] := howned
  simp only [judgeOwn, howned', judgeAll, concludeOwn]
  exact hsettled

theorem claimCompleted_abandoned {n : Nat} (habandoned : n ∈ s.claims.abandoned) :
    claimCompleted n s = sendFrame .claimUnit (releaseFrame ⟨s.station.number, n⟩)
      { s with claims := { s.claims with abandoned := s.claims.abandoned.erase n } } := by
  rw [claimCompleted, if_pos (by simpa using habandoned)]

/-- The part once the oldest entry of its receive queue has left it. -/
def noticeGone (rest : List RxEntry) (s : State) : State := { s with port := { s.port with rx := rest } }

theorem noticeTaken_claim {f : Frame} {rest : List RxEntry} (hrx : s.port.rx = .notice f :: rest)
    (hkind : kindOf f.id = kClaim) : noticeTaken s = claimCompleted (sequenceOf f.id) (noticeGone rest s) := by
  simp only [noticeTaken, hrx, if_pos hkind]
  rfl

end

/-- Settles O46. -/
theorem completionNoticePutsClaimInForce : Obligations.CompletionNoticePutsClaimInForce := by
  intro s f rest hop hrx hkind
  have hform : exec .takeCompletionNotice s = stepWhenOperating noticeTaken s := by rw [exec, execTakeCompletionNotice]
  have htaken := noticeTaken_claim hrx hkind
  refine ⟨fun o hown hphase hsequence habandoned howned hopen => ?inForce, fun habandoned hrun hroom => ?abandoned⟩
  case inForce =>
    have hnext := htaken.trans
      (claimCompleted_inForce (s := noticeGone rest s) hown hphase hsequence habandoned howned hopen)
    have hexec := exec_whileOperating_same hform hop ((congrArg page0State hnext).trans rfl)
    rw [hnext] at hexec
    exact ⟨_, hexec, rfl, rfl, OnlyChanges.comp (t := noticeGone rest s) (ds := [.port, .claims]) (only_claims _) (only_port _)⟩
  case abandoned =>
    have hnext := (htaken.trans (claimCompleted_abandoned (s := noticeGone rest s) habandoned)).trans
      (sendFrame_of_room _ _ hrun hroom)
    have hexec := exec_whileOperating_same hform hop ((congrArg page0State hnext).trans rfl)
    rw [hnext] at hexec
    exact ⟨_, hexec, rfl, queued_of_txInsert rfl, rfl,
      OnlyChanges.comp (t := { noticeGone rest s with claims := _ }) (ds := [.port, .claims]) (only_port _)
        (OnlyChanges.comp (t := noticeGone rest s) (ds := [.port, .claims]) (only_claims _) (only_port _))⟩

/-! ### The consent timer and the rebuild timer (R114, R130) -/

section
variable {s : State} {o : OwnClaim} (hown : s.claims.own = some o)

theorem claimEnded_blend (o : OwnClaim) (s : State) : (claimEnded o s).blend = { s.blend with lead := none } := by
  have h : (if o.phase = .queued then withdrawOwn s else releaseOwn s).blend = s.blend := (endOwn_only o s).get .blend
  change { (if o.phase = .queued then withdrawOwn s else releaseOwn s).blend with lead := none } = _
  rw [h]

include hown in
/-- A CLAIM that was withdrawn leaves nothing to release later (R114). -/
theorem claimEnded_abandoned (hphase : o.phase = .queued)
    (hwaits : ∃ e ∈ s.port.tx, e.onWire = false ∧ kindOf e.frame.id = kClaim ∧
      sequenceOf e.frame.id = o.claim.id.sequence) :
    (claimEnded o s).claims.abandoned = s.claims.abandoned := by
  obtain ⟨e, he, hwire, hkind, hsequence⟩ := hwaits
  have hany : s.port.tx.any (fun e => kindOf e.frame.id == kClaim && sequenceOf e.frame.id == o.claim.id.sequence &&
      !e.onWire) = true := List.any_eq_true.2 ⟨e, he, by simp [hwire, hkind, hsequence]⟩
  change (if o.phase = .queued then withdrawOwn s else releaseOwn s).claims.abandoned = _
  rw [if_pos hphase]
  simp only [withdrawOwn, hown, withdrawClaim, if_pos hany]
  rfl

end

theorem consentDueOf_pending {s : State} {o : OwnClaim} (hown : s.claims.own = some o) (hphase : o.phase ≠ .consented) :
    consentDueOf s = o.consentDue := by
  simp only [consentDueOf, hown, if_neg hphase]

/-- Settles O47. -/
theorem claimTimersEndWaiting : Obligations.ClaimTimersEndWaiting := by
  refine ⟨fun s o due a hrun hown hphase hdue hdeferred hroom => ?consent, fun s due hpower hdue hown hview => ?rebuild⟩
  case consent =>
    set v := passTo due s with hv
    obtain ⟨t, hexec, hstat⟩ := exec_expiry (i := .consentTimerExpiry) (by rw [exec, execConsentTimerExpiry])
      (by rw [hrun]; decide) ((consentDueOf_pending hown hphase).trans hdue)
    rw [endClaiming_of_deferred (s := v) hown _ hdeferred] at hstat
    have hroom₁ : v.port.tx.length < Config.txRoom := by
      change s.port.tx.length < Config.txRoom
      simp only [RoomFor] at hroom; omega
    have hended := claimEnded_only o v
    have hansweronly := answer_only a (plain .consentTimeout) (claimEnded o v)
    have hstation : (claimEnded o v).station = s.station := hended.get .station
    have hanswered : Queued (answerFrame s.station.number a (plain .consentTimeout))
        (answer a (plain .consentTimeout) (claimEnded o v)) := by
      have hlength := claimEnded_length (s := v) hown hrun hroom₁
      have hq := queued_answer a (plain .consentTimeout) (s := claimEnded o v) (by rw [hstation]; exact hrun)
        (by simp only [RoomFor] at hroom; have : v.port.tx.length = s.port.tx.length := rfl; omega)
      rwa [hstation] at hq
    refine ⟨t, hexec, ?time, ?own, ?draw, ?blend, ?deferred, fun hforce => ?released, fun hqueued hwaits => ?withdrawn,
      hstat.queued (kindOf_answerFrame_ne_stat _ _ _) hanswered, ?only⟩
    case time => exact (hstat.only.get .time).trans ((hansweronly.get .time).trans (hended.get .time))
    case own =>
      rw [hstat.only.get .claims, hansweronly.get .claims]
      exact claimEnded_own (s := v) hown
    case draw =>
      rw [hstat.only.get .draw, hansweronly.get .draw]
      exact claimEnded_draw o v
    case blend =>
      rw [hstat.only.get .blend, hansweronly.get .blend]
      exact claimEnded_blend o v
    case deferred =>
      rw [hstat.only.get .handler, answer_handler]
      exact claimEnded_deferred o v
    case released =>
      refine hstat.queued (by rw [kindOf_releaseFrame]; decide) (Queued.answer _ _ ?_)
      exact claimEnded_released (s := v) hown hrun hroom₁ (by rw [hforce]; decide)
    case withdrawn =>
      refine ⟨((claimEnded_noWaitingClaim (s := v) hown hqueued).answer _ _).statAfter hstat, ?_⟩
      rw [hstat.only.get .claims, hansweronly.get .claims]
      exact claimEnded_abandoned (s := v) hown hqueued hwaits
    case only =>
      exact (hstat.changes (hansweronly.comp (hended.comp (passTo_only due s)
        (ds := [.time, .draw, .valve, .port, .claims, .blend, .handler, .journal]))
        (ds := [.time, .draw, .valve, .port, .claims, .blend, .handler, .journal]))).mono (by decide)
  case rebuild =>
    have hover : rebuildOver (passTo due s) =
        { passTo due s with claims := { s.claims with rebuildDue := none } } := by
      unfold rebuildOver
      simp only
      split
      · exact judgePending_of_no_claims (s := { passTo due s with claims := { s.claims with rebuildDue := none } }) hown hview
      · rfl
    have hexec := exec_expiry_same (s := s) (i := .rebuildTimerExpiry) (by rw [exec, execRebuildTimerExpiry]) hpower hdue
      ((congrArg page0State hover).trans rfl)
    rw [hover] at hexec
    exact ⟨_, hexec, rfl, rfl, OnlyChanges.comp (ds := [.time, .claims]) (only_claims _) (passTo_only due s)⟩

/-! ### A peer's claim ends (R120, R124, R127) -/

section
variable {s : State}

theorem peerOf_modPeer (n : Nat) (g : Peer → Peer) (hg : ∀ p, (g p).station = p.station) (s : State) :
    peerOf (modPeer n g s) n = (peerOf s n).map g := by
  change (s.claims.view.map fun p => if p.station = n then g p else p).find? (·.station == n) = (s.claims.view.find? _).map g
  induction s.claims.view with
  | nil => rfl
  | cons p ps ih =>
    rw [List.map_cons]
    by_cases hp : p.station = n
    · rw [if_pos hp, List.find?_cons_of_pos (by rw [hg, hp]; exact beq_self_eq_true n),
        List.find?_cons_of_pos (by rw [hp]; exact beq_self_eq_true n)]
      rfl
    · rw [if_neg hp, List.find?_cons_of_neg (by simpa using hp), List.find?_cons_of_neg (by simpa using hp)]
      exact ih

theorem setPumpNeeded_halt (b : Bool) (s : State) : (setPumpNeeded b s).valve.halt = s.valve.halt := by
  unfold setPumpNeeded
  split <;> rfl

/-- The peer's entry once its claim has ended. -/
def claimOver (l : LiveClaim) (p : Peer) : Peer := { p with live := none, lastEnded := some l.claim.id.sequence }

/-- The part with a claim out of every consent record. -/
def recordsLeft (id : ClaimId) (s : State) : State :=
  { s with claims := { s.claims with records := s.claims.records.filter (fun x => x.2 != id) } }

/-- What the end of a peer's claim leaves on a station that is not bound (R120). -/
structure PeerClaimOver (n : Nat) (l : LiveClaim) (s t : State) : Prop where
  claims : t.claims = { s.claims with
    view := s.claims.view.map (fun p => if p.station = n then claimOver l p else p)
    records := s.claims.records.filter (fun x => x.2 != l.claim.id) }
  halt : t.valve.halt = s.valve.halt
  stage : t.valve.stage = s.valve.stage
  only : OnlyChanges [.valve, .claims] s t

theorem endPeerClaim_over {n : Nat} {p : Peer} {l : LiveClaim} (hpeer : peerOf s n = some p) (hlive : p.live = some l)
    (hbinding : s.blend.binding = none) : PeerClaimOver n l s (endPeerClaim n s) := by
  set u := recordsLeft l.claim.id (modPeer n (claimOver l) s) with hu
  have hcommands := setCommands_only u
  have hunbound : (setCommands u).blend.binding = none := (congrArg Blend.binding (hcommands.get .blend)).trans hbinding
  have hended : endPeerClaim n s = setCommands u := by
    simp only [endPeerClaim, hpeer, Option.bind_some, hlive]
    change bindingEnd l.claim.id (setCommands u) = _
    rw [bindingEnd, hunbound]
  rw [hended]
  refine ⟨hcommands.get .claims, ?_, ?_, ?_⟩
  · rw [setCommands, setPumpNeeded_halt]; rfl
  · rw [setCommands, setPumpNeeded_stage]; rfl
  · exact hcommands.comp (OnlyChanges.comp (t := modPeer n (claimOver l) s) (only_claims _) (modPeer_only _ _ _)
      (ds := [.claims])) (ds := [.valve, .claims])

theorem PeerClaimOver.peerOf {n : Nat} {l : LiveClaim} {p : Peer} {t : State} (h : PeerClaimOver n l s t)
    (hpeer : peerOf s n = some p) : peerOf t n = some (claimOver l p) := by
  have hmod := peerOf_modPeer n (claimOver l) (fun _ => rfl) s
  rw [hpeer] at hmod
  rw [Machine.peerOf, h.claims]
  exact hmod

theorem peerOf_taken {f : Frame} {arrival : Nat} {p : Peer} (hpeer : peerOf s (sourceOf f.id) = some p) :
    peerOf (taken s f arrival) (sourceOf f.id) = some { p with lastHeard := later p.lastHeard arrival } := by
  have hmod := peerOf_modPeer (sourceOf f.id) (fun p => { p with lastHeard := later p.lastHeard arrival }) (fun _ => rfl)
    { s with port := { s.port with rx := s.port.rx.tail } }
  change peerOf (taken s f arrival) (sourceOf f.id) = _ at hmod
  rw [hmod]
  change (peerOf s (sourceOf f.id)).map _ = _
  rw [hpeer]
  rfl

theorem discardHeld_of_none (q : HeldReport → Bool) (h : s.blend.held = none) : discardHeld q s = s := by
  rw [discardHeld, h]

theorem filter_claimOver {n : Nat} (l : LiveClaim) (view : List Peer) :
    (view.map fun p => if p.station = n then claimOver l p else p).filter (fun q => q.station != n) =
      view.filter (fun q => q.station != n) := by
  induction view with
  | nil => rfl
  | cons p ps ih =>
    rw [List.map_cons]
    by_cases hp : p.station = n
    · rw [if_pos hp, List.filter_cons_of_neg (by simp [claimOver, hp]), List.filter_cons_of_neg (by simp [hp])]
      exact ih
    · rw [if_neg hp, List.filter_cons_of_pos (by simpa using hp), List.filter_cons_of_pos (by simpa using hp), ih]

end

/-- Settles O45. -/
theorem peerClaimEndsInThreeWays : Obligations.PeerClaimEndsInThreeWays := by
  intro s p l hpeer hlive hbinding hheld hstation
  have htaken : ∀ f arrival, sourceOf f.id = p.station →
      peerOf (taken s f arrival) p.station = some { p with lastHeard := later p.lastHeard arrival } :=
    fun f arrival hsource => by
      have h := peerOf_taken (s := s) (f := f) (arrival := arrival) (p := p) (by rw [hsource]; exact hpeer)
      rwa [hsource] at h
  have hended : ∀ {f arrival t}, sourceOf f.id = p.station →
      StatAfter (endPeerClaim p.station (taken s f arrival)) t →
        (∃ q, peerOf t p.station = some q ∧ q.live = none ∧ q.lastEnded = some l.claim.id.sequence) ∧
          t.claims.records = s.claims.records.filter (fun x => x.2 != l.claim.id) ∧ t.valve.halt = s.valve.halt ∧
          t.valve.stage = s.valve.stage ∧ OnlyChanges [.time, .valve, .port, .claims] s t :=
    fun {f arrival t} hsource hstat => by
      have hover := endPeerClaim_over (htaken f arrival hsource) hlive hbinding
      have hclaims : t.claims = _ := hstat.only.get .claims
      have hvalve : t.valve = _ := hstat.only.get .valve
      refine ⟨⟨claimOver l { p with lastHeard := later p.lastHeard arrival }, ?_, rfl, rfl⟩, ?_, ?_, ?_, ?_⟩
      · rw [peerOf, hclaims]; exact hover.peerOf (htaken f arrival hsource)
      · rw [hclaims, hover.claims]; rfl
      · rw [hvalve, hover.halt]; rfl
      · rw [hvalve, hover.stage]; rfl
      · exact (hstat.changes (hover.only.comp (taken_changes s f arrival) (ds := [.valve, .port, .claims]))).mono (by decide)
  refine ⟨fun f arrival hold hkind hsource hsequence => ?release,
    fun f arrival code hold hkind htag hsource hnone hcode hne => ?page2, fun hpower hown => ?silence⟩
  case release =>
    obtain ⟨t, hexec, hstat⟩ := exec_take (i := .takeRelease) (by rw [exec, execTakeRelease]) hold (by rw [ofKind, hkind]; rfl)
    have hid : l.claim.id = ⟨sourceOf f.id, sequenceOf f.id⟩ := by rw [hsource, hsequence, ← hstation]
    have hrelease : releaseTaken f (taken s f arrival) = endPeerClaim p.station (taken s f arrival) := by
      simp only [releaseTaken, discardHeld_of_none (s := taken s f arrival) _ hheld, hsource, htaken f arrival hsource,
        Option.bind_some, hlive]
      rw [if_pos (by rw [hid, hsource])]
    rw [hrelease] at hstat
    exact ⟨t, hexec, hended hsource hstat⟩
  case page2 =>
    obtain ⟨t, hexec, hstat⟩ := exec_take (i := .takeStatPage2) (by rw [exec, execTakeStatPage2]) hold
      (by simp [isPage, hkind, htag])
    have hpage : page2Taken f (taken s f arrival) = endPeerClaim p.station (taken s f arrival) := by
      simp only [page2Taken, discardHeld_of_none (s := taken s f arrival) _ hheld, hsource, htaken f arrival hsource, hnone,
        page2Compared, hlive, nonePage, hcode, if_neg hne, hstation]
    rw [hpage] at hstat
    exact ⟨t, hexec, hended hsource hstat⟩
  case silence =>
    obtain ⟨t, hexec, hstat⟩ := exec_expiry (i := .peerSilence p.station) (due := p.lastHeard + 1000)
      (by rw [exec, execPeerSilence]) hpower (by rw [silenceDue, hpeer]; rfl)
    set v := passTo (p.lastHeard + 1000) s with hv
    have hover := endPeerClaim_over (s := v) (p := p) hpeer hlive hbinding
    have hown' : (endPeerClaim p.station v).claims.own = none := by rw [hover.claims]; exact hown
    have hsilent : peerSilent p.station v = { endPeerClaim p.station v with
        claims := { (endPeerClaim p.station v).claims with
          view := (endPeerClaim p.station v).claims.view.filter (fun q => q.station != p.station) } } := by
      simp only [peerSilent, loseOwner, hown']
    rw [hsilent] at hstat
    have hclaims : t.claims = _ := hstat.only.get .claims
    have hvalve : t.valve = _ := hstat.only.get .valve
    have honly : OnlyChanges [.time, .valve, .claims] s (endPeerClaim p.station v) := hover.only.comp (passTo_only _ s)
    refine ⟨t, hexec, (hstat.only.get .time).trans (hover.only.get .time), ⟨?_, ?_, ?_, ?_⟩, ?_⟩
    · rw [hclaims, hover.claims]; rfl
    · rw [hvalve]; exact hover.halt
    · rw [hvalve]; exact hover.stage
    · exact (hstat.changes (OnlyChanges.comp (ds := [.time, .valve, .claims]) (only_claims _) honly)).mono (by decide)
    · rw [hclaims, hover.claims]
      exact filter_claimOver l s.claims.view

end Sys2Proof.Machine
end

