-- ==== Sys2Proof/Proofs/ClaimVerdicts.lean ====
section
/-! PROOFS. Chapter 6: a peer's claim is judged for a compartment of this station (R117, R118, R80), and a verdict settles the
own claim (R45, R113, R115). -/

namespace Sys2Proof.Machine

set_option Elab.async false

/-! ### Sets of compartments -/

theorem hasComp_or (x y : CompSet) (n : Nat) : hasComp (x ||| y) n = (hasComp x n || hasComp y n) := by
  rw [hasComp, hasComp, hasComp, BitVec.getLsbD_or, Bool.and_or_distrib_left]

theorem hasComp_oneComp {n : Nat} (hlow : 1 ≤ n) (hhigh : n ≤ 8) : hasComp (oneComp n) n = true := by
  interval_cases n <;> decide

/-- The commands hold the compartment of every own output with a consent record (R80). -/
theorem hasComp_neededComps {s : State} {o : OwnedOutput} (ho : o ∈ s.cfg.outputs)
    (hrecord : recordHolds s (.comp o.comp) = true) (hlow : 1 ≤ o.comp) (hhigh : o.comp ≤ 8) :
    hasComp (neededComps s) o.comp = true := by
  have keeps : ∀ (l : List OwnedOutput) (acc : CompSet), hasComp acc o.comp = true → hasComp (l.foldl (fun acc o =>
      if recordHolds s (.comp o.comp) then acc ||| oneComp o.comp else acc) acc) o.comp = true := by
    intro l
    induction l with
    | nil => exact fun _ h => h
    | cons x l ih =>
      intro acc h
      rw [List.foldl_cons]
      refine ih _ ?_
      split
      · rw [hasComp_or, h, Bool.true_or]
      · exact h
  have reaches : ∀ (l : List OwnedOutput) (acc : CompSet), o ∈ l → hasComp (l.foldl (fun acc o =>
      if recordHolds s (.comp o.comp) then acc ||| oneComp o.comp else acc) acc) o.comp = true := by
    intro l
    induction l with
    | nil => exact fun _ h => absurd h List.not_mem_nil
    | cons x l ih =>
      intro acc h
      rw [List.foldl_cons]
      obtain rfl | h := List.mem_cons.1 h
      · rw [if_pos hrecord]
        exact keeps l _ (by rw [hasComp_or, hasComp_oneComp hlow hhigh, Bool.or_true])
      · exact ih _ h
  exact reaches _ _ ho

theorem outputFor_some {s : State} {n : Nat} {o : OwnedOutput} (h : outputFor s n = some o) :
    o ∈ s.cfg.outputs ∧ o.comp = n := by
  obtain ⟨hmem, hcomp⟩ := List.mem_of_find?_eq_some h, List.find?_some h
  exact ⟨hmem, beq_iff_eq.1 hcomp⟩

theorem compMatches_output {s : State} {c : Claim} {n : Nat} (h : compMatches s c n = true) :
    ∃ o, outputFor s n = some o := by
  unfold compMatches at h
  split at h
  · next o ho => exact ⟨o, ho⟩
  · cases h

/-- A claim names compartments 1 to 8. -/
theorem comp_range_of_owned {s : State} {c : Claim} {n : Nat} (h : .comp n ∈ ownedOf s c) : 1 ≤ n ∧ n ≤ 8 := by
  have hmem : Resource.comp n ∈ resourcesOf c := (List.mem_filter.1 h).1
  have hcomp : n ∈ compsOf (entryComps c.entryA ||| entryComps c.entryB) := by
    simp only [resourcesOf, List.mem_append, List.mem_map] at hmem
    rcases hmem with ((⟨k, hk, heq⟩ | hpump) | hpump) | hpartner
    · cases heq; exact hk
    · split at hpump <;> simp at hpump
    · split at hpump <;> simp at hpump
    · split at hpartner <;> simp at hpartner
  have hlist := (List.mem_filter.1 hcomp).1
  simp only [List.mem_cons, List.not_mem_nil, or_false] at hlist
  omega

/-! ### A peer's claim is entered and judged (R117, R118) -/

theorem StatAfter.trans {s t u : State} (h₁ : StatAfter s t) (h₂ : StatAfter t u) : StatAfter s u where
  only := h₁.only.trans h₂.only
  port := by
    have hport := h₂.port
    rw [StatAlone, h₁.port] at hport
    rw [StatAlone, hport]
  mem e he := (h₂.mem e he).trans (h₁.mem e he)

section
variable {s : State} {c : Claim} {n : Nat} {p : Peer}

/-- The live claim of a CLAIM taken in RUNNING. -/
def newClaim (c : Claim) (rank : Nat) : LiveClaim := ⟨c, rank, false, 0, false, none⟩

/-- The part with a CLAIM entered in its sender's view entry. -/
def claimEntered (c : Claim) (s : State) : State :=
  modPeer c.id.station (fun p => { p with live := some (newClaim c s.claims.nextRank) })
    { s with claims := { s.claims with nextRank := s.claims.nextRank + 1 } }

theorem enterClaim_of_no_claim (hpeer : peerOf s c.id.station = some p) (hlive : p.live = none) :
    enterClaim c false s = claimEntered c s := by
  have hended : endPeerClaim c.id.station s = s := by simp only [endPeerClaim, hpeer, Option.bind_some, hlive]
  have hsame : announce (endPeerClaim c.id.station) s = s := by
    rw [announce_same _ _ (congrArg page0State hended), hended]
  simp only [enterClaim, hsame]
  rfl

theorem peerOf_claimEntered (hpeer : peerOf s c.id.station = some p) :
    peerOf (claimEntered c s) c.id.station = some { p with live := some (newClaim c s.claims.nextRank) } := by
  have h := peerOf_modPeer c.id.station (fun p => { p with live := some (newClaim c s.claims.nextRank) }) (fun _ => rfl)
    { s with claims := { s.claims with nextRank := s.claims.nextRank + 1 } }
  change _ = (peerOf s c.id.station).map _ at h
  rw [hpeer] at h
  exact h

/-- The subject of the judgement of an entered claim. -/
def enteredSubject (c : Claim) (s : State) : Subject := ⟨c, s.claims.nextRank, false, false⟩

theorem judgePeer_claimEntered (hpeer : peerOf s c.id.station = some p) (howned : ownedOf s c = [.comp n]) :
    judgePeer false c.id.station (ownedOf (claimEntered c s) c) (claimEntered c s) =
      (judgeResource (enteredSubject c s) (.comp n) (claimEntered c s)).1 := by
  have howned' : ownedOf (claimEntered c s) c = [.comp n] := howned
  simp only [judgePeer, peerOf_claimEntered hpeer, Option.bind_some, howned']
  rfl

/-- A CLAIM of a peer without a live claim, taken in RUNNING with no own claim: it is entered and judged. -/
theorem claimTaken_statAfter {f : Frame} (hrun : s.station.state = .running)
    (hpeer : peerOf s (sourceOf f.id) = some p) (hlive : p.live = none)
    (hended : p.lastEnded ≠ some (sequenceOf f.id)) (hown : s.claims.own = none)
    (howned : ownedOf s (decodeClaim f) = [.comp n]) :
    StatAfter (judgeResource (enteredSubject (decodeClaim f) s) (.comp n) (claimEntered (decodeClaim f) s)).1
      (claimTaken f s) := by
  have hpeer' : peerOf s (decodeClaim f).id.station = some p := hpeer
  have hgives : givesVerdicts s = true := by simp [givesVerdicts, hrun]
  have hgives' : givesVerdicts (claimEntered (decodeClaim f) s) = true := hgives
  have hnew : ¬(p.lastEnded = some (decodeClaim f).id.sequence ∨ p.live.map (·.claim.id) = some (decodeClaim f).id) := by
    rw [hlive, not_or]
    exact ⟨hended, nofun⟩
  have hown' : (claimEntered (decodeClaim f) s).claims.own = none := hown
  have htaken : claimTaken f s = announce (judgePeer false (decodeClaim f).id.station
      (ownedOf (claimEntered (decodeClaim f) s) (decodeClaim f))) (claimEntered (decodeClaim f) s) := by
    simp only [claimTaken, hpeer', if_neg hnew, hgives, Bool.not_true, Bool.false_and,
      enterClaim_of_no_claim hpeer' hlive, yieldTo, hown', hgives', if_true]
  rw [htaken, ← judgePeer_claimEntered hpeer' howned]
  exact announce_statAfter _ _

theorem earlierConflict_entered (hown : s.claims.own = none)
    (hfree : ∀ q ∈ s.claims.view, ∀ l, q.live = some l → conflicts l.claim c = false) :
    earlierConflict (claimEntered c s) (enteredSubject c s) = false := by
  have hown' : (claimEntered c s).claims.own = none := hown
  simp only [earlierConflict, hown', Bool.or_false]
  refine List.any_eq_false.2 fun l hl => ?_
  obtain ⟨q, hq, hlive⟩ := List.mem_filterMap.1 hl
  obtain ⟨q₀, hq₀, rfl⟩ := List.mem_map.1 (show q ∈ s.claims.view.map (fun p => if p.station = c.id.station then
    { p with live := some (newClaim c s.claims.nextRank) } else p) from hq)
  split at hlive
  · obtain rfl : newClaim c s.claims.nextRank = l := Option.some.inj hlive
    simp [newClaim, enteredSubject]
  · have hno : conflicts l.claim (enteredSubject c s).claim = false := hfree q₀ hq₀ l hlive
    simp [hno]

theorem sendConsent_of_room (id : ClaimId) (r : Resource) (x : Option Reason) (hrun : s.station.state = .running)
    (hroom : RoomFor 1 s) :
    sendConsent id r x s = { s with
      port := { s.port with
        tx := txInsert ⟨consentFrame s.station.number id r x, .claimUnit, false⟩ s.port.tx } } :=
  sendFrame_of_room _ _ hrun hroom

theorem judgeResource_halted {x : Subject} (r : Resource) (hown : x.own = false) (hhalt : s.valve.halt ≠ .clear) :
    judgeResource x r s = (sendConsent x.claim.id r (some .halted) s, none) := by
  have hstanding : standingChecks s = some .halted := if_pos hhalt
  simp only [judgeResource, resourceChecks, hstanding, hown]
  rfl

theorem judgeResource_granted {x : Subject} (hhalt : s.valve.halt = .clear) (hrebuild : s.claims.rebuildDue = none)
    (hmatch : compMatches s x.claim n = true) (hconflict : earlierConflict s x = false) :
    judgeResource x (.comp n) s = (grant x (.comp n) s, none) := by
  have hstanding : standingChecks s = none := by
    rw [standingChecks, if_neg (fun h => h hhalt), if_neg (by rw [hrebuild]; decide)]
  simp only [judgeResource, resourceChecks, hstanding, hmatch, hconflict]
  rfl

/-- What a grant of a peer's compartment does: the consent record, the commands, the count in the view and the CONSENT
(R80, R117). -/
theorem grant_comp_peer {x : Subject} (hown : x.own = false) :
    grant x (.comp n) s = countConsented x n (sendConsent x.claim.id (.comp n) none (addRecord (.comp n) x.claim.id s)) := by
  simp only [grant, ownGranted, hown]
  rfl

theorem addRecord_mem (r : Resource) (id : ClaimId) (s : State) : (r, id) ∈ (addRecord r id s).claims.records := by
  have hclaims : (addRecord r id s).claims = _ := (setCommands_only _).get .claims
  rw [hclaims]
  change (r, id) ∈ (if s.claims.records.contains (r, id) then s.claims.records else s.claims.records ++ [(r, id)])
  split
  · next h => simpa using h
  · exact List.mem_append_right _ (List.mem_singleton.2 rfl)

/-- A record for an own compartment turns its command on (R80). -/
theorem addRecord_commands {o : OwnedOutput} (id : ClaimId) (ho : outputFor s n = some o) (hlow : 1 ≤ n) (hhigh : n ≤ 8) :
    hasComp (addRecord (.comp n) id s).valve.compCommands n = true := by
  obtain ⟨hmem, rfl⟩ := outputFor_some ho
  have hrecord := addRecord_mem (.comp o.comp) id s
  have hclaims : (addRecord (.comp o.comp) id s).claims = _ := (setCommands_only _).get .claims
  rw [hclaims] at hrecord
  rw [addRecord, setCommands, setPumpNeeded_compCommands]
  refine hasComp_neededComps (o := o) hmem ?_ hlow hhigh
  exact List.any_eq_true.2 ⟨_, hrecord, by simp⟩

/-- The count of a granted compartment in a view entry (R117). -/
def compCounted (x : Subject) (n : Nat) (p : Peer) : Peer :=
  { p with live := p.live.map (fun l =>
      if l.claim.id = x.claim.id then { l with consented := l.consented ||| oneComp n } else l) }

theorem countConsented_peer {x : Subject} (hown : x.own = false) (s : State) :
    countConsented x n s = modPeer x.claim.id.station (compCounted x n) s := by
  rw [countConsented, if_neg (by rw [hown]; decide)]
  rfl

theorem compCounted_live (x : Subject) (n : Nat) {p : Peer} {l : LiveClaim} (hlive : p.live = some l) :
    ∃ l', (compCounted x n p).live = some l' ∧ l'.claim = l.claim ∧ l'.rank = l.rank := by
  refine ⟨if l.claim.id = x.claim.id then { l with consented := l.consented ||| oneComp n } else l,
    by rw [compCounted, hlive]; rfl, ?_, ?_⟩
  · split <;> rfl
  · split <;> rfl

theorem peerOf_of_claims {t : State} (h : t.claims.view = s.claims.view) (m : Nat) : peerOf t m = peerOf s m := by
  rw [peerOf, h, peerOf]

/-- The part once a compartment is granted to a peer, with room for the CONSENT. -/
theorem grant_comp_of_room {x : Subject} (hrun : s.station.state = .running) (hroom : RoomFor 1 s)
    (hown : x.own = false) :
    grant x (.comp n) s = modPeer x.claim.id.station (compCounted x n)
      { addRecord (.comp n) x.claim.id s with
        port := { s.port with
          tx := txInsert ⟨consentFrame s.station.number x.claim.id (.comp n) none, .claimUnit, false⟩ s.port.tx } } := by
  have hrecord := addRecord_only (.comp n) x.claim.id s
  have hstation : (addRecord (.comp n) x.claim.id s).station = s.station := hrecord.get .station
  have hport : (addRecord (.comp n) x.claim.id s).port = s.port := hrecord.get .port
  rw [grant_comp_peer hown, countConsented_peer hown,
    sendConsent_of_room _ _ _ (by rw [hstation]; exact hrun) (by rw [RoomFor, hport]; exact hroom), hport, hstation]
  rw [← hstation]

/-- What every judgement of a compartment for a peer leaves: the claim as it was entered, and the port but for the
CONSENT. -/
structure CompJudged (x : Subject) (s t : State) : Prop where
  claim : ∃ q l, peerOf t x.claim.id.station = some q ∧ q.live = some l ∧ l.claim = x.claim ∧ l.rank = x.rank
  rank : t.claims.nextRank = s.claims.nextRank
  port : HandedAlone s.port t.port
  only : OnlyChanges [.valve, .port, .claims] s t

section
variable {x : Subject} {l : LiveClaim} (hpeer : peerOf s x.claim.id.station = some p) (hlive : p.live = some l)
  (hclaim : l.claim = x.claim) (hrank : l.rank = x.rank) (hrun : s.station.state = .running) (hroom : RoomFor 1 s)

include hpeer hlive hclaim hrank hrun hroom

theorem refused_judged (r : Option Reason) : CompJudged x s (sendConsent x.claim.id (.comp n) r s) := by
  rw [sendConsent_of_room _ _ _ hrun hroom]
  exact ⟨⟨p, l, hpeer, hlive, hclaim, hrank⟩, rfl, rfl, (only_port _).mono (by decide)⟩

theorem granted_judged (hown : x.own = false) : CompJudged x s (grant x (.comp n) s) := by
  have hrecord := addRecord_only (.comp n) x.claim.id s
  have hclaims : (addRecord (.comp n) x.claim.id s).claims = _ := (setCommands_only _).get .claims
  rw [grant_comp_of_room hrun hroom hown]
  refine ⟨?_, ?_, rfl, ?_⟩
  · rw [peerOf_modPeer x.claim.id.station (compCounted x n) (fun _ => rfl), peerOf_of_claims (s := s) (by rw [hclaims]), hpeer]
    obtain ⟨l', hl', hc, hr⟩ := compCounted_live x n hlive
    exact ⟨_, l', rfl, hl', hc.trans hclaim, hr.trans hrank⟩
  · change (addRecord (.comp n) x.claim.id s).claims.nextRank = _
    rw [hclaims]
  · exact (modPeer_only _ _ _).comp (OnlyChanges.comp (only_port _) hrecord (ds := [.valve, .port, .claims]))

theorem judged_comp (hown : x.own = false) : CompJudged x s (judgeResource x (.comp n) s).1 := by
  unfold judgeResource
  split
  · exact refused_judged hpeer hlive hclaim hrank hrun hroom _
  · exact granted_judged hpeer hlive hclaim hrank hrun hroom hown

end

end

/-- Settles O43: the claim is entered under the next rank, and the judgement of its one resource is a refusal or a
grant. -/
theorem claimIsJudgedForOwnCompartment : Obligations.ClaimIsJudgedForOwnCompartment := by
  intro s f arrival n p hold hkind hrun hpeer hlive hended hown hrebuild hbinding howned hroom
  obtain ⟨t, hexec, hstat⟩ := exec_take (i := .takeClaim) (by rw [exec, execTakeClaim]) hold (by rw [ofKind, hkind]; rfl)
  set v := taken s f arrival with hv
  set c := decodeClaim f with hc
  set w := claimEntered c v with hw
  set x := enteredSubject c v with hx
  have hvpeer : peerOf v c.id.station = some { p with lastHeard := later p.lastHeard arrival } := peerOf_taken hpeer
  have hstat' : StatAfter (judgeResource x (.comp n) w).1 t :=
    (claimTaken_statAfter (s := v) hrun hvpeer hlive hended hown howned).trans hstat
  have hwonly : OnlyChanges [.port, .claims] s w :=
    OnlyChanges.comp (t := v) (ds := [.port, .claims])
      (OnlyChanges.comp (t := { v with claims := { v.claims with nextRank := v.claims.nextRank + 1 } })
        (modPeer_only _ _ _) (only_claims _) (ds := [.claims])) (taken_changes s f arrival)
  have hwpeer := peerOf_claimEntered hvpeer
  obtain ⟨hclaim, hrank, hport, honly⟩ :=
    judged_comp (n := n) (x := x) (s := w) (l := newClaim c v.claims.nextRank) hwpeer rfl rfl rfl hrun hroom rfl
  have hclaims : t.claims = (judgeResource x (.comp n) w).1.claims := hstat'.only.get .claims
  have hvalve : t.valve = (judgeResource x (.comp n) w).1.valve := hstat'.only.get .valve
  have hqueued : ∀ r, Queued (consentFrame s.station.number c.id (.comp n) r) (judgeResource x (.comp n) w).1 →
      Queued (consentFrame s.station.number c.id (.comp n) r) t := fun r =>
    hstat'.queued (by rw [consentFrame, kindOf_identOf]; decide)
  refine ⟨t, hexec, ?claim, by rw [hclaims]; exact hrank, fun hhalt hmatch hfree => ?granted, fun hhalt => ?halted,
    hstat'.takenAlone hport, (hstat'.changes (honly.comp hwonly (ds := [.valve, .port, .claims]))).mono (by decide)⟩
  case claim =>
    obtain ⟨q, l, hq, hl, hlclaim, hlrank⟩ := hclaim
    exact ⟨q, l, (peerOf_of_claims (by rw [hclaims]) _).trans hq, hl, hlclaim, hlrank⟩
  case granted =>
    obtain ⟨hlow, hhigh⟩ := comp_range_of_owned (s := s) (c := c) (n := n) (by rw [howned]; exact List.mem_singleton.2 rfl)
    obtain ⟨o, ho⟩ := compMatches_output hmatch
    have hvfree : ∀ q ∈ v.claims.view, ∀ l, q.live = some l → conflicts l.claim c = false := fun q hq l hl => by
      obtain ⟨q₀, hq₀, rfl⟩ := List.mem_map.1 (show q ∈ s.claims.view.map (fun p => if p.station = sourceOf f.id then
        { p with lastHeard := later p.lastHeard arrival } else p) from hq)
      refine hfree q₀ hq₀ l ?_
      split at hl <;> exact hl
    have hgranted := judgeResource_granted (x := x) (s := w) hhalt hrebuild hmatch (earlierConflict_entered hown hvfree)
    rw [hgranted] at hclaims hvalve hqueued
    have hgrant := grant_comp_of_room (n := n) (x := x) (s := w) hrun hroom rfl
    rw [hgrant] at hclaims hvalve hqueued
    refine ⟨?_, ?_, hqueued none (queued_of_txInsert rfl)⟩
    · rw [hclaims]; exact addRecord_mem _ _ _
    · rw [hvalve]; exact addRecord_commands (o := o) _ ho hlow hhigh
  case halted =>
    have hrefused := judgeResource_halted (x := x) (s := w) (.comp n) rfl hhalt
    have hsent := sendConsent_of_room (s := w) x.claim.id (.comp n) (some .halted) hrun hroom
    rw [hrefused] at hclaims hvalve hqueued
    rw [hsent] at hclaims hvalve hqueued
    exact ⟨by rw [hclaims]; rfl, by rw [hvalve]; rfl, hqueued _ (queued_of_txInsert rfl)⟩

/-! ### A verdict settles the own claim (R45, R113, R115) -/

section
variable {s : State} {o : OwnClaim} {r : OwnRes}

/-- The part in PRIMING, its session open and its checkpoint asked for (R45). -/
def sessionBegun (s : State) : State := handWork (.checkpoint true) (openSession .draw (primingBegun s))

theorem sessionBegun_changes (s : State) : OnlyChanges [.pulse, .engine, .journal] (primingBegun s) (sessionBegun s) :=
  (handWork_only _ _).comp (openSession_only _ _)

theorem sessionBegun_pulse (s : State) : (sessionBegun s).pulse.session = some .draw ∧
    (sessionBegun s).pulse.perUpdate = 0 ∧ (sessionBegun s).pulse.target = none := by
  have hpulse : (sessionBegun s).pulse = (openSession .draw (primingBegun s)).pulse := (handWork_only _ _).get .pulse
  rw [hpulse]
  exact ⟨rfl, rfl, rfl⟩

theorem sessionBegun_updateDue (s : State) : (sessionBegun s).engine.updateDue = some (s.time + Config.updatePeriod) := by
  have hengine : (sessionBegun s).engine = (openSession .draw (primingBegun s)).engine := (handWork_only _ _).get .engine
  have htime : (beginIfIdle (convertUnticketed (primingBegun s))).time = s.time :=
    (OnlyChanges.comp (beginIfIdle_only _) (convertUnticketed_only _) (ds := [.pulse, .journal])).get .time
  rw [hengine, ← htime]
  rfl

/-- A solo draw sends no progress at its entry into PRIMING. -/
theorem enterPriming_solo (hlead : s.blend.lead = none) (htime : 0 < s.cfg.primeTime) :
    enterPriming s = sessionBegun s := by
  have hlead' : (sessionBegun s).blend.lead = none := ((sessionBegun_changes s).get .blend).symm ▸ hlead
  have hsent : sendLeadProg false (sessionBegun s) = sessionBegun s := by rw [sendLeadProg, hlead']
  change (if s.cfg.primeTime = 0 then enterFlowing (sendLeadProg false (sessionBegun s))
    else sendLeadProg false (sessionBegun s)) = _
  rw [if_neg htime.ne', hsent]

/-- The part once the last verdict on the own claim is GRANTED. -/
def lastGranted (r : Resource) (s : State) : State := sessionBegun (consentedNow (modOwn (grantStatus r) s))

theorem lastGranted_changes (r : Resource) (s : State) :
    OnlyChanges [.pulse, .engine, .draw, .claims, .journal] s (lastGranted r s) := by
  have hclaims : OnlyChanges [.claims] s (consentedNow (modOwn (grantStatus r) s)) := (modOwn_only _ _).comp (modOwn_only _ _)
  have hpriming : OnlyChanges [.draw, .claims] s (primingBegun (consentedNow (modOwn (grantStatus r) s))) :=
    (modCurrent_only _ _).comp ((only_draw _).comp hclaims (ds := [.draw, .claims]))
  exact (sessionBegun_changes _).comp hpriming

theorem lastGranted_draw {c : Current} (hcurrent : s.draw.current = some c) (r : Resource) :
    (lastGranted r s).draw = { s.draw with
      state := .priming
      current := some { c with enteredAt := s.time, primeDue := some (s.time + s.cfg.primeTime) } } := by
  have hdraw : (lastGranted r s).draw = (primingBegun (consentedNow (modOwn (grantStatus r) s))).draw :=
    (sessionBegun_changes _).get .draw
  rw [hdraw]
  simp only [primingBegun, consentedNow, modCurrent, modOwn, hcurrent, Option.map_some]

theorem lastGranted_own (hown : s.claims.own = some o) (r : Resource) :
    (lastGranted r s).claims.own = some { grantStatus r o with phase := .consented, consentDue := none } := by
  have hclaims : (lastGranted r s).claims = (primingBegun (consentedNow (modOwn (grantStatus r) s))).claims :=
    (sessionBegun_changes _).get .claims
  rw [hclaims]
  change ((s.claims.own.map (grantStatus r)).map _) = _
  rw [hown]
  rfl

/-- A claim that is released holds no consent record (R116). -/
theorem claimEnded_records (hown : s.claims.own = some o) (hphase : o.phase = .inForce) :
    ∀ x ∈ (claimEnded o s).claims.records, x.2 ≠ o.claim.id := by
  have hended : (claimEnded o s).claims.records = (releaseOwn s).claims.records := by
    change (if o.phase = .queued then withdrawOwn s else releaseOwn s).claims.records = _
    rw [if_neg (by rw [hphase]; decide)]
  intro x hx
  rw [hended] at hx
  simp only [releaseOwn, hown] at hx
  have hclaims : (dropRecords o.claim.id (sendFrame .claimUnit (releaseFrame o.claim.id) s)).claims = _ :=
    (setCommands_only _).get .claims
  rw [hclaims] at hx
  simpa using (List.mem_filter.1 hx).2

section
variable (hown : s.claims.own = some o) (hphase : o.phase = .inForce) (hr : r ∈ o.resources)

include hown hphase hr

theorem ownVerdict_granted {a : Asker} (reason : Nat) (hpump : o.pumpPending = false)
    (hall : allGranted (grantStatus r.resource o) = true) (hlead : s.blend.lead = none) (htime : 0 < s.cfg.primeTime)
    (hdeferred : s.handler.deferred = some a) :
    ownVerdict o r.resource r.owner 0 reason s =
      answer a (plain .ok) { lastGranted r.resource s with handler := { s.handler with deferred := none } } := by
  have hnamed : o.phase ≠ .queued ∧ o.resources.any (fun x => x.resource == r.resource && x.owner == r.owner) = true :=
    ⟨by rw [hphase]; decide, List.any_eq_true.2 ⟨r, hr, by simp⟩⟩
  set v := modOwn (grantStatus r.resource) s with hv
  have hvown : v.claims.own = some (grantStatus r.resource o) := congrArg (Option.map _) hown
  have hsettled : settleOwnPump v = v := by
    have hnone : ¬(grantStatus r.resource o).pumpPending = true := by
      change ¬o.pumpPending = true
      rw [hpump]; decide
    unfold settleOwnPump
    split
    · next x m hx hm =>
      obtain rfl : grantStatus r.resource o = x := Option.some.inj (hvown.symm.trans hx)
      exact if_neg fun h => hnone h.1
    · rfl
  have hvphase : (grantStatus r.resource o).phase = .inForce := hphase
  have hbegun : enterPriming (consentedNow v) = lastGranted r.resource s := enterPriming_solo hlead htime
  have hhandler : (lastGranted r.resource s).handler = s.handler := (lastGranted_changes _ _).get .handler
  have hconsent : settleConsent v = settleDeferred (plain .ok) (lastGranted r.resource s) := by
    simp only [settleConsent, hvown, hvphase, if_pos hall, ← hbegun]
    rfl
  rw [ownVerdict, if_pos hnamed, if_pos rfl, hsettled, hconsent, settleDeferred]
  simp only [hhandler, hdeferred]

theorem ownVerdict_refused {a : Asker} (reason : Nat) (hdeferred : s.handler.deferred = some a) :
    ownVerdict o r.resource r.owner 1 reason s =
      answer a ⟨.consentRefused, .refusal r.owner reason⟩ (claimEnded o s) := by
  have hnamed : o.phase ≠ .queued ∧ o.resources.any (fun x => x.resource == r.resource && x.owner == r.owner) = true :=
    ⟨by rw [hphase]; decide, List.any_eq_true.2 ⟨r, hr, by simp⟩⟩
  rw [ownVerdict, if_pos hnamed, if_neg (by decide), if_pos rfl, refusedOwn, hown]
  simp only [hphase]
  exact endClaiming_of_deferred hown _ hdeferred

end

end

/-- Settles O44: a verdict that names a resource of the own claim and its owner settles the claim by its last GRANTED or
by a REFUSED. -/
theorem verdictSettlesOwnClaim : Obligations.VerdictSettlesOwnClaim := by
  intro s f arrival o r a c hold hkind hown hphase hstation hid hr htag howner hpump hclaiming hcurrent hlead hdeferred
  obtain ⟨t, hexec, hstat⟩ := exec_take (i := .takeConsent) (by rw [exec, execTakeConsent]) hold (by rw [ofKind, hkind]; rfl)
  set v := taken s f arrival with hv
  have hvonly : OnlyChanges [.port, .claims] s v := taken_changes s f arrival
  have hvown : v.claims.own = some o := hown
  have htaken : consentTaken f v = ownVerdict o r.resource r.owner (consentVerdict f) (consentReason f) v := by
    simp only [consentTaken, htag, hid, hstation.trans (show s.station.number = v.station.number from rfl), if_true, hvown,
      howner]
  rw [htaken] at hstat
  refine ⟨fun hverdict hall htime => ?granted, fun hverdict => ?refused⟩
  case granted =>
    rw [hverdict, ownVerdict_granted hvown hphase hr _ hpump hall hlead htime hdeferred] at hstat
    have hgranted := lastGranted_changes r.resource v
    set w : State := { lastGranted r.resource v with handler := { v.handler with deferred := none } } with hw
    have hwonly : OnlyChanges [.pulse, .engine, .draw, .claims, .handler, .journal] v w := (only_handler _).comp hgranted
    have hanswer := answer_only a (plain .ok) w
    have htw : OnlyChanges [.port, .handler] w t :=
      hstat.only.comp hanswer
    obtain ⟨hsession, hperUpdate, htarget⟩ := sessionBegun_pulse (consentedNow (modOwn (grantStatus r.resource) v))
    have hpulse : t.pulse = w.pulse := htw.get .pulse
    have hengine : t.engine = w.engine := htw.get .engine
    have hdraw : t.draw = w.draw := htw.get .draw
    have hclaims : t.claims = w.claims := htw.get .claims
    have hhandler : t.handler = (answer a (plain .ok) w).handler := hstat.only.get .handler
    have hown' : t.claims.own = some { grantStatus r.resource o with phase := .consented, consentDue := none } := by rw [hclaims]; exact lastGranted_own hvown r.resource
    refine ⟨t, _, _, hexec, hdraw.trans (lastGranted_draw (s := v) hcurrent r.resource), rfl, rfl, hown', rfl, rfl, hall,
      by rw [hpulse]; exact hsession, by rw [hpulse]; exact hperUpdate, by rw [hpulse]; exact htarget,
      by rw [hengine]; exact sessionBegun_updateDue _, ?deferred, ?valve, fun hasked => ?table, fun hroom hrun => ?queued,
      ?only⟩
    case deferred =>
      rw [hhandler, answer_handler]
    case valve =>
      exact (htw.get .valve).trans ((hwonly.get .valve).trans (hvonly.get .valve))
    case table =>
      rw [hhandler]
      exact settled_of_deferred (plain .ok) hasked
    case queued =>
      have hwport : w.port = v.port := hwonly.get .port
      have hwstation : w.station = s.station := hwonly.get .station
      have hqueued := queued_answer (s := w) a (plain .ok) (by rw [hwstation]; exact hrun) (by rw [hwport]; exact hroom)
      rw [hwstation] at hqueued
      exact hstat.queued (by rw [kindOf_answerFrame]; decide) hqueued
    case only =>
      exact (htw.comp (hwonly.comp hvonly (ds := [.pulse, .engine, .draw, .port, .claims, .handler, .journal])))
  case refused =>
    rw [hverdict, ownVerdict_refused hvown hphase hr _ hdeferred] at hstat
    set w := claimEnded o v with hw
    have hwonly : OnlyChanges [.draw, .valve, .port, .claims, .blend, .handler, .journal] v w := claimEnded_only o v
    have htw : OnlyChanges [.port, .handler] w t := hstat.only.comp (answer_only _ _ w)
    have hclaims : t.claims = w.claims := htw.get .claims
    have hdraw : t.draw = w.draw := htw.get .draw
    have hhandler : t.handler = (answer a ⟨.consentRefused, .refusal r.owner (consentReason f)⟩ w).handler := hstat.only.get .handler
    refine ⟨t, hexec, ?draw, ?own, ?records, ?deferred, fun hroom hrun => ?queued, ?only⟩
    case draw => exact hdraw.trans (claimEnded_draw o v)
    case own => rw [hclaims]; exact claimEnded_own hvown
    case records => rw [hclaims]; exact claimEnded_records hvown hphase
    case deferred => rw [hhandler, answer_handler]; rfl
    case queued =>
      have hwstation : w.station = s.station := hwonly.get .station
      have hlength := claimEnded_length (s := v) hvown hrun (show s.port.tx.length < 8 by exact Nat.lt_of_succ_lt hroom)
      have hreleased := claimEnded_released (s := v) hvown hrun (show s.port.tx.length < 8 by exact Nat.lt_of_succ_lt hroom)
        (by rw [hphase]; decide)
      have hroom' : w.port.tx.length < Config.txRoom := Nat.lt_of_le_of_lt hlength hroom
      have hqueued := queued_answer (s := w) a ⟨.consentRefused, .refusal r.owner (consentReason f)⟩
        (by rw [hwstation]; exact hrun) hroom'
      rw [hwstation, howner] at hqueued
      rw [howner] at hstat
      exact ⟨hstat.queued (by rw [kindOf_releaseFrame]; decide) (Queued.answer a _ hreleased),
        hstat.queued (by rw [kindOf_answerFrame]; decide) hqueued⟩
    case only =>
      exact htw.comp (hwonly.comp hvonly (ds := [.draw, .valve, .port, .claims, .blend, .handler, .journal]))

end Sys2Proof.Machine
end

