-- ==== Sys2Proof/Proofs/FollowerMoves.lean ====
section
/-! PROOFS. Chapter 7: the follower moves by the lead's reports, the quiet timer and the trim limit (R139, R141, R142,
R145, R148). -/

namespace Sys2Proof.Machine

set_option Elab.async false

section
variable {s : State} {b : Binding}

/-! ### Requests and moves of the follower -/

/-- A request of the follower enters itself in its blend record alone, and only where it is accepted (R79). -/
theorem requestFollower_blend (r : StageReq) (s : State) :
    (requestFollower r s).blend = { s.blend with
      lastRequest := if requestAccepted .blend r s then r else s.blend.lastRequest } := by
  have hblend : (requestStage .blend r s).blend = s.blend := (requestStage_only _ _ _).get .blend
  unfold requestFollower
  split
  · simp only [hblend]
  · exact hblend

theorem requestFollower_valve (r : StageReq) (s : State) : (requestFollower r s).valve = (requestStage .blend r s).valve := by
  unfold requestFollower
  split <;> rfl

theorem followerChanged_blend (s : State) : (followerChanged s).blend = s.blend := (followerChanged_only s).get .blend

theorem followerChanged_valve (s : State) : (followerChanged s).valve = s.valve := (followerChanged_only s).get .valve

/-- F_TRIM lasts 30,000 ms at most, without holds and without a quiet timer (R148, log 28). -/
theorem enterTrim_blend (s : State) :
    ∃ request, (enterTrim s).blend = { s.blend with
      binding := s.blend.binding.map (fun b => { b with holds := .empty, quietDue := none })
      follower := .fTrim, trimDue := some (s.time + Config.trimTime), lastRequest := request } := by
  unfold enterTrim
  rw [followerChanged_blend]
  split
  · exact ⟨_, requestFollower_blend _ _⟩
  · exact ⟨_, rfl⟩

/-- F_CLOSE begins at the station time under its end code (R149). -/
theorem enterFClose_blend (code : EndCode) (s : State) :
    ∃ request, (enterFClose code s).blend = { s.blend with
      binding := s.blend.binding.map (fun b => { b with holds := .empty, quietDue := none })
      follower := .fClose, trimDue := none, closeEnteredAt := s.time, endCode := some code, valveNotClosed := false
      lastRequest := request } := by
  unfold enterFClose
  rw [followerChanged_blend]
  exact ⟨_, requestFollower_blend _ _⟩

/-- The follower that owns the stage is granted CLOSED (R79). -/
theorem requestAccepted_follower_closed (hop : operating s = true) (hbound : s.blend.follower ≠ .unbound) :
    requestAccepted .blend .closed s = true := by
  simp [requestAccepted, hop, stageOwner, hbound]

/-! ### Lead reports (R139, R141, R145) -/

/-- The part with a lead report entered in the binding. -/
def reportHeld (r : LeadReport) (s : State) : State := modBinding (fun b => { b with report := some r }) s

theorem dropHold_running (h : HoldReason) (hrun : s.blend.follower = .fRun) : dropHold h s = s := by
  rw [dropHold, hrun]

/-- The quiet timer starts again where the follower keeps it (R142). -/
def quietAgain (now : Nat) (s : State) : State :=
  modBinding (fun b => { b with
    quietDue := if keepsQuiet s.blend.follower then some (now + Config.leadQuietTime) else none }) s

theorem takeLeadReport_flowing {r : LeadReport} (hrun : s.blend.follower = .fRun)
    (hcode : reportedCode r = drawCode .flowing) : takeLeadReport r s = quietAgain s.time (reportHeld r s) := by
  have hheld : (reportHeld r s).blend.follower = .fRun := hrun
  have hfollowed : followReport (drawCode .flowing) (reportHeld r s) = reportHeld r s := by
    simp [followReport, hheld, dropHold_running .leadHeld hheld, drawCode]
  change quietAgain s.time (followReport (reportedCode r) (dropHold .leadQuiet (reportHeld r s))) = _
  rw [dropHold_running _ hheld, hcode, hfollowed]

theorem takeLeadReport_closing {r : LeadReport} (hrun : s.blend.follower = .fRun)
    (hcode : reportedCode r = drawCode .closing) :
    takeLeadReport r s = quietAgain s.time (enterTrim (reportHeld r s)) := by
  have hheld : (reportHeld r s).blend.follower = .fRun := hrun
  have hfollowed : followReport (drawCode .closing) (reportHeld r s) = enterTrim (reportHeld r s) := by
    simp [followReport, hheld]
  change quietAgain s.time (followReport (reportedCode r) (dropHold .leadQuiet (reportHeld r s))) = _
  rw [dropHold_running _ hheld, hcode, hfollowed]

theorem leadReportTaken_takes {f : Frame} (hbinding : s.blend.binding = some b) (hsource : sourceOf f.id = b.lead)
    (hsequence : sequenceOf f.id = b.claim.sequence) (hnotFinal : ∀ r, b.report = some r → r.final = false) :
    leadReportTaken f s = takeLeadReport (decodeLeadReport f) s := by
  have hopen : (b.report.map (·.final)).getD false = false := by
    cases hreport : b.report with
    | none => rfl
    | some r => exact hnotFinal r hreport
  simp only [leadReportTaken, hbinding, hsource, hsequence, hopen, and_self, if_true]

/-! ### The quiet timer (R142) -/

/-- The part in F_HOLD, before its stage request. -/
def holdBegun (s : State) : State := { s with blend := { s.blend with follower := .fHold } }

/-- F_HOLD asks for CLOSED and is granted it (R141). -/
theorem enterHold_blend (hop : operating s = true) :
    (enterHold s).blend = { s.blend with follower := .fHold, lastRequest := .closed } := by
  have haccepted : requestAccepted .blend .closed (holdBegun s) = true :=
    requestAccepted_follower_closed (s := holdBegun s) hop nofun
  change (followerChanged (requestFollower .closed (holdBegun s))).blend = _
  rw [followerChanged_blend, requestFollower_blend, haccepted]
  rfl

theorem enterHold_valve (hop : operating s = true) (hdwell : 0 < s.cfg.dwell) (hhalt : s.valve.halt = .clear) :
    (enterHold s).valve = { s.valve with stage := stageTable (s.time + s.cfg.dwell) .closed s.valve.stage } := by
  have haccepted : requestAccepted .blend .closed (holdBegun s) = true :=
    requestAccepted_follower_closed (s := holdBegun s) hop nofun
  change (followerChanged (requestFollower .closed (holdBegun s))).valve = _
  rw [followerChanged_valve, requestFollower_valve, requestStage_taken (s := holdBegun s) haccepted hhalt,
    stageTaken_of_dwell_pos (s := holdBegun s) hdwell]
  rfl

/-- A reason that comes up in F_RUN is held in F_HOLD (R141, R142). -/
theorem raiseHold_running (h : HoldReason) (hrun : s.blend.follower = .fRun) :
    raiseHold h s = enterHold (modBinding (fun b => { b with holds := setHold h true b.holds }) s) := by
  rw [raiseHold, hrun]

end

/-- Settles O48, by the cases of the report, the quiet timer and the trim limit. -/
theorem followerFollowsItsLead : Obligations.FollowerFollowsItsLead := by
  intro s b hop hbinding
  have hpower : s.station.state ≠ .powerDown := fun h => by rw [operating, h] at hop; cases hop
  refine ⟨fun f arrival hrun hholds hold hkind htag hsource hsequence hnotFinal => ⟨fun hcode => ?flowing,
    fun hcode => ?closing⟩,
    fun due hrun hdue hdwell hhalt => ?quiet, fun due htrim hdue => ?trim⟩
  case flowing =>
    have hprogress : isProgress true s f = true := by simp [isProgress, hkind, htag, hrun]
    set v := taken s f arrival with hv
    have hvrun : v.blend.follower = .fRun := hrun
    have htaken : leadReportTaken f v = quietAgain v.time (reportHeld (decodeLeadReport f) v) :=
      (leadReportTaken_takes (s := v) hbinding hsource hsequence hnotFinal).trans (takeLeadReport_flowing hvrun hcode)
    have honly : OnlyChanges [.port, .claims, .blend] s (leadReportTaken f v) := by
      rw [htaken]
      exact (modBinding_only _ _).comp ((modBinding_only _ _).comp (taken_changes s f arrival) (ds := [.port, .claims,
        .blend]))
    have hfollower : (leadReportTaken f v).blend.follower = s.blend.follower := by rw [htaken]; rfl
    have hsame : page0State (leadReportTaken f v) = page0State s :=
      page0State_congr (honly.get .station) (honly.get .cfg) (honly.get .draw) (honly.get .valve) hfollower
        (congrArg Pulse.faultLatch (honly.get .pulse)) (congrArg Engine.probe (honly.get .engine))
        (congrArg Printer.stalled (honly.get .printer))
    have hheld : (reportHeld (decodeLeadReport f) v).blend =
        { s.blend with binding := some { b with report := some (decodeLeadReport f) } } := by
      rw [reportHeld, modBinding, show v.blend = s.blend from rfl, hbinding]; rfl
    refine ⟨_, exec_take_same (i := .takeProgLeadReport) (by rw [exec, execTakeProgLeadReport]) hold hprogress hsame,
      ?_, ?_, ?_, honly⟩
    · rw [← hv, htaken, quietAgain, modBinding, hheld, hrun]; rfl
    · rw [← hv, htaken]; rfl
    · rw [← hv, htaken]; rfl
  case closing =>
    have hprogress : isProgress true s f = true := by simp [isProgress, hkind, htag, hrun]
    obtain ⟨t, hexec, hstat⟩ :=
      exec_take (i := .takeProgLeadReport) (by rw [exec, execTakeProgLeadReport]) hold hprogress
    set v := taken s f arrival with hv
    have hvrun : v.blend.follower = .fRun := hrun
    rw [leadReportTaken_takes (s := v) hbinding hsource hsequence hnotFinal, takeLeadReport_closing hvrun hcode] at hstat
    obtain ⟨request, htrim⟩ := enterTrim_blend (reportHeld (decodeLeadReport f) v)
    have honly : OnlyChanges [.valve, .port, .claims, .blend, .journal] s
        (quietAgain v.time (enterTrim (reportHeld (decodeLeadReport f) v))) :=
      (modBinding_only _ _).comp ((enterTrim_only _).comp ((modBinding_only _ _).comp (taken_changes s f arrival)
        (ds := [.port, .claims, .blend])) (ds := [.valve, .port, .claims, .blend, .journal]))
    have hblend : t.blend = (quietAgain v.time (enterTrim (reportHeld (decodeLeadReport f) v))).blend := hstat.only.get .blend
    have hclaims : t.claims = (enterTrim (reportHeld (decodeLeadReport f) v)).claims := hstat.only.get .claims
    have hkept : (enterTrim (reportHeld (decodeLeadReport f) v)).claims = heard s f arrival := (enterTrim_only _).get .claims
    have hfollower : (enterTrim (reportHeld (decodeLeadReport f) v)).blend.follower = .fTrim := by rw [htrim]
    refine ⟨t, hexec, ?_, ?_, hclaims.trans hkept, ?_, (hstat.changes honly).mono (by decide)⟩
    · rw [hblend]; exact hfollower
    · rw [hblend, quietAgain, modBinding, htrim]; rfl
    · have hheld : (reportHeld (decodeLeadReport f) v).blend.binding = some { b with report := some (decodeLeadReport f) } :=
        congrArg (Option.map _) hbinding
      refine ⟨{ b with report := some (decodeLeadReport f), holds := .empty, quietDue := none }, ?_, rfl, rfl, rfl⟩
      rw [hblend, quietAgain, modBinding, htrim]
      simp only [hheld, Option.map_some]
      rfl
  case quiet =>
    obtain ⟨t, hexec, hstat⟩ := exec_expiry (i := .leadQuietExpiry) (s := s) (g := leadQuiet) (due := due)
      (by rw [exec, execLeadQuietExpiry]) hpower (by rw [hbinding]; exact hdue)
    set v := modBinding (fun b => { b with quietDue := none }) (passTo due s) with hv
    set w := modBinding (fun b => { b with holds := setHold .leadQuiet true b.holds }) v with hw
    have hheld : leadQuiet (passTo due s) = enterHold w := raiseHold_running (s := v) .leadQuiet hrun
    rw [hheld] at hstat
    have hblend : t.blend = _ := (hstat.only.get .blend).trans (enterHold_blend (s := w) hop)
    have hvalve : t.valve = _ := (hstat.only.get .valve).trans (enterHold_valve (s := w) hop hdwell hhalt)
    have hwbinding : w.blend.binding =
        some { b with holds := { b.holds with leadQuiet := true }, quietDue := none } := by
      change (s.blend.binding.map _).map _ = _
      rw [hbinding]; rfl
    have honly : OnlyChanges [.time, .valve, .port, .blend, .journal] s (enterHold w) :=
      (enterHold_only _).comp ((modBinding_only _ _).comp ((modBinding_only _ _).comp (passTo_only due s) (ds := [.time, .blend]))
        (ds := [.time, .blend]))
    refine ⟨t, { b with holds := { b.holds with leadQuiet := true }, quietDue := none }, hexec, by rw [hblend],
      by rw [hblend, ← hwbinding], rfl, rfl, by rw [hblend], hvalve, (hstat.only.get .time).trans ((enterHold_only w).get .time),
      (hstat.changes honly).mono (by decide)⟩
  case trim =>
    obtain ⟨t, hexec, hstat⟩ := exec_expiry (i := .trimTimerExpiry) (s := s) (g := enterFClose .trimLimit) (due := due)
      (by rw [exec, execTrimTimerExpiry]) hpower (by rw [if_pos htrim]; exact hdue)
    obtain ⟨request, hclose⟩ := enterFClose_blend .trimLimit (passTo due s)
    have hblend : t.blend = (enterFClose .trimLimit (passTo due s)).blend := hstat.only.get .blend
    rw [hclose] at hblend
    have honly : OnlyChanges [.time, .valve, .port, .blend, .journal] s (enterFClose .trimLimit (passTo due s)) :=
      (enterFClose_only _ _).comp (passTo_only due s)
    exact ⟨t, hexec, by rw [hblend], by rw [hblend], by rw [hblend]; rfl, by rw [hblend],
      (hstat.only.get .time).trans ((enterFClose_only _ _).get .time), (hstat.changes honly).mono (by decide)⟩

/-! ### The end of F_CLOSE (R149, R151) -/

section
variable {s : State} {b : Binding} {w : Write}

/-- The completion of the followed part takes the place of its checkpoint. -/
theorem addWork_completion_addWork_checkpoint (p : Nat) (g n : Int) (works : List Work) :
    addWork (.followerCompletion p g n) (addWork .followerCheckpoint works) = addWork (.followerCompletion p g n) works := by
  simp only [addWork]
  split
  · rfl
  · simp

/-- The part once the followed session has closed: the last counts are converted, and a crossing asks for a checkpoint. -/
def followedClosed (valveNotClosed : Bool) (s : State) : State :=
  let c := closeSession { s with blend := { s.blend with valveNotClosed := valveNotClosed } }
  if c.2 then followerCheckpoint c.1 else c.1

theorem followedClosed_changes (v : Bool) (s : State) :
    OnlyChanges [.journal] (closeSession { s with blend := { s.blend with valveNotClosed := v } }).1 (followedClosed v s) :=
  .ite (handWork_only _ _) ((OnlyChanges.refl [] _).mono (by decide))

theorem followedClosed_only (v : Bool) (s : State) : OnlyChanges [.pulse, .engine, .blend,
  .journal] s (followedClosed v s) :=
  (followedClosed_changes v s).comp ((closeSession_only _).comp (only_blend _) (ds := [.pulse, .engine, .blend]))

theorem followedClosed_ctx (v : Bool) (s : State) :
    (followedClosed v s).engine.ctx = convert ((s.cfg.kn : Int) * 1000) s.pulse.perUpdate s.engine.ctx := by
  rw [show (followedClosed v s).engine = _ from (followedClosed_changes v s).get .engine]
  rfl

theorem followedClosed_session (v : Bool) (s : State) : (followedClosed v s).pulse.session = none := by
  rw [show (followedClosed v s).pulse = _ from (followedClosed_changes v s).get .pulse]
  rfl

theorem followedClosed_blend (v : Bool) (s : State) :
    (followedClosed v s).blend = { s.blend with valveNotClosed := v } := by
  rw [show (followedClosed v s).blend = _ from (followedClosed_changes v s).get .blend]
  rfl

/-- While a write is in flight the completion waits behind every other work. -/
theorem followedClosed_journal (v : Bool) (hflight : s.journal.inflight = some w) :
    (followedClosed v s).journal.inflight = some w ∧ ∀ p g n,
      addWork (.followerCompletion p g n) (followedClosed v s).journal.works =
        s.journal.works.filter (fun x => x != .followerCheckpoint) ++ [.followerCompletion p g n] := by
  set c := closeSession { s with blend := { s.blend with valveNotClosed := v } } with hc
  have hjournal : c.1.journal = s.journal := (OnlyChanges.comp (closeSession_only _) (only_blend _) (ds := [.pulse,
    .engine, .blend])).get
    .journal
  have hflight' : c.1.journal.inflight = some w := by rw [hjournal]; exact hflight
  have hcase : followedClosed v s = if c.2 then followerCheckpoint c.1 else c.1 := rfl
  rw [hcase]
  split
  · rw [followerCheckpoint, handWork_busy _ hflight', hjournal]
    exact ⟨hflight, fun p g n => addWork_completion_addWork_checkpoint p g n _⟩
  · rw [hjournal]
    exact ⟨hflight, fun p g n => rfl⟩

/-- The final report that is held from a time on (R151). -/
def heldReport (b : Binding) (r : FinalReport) (now : Nat) : HeldReport :=
  ⟨b.claim, b.lead, r, some (now + Config.reportRepeatTime), some (now + Config.blendWaitTime)⟩

/-- The part once the final report has been handed and the completion has joined the journal's works. -/
def completionHanded (b : Binding) (t : State) : State :=
  handWork (.followerCompletion b.product.code t.engine.ctx.gross t.engine.ctx.net)
    (sendFinalReport b.lead b.claim.sequence (finalReportOf t) t)

/-- The part in UNBOUND, with its final report held. -/
def unbound (b : Binding) (r : FinalReport) (now : Nat) (u : State) : State :=
  let v := dropPartnerRecord b.claim u
  { v with
    blend := { v.blend with
      follower := .unbound, binding := none, lastEnded := some b.claim, held := some (heldReport b r now) } }

theorem followerFinish_eq (v : Bool) (hbinding : s.blend.binding = some b) :
    followerFinish v s =
      unbound b (finalReportOf (followedClosed v s)) s.time (completionHanded b (followedClosed v s)) := by
  rw [followerFinish, hbinding]
  rfl

theorem completionHanded_only (b : Binding) (t : State) : OnlyChanges [.port, .journal] t (completionHanded b t) :=
  (handWork_only _ _).comp (sendFinalReport_only _ _ _ _)

theorem completionHanded_works {t : State} (b : Binding) (hflight : t.journal.inflight = some w) :
    (completionHanded b t).journal.works =
      addWork (.followerCompletion b.product.code t.engine.ctx.gross t.engine.ctx.net) t.journal.works := by
  have hjournal : (sendFinalReport b.lead b.claim.sequence (finalReportOf t) t).journal = t.journal :=
    (sendFinalReport_only _ _ _ _).get .journal
  rw [completionHanded, handWork_busy _ (by rw [hjournal]; exact hflight), hjournal]

/-- Both parts of the report wait where there is room. -/
theorem completionHanded_queued {t : State} (b : Binding) (hrun : t.station.state = .running) (hroom : RoomFor 2 t) :
    Queued (finalPart1Frame t.station.number b.lead b.claim.sequence (finalReportOf t)) (completionHanded b t) ∧
      Queued (finalPart2Frame t.station.number b.lead b.claim.sequence (finalReportOf t)) (completionHanded b t) := by
  have hport : (completionHanded b t).port = (sendFinalReport b.lead b.claim.sequence (finalReportOf t) t).port :=
    (handWork_only _ _).get .port
  rw [sendFinalReport_of_room _ _ _ hrun hroom] at hport
  have htx : (completionHanded b t).port.tx = _ := congrArg (fun p => p.tx) hport
  exact ⟨queued_under_txInsert htx rfl, queued_of_txInsert htx⟩

theorem exec_followerFinish {i : Instr} (hi : i = .followerFlowStop ∨ i = .followerClosingLimit)
    (hpower : s.station.state ≠ .powerDown) (hclose : s.blend.follower = .fClose) :
    ∃ due t, exec i s = .next t ∧ StatAfter (followerFinish (decide (i = .followerClosingLimit)) (passTo due s)) t := by
  obtain rfl | rfl := hi
  · exact ⟨_, exec_expiry (i := .followerFlowStop) (by rw [exec, execFollowerFlowStop]; rfl) hpower
      (show followerStopDue s = some _ from if_pos hclose)⟩
  · exact ⟨_, exec_expiry (i := .followerClosingLimit) (by rw [exec, execFollowerClosingLimit]; rfl) hpower
      (show followerLimitDue s = some _ from if_pos hclose)⟩

end

/-- Settles O49: the flow stop and the closing limit end the followed draw alike, but for the valve's mark; the held report
is dropped at its own limit. -/
theorem endOfFollowedDraw : Obligations.EndOfFollowedDraw := by
  refine ⟨fun s b w i hi hpower hclose hbinding hflight => ?finish, fun s h due hpower hheld hdue => ?limit⟩
  case finish =>
    obtain ⟨due, t, hexec, hstat⟩ := exec_followerFinish hi hpower hclose
    set v := decide (i = .followerClosingLimit) with hv
    set p := passTo due s with hp
    set c := followedClosed v p with hc
    rw [followerFinish_eq (s := p) v hbinding] at hstat
    have hclosed : OnlyChanges [.pulse, .engine, .blend, .journal] p c := followedClosed_only v p
    obtain ⟨hcflight, hworks⟩ := followedClosed_journal (s := p) v hflight
    set u := completionHanded b c with hu
    have hhanded : OnlyChanges [.port, .journal] c u := completionHanded_only b c
    have hunbound : OnlyChanges [.claims, .blend] u (unbound b (finalReportOf c) p.time u) :=
      (only_blend _).comp (dropPartnerRecord_only _ _)
    have hcu : OnlyChanges [.port, .claims, .blend, .journal] c t :=
      hstat.only.comp (hunbound.comp hhanded (ds := [.port, .claims, .blend, .journal]))
    have hctx : c.engine.ctx = _ := followedClosed_ctx v p
    have htime : t.time = p.time := (hcu.get .time).trans (hclosed.get .time)
    have huc : u.blend = c.blend := hhanded.get .blend
    have huclaims : u.claims = s.claims := (hhanded.get .claims).trans (hclosed.get .claims)
    have hstation : c.station = s.station := hclosed.get .station
    have hqueued : ∀ {f : Frame}, kindOf f.id ≠ kStat → Queued f u → Queued f t := fun hf hq => hstat.queued hf hq
    refine ⟨t, heldReport b (finalReportOf c) p.time, hexec, ⟨?ctx, congrArg Context.gross hctx,
      congrArg Context.net hctx, ?works⟩,
      ?blend, rfl, rfl, by rw [htime]; rfl, by rw [htime]; rfl, fun hrun hroom => ?queued, ?mark, ?session, ?claims, ?only⟩
    case ctx => rw [show t.engine = c.engine from hcu.get .engine]; exact hctx
    case works =>
      have hjournal : t.journal = u.journal := (hstat.only.get .journal).trans (hunbound.get .journal)
      rw [hjournal, completionHanded_works b hcflight, hworks, hctx]
      rfl
    case blend =>
      rw [show t.blend = _ from hstat.only.get .blend]
      change { u.blend with
        follower := .unbound, binding := none, lastEnded := some b.claim
        held := some (heldReport b (finalReportOf c) p.time) } = _
      rw [huc, followedClosed_blend]
      rfl
    case queued =>
      have hroom' : RoomFor 2 c := by rw [RoomFor, show c.port = s.port from hclosed.get .port]; exact hroom
      have hboth := completionHanded_queued (t := c) b (by rw [hstation]; exact hrun) hroom'
      rw [hstation] at hboth
      exact ⟨hqueued (by rw [finalPart1Frame, kindOf_identOf]; decide) hboth.1,
        hqueued (by rw [finalPart2Frame, kindOf_identOf]; decide) hboth.2⟩
    case mark => exact congrArg Blend.valveNotClosed (followedClosed_blend v p)
    case session => rw [show t.pulse = c.pulse from hcu.get .pulse]; exact followedClosed_session v p
    case claims =>
      rw [show t.claims = _ from hstat.only.get .claims]
      simp only [unbound, dropPartnerRecord, huclaims]
    case only =>
      exact hcu.comp (hclosed.comp (passTo_only due s) (ds := [.time, .pulse, .engine, .blend, .journal]))
  case limit =>
    have hnext : discardHeld (fun _ => true) (passTo due s) =
        { passTo due s with blend := { s.blend with held := none } } := by
      rw [discardHeld, show (passTo due s).blend.held = some h from hheld]
      rfl
    have honly : OnlyChanges [.time, .blend] s (discardHeld (fun _ => true) (passTo due s)) :=
      (discardHeld_only _ _).comp (passTo_only due s)
    have hsame : page0State (discardHeld (fun _ => true) (passTo due s)) = page0State s := by
      rw [hnext]; exact page0State_congr rfl rfl rfl rfl rfl rfl rfl rfl
    have hexec := exec_expiry_same (i := .finalReportLimit) (s := s) (due := due) (by rw [exec,
      execFinalReportLimit]) hpower
      (by rw [hheld]; exact hdue) hsame
    exact ⟨_, hexec, by rw [hnext], by rw [hnext]; rfl, honly⟩

end Sys2Proof.Machine
end

