-- ==== Sys2Proof/Proofs/ClosingEnds.lean ====
section
/-! PROOFS. Chapter 3: the end of CLOSING of a solo draw hands its item to the journal (R66 to R68, R70, R71). -/

namespace Sys2Proof.Machine

set_option Elab.async false

/-! ### What a sent frame leaves of the journal -/

section
variable {s : State} {w : Write}

/-- A frame that displaces a TKT segment abandons its fetch; nothing else of the journal changes (R97). -/
theorem sendFrame_journal (x : Sender) (f : Frame) (s : State) :
    (sendFrame x f s).journal = { s.journal with fetch := (sendFrame x f s).journal.fetch } := by
  have habandoned : ∀ (n : Nat) (t : State), t.journal = s.journal →
      (abandonFetch n t).journal = { s.journal with fetch := (abandonFetch n t).journal.fetch } := fun n t h => by
    unfold abandonFetch
    split
    · split <;> simp only [h]
    · rw [h]
  unfold sendFrame handFrame
  split
  · split
    · rfl
    · split
      · split
        · unfold displaced
          split
          · exact habandoned _ _ rfl
          · rfl
        · rfl
      · rfl
  · rfl

theorem releaseOwn_journal (s : State) :
    (releaseOwn s).journal = { s.journal with fetch := (releaseOwn s).journal.fetch } := by
  unfold releaseOwn
  split
  · next o _ =>
    simp only [show (dropRecords o.claim.id (sendFrame .claimUnit (releaseFrame o.claim.id) s)).journal = _ from
      (dropRecords_only _ _).get .journal]
    exact sendFrame_journal _ _ _
  · rfl

theorem releaseOwn_works (s : State) : (releaseOwn s).journal.works = s.journal.works := by rw [releaseOwn_journal]

theorem releaseOwn_inflight (s : State) : (releaseOwn s).journal.inflight = s.journal.inflight := by rw [releaseOwn_journal]

theorem releaseOwn_mem (s : State) : (releaseOwn s).journal.mem = s.journal.mem := by rw [releaseOwn_journal]

theorem releaseOwn_own_none (s : State) : (releaseOwn s).claims.own = none := by
  cases hown : s.claims.own with
  | none => rw [releaseOwn, hown]; exact hown
  | some o => exact releaseOwn_own hown

/-! ### The item is handed over (R68) -/

/-- A change of the checkpoints alone leaves what stands beside them. -/
theorem filter_map_checkpoints {g : Work → Work} (hkind : ∀ x, isCheckpoint (g x) = isCheckpoint x)
    (hother : ∀ x, isCheckpoint x = false → g x = x) (works : List Work) :
    (works.map g).filter (fun x => !isCheckpoint x) = works.filter (fun x => !isCheckpoint x) := by
  induction works with
  | nil => rfl
  | cons x works ih =>
    rw [List.map_cons, List.filter_cons, List.filter_cons, hkind, ih]
    cases hx : isCheckpoint x with
    | true => rfl
    | false => rw [hother x hx]

/-- The hand-over takes the place of every checkpoint (R181). -/
theorem addWork_handOver_addWork_checkpoint (i : DrawItem) (h : Option Hose) (a : Option Int) (adds : Bool)
  (works : List Work) :
    addWork (.handOver i h a) (addWork (.checkpoint adds) works) = addWork (.handOver i h a) works := by
  have hkept : (addWork (.checkpoint adds) works).filter (fun x => !isCheckpoint x) =
      works.filter (fun x => !isCheckpoint x) := by
    simp only [addWork]
    split
    · exact filter_map_checkpoints (fun x => by cases x <;> rfl) (fun x hx => by
        cases x with
        | checkpoint _ => cases hx
        | _ => rfl) works
    · rw [List.filter_append]
      exact List.append_nil _
  simp only [addWork] at hkept ⊢
  rw [hkept]

/-- The work that hands over an item with its hose record and its learned close-ahead. -/
def handOverOf (sel : Selection) (c : Current) (f : FinalValues) (part : Option BlendPart) (s : State) : Work :=
  .handOver (completedItem s sel c f part) (hoseAfter f.gross c.hoseFilled c.hoseAtStart (deliveredOf sel)) (learned s c f)

/-- The part in DROP_OPEN with the item counted, while a write is in flight. -/
def itemHanded (sel : Selection) (c : Current) (f : FinalValues) (part : Option BlendPart) (s : State) : State :=
  { s with
    draw := ⟨.dropOpen, s.draw.drop.map (fun d => { d with items := d.items + 1 }), none, none⟩
    blend := { s.blend with lead := none }
    journal := { s.journal with works := addWork (handOverOf sel c f part s) s.journal.works } }

theorem completeItem_busy (sel : Selection) (c : Current) (f : FinalValues) (part : Option BlendPart)
    (hflight : s.journal.inflight = some w) : completeItem sel c f part s = itemHanded sel c f part s := by
  rw [completeItem, handWork_busy _ hflight]
  rfl

theorem itemHanded_draw {d : Drop} (sel : Selection) (c : Current) (f : FinalValues) (part : Option BlendPart)
    (hdrop : s.draw.drop = some d) :
    (itemHanded sel c f part s).draw = ⟨.dropOpen, some { d with items := d.items + 1 }, none, none⟩ := by
  rw [itemHanded, hdrop]
  rfl

end

/-! ### The wait of CLOSING ends (R66, R67) -/

section
variable {s : State} {c : Current} {sel : Selection} {w : Write}

/-- The part with the limit's mark entered in the draw record. -/
def closingMarked (v : Bool) (s : State) : State :=
  modCurrent (fun c => { c with
    exceptions := { c.exceptions with valveNotClosed := c.exceptions.valveNotClosed || v } }) s

/-- The part once the draw's session has closed: the last counts are converted and enter the draw record. -/
def drawClosed (v : Bool) (s : State) : State :=
  let r := closeSession (closingMarked v s)
  let t := modCurrent (updateMarks r.1) r.1
  if r.2 then checkpoint t else t

/-- The context with the last counts converted (R35). -/
def lastContext (s : State) : Context := convert ((s.cfg.kn : Int) * 1000) s.pulse.perUpdate s.engine.ctx

/-- The draw record with the last counts in it (R67, log 22). -/
def closedRecord (v : Bool) (s : State) (c : Current) : Current :=
  { c with
    exceptions := { c.exceptions with
      valveNotClosed := c.exceptions.valveNotClosed || v
      reverseSeen := c.exceptions.reverseSeen || decide (0 < (lastContext s).reverse) }
    hoseFilled := c.hoseFilled || decide ((s.cfg.hoseVolume : Int) ≤ (lastContext s).gross)
    softDone := c.softDone ||
      (s.draw.state == .flowing && decide ((s.cfg.startSlow : Int) ≤ (lastContext s).gross - c.softBase)) }

theorem drawClosed_changes (v : Bool) (s : State) :
    OnlyChanges [.journal] (modCurrent (updateMarks (closeSession (closingMarked v s)).1) (closeSession
      (closingMarked v s)).1)
      (drawClosed v s) :=
  .ite (handWork_only _ _) ((OnlyChanges.refl [] _).mono (by decide))

theorem drawClosed_only (v : Bool) (s : State) : OnlyChanges [.pulse, .engine, .draw, .journal] s (drawClosed v s) :=
  (drawClosed_changes v s).comp ((modCurrent_only _ _).comp ((closeSession_only _).comp (modCurrent_only _ s)
    (ds := [.pulse, .engine, .draw])) (ds := [.pulse, .engine, .draw]))

theorem drawClosed_engine (v : Bool) (s : State) :
    (drawClosed v s).engine = { s.engine with ctx := lastContext s, updateDue := none } := by
  rw [show (drawClosed v s).engine = _ from (drawClosed_changes v s).get .engine]
  rfl

theorem drawClosed_pulse (v : Bool) (s : State) :
    (drawClosed v s).pulse = { s.pulse with
      session := none, perUpdate := 0, target := none, windowErrors := 0, windowForward := 0, loneA := 0, loneB := 0 } := by
  rw [show (drawClosed v s).pulse = _ from (drawClosed_changes v s).get .pulse]
  rfl

theorem drawClosed_draw (v : Bool) (hcurrent : s.draw.current = some c) :
    (drawClosed v s).draw = { s.draw with current := some (closedRecord v s c) } := by
  rw [show (drawClosed v s).draw = _ from (drawClosed_changes v s).get .draw]
  simp only [modCurrent, closingMarked, hcurrent, Option.map_some]
  rfl

theorem drawClosed_journal (v : Bool) (hflight : s.journal.inflight = some w) :
    (drawClosed v s).journal.inflight = some w ∧ (drawClosed v s).journal.mem = s.journal.mem ∧
      ∀ i h a, addWork (.handOver i h a) (drawClosed v s).journal.works = addWork (.handOver i h a) s.journal.works := by
  set r := closeSession (closingMarked v s) with hr
  set t := modCurrent (updateMarks r.1) r.1 with ht
  have hjournal : t.journal = s.journal := rfl
  have hflight' : t.journal.inflight = some w := hflight
  have hcase : drawClosed v s = if r.2 then checkpoint t else t := rfl
  rw [hcase]
  split
  · rw [checkpoint, handWork_busy _ hflight', hjournal]
    exact ⟨hflight, rfl, fun i h a => addWork_handOver_addWork_checkpoint i h a false _⟩
  · exact ⟨hflight, rfl, fun i h a => rfl⟩

/-- The end of CLOSING of a solo draw: its session closes, its claim is released, its item is handed over. -/
theorem finishClosing_solo (v : Bool) (hlead : s.blend.lead = none) (hsel : s.draw.selection = some sel)
    (hsolo : sel.blend = none) (hcurrent : s.draw.current = some c) :
    finishClosing v s =
      completeItem sel (closedRecord v s c) (finalValues (lastContext s)) none (releaseOwn (drawClosed v s)) := by
  have hlead' : (drawClosed v s).blend.lead = none := by
    rw [show (drawClosed v s).blend = s.blend from (drawClosed_only v s).get .blend, hlead]
  have hsent : sendLeadProg true (drawClosed v s) = drawClosed v s := by rw [sendLeadProg, hlead']
  have hselection : (drawClosed v s).draw.selection = some sel := by rw [drawClosed_draw v hcurrent]; exact hsel
  have hrecord : (drawClosed v s).draw.current = some (closedRecord v s c) := by rw [drawClosed_draw v hcurrent]
  have hvalues : finalValues (drawClosed v s).engine.ctx = finalValues (lastContext s) := by rw [drawClosed_engine]
  have hunfolded : finishClosing v s =
      match (sendLeadProg true (drawClosed v s)).draw.selection, (sendLeadProg true (drawClosed v s)).draw.current with
      | some sel, some c =>
        match sel.blend with
        | none => completeItem sel c (finalValues (sendLeadProg true (drawClosed v s)).engine.ctx) none
            (releaseOwn (sendLeadProg true (drawClosed v s)))
        | some _ => tryAssemble (modCurrent (fun c => { c with
            final := some (finalValues (sendLeadProg true (drawClosed v s)).engine.ctx) }) (sendLeadProg true
              (drawClosed v s)))
      | _, _ => sendLeadProg true (drawClosed v s) := rfl
  rw [hunfolded, hsent]
  simp only [hselection, hrecord, hsolo, hvalues]

theorem exec_finishClosing {i : Instr} (hi : i = .flowStop ∨ i = .closingLimit) (hpower : s.station.state ≠ .powerDown)
    (hclosing : s.draw.state = .closing) (hcurrent : s.draw.current = some c) (hfinal : c.final = none) :
    ∃ due t, exec i s = .next t ∧ StatAfter (finishClosing (decide (i = .closingLimit)) (passTo due s)) t := by
  have hopen : closingOpen s = true := by simp [closingOpen, hclosing, hcurrent, hfinal]
  obtain rfl | rfl := hi
  · exact ⟨_, exec_expiry (i := .flowStop) (by rw [exec, execFlowStop]; rfl) hpower
      (show flowStopDue s = some _ by rw [flowStopDue, if_pos hopen, hcurrent]; rfl)⟩
  · exact ⟨_, exec_expiry (i := .closingLimit) (by rw [exec, execClosingLimit]; rfl) hpower
      (show closingLimitDue s = some _ by rw [closingLimitDue, if_pos hopen, hcurrent]; rfl)⟩

end

/-! ### The hose and the close-ahead (R70, R71, R37) -/

theorem hoseEquals_solo (h : Hose) (p : Nat) : hoseEquals h ⟨p, none⟩ = true ↔ h = .product p := by
  cases h <;> simp [hoseEquals]

theorem hoseAfter_solo (gross : Int) (filled : Bool) (atStart : Hose) (p : Nat) :
    hoseAfter gross filled atStart ⟨p, none⟩ =
      if gross ≤ 0 then none
      else if filled = true then some (if p = 15 then .mixed else .product p)
      else if atStart = .product p then none
      else some .mixed := by
  simp only [hoseAfter, hoseEquals_solo, hoseOf, Config.mixedCode]

theorem learned_solo {s : State} (c : Current) (f : FinalValues) (hshare : s.engine.ctx.share = none) :
    learned s c f =
      if c.ending = some .presetReached ∧ c.stageAtClose = some .slow ∧ c.exceptions.valveNotClosed = false then
        c.presetAtClose.map (fun p => clampTo 0 s.cfg.aMax (s.engine.ctx.closeAhead + roundDiv (f.net - p) 4))
      else none := by
  rw [learned]
  split
  · simp only [stopVolume, hshare, Option.map_map]
    rfl
  · rfl

/-- Settles O28. -/
theorem endOfClosingHandsItem : Obligations.EndOfClosingHandsItem := by
  intro s c sel d w i hi hop hclosing hcurrent hsel hdrop hsolo hfinal hflight hlead
  have hpower : s.station.state ≠ .powerDown := fun h => by rw [operating, h] at hop; cases hop
  obtain ⟨due, t, hexec, hstat⟩ := exec_finishClosing hi hpower hclosing hcurrent hfinal
  set v := decide (i = .closingLimit) with hv
  set p := passTo due s with hp
  set u := releaseOwn (drawClosed v p) with hu
  set r := closedRecord v p c with hr
  have hclosed : OnlyChanges [.pulse, .engine, .draw, .journal] p (drawClosed v p) := drawClosed_only v p
  have hreleased : OnlyChanges [.valve, .claims, .port, .journal] (drawClosed v p) u := releaseOwn_only _
  obtain ⟨hcflight, hcmem, hcworks⟩ := drawClosed_journal (s := p) v hflight
  have huflight : u.journal.inflight = some w := (releaseOwn_inflight _).trans hcflight
  rw [finishClosing_solo (s := p) v hlead hsel hsolo hcurrent, completeItem_busy sel r _ none huflight] at hstat
  have hdone := completeItem_only sel r (finalValues (lastContext p)) none u
  rw [completeItem_busy sel r _ none huflight] at hdone
  have hudraw : u.draw = { s.draw with current := some r } := (hreleased.get .draw).trans (drawClosed_draw v hcurrent)
  have huengine : u.engine = { p.engine with ctx := lastContext p, updateDue := none } :=
    (hreleased.get .engine).trans (drawClosed_engine v p)
  have htengine : t.engine = u.engine := (hstat.only.get .engine).trans (hdone.get .engine)
  have htjournal : t.journal = _ := hstat.only.get .journal
  have hucfg : u.cfg = s.cfg := (hreleased.get .cfg).trans (hclosed.get .cfg)
  have hctx : t.engine.ctx = lastContext p := by rw [htengine, huengine]
  refine ⟨t, completedItem u sel r (finalValues (lastContext p)) none,
    hoseAfter (lastContext p).gross r.hoseFilled r.hoseAtStart (deliveredOf sel),
      learned u r (finalValues (lastContext p)), hexec, ?draw,
    ⟨hctx, rfl, rfl, rfl⟩, rfl, rfl, rfl, rfl, rfl, ⟨?intermix, ?hose, fun hshare => ?learned⟩, ?works, ?inflight,
      ?mem, ?pulse, ?due, ?own,
    ?only⟩
  case draw =>
    rw [show t.draw = _ from hstat.only.get .draw]
    exact itemHanded_draw _ _ _ _ (by rw [hudraw]; exact hdrop)
  case intermix =>
    rw [hctx]
    simp only [completedItem, intermixOf, hucfg, Int.natCast_pos]
    rfl
  case hose =>
    have hdelivered : deliveredOf sel = ⟨sel.product, none⟩ := by rw [deliveredOf, hsolo]; rfl
    have hfilled : r.hoseFilled = true ↔ c.hoseFilled = true ∨ (s.cfg.hoseVolume : Int) ≤ (lastContext p).gross := by
      change (c.hoseFilled || decide ((s.cfg.hoseVolume : Int) ≤ (lastContext p).gross)) = true ↔ _
      rw [Bool.or_eq_true, decide_eq_true_iff]
    rw [hctx, hdelivered, hoseAfter_solo]
    simp only [hfilled]
    rfl
  case learned =>
    rw [hctx] at hshare ⊢
    rw [learned_solo (s := u) _ _ (by rw [huengine]; exact hshare), hucfg, huengine]
    rfl
  case works =>
    rw [htjournal]
    change addWork (handOverOf sel r _ none u) u.journal.works = _
    rw [hu, releaseOwn_works, ← hu, handOverOf, hcworks]
    rfl
  case inflight => rw [htjournal]; exact huflight
  case mem => rw [htjournal]; exact (releaseOwn_mem _).trans hcmem
  case pulse =>
    have hpulse : t.pulse = (drawClosed v p).pulse :=
      (hstat.only.get .pulse).trans ((hdone.get .pulse).trans (hreleased.get .pulse))
    rw [hpulse, drawClosed_pulse]
    rfl
  case due => rw [htengine, huengine]
  case own =>
    rw [show t.claims = _ from (hstat.only.get .claims).trans (hdone.get .claims)]
    exact releaseOwn_own_none _
  case only =>
    exact hstat.only.comp (hdone.comp (hreleased.comp (hclosed.comp (passTo_only due s)
      (ds := [.time, .pulse, .engine, .draw, .journal])) (ds := [.time, .pulse, .engine, .draw, .valve, .port, .claims,
        .journal]))
      (ds := [.time, .pulse, .engine, .draw, .valve, .port, .claims, .blend, .journal]))

end Sys2Proof.Machine
end

