-- ==== Sys2Proof/Proofs/LeadBlend.lean ====
section
/-! PROOFS. Chapter 7: the lead watches the lag of its follower and assembles the blend part (R146, R147, R152, R153). -/

namespace Sys2Proof.Machine

set_option Elab.async false

/-! ### Reports of the follower (R146, R147) -/

section
variable {s : State} {l : Lead} {c : Current} {f : Frame}

/-- The part with a follower report entered in the lead's blend record, its lag judged (R146). -/
def lagEntered (r : Int × Int) (l : Lead) (s : State) : State :=
  { s with
    blend := { s.blend with
      lead := some { l with report := some r, throttle := throttleAfter s.cfg r.2 l.throttle, lastLag := some r.2 } } }

theorem fromPartner_of (hsource : sourceOf f.id = l.partner) (hsequence : sequenceOf f.id = l.sequence)
    (hopen : drawOpen s.draw.state = true) : fromPartner f l s = true := by
  simp [fromPartner, hsource, hsequence, hopen]

theorem followerReportTaken_flowing (hlead : s.blend.lead = some l) (hsource : sourceOf f.id = l.partner)
    (hsequence : sequenceOf f.id = l.sequence) (hflowing : s.draw.state = .flowing) :
    followerReportTaken f s =
      if abortsAt s.cfg (decodeFollowerReport f).2 l.lastLag then
        suspend (raiseLatch .blendLag) (evaluateStage (lagEntered (decodeFollowerReport f) l s))
      else evaluateStage (lagEntered (decodeFollowerReport f) l s) := by
  have hfrom : fromPartner f l s = true := fromPartner_of hsource hsequence (by rw [hflowing]; rfl)
  simp only [followerReportTaken, hlead, hfrom, if_true, actOnLag, hflowing]
  rfl

/-- A throttled draw asks for SLOW (R57, R146). -/
theorem wantedStage_throttled (hthrottled : throttled s = true) (c : Current) : wantedStage s c = .slow := by
  simp [wantedStage, wantsFast, hthrottled]

theorem throttled_lagEntered {r : Int × Int} (hlag : 2 * (s.cfg.blendWindow : Int) < r.2) :
    throttled (lagEntered r l s) = true := by
  simp [throttled, lagEntered, throttleAfter, throttleHigh, hlag]

theorem tryAssemble_of_not_closing (h : s.draw.state ≠ .closing) : tryAssemble s = s := by
  unfold tryAssemble
  split
  · next hclosing _ _ => exact absurd hclosing h
  · rfl

/-- An item without its final values is not completed. -/
theorem tryAssemble_of_not_final (hcurrent : s.draw.current = some c) (hfinal : c.final = none) : tryAssemble s = s := by
  unfold tryAssemble
  split
  · next c' _ _ hc' =>
    obtain rfl : c = c' := Option.some.inj (hcurrent.symm.trans hc')
    rw [hfinal]
  · rfl

/-- The part with the end of the blend wait noted (R153). -/
def waitEnded (s : State) : State :=
  { s with
    blend := { s.blend with lead := s.blend.lead.map (fun l => { l with waitDue := none, waitOver := true }) } }

theorem waitEnded_blend (hlead : s.blend.lead = some l) :
    (waitEnded s).blend = { s.blend with lead := some { l with waitDue := none, waitOver := true } } := by
  rw [waitEnded, hlead]
  rfl

/-- The part with a part of the final report entered in the lead's blend record (R152). -/
def finalPartEntered (f : Frame) (l : Lead) (s : State) : State :=
  { s with
    blend := { s.blend with
      lead := some (if lowTagOf f.id = 1 then { l with part1 := some (decodeFinalVolumes f) }
        else { l with part2 := some (decodeFinalDetails f) }) } }

theorem finalPartTaken_eq (hlead : s.blend.lead = some l) (hsource : sourceOf f.id = l.partner)
    (hsequence : sequenceOf f.id = l.sequence) (hopen : drawOpen s.draw.state = true)
    (htag : lowTagOf f.id = 1 ∨ lowTagOf f.id = 2) : finalPartTaken f s = tryAssemble (finalPartEntered f l s) := by
  have hfrom : fromPartner f l s = true := fromPartner_of hsource hsequence hopen
  obtain htag | htag := htag
  · simp only [finalPartTaken, hlead, hfrom, htag, if_true, finalPartEntered]
  · simp only [finalPartTaken, hlead, hfrom, htag, if_true, finalPartEntered, if_neg (by decide : ¬(2 : Nat) = 1)]

/-- The take of a part of the final report in an open draw. -/
theorem exec_finalPart {arrival : Nat} (hold : OldestFrame s f arrival) (hkind : kindOf f.id = kProg)
    (htag : lowTagOf f.id = 1 ∨ lowTagOf f.id = 2) (hlead : s.blend.lead = some l) (hsource : sourceOf f.id = l.partner)
    (hsequence : sequenceOf f.id = l.sequence) (hopen : drawOpen s.draw.state = true) :
    ∃ t, exec .takeProgFinalPart s = .next t ∧
      StatAfter (tryAssemble (finalPartEntered f l (taken s f arrival))) t := by
  have hpart : isFinalPart f = true := by
    simp only [isFinalPart, hkind, beq_self_eq_true, Bool.true_and, bne_iff_ne]
    omega
  obtain ⟨t, hexec, hstat⟩ := exec_take (i := .takeProgFinalPart) (by rw [exec, execTakeProgFinalPart]) hold hpart
  rw [finalPartTaken_eq (s := taken s f arrival) hlead hsource hsequence hopen htag] at hstat
  exact ⟨t, hexec, hstat⟩

/-- In FLOWING a part of the final report is kept. -/
theorem finalPart_flowing {arrival : Nat} (hold : OldestFrame s f arrival) (hkind : kindOf f.id = kProg)
    (htag : lowTagOf f.id = 1 ∨ lowTagOf f.id = 2) (hlead : s.blend.lead = some l) (hsource : sourceOf f.id = l.partner)
    (hsequence : sequenceOf f.id = l.sequence) (hflowing : s.draw.state = .flowing) :
    ∃ t, exec .takeProgFinalPart s = .next t ∧ t.blend = (finalPartEntered f l (taken s f arrival)).blend ∧
      TakenAlone s.port t.port ∧ t.claims = heard s f arrival ∧ OnlyChanges [.port, .claims, .blend] s t := by
  obtain ⟨t, hexec, hstat⟩ := exec_finalPart hold hkind htag hlead hsource hsequence (by rw [hflowing]; rfl)
  have hstate : (finalPartEntered f l (taken s f arrival)).draw.state ≠ .closing := by
    rw [show (finalPartEntered f l (taken s f arrival)).draw.state = .flowing from hflowing]; decide
  rw [tryAssemble_of_not_closing hstate] at hstat
  exact ⟨t, hexec, hstat.only.get .blend, hstat.takenAlone rfl, hstat.only.get .claims,
    hstat.only.comp (OnlyChanges.comp (t := taken s f arrival) (only_blend _) (taken_changes s f arrival)
      (ds := [.port, .claims, .blend]))⟩

end

/-! ### The blend part (R152, R153) -/

theorem roundDiv_of_nonneg {a : Int} (b : Int) (h : 0 ≤ a) : roundDiv a b = (2 * a + b) / (2 * b) := if_pos h

theorem achievedShare_of_none {c l : Int} (h : l + c = 0) : achievedShare c l = 0 := if_pos h

theorem achievedShare_of_pos {c l : Int} (hc : 0 ≤ c) (h : 0 < l + c) :
    achievedShare c l = (2 * (c * 10000) + (l + c)) / (2 * (l + c)) := by
  rw [achievedShare, if_neg h.ne', if_pos h, roundDiv_of_nonneg _ (by omega)]

theorem partFromReport_eq (b : BlendSel) (l : Lead) (p : FinalVolumes) (d : FinalDetails) (net : Int) :
    partFromReport b l p d net =
      { component := b.product, follower := l.partner, gross := some p.gross, net := p.net, temp := d.temp
        targetShare := b.share, achievedShare := achievedShare p.net net
        incomplete := decide (d.endCode = 3 ∨ d.endCode = 4) } := by
  simp [partFromReport, endCodeNumber, Bool.decide_or, Bool.beq_eq_decide_eq]

section
variable {s t : State} {l : Lead} {sel : Selection} {b : BlendSel} {d : Drop} {c : Current} {v : FinalValues} {w : Write}

/-- The part once the blend part completes the item and the held release is made. -/
def assembled (sel : Selection) (c : Current) (v : FinalValues) (part : BlendPart) (s : State) : State :=
  releaseOwn (itemHanded sel c v (some part) s)

theorem tryAssemble_assembled {part : BlendPart} (hclosing : s.draw.state = .closing) (hsel : s.draw.selection = some sel)
    (hblend : sel.blend = some b) (hcurrent : s.draw.current = some c) (hfinal : c.final = some v)
    (hpart : assemblePart b s.blend.lead v.net = some part) (hflight : s.journal.inflight = some w) :
    tryAssemble s = assembled sel c v part s := by
  simp only [tryAssemble, hclosing, hsel, hcurrent, hfinal, hblend, hpart, completeItem_busy _ _ _ _ hflight]
  rfl

theorem assembled_only (sel : Selection) (c : Current) (v : FinalValues) (part : BlendPart)
    (hflight : s.journal.inflight = some w) : OnlyChanges closeBlocks s (assembled sel c v part s) := by
  rw [assembled, ← completeItem_busy _ _ _ _ hflight]
  exact (releaseOwn_only _).comp (completeItem_only _ _ _ _ _)

/-- The completed item, and all that stands up to a STAT set once it is handed over. -/
theorem assembled_completes (part : BlendPart) (hdrop : s.draw.drop = some d) (hflight : s.journal.inflight = some w)
    (hstat : StatAfter (assembled sel c v part s) t) :
    t.draw = ⟨.dropOpen, some { d with items := d.items + 1 }, none, none⟩ ∧ t.claims.own = none ∧
      t.blend = { s.blend with lead := none } ∧
      (∃ item hose closeAhead, item.blend = some part ∧ item.gross = v.gross ∧ item.net = v.net ∧
        t.journal.works = s.journal.works.filter (fun x => !isCheckpoint x) ++ [.handOver item hose closeAhead]) ∧
      (∀ o, s.claims.own = some o → s.station.state = .running → RoomFor 1 s → Queued (releaseFrame o.claim.id) t) ∧
      OnlyChanges [.time, .draw, .valve, .port, .claims, .blend, .journal] s t := by
  set u := itemHanded sel c v (some part) s with hu
  have hreleased : OnlyChanges claimBlocks u (assembled sel c v part s) := releaseOwn_only u
  refine ⟨?draw, ?own, ?blend, ⟨completedItem s sel c v (some part),
    hoseAfter v.gross c.hoseFilled c.hoseAtStart (deliveredOf sel), learned s c v, rfl, rfl, rfl, ?works⟩,
    fun o hown hrun hroom => ?queued, (hstat.changes (assembled_only _ _ _ _ hflight)).mono (by decide)⟩
  case draw =>
    rw [show t.draw = u.draw from (hstat.only.get .draw).trans (hreleased.get .draw)]
    exact itemHanded_draw _ _ _ _ hdrop
  case own =>
    rw [show t.claims = _ from hstat.only.get .claims]
    exact releaseOwn_own_none u
  case blend => exact (hstat.only.get .blend).trans (hreleased.get .blend)
  case works =>
    rw [show t.journal = (releaseOwn u).journal from hstat.only.get .journal, releaseOwn_works]
    rfl
  case queued =>
    have huown : u.claims.own = some o := hown
    refine hstat.queued (by rw [kindOf_releaseFrame]; decide) ⟨⟨releaseFrame o.claim.id, .claimUnit, false⟩, ?_, rfl⟩
    rw [assembled, releaseOwn_port huown, sendFrame_of_room (s := u) _ _ hrun hroom, mem_txInsert_iff]
    exact .inl rfl

end

/-- Settles O50: the reports of a FLOWING draw are judged by their lag, and those of a closed session complete its item. -/
theorem leadWatchesItsFollower : Obligations.LeadWatchesItsFollower := by
  refine ⟨fun s l hlead => ⟨fun f arrival c hold hkind hsource hsequence hflowing hcurrent =>
    ⟨fun htag hunbound hfirst => ?report, fun htag => ?part1, fun htag => ?part2⟩,
      fun due c hpower hdue hclosing hcurrent hfinal => ?wait⟩,
    fun s l f arrival previous c hlead hold hkind htag hsource hsequence hflowing hcurrent hunbound hlast => ?lag,
    fun s l sel b d c v w hlead hclosing hsel hblend hdrop hcurrent hfinal hflight => ⟨
      fun f arrival p1 hold hkind htag hsource hsequence hp1 => ?last, fun due hpower hdue hp2 => ?expired⟩,
    fun c l => ⟨achievedShare_of_none, achievedShare_of_pos⟩⟩
  case report =>
    have hprogress : isProgress false s f = true := by simp [isProgress, hkind, htag, hunbound]
    obtain ⟨t, hexec, hstat⟩ :=
      exec_take (i := .takeProgFollowerReport) (by rw [exec, execTakeProgFollowerReport]) hold hprogress
    set v := taken s f arrival with hv
    set e := lagEntered (decodeFollowerReport f) l v with he
    have htaken : followerReportTaken f v = evaluateStage e := by
      rw [followerReportTaken_flowing (s := v) hlead hsource hsequence hflowing, hfirst]
      rfl
    rw [htaken] at hstat
    have heval := evaluateStage_only e
    have hdraw : t.draw = _ := (hstat.only.get .draw).trans (evaluateStage_draw (s := e) hflowing hcurrent)
    refine ⟨t, { c with lastRequest := wantedStage e c }, hexec, (hstat.only.get .blend).trans (heval.get .blend), hdraw,
      fun hlag => wantedStage_throttled (throttled_lagEntered (s := v) hlag) c, ?_,
      (hstat.only.get .claims).trans (heval.get .claims),
      hstat.only.comp (heval.comp (OnlyChanges.comp (t := v) (only_blend _) (taken_changes s f arrival) (ds := [.port,
        .claims, .blend]))
        (ds := [.draw, .valve, .port, .claims, .blend]))⟩
    exact hstat.takenAlone (by rw [HandedAlone, show (evaluateStage e).port = _ from heval.get .port]; rfl)
  case part1 =>
    obtain ⟨t, hexec, hblend, hrest⟩ := finalPart_flowing hold hkind (.inl htag) hlead hsource hsequence hflowing
    refine ⟨t, hexec, hblend.trans ?_, hrest⟩
    simp only [finalPartEntered, htag, if_true]
    rfl
  case part2 =>
    obtain ⟨t, hexec, hblend, hrest⟩ := finalPart_flowing hold hkind (.inr htag) hlead hsource hsequence hflowing
    refine ⟨t, hexec, hblend.trans ?_, hrest⟩
    simp only [finalPartEntered, htag]
    rfl
  case wait =>
    set u := waitEnded (passTo due s) with hu
    have hnext : blendWaitOver (passTo due s) = u := tryAssemble_of_not_final (s := u) hcurrent hfinal
    have hexec := exec_expiry_same (i := .blendWaitExpiry) (s := s) (g := blendWaitOver) (due := due)
      (by rw [exec, execBlendWaitExpiry]) hpower (by rw [hlead]; exact hdue)
      (by rw [hnext]; exact page0State_congr rfl rfl rfl rfl rfl rfl rfl rfl)
    rw [hnext] at hexec
    exact ⟨u, hexec, rfl, waitEnded_blend (s := passTo due s) hlead, (only_blend _).comp (passTo_only due s)⟩
  case lag =>
    have hprogress : isProgress false s f = true := by simp [isProgress, hkind, htag, hunbound]
    obtain ⟨t, hexec, hstat⟩ :=
      exec_take (i := .takeProgFollowerReport) (by rw [exec, execTakeProgFollowerReport]) hold hprogress
    set v := taken s f arrival with hv
    set e := lagEntered (decodeFollowerReport f) l v with he
    have hlast' : l.lastLag = some (previous : Int) := hlast
    rw [followerReportTaken_flowing (s := v) hlead hsource hsequence hflowing, hlast'] at hstat
    have heval := evaluateStage_only e
    have hedraw : (evaluateStage e).draw = _ := evaluateStage_draw (s := e) hflowing hcurrent
    have hev : OnlyChanges [.draw, .valve, .port, .claims, .blend] s (evaluateStage e) :=
      heval.comp (OnlyChanges.comp (t := v) (only_blend _) (taken_changes s f arrival) (ds := [.port, .claims, .blend]))
    have habort : abortsAt v.cfg (decodeFollowerReport f).2 (some (previous : Int)) = true ↔
        4 * (s.cfg.blendWindow : Int) < (decodeFollowerReport f).2 ∧ (previous : Int) < (decodeFollowerReport f).2 := by
      rw [abortsAt, Bool.and_eq_true, decide_eq_true_iff, decide_eq_true_iff]
      rfl
    by_cases h : 4 * (s.cfg.blendWindow : Int) < (decodeFollowerReport f).2 ∧ (previous : Int) < (decodeFollowerReport f).2
    · rw [if_pos (habort.2 h), suspend_from_flow _ (.inr (by rw [hedraw]; exact hflowing))] at hstat
      set g : Current → Current := fun c => { c with causes := raiseLatch .blendLag c.causes } with hg
      have hleft := leaveFlow_only .suspended g (evaluateStage e)
      have hdraw : t.draw = { s.draw with
          state := .suspended
          current := some (leftRecord (evaluateStage e).time g { c with lastRequest := wantedStage e c }) } := by
        rw [show t.draw = _ from hstat.only.get .draw, leaveFlow_draw, hedraw]
        rfl
      have hblend : t.blend = _ := (hstat.only.get .blend).trans (leaveFlow_blend .suspended g (evaluateStage e))
      refine ⟨t, _, hexec, ?_, fun _ => ⟨hdraw, rfl, hblend.trans ?_⟩, fun hnot => absurd h hnot, ?_⟩
      · exact (hstat.only.get .claims).trans ((hleft.get .claims).trans (heval.get .claims))
      · rw [clearThrottle, show (evaluateStage e).blend = e.blend from heval.get .blend]
        rfl
      · exact hstat.only.comp (hleft.comp hev (ds := [.draw, .valve, .port, .claims, .blend, .journal]))
    · rw [if_neg (fun hab => h (habort.1 hab))] at hstat
      refine ⟨t, { c with lastRequest := wantedStage e c }, hexec, ?_, fun hyes => absurd hyes h, fun _ => ⟨?_, rfl⟩, ?_⟩
      · exact (hstat.only.get .claims).trans (heval.get .claims)
      · exact (hstat.only.get .draw).trans hedraw
      · exact (hstat.only.comp hev (ds := [.draw, .valve, .port, .claims, .blend])).mono (by decide)
  case last =>
    obtain ⟨t, hexec, hstat⟩ := exec_finalPart hold hkind (.inr htag) hlead hsource hsequence (by rw [hclosing]; rfl)
    set e := finalPartEntered f l (taken s f arrival) with he
    have helead : e.blend.lead = some { l with part2 := some (decodeFinalDetails f) } := by
      simp only [he, finalPartEntered, htag]
      rfl
    have hpart : assemblePart b e.blend.lead v.net =
        some (partFromReport b { l with part2 := some (decodeFinalDetails f) } p1 (decodeFinalDetails f) v.net) := by
      rw [helead]
      simp only [assemblePart, hp1]
    rw [tryAssemble_assembled (s := e) hclosing hsel hblend hcurrent hfinal hpart hflight, partFromReport_eq] at hstat
    obtain ⟨hdraw, hown, hlead', hitem, hrelease, honly⟩ := assembled_completes (s := e) _ hdrop hflight hstat
    have htaken : OnlyChanges [.port, .claims, .blend] s e :=
      OnlyChanges.comp (t := taken s f arrival) (only_blend _) (taken_changes s f arrival) (ds := [.port, .claims, .blend])
    exact ⟨t, hexec, hdraw, hown, hlead', hitem, hrelease, honly.comp htaken⟩
  case expired =>
    obtain ⟨t, hexec, hstat⟩ := exec_expiry (i := .blendWaitExpiry) (s := s) (g := blendWaitOver) (due := due)
      (by rw [exec, execBlendWaitExpiry]) hpower (by rw [hlead]; exact hdue)
    set e := waitEnded (passTo due s) with he
    have helead : e.blend.lead = some { l with waitDue := none, waitOver := true } :=
      congrArg Blend.lead (waitEnded_blend (s := passTo due s) hlead)
    have hpart : assemblePart b e.blend.lead v.net =
        some (partFromReports b (some { l with waitDue := none, waitOver := true }) v.net) := by
      rw [helead]
      cases l.part1 <;> simp only [assemblePart, hp2, if_true]
    rw [show blendWaitOver (passTo due s) = tryAssemble e from rfl,
      tryAssemble_assembled (s := e) hclosing hsel hblend hcurrent hfinal hpart hflight] at hstat
    obtain ⟨hdraw, hown, hlead', hitem, hrelease, honly⟩ := assembled_completes (s := e) _ hdrop hflight hstat
    have htime : t.time = later s.time due := by
      exact (hstat.only.get .time).trans ((assembled_only sel c v _ (s := e) hflight).get .time)
    exact ⟨t, hexec, htime, hdraw, hown, hlead', hitem, hrelease,
      honly.comp (OnlyChanges.comp (t := passTo due s) (only_blend _) (passTo_only due s) (ds := [.time, .blend]))⟩

end Sys2Proof.Machine
end

