-- ==== Sys2Proof/Proofs/StartOfDraw.lean ====
section
/-! PROOFS. Chapter 3: a START that passes every check queues its CLAIM (R44, R113, R162). -/

namespace Sys2Proof.Machine

set_option Elab.async false

section
variable {s : State} {f : Frame} {arrival : Nat} {sel : Selection} {a : Asker}

/-! ### The start permissive (R44) -/

theorem checkComps_handler (h : Handler) (s : State) (l : List (Nat × Nat)) :
    checkComps { s with handler := h } l = checkComps s l := by
  have howners : ∀ n, compOwners { s with handler := h } n = compOwners s n := fun _ => rfl
  induction l with
  | nil => rfl
  | cons x l ih => simp only [checkComps, howners, ih]

/-- The checks of START see nothing of the handler. -/
theorem localChecks_handler (h : Handler) (s : State) (sel : Selection) :
    localChecks { s with handler := h } sel (buildClaim { s with handler := h } sel) =
      localChecks s sel (buildClaim s sel) := by
  unfold localChecks
  rw [checkComps_handler]
  rfl

theorem codeCompensated_good (hgood : ∀ p ∈ s.cfg.products, p.code = sel.product → p.compensated = true → s.engine.probe = .good)
    (h : codeCompensated s.cfg sel.product = true) : s.engine.probe = .good := by
  cases hproduct : productOf s.cfg sel.product with
  | none => rw [codeCompensated, hproduct] at h; cases h
  | some p =>
    rw [codeCompensated, hproduct] at h
    exact hgood p (List.mem_of_find?_eq_some hproduct) (by simpa using List.find?_some hproduct) h

theorem recordOpen_of {d : Drop} {k : Ticket} (hdrop : s.draw.drop = some d)
  (hticket : ticketOf s.journal.mem d.ticket = some k)
    (hopen : k.state = .opened) : recordOpen s = true := by
  simp [recordOpen, hdrop, hticket, hopen]

theorem startRefused_of_permissive (hrun : s.station.state = .running) (hrebuild : s.claims.rebuildDue = none)
    (hhalt : s.valve.halt = .clear) (hready : s.draw.state = .ready) (hunbound : s.blend.follower = .unbound)
    (hreel : s.inputs.reelStowed = false) (hlatch : s.pulse.faultLatch = false) (hsel : s.draw.selection = some sel)
    (hgood : ∀ p ∈ s.cfg.products, p.code = sel.product → p.compensated = true → s.engine.probe = .good)
    (hrecord : recordOpen s = true) : startRefused s = none := by
  have htemp : ¬(codeCompensated s.cfg sel.product = true ∧ s.engine.probe ≠ .good) :=
    fun ⟨hcode, hbad⟩ => hbad (codeCompensated_good hgood hcode)
  have htemp' : ¬(((s.draw.selection.map (fun sel => codeCompensated s.cfg sel.product)).getD false) = true ∧
      s.engine.probe ≠ .good) := by rw [hsel]; exact htemp
  rw [startRefused, if_neg (by rw [hrun]; decide), if_neg (by rw [hrebuild]; decide), if_neg (by rw [hhalt]; decide),
    if_neg (by rw [hready, hunbound]; decide), if_neg (by rw [hreel]; decide), if_neg (by rw [hlatch]; decide),
    if_neg htemp', if_neg (by rw [hrecord]; decide)]

/-! ### The CLAIM is queued (R113, R162) -/

/-- The part in CLAIMING, its CLAIM in the transmit queue and its START deferred. -/
def drawStarted (a : Asker) (sel : Selection) (c : Claim) (s : State) : State :=
  { drawReadied sel s with
    port := { s.port with tx := txInsert ⟨claimFrame c, .claimUnit, false⟩ s.port.tx }
    draw := { s.draw with state := .claiming, current := some (newDraw s sel) }
    claims := { s.claims with nextSequence := nextSequence s.claims.nextSequence, own := some (queuedClaim s c) }
    blend := { s.blend with lead := newLead c }
    handler := { s.handler with deferred := some a } }

theorem startDraw_of_room (c : Claim) (hrun : s.station.state = .running) (hroom : RoomFor 1 s) :
    startDraw a sel c s = drawStarted a sel c s := by
  rw [startDraw_eq, handFrame_of_room (s := drawReadied sel s) _ _ hrun hroom]
  rfl

theorem drawStarted_only (a : Asker) (sel : Selection) (c : Claim) (s : State) :
    OnlyChanges [.engine, .draw, .port, .claims, .blend, .handler] s (drawStarted a sel c s) := by
  intro b hb
  cases b <;> first | exact absurd (by decide) hb | rfl

theorem serveStart_permitted (r : Request) (hpermitted : startRefused s = none) (hsel : s.draw.selection = some sel)
    (hlocal : localChecks s sel (buildClaim s sel) = none) : serveStart a r s = startDraw a sel (buildClaim s sel) s := by
  simp only [serveStart, hpermitted, hsel, hlocal]

theorem queuedClaim_awaited (s : State) (c : Claim) : ∀ r ∈ (queuedClaim s c).resources, r.status = .awaited := by
  intro r hr
  obtain ⟨x, -, rfl⟩ := List.mem_map.1 hr
  rfl

end

/-- Settles O22. -/
theorem startQueuesClaim : Obligations.StartQueuesClaim := by
  intro s f arrival d k sel hs hrebuild hhalt hready hunbound hreel hlatch hsel hgood hdrop hticket hopen hlocal hroom
  have hrun := hs.running
  set v := asked s f arrival with hv
  have hpermitted : startRefused v = none :=
    startRefused_of_permissive (s := v) hrun hrebuild hhalt hready hunbound hreel hlatch hsel hgood
      (recordOpen_of (s := v) hdrop hticket hopen)
  have hlocal' : localChecks v sel (buildClaim v sel) = none := (localChecks_handler _ _ sel).trans hlocal
  have hbody : takeRequest 3 serveStart s = drawStarted (askerOf f) sel (buildClaim v sel) v := by
    rw [takeRequest_served hs, serveStart_permitted (s := v) _ hpermitted hsel hlocal',
      startDraw_of_room (s := v) _ hrun hroom]
  have hstat := announce_statAfter (takeRequest 3 serveStart) s
  have hexec := exec_served (i := .start) rfl hs
  set t := announce (takeRequest 3 serveStart) s with ht
  rw [hbody] at hstat
  have honly := (drawStarted_only (askerOf f) sel (buildClaim v sel) v).comp (asked_only s f arrival)
    (ds := [.engine, .draw, .port, .claims, .blend, .handler])
  have hclaims : t.claims = _ := hstat.only.get .claims
  have hhandler : t.handler = _ := hstat.only.get .handler
  have hengine : t.engine = _ := hstat.only.get .engine
  refine ⟨t, newDraw v sel, queuedClaim v (buildClaim v sel), hexec, hstat.only.get .draw, rfl, rfl, rfl,
    by rw [hclaims]; rfl, rfl,
    rfl, queuedClaim_awaited v _, rfl, ?_, by rw [hhandler]; rfl, ?_, by rw [hengine]; rfl, by rw [hengine]; rfl,
    by rw [hengine]; rfl, by rw [hclaims]; rfl, hstat.only.comp honly⟩
  · exact hstat.queued (by rw [show kindOf (claimFrame _).id = kClaim from kindOf_identOf _ _ _ _]; decide)
      (queued_of_txInsert (s := drawStarted (askerOf f) sel (buildClaim v sel) v) rfl)
  · rw [Entered, hhandler]; rfl

end Sys2Proof.Machine
end

