-- ==== Sys2Proof/Proofs/PulseFaults.lean ====
section
/-! PROOFS. Chapter 1: phase errors and lone edges raise PULSE_FAULT above their limits (R12 to R14, R63). -/

namespace Sys2Proof.Machine

set_option Elab.async false

/-! ### Reactions of which there is one, or none -/

theorem runAnyOrder_singleton (f : State → State) (s : State) :
    runAnyOrder [f] s = f { s with freeIndex := s.freeIndex + 1 } := by
  have horder : anyOrder s.freeIndex [f] = [f] := List.perm_singleton.1 (anyOrder_perm _ _)
  rw [runAnyOrder, horder]
  rfl

theorem runAnyOrder_nil (s : State) : runAnyOrder [] s = { s with freeIndex := s.freeIndex + 1 } := by
  have horder : anyOrder s.freeIndex ([] : List (State → State)) = [] := List.perm_nil.1 (anyOrder_perm _ _)
  rw [runAnyOrder, horder]
  rfl

/-! ### The checks of a transition (R12, R13) -/

section
variable {cfg : Cfg} {now : Nat} {a b : Bool} {p : Pulse}

/-- The pulse counter with the levels of a transition in the filters and the decoder. -/
def levelsMoved (a b : Bool) (p : Pulse) : Pulse := { p with filteredA := a, filteredB := b, decoderA := a, decoderB := b }

theorem edgeOf_phaseError {a b a' b' : Bool} (ha : a' ≠ a) (hb : b' ≠ b) : edgeOf a b a' b' = .phaseError := by
  revert a b a' b'; decide

/-- Both channels change at once: a phase error, checked against its limit. -/
theorem takeTransition_phaseError (ha : a ≠ p.decoderA) (hb : b ≠ p.decoderB) :
    takeTransition cfg now a b p =
      ((takePhaseError cfg.phaseLimit (levelsMoved a b p)).1, ⟨none,
        (takePhaseError cfg.phaseLimit (levelsMoved a b p)).2⟩) := by
  simp only [takeTransition, edgeOf_phaseError ha hb]
  rfl

/-- The pulse counter once a transition's count has been taken. -/
def countTaken (cfg : Cfg) (now : Nat) (a b : Bool) (p : Pulse) : Pulse × Option Point :=
  takeCount now (countOfEdge cfg.countMode p.decoderA p.decoderB a b) (levelsMoved a b p)

theorem edgeOf_lone {a b a' b' : Bool} (h : a' ≠ a ∧ b' = b ∨ a' = a ∧ b' ≠ b) :
    edgeOf a b a' b' = .forward ∨ edgeOf a b a' b' = .reverse := by
  revert a b a' b'; decide

/-- One channel changes: its count is taken, and the edge is checked against the lone-edge limit. -/
theorem takeTransition_lone (h : a ≠ p.decoderA ∧ b = p.decoderB ∨ a = p.decoderA ∧ b ≠ p.decoderB) :
    takeTransition cfg now a b p =
      ((takeLoneEdge cfg.loneLimit (p.decoderA != a) (countTaken cfg now a b p).1).1,
        ⟨(countTaken cfg now a b p).2, (takeLoneEdge cfg.loneLimit (p.decoderA != a) (countTaken cfg now a b p).1).2⟩) := by
  obtain hedge | hedge := edgeOf_lone h <;> simp only [takeTransition, hedge] <;> rfl

/-- A count leaves the session, the lone-edge counters and the latch, and a comparator that is not armed signals
nothing. -/
structure CountKeeps (p : Pulse) (r : Pulse × Option Point) : Prop where
  session : r.1.session = p.session
  loneA : r.1.loneA = p.loneA
  loneB : r.1.loneB = p.loneB
  latch : r.1.faultLatch = p.faultLatch
  signal : p.target = none → r.2 = none

theorem matchTarget_keeps {q : Pulse} (hsession : q.session = p.session) (hA : q.loneA = p.loneA) (hB : q.loneB = p.loneB)
    (hlatch : q.faultLatch = p.faultLatch) (htarget : q.target = p.target) : CountKeeps p (matchTarget q) := by
  unfold matchTarget
  split
  · next t ht =>
    have harmed : p.target ≠ none := by rw [← htarget, ht]; exact nofun
    split
    · exact ⟨hsession, hA, hB, hlatch, fun h => absurd h harmed⟩
    · exact ⟨hsession, hA, hB, hlatch, fun _ => rfl⟩
  · exact ⟨hsession, hA, hB, hlatch, fun _ => rfl⟩

theorem addCount_keeps (now : Nat) (n : Int) (p : Pulse) :
    (addCount now n p).session = p.session ∧ (addCount now n p).loneA = p.loneA ∧ (addCount now n p).loneB = p.loneB ∧
      (addCount now n p).faultLatch = p.faultLatch ∧ (addCount now n p).target = p.target := by
  unfold addCount
  split <;> exact ⟨rfl, rfl, rfl, rfl, rfl⟩

theorem windowCount_keeps (p : Pulse) :
    (windowCount p).session = p.session ∧ (windowCount p).loneA = p.loneA ∧ (windowCount p).loneB = p.loneB ∧
      (windowCount p).faultLatch = p.faultLatch ∧ (windowCount p).target = p.target := by
  unfold windowCount
  split
  · split <;> exact ⟨rfl, rfl, rfl, rfl, rfl⟩
  · exact ⟨rfl, rfl, rfl, rfl, rfl⟩

theorem takeCount_keeps (now : Nat) (n : Int) (p : Pulse) : CountKeeps p (takeCount now n p) := by
  obtain ⟨hsession, hA, hB, hlatch, htarget⟩ := addCount_keeps now n p
  obtain ⟨hsession', hA', hB', hlatch', htarget'⟩ := windowCount_keeps (addCount now n p)
  unfold takeCount
  split
  · exact ⟨rfl, rfl, rfl, rfl, fun _ => rfl⟩
  · split
    · exact matchTarget_keeps (hsession'.trans hsession) (hA'.trans hA) (hB'.trans hB) (hlatch'.trans hlatch)
        (htarget'.trans htarget)
    · exact ⟨hsession, hA, hB, hlatch, fun _ => rfl⟩

theorem countTaken_keeps (cfg : Cfg) (now : Nat) (a b : Bool) (p : Pulse) : CountKeeps p (countTaken cfg now a b p) := by
  obtain ⟨hsession, hA, hB, hlatch, hsignal⟩ := takeCount_keeps now (countOfEdge cfg.countMode p.decoderA p.decoderB a b)
    (levelsMoved a b p)
  exact ⟨hsession, hA, hB, hlatch, hsignal⟩

theorem takePhaseError_above {limit : Nat} (hsession : p.session.isSome = true) (h : limit < p.windowErrors + 1) :
    takePhaseError limit p = ({ p with windowErrors := 0, windowForward := 0, loneA := 0, loneB := 0 }, true) := by
  rw [takePhaseError, if_pos hsession, if_pos h]

/-- The lone-edge counter of a channel. -/
def loneOf (onA : Bool) (p : Pulse) : Nat := if onA then p.loneA else p.loneB

theorem takeLoneEdge_above {limit : Nat} {onA : Bool} (hsession : p.session.isSome = true) (h : limit < loneOf onA p + 1) :
    takeLoneEdge limit onA p = ({ p with loneA := 0, loneB := 0 }, true) := by
  cases onA with
  | true => rw [takeLoneEdge, if_pos hsession, if_pos rfl]; exact if_pos h
  | false => rw [takeLoneEdge, if_pos hsession, if_neg Bool.false_ne_true]; exact if_pos h

theorem takeLoneEdge_below {limit : Nat} {onA : Bool} (hsession : p.session.isSome = true) (h : loneOf onA p + 1 ≤ limit) :
    takeLoneEdge limit onA p =
      (if onA then { p with loneA := p.loneA + 1, loneB := 0 } else { p with loneA := 0, loneB := p.loneB + 1 },
        false) := by
  cases onA with
  | true => rw [takeLoneEdge, if_pos hsession, if_pos rfl]; exact if_neg (Nat.not_lt.2 h)
  | false => rw [takeLoneEdge, if_pos hsession, if_neg Bool.false_ne_true]; exact if_neg (Nat.not_lt.2 h)

end

/-! ### PULSE_FAULT (R14, R63) -/

section
variable {s : State} {c : Current} {a b : Bool} {p : Pulse}

/-- The part whose latch is set. -/
def latchSet (s : State) : State := { s with pulse := { s.pulse with faultLatch := true } }

theorem raisePulseFault_draw (hlatch : s.pulse.faultLatch = false) (hsession : s.pulse.session = some .draw) :
    raisePulseFault s = enterClosing .pulseFault (latchSet s) := by
  rw [raisePulseFault, if_neg (by rw [hlatch]; decide), latchSet]
  simp only [hsession]

/-- The part that takes a transition, its levels at the pins. -/
def pulserMoved (a b : Bool) (s : State) : State := setPins (fun p => { p with pulserA := a, pulserB := b }) s

/-- A transition that raises PULSE_FAULT in FLOWING closes the draw. -/
theorem exec_transition_faulted (hop : operating s = true)
    (htaken : takeTransition s.cfg s.time a b s.pulse = (p, ⟨none, true⟩)) (hsession : p.session = some .draw)
    (hlatch : p.faultLatch = false) (hflowing : s.draw.state = .flowing) (hcurrent : s.draw.current = some c) :
    ∃ t c', exec (.pulserTransition a b) s = .next t ∧ t.pulse = { p with faultLatch := true } ∧
      t.draw = { s.draw with state := .closing, current := some c' } ∧ c'.ending = some .pulseFault ∧
      c'.stageAtClose = some (stageOf s.valve.stage) ∧
      OnlyChanges [.pins, .pulse, .draw, .valve, .port, .blend, .journal, .freeIndex] s t := by
  have hexec := exec_pulserTransition a b s hop
  have hstat := announce_statAfter (transition a b) (pulserMoved a b s)
  set w : State := { pulserMoved a b s with pulse := p, freeIndex := s.freeIndex + 1 } with hw
  have hraised : transition a b (pulserMoved a b s) = enterClosing .pulseFault (latchSet w) := by
    have htaken' : takeTransition (pulserMoved a b s).cfg (pulserMoved a b s).time a b (pulserMoved a b s).pulse =
        (p, ⟨none, true⟩) := htaken
    rw [transition, htaken']
    exact (runAnyOrder_singleton raisePulseFault _).trans (raisePulseFault_draw (s := w) hlatch hsession)
  rw [hraised] at hstat
  have hdraw := enterClosing_draw (s := latchSet w) .pulseFault (.inr (.inl hflowing))
  have hclosed := enterClosing_only .pulseFault (latchSet w)
  have hwonly : OnlyChanges [.pins, .pulse, .freeIndex] s (latchSet w) :=
    (only_pulse _).comp (OnlyChanges.comp (t := pulserMoved a b s) (only_pulse_freeIndex _ _) (setPins_only _ s)
      (ds := [.pins, .pulse, .freeIndex]))
  refine ⟨_, leftRecord w.time (closingRecord .pulseFault (latchSet w)) c, hexec, ?_, ?_, rfl, rfl, ?_⟩
  · exact (hstat.only.get .pulse).trans (hclosed.get .pulse)
  · refine (hstat.only.get .draw).trans (hdraw.trans ?_)
    rw [show (latchSet w).draw.current = some c from hcurrent]
    rfl
  · exact hstat.only.comp (hclosed.comp hwonly (ds := [.pins, .pulse, .draw, .valve, .port, .blend, .journal, .freeIndex]))

/-- A transition without events moves the pulse counter alone. -/
theorem exec_transition_quiet (hop : operating s = true)
    (htaken : takeTransition s.cfg s.time a b s.pulse = (p, ⟨none, false⟩)) (hlatch : p.faultLatch = s.pulse.faultLatch) :
    ∃ t, exec (.pulserTransition a b) s = .next t ∧ t.pulse = p ∧ OnlyChanges [.pins, .pulse, .freeIndex] s t := by
  set w : State := { pulserMoved a b s with pulse := p, freeIndex := s.freeIndex + 1 } with hw
  have hquiet : transition a b (pulserMoved a b s) = w := by
    have htaken' : takeTransition (pulserMoved a b s).cfg (pulserMoved a b s).time a b (pulserMoved a b s).pulse =
        (p, ⟨none, false⟩) := htaken
    rw [transition, htaken']
    exact runAnyOrder_nil _
  have hsame : page0State (transition a b (pulserMoved a b s)) = page0State s := by
    rw [hquiet]; exact page0State_congr rfl rfl rfl rfl rfl hlatch rfl rfl
  have hexec := exec_operating_same (i := .pulserTransition a b) (s := s) (g := transition a b)
    (f := fun p => { p with pulserA := a, pulserB := b }) (by rw [exec, execPulserTransition]) hop hsame
  rw [show setPins (fun p => { p with pulserA := a, pulserB := b }) s = pulserMoved a b s from rfl, hquiet] at hexec
  exact ⟨w, hexec, rfl, OnlyChanges.comp (t := pulserMoved a b s) (only_pulse_freeIndex _ _) (setPins_only _ s)⟩

/-- A lone edge below its limit counts up its channel's counter alone. -/
theorem exec_lone_below (hop : operating s = true) (hsession : s.pulse.session.isSome = true) (htarget : s.pulse.target = none)
    (hlone : a ≠ s.pulse.decoderA ∧ b = s.pulse.decoderB ∨ a = s.pulse.decoderA ∧ b ≠ s.pulse.decoderB)
    (hlimit : loneOf (s.pulse.decoderA != a) s.pulse + 1 ≤ s.cfg.loneLimit) :
    ∃ t, exec (.pulserTransition a b) s = .next t ∧
      t.pulse.loneA = (if s.pulse.decoderA != a then s.pulse.loneA + 1 else 0) ∧
      t.pulse.loneB = (if s.pulse.decoderA != a then 0 else s.pulse.loneB + 1) ∧
      t.pulse.faultLatch = s.pulse.faultLatch ∧ OnlyChanges [.pins, .pulse, .freeIndex] s t := by
  obtain ⟨hkept, hA, hB, hlatch, hsignal⟩ := countTaken_keeps s.cfg s.time a b s.pulse
  have hlimit' : loneOf (s.pulse.decoderA != a) (countTaken s.cfg s.time a b s.pulse).1 + 1 ≤ s.cfg.loneLimit := by
    rw [loneOf, hA, hB]; exact hlimit
  have htaken := takeTransition_lone (cfg := s.cfg) (now := s.time) hlone
  rw [takeLoneEdge_below (by rw [hkept]; exact hsession) hlimit', hsignal htarget] at htaken
  obtain ⟨t, hexec, hpulse, honly⟩ := exec_transition_quiet hop htaken (by split <;> exact hlatch)
  refine ⟨t, hexec, ?_, ?_, ?_, honly⟩
  · rw [hpulse]; split <;> simp [hA]
  · rw [hpulse]; split <;> simp [hB]
  · rw [hpulse]; split <;> exact hlatch

end

/-- Settles O11: a phase error, a lone edge above its limit and one below it. -/
theorem phaseErrorAboveLimitEndsDraw : Obligations.PhaseErrorAboveLimitEndsDraw := by
  refine ⟨fun a b s c hop hsession hflowing hcurrent hlatch ha hb hlimit => ?phase,
    fun a b s c hop hsession htarget hflowing hcurrent hlatch hlone => ?above, fun a b s hop hsession htarget =>
      ⟨fun ha hb hlimit => ?onA, fun ha hb hlimit => ?onB⟩⟩
  case phase =>
    have htaken := takeTransition_phaseError (cfg := s.cfg) (now := s.time) ha hb
    rw [takePhaseError_above (p := levelsMoved a b s.pulse) (by rw [show (levelsMoved a b s.pulse).session = _ from hsession]; rfl) hlimit]
      at htaken
    exact exec_transition_faulted hop htaken hsession hlatch hflowing hcurrent
  case above =>
    have hedge : a ≠ s.pulse.decoderA ∧ b = s.pulse.decoderB ∨ a = s.pulse.decoderA ∧ b ≠ s.pulse.decoderB :=
      hlone.imp (fun ⟨ha, hb, _⟩ => ⟨ha, hb⟩) (fun ⟨ha, hb, _⟩ => ⟨ha, hb⟩)
    obtain ⟨hkept, hA, hB, hlatch', hsignal⟩ := countTaken_keeps s.cfg s.time a b s.pulse
    have hlimit : s.cfg.loneLimit < loneOf (s.pulse.decoderA != a) (countTaken s.cfg s.time a b s.pulse).1 + 1 := by
      obtain ⟨ha, -, hlimit⟩ | ⟨ha, -, hlimit⟩ := hlone
      · rw [loneOf, if_pos (bne_iff_ne.2 ha.symm), hA]; exact hlimit
      · rw [loneOf, if_neg (by rw [ha]; simp), hB]; exact hlimit
    have htaken := takeTransition_lone (cfg := s.cfg) (now := s.time) hedge
    rw [takeLoneEdge_above (by rw [hkept, hsession]; rfl) hlimit, hsignal htarget] at htaken
    obtain ⟨t, c', hexec, hpulse, hrest⟩ :=
      exec_transition_faulted hop htaken (hkept.trans hsession) (hlatch'.trans hlatch) hflowing hcurrent
    exact ⟨t, c', hexec, by rw [hpulse], by rw [hpulse], by rw [hpulse], hrest⟩
  case onA =>
    have hA : (s.pulse.decoderA != a) = true := bne_iff_ne.2 ha.symm
    have h := exec_lone_below hop hsession htarget (.inl ⟨ha, hb⟩) (by rw [loneOf, hA]; exact hlimit)
    rw [hA] at h
    exact h
  case onB =>
    have hA : (s.pulse.decoderA != a) = false := by rw [ha]; exact bne_self_eq_false _
    obtain ⟨t, hexec, hloneA, hloneB, hrest⟩ := exec_lone_below hop hsession htarget (.inr ⟨ha, hb⟩)
      (by rw [loneOf, hA]; exact hlimit)
    rw [hA] at hloneA hloneB
    exact ⟨t, hexec, hloneB, hloneA, hrest⟩

end Sys2Proof.Machine
end

