-- ==== Sys2Proof/Proofs/UpdateReactions.lean ====
section
/-! PROOFS. Chapter 2: what the owner of a session does with the results of a metering update leaves the volumes, the pulse
counter and the journal memory as the update left them, in whichever order it comes (R21, log 4). -/

namespace Sys2Proof.Machine

set_option Elab.async false

/-! ### The journal memory -/

section
variable {s t : State} {bs : List Block}

theorem mem_of_only (h : OnlyChanges bs s t) (hjournal : Block.journal ∉ bs := by decide) :
    t.journal.mem = s.journal.mem := by
  rw [show t.journal = s.journal from h.get .journal hjournal]

theorem followerChanged_mem (s : State) : (followerChanged s).journal.mem = s.journal.mem :=
  (mem_of_only (sendFollowerProg_only _)).trans (handWork_mem _ s)

theorem suspend_mem (raise : Causes → Causes) (s : State) : (suspend raise s).journal.mem = s.journal.mem := by
  unfold suspend
  split
  · exact leaveFlow_mem _ _ s
  · exact leaveFlow_mem _ _ s
  · rfl
  · rfl

theorem enterClosing_mem (e : Ending) (s : State) : (enterClosing e s).journal.mem = s.journal.mem := by
  by_cases h : s.draw.state = .priming ∨ s.draw.state = .flowing ∨ s.draw.state = .suspended
  · obtain ⟨b, hleft⟩ := enterClosing_leaves_flow e h
    rw [hleft]
    exact leaveFlow_mem _ _ s
  · rw [enterClosing, if_neg h]

theorem signalPoint_mem (p : Point) (s : State) : (signalPoint p s).journal.mem = s.journal.mem := by
  cases p with
  | slowdown => exact (mem_of_only (evaluateStage_only _)).trans rfl
  | close =>
    by_cases h : s.draw.state = .flowing
    · rw [signalPoint, if_pos h]; exact enterClosing_mem _ s
    · rw [signalPoint, if_neg h]

theorem drawTempEvent_mem (e : TempEvent) (s : State) : (drawTempEvent e s).journal.mem = s.journal.mem := by
  cases e with
  | expiry => exact suspend_mem _ s
  | restoration => exact mem_of_only (clearCause_only .tempFault s)

theorem superviseOverspeed_mem (s : State) : (superviseOverspeed s).journal.mem = s.journal.mem := by
  unfold superviseOverspeed
  split
  · split
    · simp only
      split
      · exact suspend_mem _ _
      · rfl
    · rfl
  · rfl

theorem superviseReverse_mem (s : State) : (superviseReverse s).journal.mem = s.journal.mem := by
  unfold superviseReverse
  split
  · exact enterClosing_mem _ s
  · rfl

theorem drawUpdate_mem (r : Results) (s : State) : (drawUpdate r s).journal.mem = s.journal.mem := by
  set t := modCurrent (updateMarks s) s with ht
  have hworked : (if r.crossing then checkpoint t else t).journal.mem = s.journal.mem := by
    split
    · exact handWork_mem _ t
    · rfl
  have hreacted : ∀ u, (runAnyOrder (drawReactions r u) u).journal.mem = u.journal.mem := fun u =>
    runAnyOrder_keeps (fun x => x.journal.mem) _ _ rfl fun f hf x => by
      obtain ⟨e, rfl⟩ | rfl | rfl | ⟨p, rfl⟩ := mem_drawReactions hf
      · exact drawTempEvent_mem e x
      · exact superviseOverspeed_mem x
      · exact superviseReverse_mem x
      · exact signalPoint_mem p x
  exact (mem_of_only (evaluateStage_only _)).trans ((hreacted _).trans ((mem_of_only
    (sendLeadProg_only _ _)).trans hworked))

theorem enterHold_mem (s : State) : (enterHold s).journal.mem = s.journal.mem :=
  (followerChanged_mem _).trans ((mem_of_only (requestFollower_only _ _)).trans rfl)

theorem raiseHold_mem (r : HoldReason) (s : State) : (raiseHold r s).journal.mem = s.journal.mem := by
  unfold raiseHold
  split
  · exact enterHold_mem _
  · exact enterHold_mem _
  · rfl
  · rfl

theorem leaveHold_mem (s : State) : (leaveHold s).journal.mem = s.journal.mem := by
  unfold leaveHold
  split
  · split
    · split
      · exact followerChanged_mem _
      · split
        · exact followerChanged_mem _
        · rfl
    · rfl
  · rfl

theorem dropHold_mem (r : HoldReason) (s : State) : (dropHold r s).journal.mem = s.journal.mem := by
  unfold dropHold
  split
  · simp only
    split
    · exact leaveHold_mem _
    · rfl
  · rfl

theorem enterFClose_mem (c : EndCode) (s : State) : (enterFClose c s).journal.mem = s.journal.mem :=
  (followerChanged_mem _).trans ((mem_of_only (requestFollower_only _ _)).trans rfl)

theorem followStage_mem (s : State) : (followStage s).journal.mem = s.journal.mem := by
  unfold followStage
  split
  · simp only
    split
    · rfl
    · exact mem_of_only (requestFollower_only _ _)
  · split
    · exact enterFClose_mem _ s
    · exact mem_of_only (requestFollower_only _ _)
  · rfl

theorem followerTempEvent_mem (e : TempEvent) (s : State) : (followerTempEvent e s).journal.mem = s.journal.mem := by
  cases e with
  | expiry => exact raiseHold_mem _ s
  | restoration => exact dropHold_mem _ s

theorem followerUpdate_mem (r : Results) (s : State) : (followerUpdate r s).journal.mem = s.journal.mem := by
  have hreacted : ∀ u, (runAnyOrder ((r.temp.map followerTempEvent).toList ++ [followStage]) u).journal.mem = u.journal.mem :=
    fun u => runAnyOrder_keeps (fun x => x.journal.mem) _ _ rfl fun f hf x => by
      simp only [List.mem_append, Option.mem_toList, Option.map_eq_some_iff, List.mem_singleton] at hf
      obtain ⟨e, -, rfl⟩ | rfl := hf
      · exact followerTempEvent_mem e x
      · exact followStage_mem x
  unfold followerUpdate
  refine (hreacted _).trans ((mem_of_only (sendFollowerProg_only _)).trans ?_)
  split
  · exact handWork_mem _ _
  · rfl

end

/-! ### The metering context -/

section
variable {s : State}

/-- The engine but for the next point, which alone a signal moves (R33). -/
def measured (s : State) : Engine := { s.engine with ctx := { s.engine.ctx with nextPoint := .close } }

theorem measured_of_engine {t : State} (h : t.engine = s.engine) : measured t = measured s := by rw [measured, h, measured]

theorem signalPoint_engine_slowdown (s : State) :
    (signalPoint .slowdown s).engine = { s.engine with ctx := { s.engine.ctx with nextPoint := .close } } :=
  (evaluateStage_only _).get .engine

theorem signalPoint_engine_close (s : State) : (signalPoint .close s).engine = s.engine := by
  by_cases h : s.draw.state = .flowing
  · rw [signalPoint, if_pos h]; exact (enterClosing_only _ s).get .engine
  · rw [signalPoint, if_neg h]

theorem signalPoint_measured (p : Point) (s : State) : measured (signalPoint p s) = measured s := by
  cases p with
  | slowdown => rw [measured, signalPoint_engine_slowdown, measured]
  | close => exact measured_of_engine (signalPoint_engine_close s)

/-- A reaction that signals no slowdown point leaves the engine. -/
theorem drawReaction_engine {r : Results} {f : State → State} (hf : f ∈ drawReactions r s)
    (hsignals : .slowdown ∉ r.signals) (x : State) : (f x).engine = x.engine := by
  simp only [drawReactions, List.mem_append, Option.mem_toList, Option.map_eq_some_iff, List.mem_map] at hf
  obtain ((⟨e, -, rfl⟩ | hf) | hf) | ⟨p, hp, rfl⟩ := hf
  · exact (drawTempEvent_only e x).get .engine
  · split at hf
    · rw [List.mem_singleton.1 hf]; exact (superviseOverspeed_only x).get .engine
    · exact absurd hf List.not_mem_nil
  · split at hf
    · rw [List.mem_singleton.1 hf]; exact (superviseReverse_only x).get .engine
    · exact absurd hf List.not_mem_nil
  · cases p with
    | slowdown => exact absurd hp hsignals
    | close => exact signalPoint_engine_close x

theorem drawReaction_measured {r : Results} {f : State → State} (hf : f ∈ drawReactions r s) (x : State) :
    measured (f x) = measured x := by
  obtain ⟨e, rfl⟩ | rfl | rfl | ⟨p, rfl⟩ := mem_drawReactions hf
  · exact measured_of_engine ((drawTempEvent_only e x).get .engine)
  · exact measured_of_engine ((superviseOverspeed_only x).get .engine)
  · exact measured_of_engine ((superviseReverse_only x).get .engine)
  · exact signalPoint_measured p x

/-- Once the next point is CLOSE, the reactions keep it so. -/
theorem drawReaction_nextPoint {r : Results} {f : State → State} (hf : f ∈ drawReactions r s) (x : State)
    (h : x.engine.ctx.nextPoint = .close) : (f x).engine.ctx.nextPoint = .close := by
  have hkept : ∀ {y : State}, y.engine = x.engine → y.engine.ctx.nextPoint = .close := fun hy => by rw [hy]; exact h
  obtain ⟨e, rfl⟩ | rfl | rfl | ⟨p, rfl⟩ := mem_drawReactions hf
  · exact hkept ((drawTempEvent_only e x).get .engine)
  · exact hkept ((superviseOverspeed_only x).get .engine)
  · exact hkept ((superviseReverse_only x).get .engine)
  · cases p with
    | slowdown => rw [signalPoint_engine_slowdown]
    | close => exact hkept (signalPoint_engine_close x)

/-- What holds as the reactions begin and is kept by each holds at their end. -/
theorem runAnyOrder_induction {P : State → Prop} {rs : List (State → State)}
    (hstart : P { s with freeIndex := s.freeIndex + 1 }) (hkeeps : ∀ f ∈ rs, ∀ x,
      P x → P (f x)) : P (runAnyOrder rs s) := by
  have fold : ∀ (l : List (State → State)) (x : State), (∀ f ∈ l, f ∈ rs) → P x → P (l.foldl (fun t f => f t) x) := by
    intro l
    induction l with
    | nil => exact fun _ _ h => h
    | cons f l ih =>
      intro x hl hx
      exact ih (f x) (fun g hg => hl g (List.mem_cons_of_mem _ hg)) (hkeeps f (hl f List.mem_cons_self) x hx)
  exact fold _ _ (fun f hf => (anyOrder_perm _ _).mem_iff.1 hf) hstart

/-- What one reaction brings about and every other keeps holds at their end. -/
theorem runAnyOrder_reaches {P : State → Prop} {rs : List (State → State)} {g : State → State} (hg : g ∈ rs)
    (hreaches : ∀ x, P (g x)) (hkeeps : ∀ f ∈ rs, ∀ x, P x → P (f x)) : P (runAnyOrder rs s) := by
  have fold : ∀ (l : List (State → State)) (x : State), (∀ f ∈ l, f ∈ rs) → g ∈ l ∨ P x →
      P (l.foldl (fun t f => f t) x) := by
    intro l
    induction l with
    | nil => exact fun x _ h => h.resolve_left List.not_mem_nil
    | cons f l ih =>
      intro x hl hx
      refine ih (f x) (fun g hg => hl g (List.mem_cons_of_mem _ hg)) ?_
      obtain hmem | hx := hx
      · obtain rfl | hmem := List.mem_cons.1 hmem
        · exact .inr (hreaches x)
        · exact .inl hmem
      · exact .inr (hkeeps f (hl f List.mem_cons_self) x hx)
  exact fold _ _ (fun f hf => (anyOrder_perm _ _).mem_iff.1 hf) (.inl ((anyOrder_perm _ _).mem_iff.2 hg))

/-- The part as the draw's reactions to an update begin. -/
def updateEntered (r : Results) (s : State) : State :=
  sendLeadProg false (if r.crossing then checkpoint (modCurrent (updateMarks s) s) else modCurrent (updateMarks s) s)

theorem drawUpdate_eq (r : Results) (s : State) :
    drawUpdate r s = evaluateStage (runAnyOrder (drawReactions r (updateEntered r s)) (updateEntered r s)) := rfl

theorem updateEntered_only (r : Results) (s : State) : OnlyChanges [.draw, .port, .journal] s (updateEntered r s) := by
  refine (sendLeadProg_only _ _).comp (bs := [.draw, .journal]) ?_
  exact .ite ((handWork_only _ _).comp (modCurrent_only _ _)) ((modCurrent_only _ _).mono (by decide))

theorem updateEntered_draw {cur : Current} (r : Results) (hcurrent : s.draw.current = some cur) :
    (updateEntered r s).draw = { s.draw with current := some (updateMarks s cur) } := by
  have hmarked : (modCurrent (updateMarks s) s).draw = { s.draw with current := some (updateMarks s cur) } := by
    rw [modCurrent, hcurrent]; rfl
  rw [updateEntered, show (sendLeadProg false _).draw = _ from (sendLeadProg_only _ _).get .draw]
  split
  · exact ((handWork_only _ _).get .draw).trans hmarked
  · exact hmarked

theorem drawUpdate_engine_of {P : Engine → Prop} (r : Results) (hstart : P s.engine)
    (hkeeps : ∀ f ∈ drawReactions r (updateEntered r s), ∀ x, P x.engine → P (f x).engine) : P (drawUpdate r s).engine := by
  have hentered : (updateEntered r s).engine = s.engine := (updateEntered_only r s).get .engine
  rw [drawUpdate_eq, show (evaluateStage _).engine = _ from (evaluateStage_only _).get .engine]
  exact runAnyOrder_induction (P := fun x => P x.engine) (s := updateEntered r s)
    (by rw [← hentered] at hstart; exact hstart) hkeeps

theorem drawUpdate_measured (r : Results) (s : State) : measured (drawUpdate r s) = measured s :=
  drawUpdate_engine_of (P := fun e => { e with ctx := { e.ctx with nextPoint := .close } } = measured s) r rfl
    fun _ hf x hx => (drawReaction_measured hf x).trans hx

theorem drawUpdate_pulse (r : Results) (s : State) : (drawUpdate r s).pulse = s.pulse := (drawUpdate_only r s).get .pulse

end

end Sys2Proof.Machine
end

