-- ==== Sys2Proof/Proofs/MeteringUpdates.lean ====
section
/-! PROOFS. Chapter 2: a metering update computes its volumes and acts on the stage points (R20 to R34), and a match of the
target count brings its reaction (R11). -/

namespace Sys2Proof.Machine

set_option Elab.async false

/-! ### Steps 2 to 9 (R22 to R32) -/

theorem pushWindow_eq_latestFour (n : Int) (window : List Int) : pushWindow n window = latestFour (window ++ [n]) := by
  rw [pushWindow, latestFour, List.length_append, List.length_singleton]
  split
  · next h => rw [show window.length + 1 - 4 = 0 by omega, List.drop_zero]
  · next h =>
    rw [show window.length + 1 - 4 = window.length - 3 by omega, List.drop_append_of_le_length (by omega)]

theorem rateOf_eq (kn : Nat) (window : List Int) :
    rateOf kn window = min ((max window.sum 0).toNat * 6000 / (kn * window.length)) 65535 := by
  rw [rateOf, List.sum_eq_foldl]

section
variable (now : Nat) (e : Engine) (c : Context)

/-- The temperature step takes the temperature in use, and enters its marks (R26). -/
theorem settleTemp_context :
    ∃ held expiry, (settleTemp now e c).1 = { c with temp := tempInUse e, held := held, expiry := expiry } := by
  unfold settleTemp
  simp only
  split
  · exact ⟨_, _, rfl⟩
  · split
    · exact ⟨_, _, rfl⟩
    · exact ⟨_, c.expiry, rfl⟩

/-- With neither a compensated product nor a hold that has expired, nothing comes of the temperature (R26). -/
theorem settleTemp_quiet (hcompensated : isCompensated c = false) (hexpiry : c.expiry = false) :
    (settleTemp now e c).2 = none := by
  have hholds : holdExpires now e c = false := by rw [holdExpires, hcompensated]; simp
  rw [settleTemp, if_neg (by rw [hholds]; decide), if_neg (by rw [hexpiry]; exact fun h => Bool.false_ne_true h.1)]

end

section
variable {r : ProbeReading} {s : State}

/-- The window, the rate, the meter factor, the temperature in use and the volume correction factor of an update, with the
marks of the temperature step. -/
def updateFactors (r : ProbeReading) (held expiry : Bool) (s : State) : Context :=
  let c := s.engine.ctx
  let window := latestFour (c.window ++ [s.pulse.perUpdate])
  let rate := min ((max window.sum 0).toNat * 6000 / (s.cfg.kn * window.length)) 65535
  let temp := tempInUse (takeReading s.time r s.engine)
  { c with
    window := window, rate := rate, mf := factorAt rate s.cfg.points, temp := temp, held := held, expiry := expiry
    vcf := vcfOf c.product temp }

/-- The metering context after steps 1 to 9. -/
def meteredContext (r : ProbeReading) (s : State) : Context :=
  (meterContext s.cfg s.time s.pulse.perUpdate (takeReading s.time r s.engine) s.engine.ctx).1

theorem meteredContext_eq (r : ProbeReading) (s : State) :
    ∃ held expiry, meteredContext r s = convert ((s.cfg.kn : Int) * 1000) s.pulse.perUpdate (updateFactors r held expiry s) := by
  rw [meteredContext, meterContext]
  simp only
  rw [pushWindow_eq_latestFour, rateOf_eq]
  set window := latestFour (s.engine.ctx.window ++ [s.pulse.perUpdate])
  set rate := min ((max window.sum 0).toNat * 6000 / (s.cfg.kn * window.length)) 65535
  obtain ⟨held, expiry, hsettled⟩ := settleTemp_context s.time (takeReading s.time r s.engine)
    { s.engine.ctx with window := window, rate := rate, mf := factorAt rate s.cfg.points }
  rw [hsettled]
  exact ⟨held, expiry, rfl⟩

/-! ### Step 10 (R33, R34) -/

/-- A pending preset is taken, and the next point moves; no volume does. -/
theorem takePending_context (c : Context) :
    ∃ next, takePending c = { c with preset := c.pending.getD c.preset, pending := none, nextPoint := next } := by
  cases hpending : c.pending with
  | none => exact ⟨c.nextPoint, by rw [takePending, hpending]; cases c; cases hpending; rfl⟩
  | some p => exact ⟨_, by rw [takePending, hpending]; rfl⟩

theorem takePending_of_none {c : Context} (h : c.pending = none) : takePending c = c := by rw [takePending, h]

theorem nextAfter_takePending (signal : Option Point) (c : Context) :
    ∃ next, nextAfter signal (takePending c) =
      { c with preset := c.pending.getD c.preset, pending := none, nextPoint := next } := by
  obtain ⟨next, htaken⟩ := takePending_context c
  rw [htaken, nextAfter]
  split
  · exact ⟨.close, rfl⟩
  · exact ⟨next, rfl⟩

/-- The choice of step 10. -/
def pointChosen (r : ProbeReading) (s : State) : PointChoice :=
  choosePoint (s.draw.state == .flowing) (takePending (meteredContext r s))

/-- The part with steps 1 to 9 done and the next point moved, as the comparator is loaded. -/
def pointMoved (r : ProbeReading) (s : State) : State :=
  { s with
    pulse := { s.pulse with perUpdate := 0 }
    engine := { takeReading s.time r s.engine with
      ctx := nextAfter (pointChosen r s).signal (takePending (meteredContext r s)) } }

theorem loadTarget_pulse (load : Option Point) (s : State) :
    (loadTarget load s).1 = { s with pulse := { s.pulse with target := (loadTarget load s).1.pulse.target } } := by
  unfold loadTarget
  split
  · rfl
  · split
    · rfl
    · simp only
      split <;> rfl

/-- The part as the owner of the session takes the results of its update. -/
def updateDone (r : ProbeReading) (s : State) : State :=
  let t := (loadTarget (pointChosen r s).load (pointMoved r s)).1
  { t with
    engine := { t.engine with
      updateDue := s.engine.updateDue.map (· + Config.updatePeriod), probeDue := some (s.time + Config.updatePeriod) } }

/-- The results of the update. -/
def updateResults (r : ProbeReading) (s : State) : Results := (regularUpdate r s).2

theorem updateResults_signals (r : ProbeReading) (s : State) :
    (updateResults r s).signals =
      (pointChosen r s).signal.toList ++ (loadTarget (pointChosen r s).load (pointMoved r s)).2 := rfl

theorem metered_eq (r : ProbeReading) (s : State) :
    metered r s =
      match s.pulse.session with
      | some .draw => drawUpdate (updateResults r s) (updateDone r s)
      | some .blend => followerUpdate (updateResults r s) (updateDone r s)
      | none => updateDone r s := rfl

theorem updateDone_pulse (r : ProbeReading) (s : State) :
    (updateDone r s).pulse = { s.pulse with
      perUpdate := 0, target := (loadTarget (pointChosen r s).load (pointMoved r s)).1.pulse.target } := by
  change (loadTarget (pointChosen r s).load (pointMoved r s)).1.pulse = _
  rw [loadTarget_pulse]
  rfl

theorem updateDone_engine (r : ProbeReading) (s : State) :
    (updateDone r s).engine = { takeReading s.time r s.engine with
      ctx := nextAfter (pointChosen r s).signal (takePending (meteredContext r s))
      updateDue := s.engine.updateDue.map (· + Config.updatePeriod), probeDue := some (s.time + Config.updatePeriod) } := by
  have hloaded : (loadTarget (pointChosen r s).load (pointMoved r s)).1.engine = (pointMoved r s).engine :=
    (loadTarget_only _ _).get .engine
  rw [updateDone]
  simp only [hloaded]
  rfl

theorem updateDone_only (r : ProbeReading) (s : State) : OnlyChanges [.pulse, .engine] s (updateDone r s) :=
  (only_engine _).comp ((loadTarget_only _ _).comp (OnlyChanges.comp
    (t := { s with pulse := { s.pulse with perUpdate := 0 } }) (only_engine _) (only_pulse _) (ds := [.pulse, .engine]))
    (ds := [.pulse, .engine]))

/-- What the owner of the session does leaves the measure, the pulse counter and the journal memory of the update. -/
theorem metered_keeps_update (r : ProbeReading) (s : State) :
    measured (metered r s) = measured (updateDone r s) ∧ (metered r s).pulse = (updateDone r s).pulse ∧
      (metered r s).journal.mem = s.journal.mem := by
  have hmem : (updateDone r s).journal.mem = s.journal.mem := mem_of_only (updateDone_only r s)
  rw [metered_eq]
  split
  · exact ⟨drawUpdate_measured _ _, drawUpdate_pulse _ _, (drawUpdate_mem _ _).trans hmem⟩
  · have hupdate := followerUpdate_only (updateResults r s) (updateDone r s)
    exact ⟨measured_of_engine (hupdate.get .engine), hupdate.get .pulse, (followerUpdate_mem _ _).trans hmem⟩
  · exact ⟨rfl, rfl, hmem⟩

/-- The context that an update leaves, but for the next point. -/
theorem metered_context (r : ProbeReading) (s : State) :
    ∃ held expiry, { (metered r s).engine.ctx with nextPoint := .close } =
      { convert ((s.cfg.kn : Int) * 1000) s.pulse.perUpdate (updateFactors r held expiry s) with
        preset := s.engine.ctx.pending.getD s.engine.ctx.preset, pending := none, nextPoint := .close } := by
  obtain ⟨held, expiry, hmetered⟩ := meteredContext_eq r s
  obtain ⟨next, hpoint⟩ := nextAfter_takePending (pointChosen r s).signal (meteredContext r s)
  obtain ⟨hmeasured, -, -⟩ := metered_keeps_update r s
  have hctx : ({ (metered r s).engine.ctx with nextPoint := .close } : Context) =
      { (updateDone r s).engine.ctx with nextPoint := .close } := congrArg Engine.ctx hmeasured
  refine ⟨held, expiry, ?_⟩
  rw [hctx, updateDone_engine, hpoint, hmetered]
  rfl

/-- With no stage points, or a draw that is not FLOWING, the comparator is disarmed (R33). -/
theorem choosePoint_load_none {flowing : Bool} {c : Context}
    (h : flowing = false ∨ c.owner ≠ some .draw ∨ c.preset = none) : (choosePoint flowing c).load = none := by
  obtain h | h | h := h
  · rw [choosePoint, h]; rfl
  · have howner : (c.owner == some .draw) = false := beq_eq_false_iff_ne.2 h
    rw [choosePoint, howner, Bool.and_false]
  · have hstop : stopVolume c = none := by rw [stopVolume, h]; rfl
    have hclose : closePoint c = none := by rw [closePoint, hstop]; rfl
    rw [choosePoint, hclose]
    split
    · next hc _ => cases hc
    · rfl

theorem metered_target_none (h : s.draw.state ≠ .flowing ∨ s.engine.ctx.owner ≠ some .draw ∨
    s.engine.ctx.pending.getD s.engine.ctx.preset = none) : (metered r s).pulse.target = none := by
  obtain ⟨held, expiry, hmetered⟩ := meteredContext_eq r s
  obtain ⟨next, htaken⟩ := takePending_context (meteredContext r s)
  obtain ⟨-, hpulse, -⟩ := metered_keeps_update r s
  have hload : (pointChosen r s).load = none := by
    refine choosePoint_load_none ?_
    rw [htaken, hmetered]
    exact h.imp (fun h => beq_eq_false_iff_ne.2 h) id
  rw [hpulse, updateDone_pulse, hload]
  rfl

/-! ### The stage points of a FLOWING draw (R33) -/

/-- The stop volume of a preset (R33). -/
def stopOf (share : Option Nat) (p : Int) : Int :=
  match share with
  | some share => p * (1000 - share) / 1000
  | none => p

theorem stopVolume_of_preset {c : Context} {p : Int} (h : c.preset = some p) : stopVolume c = some (stopOf c.share p) := by
  rw [stopVolume, h, Option.map_some]
  cases c.share <;> rfl

section
variable {c : Context} {close slow : Int} (howner : c.owner = some .draw) (hclose : closePoint c = some close)
  (hslow : slowdownPoint c = some slow)

include howner hclose hslow

theorem choosePoint_flowing : choosePoint true c =
    if close ≤ c.net then ⟨some .close, none⟩
    else if c.nextPoint = .slowdown ∧ slow ≤ c.net then ⟨some .slowdown, some .close⟩
    else ⟨none, some c.nextPoint⟩ := by
  simp only [choosePoint, howner, hclose, hslow]
  rfl

theorem choosePoint_closed (h : close ≤ c.net) : choosePoint true c = ⟨some .close, none⟩ := by
  rw [choosePoint_flowing howner hclose hslow, if_pos h]

theorem choosePoint_slowed (h : c.net < close) (hnext : c.nextPoint = .slowdown) (hreached : slow ≤ c.net) :
    choosePoint true c = ⟨some .slowdown, some .close⟩ := by
  rw [choosePoint_flowing howner hclose hslow, if_neg (not_le.2 h), if_pos ⟨hnext, hreached⟩]

theorem choosePoint_ahead (h : c.net < close) (hnot : ¬(c.nextPoint = .slowdown ∧ slow ≤ c.net)) :
    choosePoint true c = ⟨none, some c.nextPoint⟩ := by
  rw [choosePoint_flowing howner hclose hslow, if_neg (not_le.2 h), if_neg hnot]

end

/-- A point that lies ahead arms the comparator, and signals nothing. -/
theorem loadTarget_ahead {k : Point} {volume : Int} (hvolume : pointVolume s.engine.ctx k = some volume)
    (hahead : 0 < countsTo (grossDivisor s.cfg) volume s.engine.ctx) :
    loadTarget (some k) s =
      ({ s with pulse := { s.pulse with
          target := some ⟨s.pulse.running + countsTo (grossDivisor s.cfg) volume s.engine.ctx, k⟩ } }, []) := by
  simp only [loadTarget, hvolume]
  exact if_neg (by omega)

/-! ### The end of FLOWING in the reactions (R50, R61 to R63) -/

theorem evaluateStage_of_not_flowing (h : s.draw.state ≠ .flowing) : evaluateStage s = s := by
  unfold evaluateStage
  split
  · next hflowing _ => exact absurd hflowing h
  · rfl

theorem signalPoint_close_of_not_flowing (h : s.draw.state ≠ .flowing) : signalPoint .close s = s := if_neg h

theorem signalPoint_close_leaves (s : State) : (signalPoint .close s).draw.state ≠ .flowing := by
  by_cases h : s.draw.state = .flowing
  · rw [signalPoint, if_pos h, enterClosing_draw .presetReached (.inr (.inl h))]
    exact nofun
  · rw [signalPoint_close_of_not_flowing h]
    exact h

theorem suspend_leaves (raise : Causes → Causes) (h : s.draw.state ≠ .flowing) : (suspend raise s).draw.state ≠ .flowing := by
  unfold suspend
  split
  · rw [leaveFlow_draw]; exact nofun
  · next hflowing => exact absurd hflowing h
  · exact h
  · exact h

/-- A draw out of FLOWING is not brought back by a reaction. -/
theorem drawReaction_leaves {res : Results} {u : State} {f : State → State} (hf : f ∈ drawReactions res u)
    (h : s.draw.state ≠ .flowing) : (f s).draw.state ≠ .flowing := by
  obtain ⟨e, rfl⟩ | rfl | rfl | ⟨p, rfl⟩ := mem_drawReactions hf
  · cases e with
    | expiry => exact suspend_leaves _ h
    | restoration =>
      change (clearCause .tempFault s).draw.state ≠ .flowing
      unfold clearCause
      split <;> exact h
  · unfold superviseOverspeed
    split
    · next hflowing _ => exact absurd hflowing h
    · exact h
  · rw [superviseReverse, if_neg fun hr => h hr.1]; exact h
  · cases p with
    | slowdown =>
      have hnot : (evaluateStage { s with engine := { s.engine with ctx := { s.engine.ctx with nextPoint := .close } } }) = _ :=
        evaluateStage_of_not_flowing h
      rw [signalPoint, hnot]
      exact h
    | close => rw [signalPoint_close_of_not_flowing h]; exact h

/-- A signalled close point takes the draw out of FLOWING, in whichever order the reactions come. -/
theorem reactions_close_leave {res : Results} (hclose : .close ∈ res.signals) (u : State) :
    (runAnyOrder (drawReactions res u) u).draw.state ≠ .flowing := by
  have hmem : signalPoint .close ∈ drawReactions res u := List.mem_append_right _ (List.mem_map.2 ⟨_, hclose, rfl⟩)
  exact runAnyOrder_reaches (P := fun x => x.draw.state ≠ .flowing) (s := u) hmem signalPoint_close_leaves
    fun f hf x hx => drawReaction_leaves hf hx

theorem drawUpdate_close {res : Results} (hclose : .close ∈ res.signals) (s : State) :
    drawUpdate res s = runAnyOrder (drawReactions res (updateEntered res s)) (updateEntered res s) := by
  rw [drawUpdate_eq, evaluateStage_of_not_flowing (reactions_close_leave hclose _)]

theorem drawUpdate_close_leaves {res : Results} (hclose : .close ∈ res.signals) (s : State) :
    (drawUpdate res s).draw.state ≠ .flowing := by
  rw [drawUpdate_close hclose]
  exact reactions_close_leave hclose _

/-- With no temperature event and no reverse flow, what can come beside the signals is the supervision of overspeed. -/
theorem mem_drawReactions_quiet {res : Results} {u : State} {f : State → State} (htemp : res.temp = none)
    (hreverse : u.engine.ctx.reverse ≤ u.cfg.reverseLimit) (hf : f ∈ drawReactions res u) :
    f = superviseOverspeed ∨ ∃ p ∈ res.signals, f = signalPoint p := by
  simp only [drawReactions, htemp, Option.map_none, Option.toList_none, List.nil_append, if_neg (not_lt.2 hreverse),
    List.append_nil, List.mem_append, List.mem_map] at hf
  obtain hf | ⟨p, hp, rfl⟩ := hf
  · split at hf
    · exact .inl (List.mem_singleton.1 hf)
    · exact absurd hf List.not_mem_nil
  · exact .inr ⟨p, hp, rfl⟩

/-- While the close point is signalled: the draw flows, or it has closed with PRESET_REACHED. -/
structure PresetCloses (u : State) (d : DrawUnit) (p : Int) (x : State) : Prop where
  engine : x.engine = u.engine
  cfg : x.cfg = u.cfg
  draw : ∃ cur, x.draw = { d with current := some cur } ∨
    x.draw = { d with state := .closing, current := some cur } ∧ cur.ending = some .presetReached ∧ cur.presetAtClose = some p

section
variable {u x : State} {d : DrawUnit} {p : Int} (hd : d.state = .flowing)

include hd

theorem PresetCloses.overspeed (hrate : u.engine.ctx.rate ≤ u.cfg.fmax) (h : PresetCloses u d p x) :
    PresetCloses u d p (superviseOverspeed x) := by
  obtain ⟨hengine, hcfg, cur, hflowing | hclosed⟩ := h
  · have hstate : x.draw.state = .flowing := by rw [hflowing]; exact hd
    have hcurrent : x.draw.current = some cur := by rw [hflowing]
    have hslow : ¬x.cfg.fmax < x.engine.ctx.rate := by rw [hengine, hcfg]; exact not_lt.2 hrate
    have hstep : superviseOverspeed x = modCurrent (fun c => { c with overForce := false, overStart := none }) x := by
      simp only [superviseOverspeed, hstate, hcurrent, if_neg hslow]
    rw [hstep]
    refine ⟨hengine, hcfg, { cur with overForce := false, overStart := none }, .inl ?_⟩
    rw [modCurrent, hflowing]
    rfl
  · have hstate : x.draw.state ≠ .flowing := by rw [hclosed.1]; exact nofun
    have hstep : superviseOverspeed x = x := by
      unfold superviseOverspeed
      split
      · next hflowing _ => exact absurd hflowing hstate
      · rfl
    rw [hstep]
    exact ⟨hengine, hcfg, cur, .inr hclosed⟩

theorem PresetCloses.signalled (hpreset : u.engine.ctx.preset = some p) (h : PresetCloses u d p x) :
    PresetCloses u d p (signalPoint .close x) := by
  obtain ⟨hengine, hcfg, cur, hflowing | hclosed⟩ := h
  · have hstate : x.draw.state = .flowing := by rw [hflowing]; exact hd
    have hcurrent : x.draw.current = some cur := by rw [hflowing]
    have hclosing := enterClosing_draw .presetReached (s := x) (.inr (.inl hstate))
    refine ⟨(signalPoint_engine_close x).trans hengine, ?_, leftRecord x.time (closingRecord .presetReached x) cur, .inr ⟨?_, rfl, ?_⟩⟩
    · exact ((signalPoint_only .close x).get .cfg).trans hcfg
    · rw [signalPoint, if_pos hstate, hclosing, hcurrent, hflowing]; rfl
    · exact (congrArg (fun e => e.ctx.preset) hengine).trans hpreset
  · have hstate : x.draw.state ≠ .flowing := by rw [hclosed.1]; exact nofun
    rw [signalPoint_close_of_not_flowing hstate]
    exact ⟨hengine, hcfg, cur, .inr hclosed⟩

end

/-- A close point that no other reaction can come before closes the draw with PRESET_REACHED. -/
theorem drawUpdate_presetReached {res : Results} {cur : Current} {p : Int} (hsignals : res.signals = [.close])
    (htemp : res.temp = none) (hreverse : s.engine.ctx.reverse ≤ s.cfg.reverseLimit) (hrate : s.engine.ctx.rate ≤ s.cfg.fmax)
    (hpreset : s.engine.ctx.preset = some p) (hflowing : s.draw.state = .flowing) (hcurrent : s.draw.current = some cur) :
    ∃ cur', (drawUpdate res s).draw = { s.draw with state := .closing, current := some cur' } ∧
      cur'.ending = some .presetReached ∧ cur'.presetAtClose = some p := by
  set u := updateEntered res s with hu
  have honly := updateEntered_only res s
  have hengine : u.engine = s.engine := honly.get .engine
  have hcfg : u.cfg = s.cfg := honly.get .cfg
  have hstart : PresetCloses u s.draw p { u with freeIndex := u.freeIndex + 1 } :=
    ⟨rfl, rfl, updateMarks s cur, .inl (updateEntered_draw res hcurrent)⟩
  have hend : PresetCloses u s.draw p (runAnyOrder (drawReactions res u) u) :=
    runAnyOrder_induction hstart fun f hf x hx => by
      obtain rfl | ⟨q, hq, rfl⟩ := mem_drawReactions_quiet htemp (by rw [hengine, hcfg]; exact hreverse) hf
      · exact hx.overspeed hflowing (by rw [hengine, hcfg]; exact hrate)
      · rw [hsignals, List.mem_singleton] at hq
        rw [hq]
        exact hx.signalled hflowing (by rw [hengine]; exact hpreset)
  have hclose : .close ∈ res.signals := by rw [hsignals]; exact List.mem_singleton.2 rfl
  have hleft := reactions_close_leave hclose u
  rw [drawUpdate_close hclose]
  obtain ⟨cur', hstill | hclosed⟩ := hend.draw
  · exact absurd (by rw [hstill]; exact hflowing) hleft
  · exact ⟨cur', hclosed⟩

end

/-! ### An update of a FLOWING draw with a preset -/

section
variable {r : ProbeReading} {s : State} {p : Int} (hsession : s.pulse.session = some .draw)
  (howner : s.engine.ctx.owner = some .draw) (hpending : s.engine.ctx.pending = none)
  (hpreset : s.engine.ctx.preset = some p) (hflowing : s.draw.state = .flowing)

/-- The close point and the slowdown point of a preset (R33). -/
def closeAt (c : Context) (p : Int) : Int := stopOf c.share p - c.closeAhead

def slowAt (c : Context) (p : Int) : Int := stopOf c.share p - c.slowdown

theorem metered_draw (hsession : s.pulse.session = some .draw) :
    metered r s = drawUpdate (updateResults r s) (updateDone r s) := by
  rw [metered_eq, hsession]

/-- What the conversion keeps of the context. -/
theorem meteredContext_keeps (r : ProbeReading) (s : State) :
    (meteredContext r s).owner = s.engine.ctx.owner ∧ (meteredContext r s).pending = s.engine.ctx.pending ∧
      (meteredContext r s).preset = s.engine.ctx.preset ∧ (meteredContext r s).nextPoint = s.engine.ctx.nextPoint ∧
      (∀ q, closeAt (meteredContext r s) q = closeAt s.engine.ctx q) ∧
      (∀ q, slowAt (meteredContext r s) q = slowAt s.engine.ctx q) := by
  obtain ⟨held, expiry, hmetered⟩ := meteredContext_eq r s
  rw [hmetered]
  exact ⟨rfl, rfl, rfl, rfl, fun _ => rfl, fun _ => rfl⟩

theorem metered_points (ho : s.engine.ctx.owner = some .draw) (hp : s.engine.ctx.preset = some p) :
    (meteredContext r s).owner = some .draw ∧ closePoint (meteredContext r s) = some (closeAt s.engine.ctx p) ∧
      slowdownPoint (meteredContext r s) = some (slowAt s.engine.ctx p) := by
  obtain ⟨howner', -, hpreset', -, hclose, hslow⟩ := meteredContext_keeps r s
  have hstop := stopVolume_of_preset (hpreset'.trans hp)
  refine ⟨howner'.trans ho, ?_, ?_⟩
  · rw [closePoint, hstop, ← hclose]; rfl
  · rw [slowdownPoint, hstop, ← hslow]; rfl

include hpending

theorem takePending_metered : takePending (meteredContext r s) = meteredContext r s := by
  obtain ⟨-, hkept, -⟩ := meteredContext_keeps r s
  exact takePending_of_none (hkept.trans hpending)

theorem updateDone_context :
    (updateDone r s).engine.ctx = nextAfter (pointChosen r s).signal (meteredContext r s) := by
  rw [updateDone_engine, takePending_metered hpending]

/-- The volumes that the update leaves are those of the conversion. -/
theorem metered_context_eq : { (metered r s).engine.ctx with nextPoint := .close } =
    { meteredContext r s with nextPoint := .close } := by
  obtain ⟨hmeasured, -, -⟩ := metered_keeps_update r s
  have hctx : ({ (metered r s).engine.ctx with nextPoint := .close } : Context) =
      { (updateDone r s).engine.ctx with nextPoint := .close } := congrArg Engine.ctx hmeasured
  rw [hctx, updateDone_context hpending, nextAfter]
  split <;> rfl

theorem metered_net : (metered r s).engine.ctx.net = (meteredContext r s).net := by
  have hnet := congrArg Context.net (metered_context_eq (r := r) hpending)
  exact hnet

theorem metered_counts (dg point : Int) :
    countsTo dg point (metered r s).engine.ctx = countsTo dg point (meteredContext r s) := by
  have hcounts := congrArg (countsTo dg point) (metered_context_eq (r := r) hpending)
  exact hcounts

theorem pointChosen_flowing (hstate : s.draw.state = .flowing) : pointChosen r s = choosePoint true (meteredContext r s) := by
  rw [pointChosen, takePending_metered hpending, hstate]
  rfl

include hsession howner hpreset hflowing

/-- The close point is reached: the comparator is disarmed, the draw leaves FLOWING. -/
theorem metered_closed (h : closeAt s.engine.ctx p ≤ (metered r s).engine.ctx.net) :
    (metered r s).pulse.target = none ∧ (metered r s).draw.state ≠ .flowing ∧ (updateResults r s).signals = [.close] := by
  obtain ⟨howner', hclose, hslow⟩ := metered_points (r := r) howner hpreset
  rw [metered_net hpending] at h
  have hchosen : pointChosen r s = ⟨some .close, none⟩ :=
    (pointChosen_flowing hpending hflowing).trans (choosePoint_closed howner' hclose hslow h)
  have hsignals : (updateResults r s).signals = [.close] := by rw [updateResults_signals, hchosen]; rfl
  obtain ⟨-, hpulse, -⟩ := metered_keeps_update r s
  refine ⟨by rw [hpulse, updateDone_pulse, hchosen]; rfl, ?_, hsignals⟩
  rw [metered_draw hsession]
  exact drawUpdate_close_leaves (by rw [hsignals]; exact List.mem_singleton.2 rfl) _

/-- Where nothing else can come before, the close point ends the draw with PRESET_REACHED. -/
theorem metered_presetReached {cur : Current} (hcurrent : s.draw.current = some cur)
    (h : closeAt s.engine.ctx p ≤ (metered r s).engine.ctx.net) (hcompensated : isCompensated s.engine.ctx = false)
    (hexpiry : s.engine.ctx.expiry = false) (hrate : (metered r s).engine.ctx.rate ≤ s.cfg.fmax)
    (hreverse : (metered r s).engine.ctx.reverse ≤ s.cfg.reverseLimit) :
    ∃ cur', (metered r s).draw = { s.draw with state := .closing, current := some cur' } ∧
      cur'.ending = some .presetReached ∧ cur'.presetAtClose = some p := by
  obtain ⟨-, -, hsignals⟩ := metered_closed hsession howner hpending hpreset hflowing h
  obtain ⟨-, -, hpreset', -⟩ := meteredContext_keeps r s
  have honly := updateDone_only r s
  have hdraw : (updateDone r s).draw = s.draw := honly.get .draw
  have hcfg : (updateDone r s).cfg = s.cfg := honly.get .cfg
  have hmeasured := metered_context_eq (r := r) hpending
  have hctx : ({ (updateDone r s).engine.ctx with nextPoint := .close } : Context) = { meteredContext r s with nextPoint := .close } := by
    rw [updateDone_context hpending, nextAfter]
    split <;> rfl
  have hrate' : (updateDone r s).engine.ctx.rate = (metered r s).engine.ctx.rate := by
    have h := congrArg Context.rate (hctx.trans hmeasured.symm)
    exact h
  have hreverse' : (updateDone r s).engine.ctx.reverse = (metered r s).engine.ctx.reverse := by
    have h := congrArg Context.reverse (hctx.trans hmeasured.symm)
    exact h
  have hpresetDone : (updateDone r s).engine.ctx.preset = some p := by
    have h := congrArg Context.preset hctx
    exact h.trans (hpreset'.trans hpreset)
  have htemp : (updateResults r s).temp = none := settleTemp_quiet _ _ _ hcompensated hexpiry
  have hclosed := drawUpdate_presetReached (s := updateDone r s) (cur := cur) (p := p) hsignals htemp
    (by rw [hreverse', hcfg]; exact hreverse) (by rw [hrate', hcfg]; exact hrate) hpresetDone (by rw [hdraw]; exact hflowing) (by rw [hdraw]; exact hcurrent)
  rw [metered_draw hsession, ← hdraw]
  exact hclosed

/-- The slowdown point is reached before the close point: the next point is CLOSE, and its count is loaded. -/
theorem metered_slowed (h : (metered r s).engine.ctx.net < closeAt s.engine.ctx p)
    (hnext : s.engine.ctx.nextPoint = .slowdown) (hreached : slowAt s.engine.ctx p ≤ (metered r s).engine.ctx.net) :
    (metered r s).engine.ctx.nextPoint = .close ∧
      (0 < countsTo ((s.cfg.kn : Int) * 1000) (closeAt s.engine.ctx p) (metered r s).engine.ctx →
        (metered r s).pulse.target = some ⟨s.pulse.running +
          countsTo ((s.cfg.kn : Int) * 1000) (closeAt s.engine.ctx p) (metered r s).engine.ctx, .close⟩) := by
  obtain ⟨howner', hclose, hslow⟩ := metered_points (r := r) howner hpreset
  obtain ⟨-, -, -, hnext', -, -⟩ := meteredContext_keeps r s
  obtain ⟨-, hpulse, -⟩ := metered_keeps_update r s
  rw [metered_net hpending] at h hreached
  have hchosen : pointChosen r s = ⟨some .slowdown, some .close⟩ :=
    (pointChosen_flowing hpending hflowing).trans
      (choosePoint_slowed howner' hclose hslow h (hnext'.trans hnext) hreached)
  have hmoved : (pointMoved r s).engine.ctx = { meteredContext r s with nextPoint := .close } := by
    rw [pointMoved, hchosen, takePending_metered hpending]; rfl
  constructor
  · have hdone : (updateDone r s).engine.ctx.nextPoint = .close := by rw [updateDone_context hpending, hchosen]; rfl
    rw [metered_draw hsession]
    exact drawUpdate_engine_of (P := fun e => e.ctx.nextPoint = .close) _ hdone fun _ hf x hx => drawReaction_nextPoint hf x hx
  · intro hahead
    rw [metered_counts hpending] at hahead ⊢
    have hloaded := loadTarget_ahead (s := pointMoved r s) (k := .close) (volume := closeAt s.engine.ctx p)
      (by rw [hmoved]; exact hclose) (by rw [hmoved]; exact hahead)
    rw [hpulse, updateDone_pulse, hchosen, hloaded, hmoved]
    rfl

/-- The next point lies ahead: its count is loaded, and nothing is signalled. -/
theorem metered_ahead (h : (metered r s).engine.ctx.net < closeAt s.engine.ctx p)
    (hnot : ¬(s.engine.ctx.nextPoint = .slowdown ∧ slowAt s.engine.ctx p ≤ (metered r s).engine.ctx.net)) {next : Int}
    (hvolume : pointVolume (meteredContext r s) s.engine.ctx.nextPoint = some next)
    (hahead : 0 < countsTo ((s.cfg.kn : Int) * 1000) next (metered r s).engine.ctx) :
    (metered r s).engine.ctx.nextPoint = s.engine.ctx.nextPoint ∧
      (metered r s).pulse.target = some ⟨s.pulse.running +
        countsTo ((s.cfg.kn : Int) * 1000) next (metered r s).engine.ctx, s.engine.ctx.nextPoint⟩ := by
  obtain ⟨howner', hclose, hslow⟩ := metered_points (r := r) howner hpreset
  obtain ⟨-, -, -, hnext', -, -⟩ := meteredContext_keeps r s
  obtain ⟨-, hpulse, -⟩ := metered_keeps_update r s
  rw [metered_net hpending] at h hnot
  rw [metered_counts hpending] at hahead
  have hchosen : pointChosen r s = ⟨none, some s.engine.ctx.nextPoint⟩ := by
    rw [pointChosen_flowing hpending hflowing,
      choosePoint_ahead howner' hclose hslow h (by rw [hnext']; exact hnot), hnext']
  have hmoved : (pointMoved r s).engine.ctx = meteredContext r s := by
    rw [pointMoved, hchosen, takePending_metered hpending]; rfl
  have hloaded := loadTarget_ahead (s := pointMoved r s) (k := s.engine.ctx.nextPoint) (volume := next)
    (by rw [hmoved]; exact hvolume) (by rw [hmoved]; exact hahead)
  constructor
  · have hsignals : (updateResults r s).signals = [] := by rw [updateResults_signals, hchosen, hloaded]; rfl
    have hdone : (updateDone r s).engine.ctx.nextPoint = s.engine.ctx.nextPoint := by
      rw [updateDone_context hpending, hchosen]; exact hnext'
    rw [metered_draw hsession]
    exact drawUpdate_engine_of (P := fun e => e.ctx.nextPoint = s.engine.ctx.nextPoint) _ hdone fun _ hf x hx => by
      rw [drawReaction_engine hf (by rw [hsignals]; exact List.not_mem_nil)]
      exact hx
  · rw [metered_counts hpending, hpulse, updateDone_pulse, hchosen, hloaded, hmoved]
    rfl

end

/-! ### A match of the target count (R11) -/

section
variable {p : Pulse} {target : Target}

theorem windowCount_running (p : Pulse) : (windowCount p).running = p.running := by
  unfold windowCount
  split
  · split <;> rfl
  · rfl

/-- A forward count that reaches the target disarms the comparator and signals its point. -/
theorem takeCount_match (now : Nat) (hsession : p.session.isSome = true) (htarget : p.target = some target)
    (hcount : sum64 (p.running + 1) = target.count) :
    (takeCount now 1 p).2 = some target.kind ∧ (takeCount now 1 p).1.target = none ∧
      (takeCount now 1 p).1.running = target.count := by
  set q := windowCount (addCount now 1 p) with hq
  have hrunning : q.running = target.count := by
    rw [hq, windowCount_running, addCount, if_pos hsession]
    exact hcount
  have hqtarget : q.target = some target := by
    obtain ⟨-, -, -, -, hadd⟩ := addCount_keeps now 1 p
    obtain ⟨-, -, -, -, hwindow⟩ := windowCount_keeps (addCount now 1 p)
    exact hwindow.trans (hadd.trans htarget)
  have hmatched : takeCount now 1 p = ({ q with target := none }, some target.kind) := by
    rw [takeCount, if_neg (by decide), if_pos (by decide), ← hq, matchTarget, hqtarget]
    exact if_pos hrunning
  rw [hmatched]
  exact ⟨rfl, rfl, hrunning⟩

/-- Past the slowdown point a draw with a preset asks for SLOW. -/
theorem wantedStage_of_close {s : State} (hpreset : s.engine.ctx.preset.isSome = true)
    (hnext : s.engine.ctx.nextPoint = .close) (c : Current) : wantedStage s c = .slow := by
  obtain ⟨v, hv⟩ := Option.isSome_iff_exists.1 hpreset
  have hslow : slowdownPoint s.engine.ctx = some (slowAt s.engine.ctx v) := by
    rw [slowdownPoint, stopVolume_of_preset hv]; rfl
  have hbelow : belowSlowdown s.engine.ctx = false := by
    simp only [belowSlowdown, hslow, hnext]
    rfl
  simp [wantedStage, wantsFast, hbelow]

theorem forwardEdges_lone {a b a' b' : Bool} (h : (a, b, a', b') ∈ forwardEdges) : a' ≠ a ∧ b' = b ∨ a' = a ∧ b' ≠ b := by
  revert a b a' b'; decide

end

/-- The part as the signal of a match is taken: the count joined, the comparator disarmed. -/
structure MatchedAt (s : State) (a b : Bool) (target : Target) (w : State) : Prop where
  changes : OnlyChanges [.pins, .pulse, .freeIndex] s w
  signals : transition a b (pulserMoved a b s) = signalPoint target.kind w
  disarmed : w.pulse.target = none
  counted : w.pulse.running = target.count

theorem transition_matched {s : State} {a b : Bool} {target : Target} (hsession : s.pulse.session = some .draw)
    (hmode : s.cfg.countMode = .x4) (hforward : (s.pulse.decoderA, s.pulse.decoderB, a, b) ∈ forwardEdges)
    (hA : s.pulse.loneA + 1 ≤ s.cfg.loneLimit) (hB : s.pulse.loneB + 1 ≤ s.cfg.loneLimit)
    (htarget : s.pulse.target = some target) (hcount : sum64 (s.pulse.running + 1) = target.count) :
    ∃ w, MatchedAt s a b target w := by
  have hone : countTaken s.cfg s.time a b s.pulse = takeCount s.time 1 (levelsMoved a b s.pulse) := by
    rw [countTaken, hmode, countOfEdge_x4_forward hforward]
  obtain ⟨hsignal, hdisarmed, hrunning⟩ := takeCount_match (p := levelsMoved a b s.pulse) (target := target) s.time
    (by rw [show (levelsMoved a b s.pulse).session = _ from hsession]; rfl) htarget hcount
  obtain ⟨hkept, hloneA, hloneB, -, -⟩ := countTaken_keeps s.cfg s.time a b s.pulse
  have hlimit : loneOf (s.pulse.decoderA != a) (countTaken s.cfg s.time a b s.pulse).1 + 1 ≤ s.cfg.loneLimit := by
    rw [loneOf, hloneA, hloneB]
    split
    · exact hA
    · exact hB
  have htaken := takeTransition_lone (cfg := s.cfg) (now := s.time) (forwardEdges_lone hforward)
  rw [takeLoneEdge_below (by rw [hkept, hsession]; rfl) hlimit, hone, hsignal] at htaken
  set q := if s.pulse.decoderA != a then
      { (takeCount s.time 1 (levelsMoved a b s.pulse)).1 with
        loneA := (takeCount s.time 1 (levelsMoved a b s.pulse)).1.loneA + 1, loneB := 0 }
    else
      { (takeCount s.time 1 (levelsMoved a b s.pulse)).1 with
        loneA := 0, loneB := (takeCount s.time 1 (levelsMoved a b s.pulse)).1.loneB + 1 } with hq
  refine ⟨{ pulserMoved a b s with pulse := q, freeIndex := s.freeIndex + 1 }, ?_, ?_, ?_, ?_⟩
  · exact OnlyChanges.comp (t := pulserMoved a b s) (only_pulse_freeIndex _ _) (setPins_only _ s)
  · have htaken' : takeTransition (pulserMoved a b s).cfg (pulserMoved a b s).time a b (pulserMoved a b s).pulse =
        (q, ⟨some target.kind, false⟩) := htaken
    rw [transition, htaken']
    exact runAnyOrder_singleton _ _
  · change q.target = none
    rw [hq]; split <;> exact hdisarmed
  · change q.running = _
    rw [hq]; split <;> exact hrunning

/-- Settles O14: steps 2 to 9, step 10 for a FLOWING draw with a preset, and the match of the target count. -/
theorem meteringUpdateComputesVolumes : Obligations.MeteringUpdateComputesVolumes := by
  have hmetering : ∀ (r : ProbeReading) (s : State) (due : Nat), s.station.state ≠ .powerDown → s.pulse.session.isSome = true →
      s.engine.updateDue = some due →
      ∃ t, exec (.meteringUpdate r) s = .next t ∧ StatAfter (metered r (passTo due s)) t := fun r s due hpower hsession hdue =>
    exec_expiry (i := .meteringUpdate r) (s := s) (g := metered r) (due := due) (by rw [exec, execMeteringUpdate]) hpower
      (by rw [if_pos hsession]; exact hdue)
  refine ⟨fun r s due hpower hsession hdue => ?volumes,
    fun r s due p cur hpower hsession hdue howner hpending hpreset hflowing hcurrent => ?points,
    fun a b s cur target hop hsession hmode hforward hA hB htarget hcount hflowing hcurrent => ?matched⟩
  case volumes =>
    obtain ⟨t, hexec, hstat⟩ := hmetering r s due hpower hsession hdue
    set v := passTo due s with hv
    obtain ⟨held, expiry, hctx⟩ := metered_context r v
    obtain ⟨hmeasured, hpulse, hmem⟩ := metered_keeps_update r v
    have htengine : t.engine = (metered r v).engine := hstat.only.get .engine
    have htpulse : t.pulse = _ := (hstat.only.get .pulse).trans (hpulse.trans (updateDone_pulse r v))
    rw [← htengine] at hctx
    have hdue' : t.engine.updateDue = some (due + 100) := by
      have hkept := congrArg Engine.updateDue hmeasured
      rw [htengine, show (metered r v).engine.updateDue = (updateDone r v).engine.updateDue from hkept, updateDone_engine, show v.engine.updateDue = some due from hdue]
      rfl
    have hnetRem := congrArg Context.netRem hctx
    have hpreset : t.engine.ctx.preset = s.engine.ctx.pending.getD s.engine.ctx.preset := congrArg Context.preset hctx
    have hproduct := congrArg Context.product hctx
    have howner := congrArg Context.owner hctx
    have hnonneg : 0 ≤ t.engine.ctx.netRem := le_of_le_of_eq
      (convert_netRem_nonneg ((s.cfg.kn : Int) * 1000) s.pulse.perUpdate (updateFactors r held expiry v)) hnetRem.symm
    have hle : t.engine.ctx.netRem ≤ 999999 := le_of_eq_of_le hnetRem
      (convert_netRem_le ((s.cfg.kn : Int) * 1000) s.pulse.perUpdate (updateFactors r held expiry v))
    refine ⟨t, hexec, ⟨by rw [htpulse], congrArg Context.window hctx, congrArg Context.rate hctx, congrArg Context.mf hctx,
      congrArg Context.gross hctx, congrArg Context.grossRem hctx, congrArg Context.temp hctx, congrArg Context.vcf hctx,
      congrArg Context.net hctx, hnetRem, hnonneg, hle, congrArg Context.reverse hctx, congrArg Context.sumGT hctx,
      congrArg Context.sumG hctx, hpreset, congrArg Context.pending hctx, fun h => ?_, hproduct, howner⟩, hdue', by rw [htpulse]; rfl, by rw [htpulse]; rfl, ?_, ?_⟩
    · rw [show t.pulse = _ from hstat.only.get .pulse]
      rw [hpreset] at h
      exact metered_target_none (s := v) h
    · exact (mem_of_only hstat.only).trans hmem
    · exact hstat.only.comp ((metered_only r v).comp (passTo_only due s)
        (ds := [.time, .pulse, .engine, .draw, .valve, .port, .blend, .journal, .freeIndex]))
  case points =>
    obtain ⟨t, hexec, hstat⟩ := hmetering r s due hpower (by rw [hsession]; rfl) hdue
    set v := passTo due s with hv
    have hengine : t.engine = (metered r v).engine := hstat.only.get .engine
    have hpulse : t.pulse = (metered r v).pulse := hstat.only.get .pulse
    have hdraw : t.draw = (metered r v).draw := hstat.only.get .draw
    refine ⟨t, hexec, ?_⟩
    rw [hengine, hpulse, hdraw]
    refine ⟨fun hclose => ?_, fun hclose hnext hslow => ?_, fun hclose hnot hahead => ?_⟩
    · obtain ⟨htarget, hleft, -⟩ := metered_closed (s := v) hsession howner hpending hpreset hflowing hclose
      exact ⟨htarget, hleft, fun hcompensated hexpiry hrate hreverse =>
        metered_presetReached (s := v) hsession howner hpending hpreset hflowing hcurrent hclose hcompensated hexpiry hrate hreverse⟩
    · exact metered_slowed (s := v) hsession howner hpending hpreset hflowing hclose hnext hslow
    · refine metered_ahead (s := v) hsession howner hpending hpreset hflowing hclose hnot ?_ hahead
      obtain ⟨-, hclosePoint, hslowPoint⟩ := metered_points (r := r) (s := v) howner hpreset
      rw [show v.engine.ctx.nextPoint = s.engine.ctx.nextPoint from rfl]
      cases s.engine.ctx.nextPoint with
      | slowdown => exact hslowPoint
      | close => exact hclosePoint
  case matched =>
    obtain ⟨w, honly, hmoved, hdisarmed, hrunning⟩ := transition_matched hsession hmode hforward hA hB htarget hcount
    have hstat := announce_statAfter (transition a b) (pulserMoved a b s)
    have hexec : exec (.pulserTransition a b) s = .next (announce (transition a b) (pulserMoved a b s)) :=
      exec_pulserTransition a b s hop
    set t := announce (transition a b) (pulserMoved a b s) with ht
    rw [hmoved] at hstat
    have hsignalled := signalPoint_only target.kind w
    have hwdraw : w.draw = s.draw := honly.get .draw
    have hwengine : w.engine = s.engine := honly.get .engine
    have hpulse := (hstat.only.get .pulse).trans (hsignalled.get .pulse)
    have hchanges := hstat.only.comp (hsignalled.comp honly
      (ds := [.pins, .pulse, .engine, .draw, .valve, .port, .blend, .journal, .freeIndex]))
      (ds := [.pins, .pulse, .engine, .draw, .valve, .port, .blend, .journal, .freeIndex])
    have hwflowing : w.draw.state = .flowing := by rw [hwdraw]; exact hflowing
    have hwcurrent : w.draw.current = some cur := by rw [hwdraw]; exact hcurrent
    obtain ⟨count, kind⟩ := target
    cases kind with
    | close =>
      have hclosing := enterClosing_draw (s := w) .presetReached (.inr (.inl hwflowing))
      refine ⟨t, leftRecord w.time (closingRecord .presetReached w) cur, hexec, by rw [hpulse]; exact hdisarmed,
        by rw [hpulse]; exact hrunning, ⟨?_, rfl, ?_, ?_, ?_⟩, hchanges⟩
      · rw [show t.draw = _ from hstat.only.get .draw, signalPoint, if_pos hwflowing,
          hclosing, hwcurrent, hwdraw]
        rfl
      · exact congrArg (fun e => e.ctx.preset) hwengine
      · exact congrArg (fun v => some (stageOf v.stage)) (honly.get .valve)
      · exact (hstat.only.get .engine).trans ((signalPoint_engine_close w).trans hwengine)
    | slowdown =>
      set x : State := { w with engine := { w.engine with ctx := { w.engine.ctx with nextPoint := .close } } } with hx
      refine ⟨t, { cur with lastRequest := wantedStage x cur }, hexec, by rw [hpulse]; exact hdisarmed,
        by rw [hpulse]; exact hrunning, ⟨?_, fun hpreset => ?_, ?_⟩, hchanges⟩
      · refine (hstat.only.get .draw).trans ((evaluateStage_draw (s := x) hwflowing hwcurrent).trans ?_)
        rw [show x.draw = s.draw from hwdraw]
      · exact wantedStage_of_close (s := x) (by rw [hx, hwengine]; exact hpreset) rfl cur
      · refine (hstat.only.get .engine).trans ((signalPoint_engine_slowdown w).trans ?_)
        rw [hwengine]

end Sys2Proof.Machine
end
